-- ==== Sys2Proof/Word.lean ====
section
/-! DEFINITION. The word types of the CD48 model and the fixed-size table that holds the part's numbered records. -/

namespace Sys2Proof

/-- A byte on a serial link (R155). -/
abbrev Byte := BitVec 8

/-- A 16-bit word: part time (R132), a port's flag mask (R161), the profile's checksum (R167). -/
abbrev Word := BitVec 16

/-- A count that saturates at `top` (section 3.2: the text says where a sum saturates). -/
def sat (top n : Nat) : Nat := min top n

/-- `ceil (a / b)` (section 3.2). -/
def ceilDiv (a b : Nat) : Nat := (a + b - 1) / b

/-- `n` records of one kind, numbered from 0 (section 3.3). A list of fixed length: plain data that the kernel evaluates. -/
structure Table (α : Type) (n : Nat) where
  toList : List α
  length_eq : toList.length = n
  deriving DecidableEq, Repr

namespace Table

variable {α β : Type} {n : Nat}

def get (t : Table α n) (i : Fin n) : α := t.toList[i.val]'(by rw [t.length_eq]; exact i.isLt)

def set (t : Table α n) (i : Fin n) (x : α) : Table α n :=
  ⟨t.toList.set i.val x, by rw [List.length_set]; exact t.length_eq⟩

def modify (t : Table α n) (i : Fin n) (f : α → α) : Table α n := t.set i (f (t.get i))

def replicate (n : Nat) (x : α) : Table α n := ⟨List.replicate n x, List.length_replicate⟩

def map (f : α → β) (t : Table α n) : Table β n := ⟨t.toList.map f, by rw [List.length_map]; exact t.length_eq⟩

/-- The table whose record `i` is `f i`. -/
def ofFn (f : Fin n → α) : Table α n := ⟨(List.finRange n).map f, by rw [List.length_map, List.length_finRange]⟩

end Table

end Sys2Proof
end

