-- ==== Sys2Proof/Syntax.lean ====
section
/-! DEFINITION. The commands of the CD48: one constructor for each of the 65 rows of spec/opcode_table.json. The part is a
block, not a processor: a command is an event that reaches it (section 3.4), and State.pending is the order of the events.

A REQUEST row (PING to READ_CONFIG, UNKNOWN_KIND_REQUEST) carries the port whose master sends it and the BODY BYTES of its
frame, laid out as Table 10-4 gives, so that a body of the wrong length (MALFORMED, R157) and every value out of range can
be sent. An EXPIRY row carries the number of the record whose timer expires. -/

namespace Sys2Proof

/-- The two master ports (section 1.2). -/
inductive Port where
  | a
  | b
  deriving DecidableEq, Repr

/-- One command of the part: a row of spec/opcode_table.json. -/
inductive Instr where
  /-- POWER_ON_RESET (R168). -/
  | powerOnReset
  /-- PIN_RESET (R168): RESET_N held low. -/
  | pinReset
  /-- PROFILE_LOAD_END (R168): the 40 ms load ends. -/
  | profileLoadEnd
  /-- SAVE_COMPLETE (R170): the 180 ms save ends. -/
  | saveComplete
  /-- FRAME_RECEIVED (R156): the check byte of a frame arrives at port `p`, with (`stop`) or without its stop bit. -/
  | frameReceived (p : Port) (check : Byte) (stop : Bool)
  /-- INTER_BYTE_GAP_TIMEOUT (R156). -/
  | interByteGapTimeout (p : Port)
  /-- REPLY_SENT (R157): the last byte of port `p`'s reply leaves the part. -/
  | replySent (p : Port)
  /-- UNKNOWN_KIND_REQUEST (R157): a request whose kind is not in Table 10-2. -/
  | unknownKindRequest (p : Port) (kind : Byte) (body : List Byte)
  /-- PING (R163). -/
  | ping (p : Port) (body : List Byte)
  /-- PULSE (R42): channel; width. -/
  | pulse (p : Port) (body : List Byte)
  /-- HOLD_ON (R13): a HOLD request, channel; setting, whose setting is not off. -/
  | holdOn (p : Port) (body : List Byte)
  /-- HOLD_OFF (R14): a HOLD request, channel; setting, whose setting is off. -/
  | holdOff (p : Port) (body : List Byte)
  /-- DISABLE_CHANNEL (R17): channel. -/
  | disableChannel (p : Port) (body : List Byte)
  /-- ENABLE_CHANNEL (R18): channel. -/
  | enableChannel (p : Port) (body : List Byte)
  /-- CONFIGURE_COIL (R19): channel; the coil record. -/
  | configureCoil (p : Port) (body : List Byte)
  /-- ENABLE_GROUP (R28): group; setting. -/
  | enableGroup (p : Port) (body : List Byte)
  /-- CONFIGURE_SUPPLY (R31): B; F; settle time [2]. -/
  | configureSupply (p : Port) (body : List Byte)
  /-- READ_HEAT (R76): channel. -/
  | readHeat (p : Port) (body : List Byte)
  /-- CLEAR_STATS (R77): channel, or FFh for all. -/
  | clearStats (p : Port) (body : List Byte)
  /-- CONFIGURE_FLIPPER (R94): flipper; the flipper record. -/
  | configureFlipper (p : Port) (body : List Byte)
  /-- READ_FLIPPER (R95): flipper. -/
  | readFlipper (p : Port) (body : List Byte)
  /-- CONFIGURE_LINK (R104): link; the link record. -/
  | configureLink (p : Port) (body : List Byte)
  /-- READ_LINK (R105): link. -/
  | readLink (p : Port) (body : List Byte)
  /-- STEP (R110): stepper; direction; count [2]. -/
  | step (p : Port) (body : List Byte)
  /-- STOP_STEPPER (R119): stepper. -/
  | stopStepper (p : Port) (body : List Byte)
  /-- HOME (R120): stepper. -/
  | home (p : Port) (body : List Byte)
  /-- SET_POSITION (R122): stepper; position. -/
  | setPosition (p : Port) (body : List Byte)
  /-- READ_STEPPER (R123): stepper. -/
  | readStepper (p : Port) (body : List Byte)
  /-- CONFIGURE_STEPPER (R124): stepper; the stepper record. -/
  | configureStepper (p : Port) (body : List Byte)
  /-- CONFIGURE_BANK (R126): bank; reel count; five reels. -/
  | configureBank (p : Port) (body : List Byte)
  /-- ADD_SCORE (R127): bank; value [3]. -/
  | addScore (p : Port) (body : List Byte)
  /-- READ_BANK (R128): bank. -/
  | readBank (p : Port) (body : List Byte)
  /-- CONFIGURE_SWITCH (R138): switch; the switch record. -/
  | configureSwitch (p : Port) (body : List Byte)
  /-- READ_SWITCHES (R137). -/
  | readSwitches (p : Port) (body : List Byte)
  /-- READ_EVENTS (R136). -/
  | readEvents (p : Port) (body : List Byte)
  /-- LAMPS (R144): start lamp; count; commit flag; values. -/
  | lamps (p : Port) (body : List Byte)
  /-- LAMP_COMMIT (R145): mode. -/
  | lampCommit (p : Port) (body : List Byte)
  /-- CONFIGURE_LAMP (R152): selector; priority; ramp step; Lb [2]. -/
  | configureLamp (p : Port) (body : List Byte)
  /-- READ_LAMPS (R153). -/
  | readLamps (p : Port) (body : List Byte)
  /-- READ_FLAGS (R162). -/
  | readFlags (p : Port) (body : List Byte)
  /-- SET_MASK (R161): mask [2]. -/
  | setMask (p : Port) (body : List Byte)
  /-- CONFIGURE_PORT (R158): liveness interval. -/
  | configurePort (p : Port) (body : List Byte)
  /-- RESET_PART (R164). -/
  | resetPart (p : Port) (body : List Byte)
  /-- SAVE_PROFILE (R169). -/
  | saveProfile (p : Port) (body : List Byte)
  /-- READ_CONFIG (R171): record kind; index. -/
  | readConfig (p : Port) (body : List Byte)
  /-- LIVENESS_EXPIRY (R159). -/
  | livenessExpiry (p : Port)
  /-- ILK_RAW_CHANGE (R22): the raw ILK level becomes closed or open. -/
  | ilkRawChange (closed : Bool)
  /-- ILK_DEBOUNCED_CLOSE (R23). -/
  | ilkDebouncedClose
  /-- ILK_DEBOUNCED_OPEN (R26). -/
  | ilkDebouncedOpen
  /-- SETTLE_EXPIRY (R23). -/
  | settleExpiry
  /-- PART_TIME_TICK (R132): one millisecond. -/
  | partTimeTick
  /-- SWITCH_RAW_CHANGE (R131): the input of switch `sw` becomes pulled low, or not. -/
  | switchRawChange (sw : Fin 32) (low : Bool)
  /-- SWITCH_DEBOUNCE_EXPIRY (R131). -/
  | switchDebounceExpiry (sw : Fin 32)
  /-- FLIPPER_EFFECTIVE_MIN_REACHED (R85). -/
  | flipperEffectiveMinReached (f : Fin 6)
  /-- LOCKOUT_EXPIRY (R99). -/
  | lockoutExpiry (k : Fin 16)
  /-- SYNC_RAW_CHANGE (R139): the raw SYNC level becomes high or low. -/
  | syncRawChange (high : Bool)
  /-- SYNC_RISING_EDGE (R147). -/
  | syncRisingEdge
  /-- LAMP_FRAME (R148). -/
  | lampFrame
  /-- COOLING_INTERVAL (R62). -/
  | coolingInterval
  /-- DRIVE_END (R7) of channel `c`. -/
  | driveEnd (c : Fin 48)
  /-- RECOVERY_GAP_EXPIRY (R11) of channel `c`. -/
  | recoveryGapExpiry (c : Fin 48)
  /-- SPACING_EXPIRY (R111) of stepper `t`. -/
  | spacingExpiry (t : Fin 16)
  /-- DEADLINE_EXPIRY (R56) of the wait entry of channel `c`. -/
  | deadlineExpiry (c : Fin 48)
  /-- BYTE_RECEIVED (R156): a byte arrives at port `p`, with (`stop`) or without its stop bit. -/
  | byteReceived (p : Port) (byte : Byte) (stop : Bool)
  /-- SYNC_DEBOUNCED_FALL (R139). -/
  | syncDebouncedFall
  deriving DecidableEq, Repr

end Sys2Proof
end

