-- ==== Sys2Proof/Decode.lean ====
section
/-! DEFINITION. spec/opcode_table.json gives no row of this block any bits ("n_rows_with_fixed": 0, "n_rows_with_fields": 0 in
spec/98_reader.md), so no word spells a command (log 30). What a frame's bytes spell is the receivers' and the command
engine's work: Machine/Operands.lean and Machine/Engine.lean. -/

namespace Sys2Proof

/-- The command that a word of the table's bits spells: none, since the table gives no row any bits. -/
def decodeTableWord (_nbits _w : Nat) : Option Instr := none

end Sys2Proof
end

