-- ==== Sys2Proof/Machine/Records.lean ====
section
/-! DEFINITION. The configuration records of the CD48 (those a profile stores, R167), with their unconfigured values, and the
small types they are made of. -/

namespace Sys2Proof.Machine

/-- A subset of the two ports (R12, R166: bit 0 for A, bit 1 for B). -/
structure PortSet where
  a : Bool
  b : Bool
  deriving DecidableEq, Repr

namespace PortSet

def empty : PortSet := ⟨false, false⟩

def has (x : PortSet) : Port → Bool
  | .a => x.a
  | .b => x.b

def add (x : PortSet) : Port → PortSet
  | .a => ⟨true, x.b⟩
  | .b => ⟨x.a, true⟩

def remove (x : PortSet) : Port → PortSet
  | .a => ⟨false, x.b⟩
  | .b => ⟨x.a, false⟩

def single (p : Port) : PortSet := empty.add p

def union (x y : PortSet) : PortSet := ⟨x.a || y.a, x.b || y.b⟩

def isEmpty (x : PortSet) : Bool := !x.a && !x.b

end PortSet

/-- One record for each port. -/
structure PerPort (α : Type) where
  a : α
  b : α
  deriving DecidableEq, Repr

namespace PerPort

variable {α : Type}

def get (t : PerPort α) : Port → α
  | .a => t.a
  | .b => t.b

def set (t : PerPort α) (p : Port) (x : α) : PerPort α :=
  match p with
  | .a => { t with a := x }
  | .b => { t with b := x }

def modify (t : PerPort α) (p : Port) (f : α → α) : PerPort α := t.set p (f (t.get p))

def map {β : Type} (f : α → β) (t : PerPort α) : PerPort β := ⟨f t.a, f t.b⟩

end PerPort

/-- A channel number C0 to C47, and the numbers of the other records (Table 0-2). -/
abbrev ChannelId := Fin 48
abbrev LampId := Fin 32
abbrev SwitchId := Fin 32
abbrev FlipperId := Fin 6
abbrev LinkId := Fin 16
abbrev StepperId := Fin 16
abbrev BankId := Fin 4

/-- A timer: stopped, or running with so many milliseconds left. It is due when none is left (log 2). -/
abbrev Timer := Option Nat

/-- Coil classes, in the order of Table 1-1 (OFF 0 to FLIPPER 4, R166). -/
inductive CoilClass where
  | off
  | pulse
  | holdable
  | stepper
  | flipper
  deriving DecidableEq, Repr

/-- The coil record (R2, Table 1-1). The wait limit is in 10 ms units, the other times in ms. -/
structure CoilRecord where
  cls : CoilClass
  maxWidth : Nat
  defWidth : Nat
  wmin : Nat
  gap : Nat
  weight : Nat
  duty : Nat
  gain : Nat
  decay : Nat
  warn : Nat
  limit : Nat
  cutoff : Nat
  resume : Nat
  waitLimit : Nat
  deriving DecidableEq, Repr

/-- The unconfigured coil record (R4, Table 1-4). -/
def CoilRecord.unconfigured : CoilRecord where
  cls := .off
  maxWidth := 30
  defWidth := 30
  wmin := 5
  gap := 50
  weight := 10
  duty := 4
  gain := 10
  decay := 8
  warn := 3000
  limit := 4000
  cutoff := 5000
  resume := 2000
  waitLimit := 0

/-- The supply record (Table 2-2); the settle time is in 10 ms units. -/
structure SupplyRecord where
  budget : Nat
  reserve : Nat
  settle : Nat
  deriving DecidableEq, Repr

/-- The defaults of Table 2-2. -/
def SupplyRecord.unconfigured : SupplyRecord where
  budget := 100
  reserve := 40
  settle := 30

/-- The flipper record (R80, Table 5-1). -/
structure FlipperRecord where
  button : SwitchId
  power : Option ChannelId
  hold : Option ChannelId
  eos : Option SwitchId
  maxPower : Nat
  minPower : Nat
  repowerWidth : Nat
  repowerLimit : Nat
  deriving DecidableEq, Repr

/-- The unconfigured flipper record (R80). -/
def FlipperRecord.unconfigured : FlipperRecord where
  button := 0
  power := none
  hold := none
  eos := none
  maxPower := 40
  minPower := 20
  repowerWidth := 15
  repowerLimit := 0

/-- A link's edge (Table 6-1). -/
inductive Edge where
  | close
  | open
  deriving DecidableEq, Repr

/-- A link's award: steps given to a stepper (Table 6-1). -/
structure Award where
  stepper : StepperId
  steps : Nat
  deriving DecidableEq, Repr

/-- The link record (R97, Table 6-1). -/
structure LinkRecord where
  trigger : SwitchId
  edge : Edge
  channel : Option ChannelId
  width : Nat
  lockout : Nat
  award : Option Award
  deriving DecidableEq, Repr

/-- The unconfigured link record (R97). R97 names no trigger switch for it: S0 is DESIGN CHOICE 34. -/
def LinkRecord.unconfigured : LinkRecord where
  trigger := 0
  edge := .close
  channel := none
  width := 0
  lockout := 0
  award := none

/-- A stepper's kind (Table 7-1). -/
inductive StepperKind where
  | wrap
  | stop
  deriving DecidableEq, Repr

/-- The stepper record (R107, Table 7-1). -/
structure StepperRecord where
  kind : StepperKind
  positions : Nat
  up : Option ChannelId
  down : Option ChannelId
  home : Option SwitchId
  homePos : Nat
  spacing : Nat
  carry : Option StepperId
  deriving DecidableEq, Repr

/-- The unconfigured stepper record (R107). -/
def StepperRecord.unconfigured : StepperRecord where
  kind := .wrap
  positions := 10
  up := none
  down := none
  home := none
  homePos := 0
  spacing := 100
  carry := none

/-- The switch record (R130, Table 8-1). -/
structure SwitchRecord where
  closeMs : Nat
  openMs : Nat
  invert : Bool
  reportTo : PortSet
  deriving DecidableEq, Repr

/-- The unconfigured switch record (Table 8-1). -/
def SwitchRecord.unconfigured : SwitchRecord where
  closeMs := 5
  openMs := 5
  invert := false
  reportTo := .empty

/-- A lamp's priority (Table 9-1). -/
inductive Priority where
  | aOverB
  | bOverA
  deriving DecidableEq, Repr

/-- The lamp record (R142, Table 9-1). -/
structure LampRecord where
  priority : Priority
  rampStep : Nat
  deriving DecidableEq, Repr

/-- The unconfigured lamp record (Table 9-1). -/
def LampRecord.unconfigured : LampRecord where
  priority := .aOverB
  rampStep := 4

/-- The unconfigured lamp budget (Table 9-1). -/
def lampBudgetUnconfigured : Nat := 480

/-- The records that a profile stores (R167). A bank is its ordered list of reels (R126). -/
structure Profile where
  coils : Table CoilRecord 48
  supply : SupplyRecord
  flippers : Table FlipperRecord 6
  links : Table LinkRecord 16
  steppers : Table StepperRecord 16
  banks : Table (List StepperId) 4
  switches : Table SwitchRecord 32
  lamps : Table LampRecord 32
  lampBudget : Nat
  deriving DecidableEq, Repr

/-- Every record at its unconfigured value (R168). -/
def Profile.unconfigured : Profile where
  coils := .replicate 48 .unconfigured
  supply := .unconfigured
  flippers := .replicate 6 .unconfigured
  links := .replicate 16 .unconfigured
  steppers := .replicate 16 .unconfigured
  banks := .replicate 4 []
  switches := .replicate 32 .unconfigured
  lamps := .replicate 32 .unconfigured
  lampBudget := lampBudgetUnconfigured

end Sys2Proof.Machine
end

