-- ==== Sys2Proof/Config.lean ====
section
/-! DEFINITION. The fixed sizes and times of the CD48 that the spec states, and the FREE VALUES that it leaves open: constants
without a body, so that no proof can see what they are. -/

namespace Sys2Proof.Config

open Sys2Proof.Machine

/-- The wait list holds at most 24 entries (R40). -/
def waitListSize : Nat := 24

/-- A pass-over count of 4 is blocking (R54). -/
def blockingCount : Nat := 4

/-- An event queue holds at most 32 entries (R134). -/
def queueSize : Nat := 32

/-- READ EVENTS returns at most 12 entries (R136). -/
def eventsPerRead : Nat := 12

/-- A train has at most 999 remaining steps (R108). -/
def trainMax : Nat := 999

/-- The top of a 16-bit counter or accumulator (R61, R75, R93, R103, R108, R156). -/
def top16 : Nat := 65535

/-- The top of a band time (R75). -/
def top24 : Nat := 16777215

/-- The top of a flag's count (R160) and of a queue's lost count (R135). -/
def top8 : Nat := 255

/-- The ILK debounce (R22), in ms. -/
def ilkDebounce : Nat := 20

/-- The SYNC debounce (R139), in ms. -/
def syncDebounce : Nat := 1

/-- The cooling interval (R62), in ms. -/
def coolingInterval : Nat := 10

/-- The lamp frame interval (R148), in ms. -/
def lampFrame : Nat := 20

/-- The profile load (R168), in ms. -/
def loadTime : Nat := 40

/-- The profile save (R169), in ms. -/
def saveTime : Nat := 180

/-- The inter-byte gap limit (R156), in ms. -/
def interByteGap : Nat := 2

/-- The longest request body (R155). -/
def maxRequestBody : Nat := 56

/-- FREE: where the spec lets records be taken in any order (R62) or names no order (R26, R27, R79, R80), the `k`-th choice
of the `n`-th such ordering. Machine/Ops.lean turns it into an order that takes each record once (log 4). -/
opaque freeOrder : Nat → Nat → Nat

/-- FREE: whether a C3h that arrives without its stop bit at an empty assembly area counts a link error (R156, log 12). -/
opaque brokenStartCounts : Bool

/-- FREE: what a reply's yes/no field carries where it is absent (R166 says it of counts, widths, times, sets and enumerated
values only; log 11). -/
opaque absentYesNo : Byte

/-- FREE: which of the reasons that apply READ FLIPPER gives where more than one does (R95, R166 give no order; log 38): a choice
for each list of the codes that apply. -/
opaque freeReason : List Nat → Nat

/-- FREE: the 16-bit checksum that the part computes over the stored records (R167 does not give the function; log 7). -/
opaque checksum : Profile → Word

end Sys2Proof.Config
end

