-- ==== Sys2Proof/Machine/State.lean ====
section
/-! DEFINITION. The state of the CD48, block by block (Table 0-1), as plain data, and the state after power-on reset. -/

namespace Sys2Proof.Machine

/-! ### Channel unit and heat model (chapters 1 and 4) -/

/-- What a running drive was granted or started for (Table 1-5). -/
inductive DriveKind where
  | pulse
  | pullIn
  | fire
  | step
  | flipper
  deriving DecidableEq, Repr

/-- The state of a channel (R5). Drive kind and width are present exactly in DRIVE; `left` is the time to the drive's end (R6)
or to the gap's expiry (R11). RECOVER also keeps the stepper whose step led there, if a step did: R117 verifies at a return
to IDLE "after a drive of that stepper" (log 19). -/
inductive ChanState where
  | off
  | disabled
  | idle
  | drive (kind : DriveKind) (width left : Nat)
  | hold
  | recover (left : Nat) (after : Option StepperId)
  deriving DecidableEq, Repr

/-- Thermal states (Table 4-1). -/
inductive Thermal where
  | normal
  | warm
  | limited
  | cutoff
  deriving DecidableEq, Repr

/-- The heat statistics (R75, Table 4-2). -/
structure HeatStats where
  fires : Nat
  shortened : Nat
  cutoffs : Nat
  peak : Nat
  bandNormal : Nat
  bandWarm : Nat
  bandLimited : Nat
  bandCutoff : Nat
  deriving DecidableEq, Repr

/-- The heat model's record of a channel (R61, R63, R69). -/
structure Heat where
  h : Nat
  thermal : Thermal
  dEff : Nat
  stats : HeatStats
  deriving DecidableEq, Repr

/-- A channel: its coil record (R2), its state record (Table 1-5) and its heat (chapter 4). `stepBefore` is what RECOVER's `after` is, for a
DISABLED channel: the stepper whose step the DISABLE cut, or whose step's recovery gap it abandoned, so that the return to IDLE at an ENABLE
is verified as R117 asks ("after a drive of that stepper, cut or not"; log 19). -/
structure Channel where
  coil : CoilRecord
  state : ChanState
  stepBefore : Option StepperId
  claims : PortSet
  owed : Bool
  absorbed : Nat
  heat : Heat
  deriving DecidableEq, Repr

/-! ### Supply monitor (chapter 2) -/

/-- Supply states (section 2.2). -/
inductive SupplyState where
  | down
  | settling
  | up
  deriving DecidableEq, Repr

/-- The two enable groups (R28: FLIPPERS 0, DIRECT 1). -/
inductive Group where
  | flippers
  | direct
  deriving DecidableEq, Repr

structure SupplyMonitor where
  cfg : SupplyRecord
  state : SupplyState
  countdown : Timer
  ilkRaw : Bool
  ilkClosed : Bool
  ilkTimer : Timer
  flipClaims : PortSet
  directClaims : PortSet
  flipOn : Bool
  directOn : Bool
  deriving DecidableEq, Repr

/-! ### Pulse arbiter (chapter 3) -/

/-- A wait entry's kind with its origin (Table 3-1). -/
inductive Work where
  | pulse (origin : PortSet)
  | pullIn (origin : PortSet)
  | fire (link : LinkId) (notified : PortSet)
  | step (stepper : StepperId)
  deriving DecidableEq, Repr

/-- A deadline: the part time of Table 3-1 and the arbiter's own timer for it (R41). -/
structure Deadline where
  time : Word
  left : Nat
  deriving DecidableEq, Repr

/-- A wait entry (R39, Table 3-1). -/
structure Entry where
  channel : ChannelId
  work : Work
  width : Nat
  enteredAt : Word
  deadline : Option Deadline
  passed : Nat
  deriving DecidableEq, Repr

/-- The load pools (R35), the wait list (R40) and the round-robin pointer (R49). `attempts` is the model's own: grant attempts
that effects of the present event have brought and that are still to be made (R48, R50; 0 between events; log 21). -/
structure Arbiter where
  general : Nat
  flipper : Nat
  waitList : List Entry
  pointer : StepperId
  attempts : Nat
  deriving DecidableEq, Repr

/-! ### Flipper unit (chapter 5) -/

/-- The fields of a POWER phase (R81): they have no meaning outside it. -/
structure PowerPhase where
  width : Nat
  elapsed : Nat
  eosNote : Bool
  eosSeen : Bool
  released : Bool
  deriving DecidableEq, Repr

/-- Flipper states (Table 5-2). -/
inductive FlipState where
  | disabled
  | ready
  | waitOpen
  | power (phase : PowerPhase)
  | hold
  | repower
  | blocked
  deriving DecidableEq, Repr

/-- A flipper: record (R80), state and repowers this flip (R81), counters (R93). -/
structure Flipper where
  cfg : FlipperRecord
  state : FlipState
  repowers : Nat
  flips : Nat
  eosMissing : Nat
  repowerCount : Nat
  blockedCount : Nat
  deriving DecidableEq, Repr

/-! ### Direct-fire unit (chapter 6) -/

/-- A link: record (R97), lockout timer (R99), entry mark (R100), counters (R103). -/
structure Link where
  cfg : LinkRecord
  lockout : Timer
  entry : Bool
  fired : Nat
  ignored : Nat
  lost : Nat
  deriving DecidableEq, Repr

/-! ### Stepper unit (chapter 7) -/

/-- A train's direction. -/
inductive Direction where
  | up
  | down
  deriving DecidableEq, Repr

/-- A train's origin: a set drawn from A, B and LOCAL (R108). -/
structure Origin where
  ports : PortSet
  loc : Bool
  deriving DecidableEq, Repr

/-- A train (R108). -/
structure Train where
  dir : Direction
  remaining : Nat
  delivered : Nat
  origin : Origin
  deriving DecidableEq, Repr

/-- The mark of a step in drive (Table 7-2). -/
inductive StepMark where
  | train
  | homing
  | cleared
  deriving DecidableEq, Repr

/-- A step in drive (Table 7-2). -/
structure StepDrive where
  channel : ChannelId
  mark : StepMark
  deriving DecidableEq, Repr

/-- How a train or homing ended (Table 7-2). -/
inductive EndedBy where
  | done
  | stopped
  | fault
  deriving DecidableEq, Repr

/-- The last-completed record (Table 7-2). -/
structure Completed where
  delivered : Nat
  ended : EndedBy
  deriving DecidableEq, Repr

/-- A stepper's state (Table 7-3). The running train is present exactly in RUNNING, a pending train only beside it, homing
origin and homing steps only in HOMING (R108). -/
inductive StepState where
  | idle
  | running (train : Train) (next : Option Train)
  | homing (origin : PortSet) (steps : Nat)
  | faulted
  deriving DecidableEq, Repr

/-- A stepper: record (R107) and state record (Table 7-2). Position UNKNOWN is none. `homingEntry` says that the stepper's STEP entry was
made for a homing, not for its running train (R113); it means nothing while no such entry waits. -/
structure Stepper where
  cfg : StepperRecord
  state : StepState
  position : Option Nat
  mismatch : Nat
  lost : Nat
  clamped : Nat
  last : Option Completed
  due : Bool
  spacing : Timer
  inDrive : Option StepDrive
  homingEntry : Bool
  deriving DecidableEq, Repr

/-! ### Switch unit (chapter 8) -/

/-- A switch: record (R130), raw level (`low`: pulled low), debounced state, debounce timer (R131). -/
structure SwitchInput where
  cfg : SwitchRecord
  low : Bool
  closed : Bool
  timer : Timer
  deriving DecidableEq, Repr

/-- An event queue entry (Table 8-2). -/
structure QueueEntry where
  switch : SwitchId
  closed : Bool
  time : Word
  gap : Bool
  deriving DecidableEq, Repr

/-- A port's event queue with its lost count and gap mark (R134, R135). -/
structure EventQueue where
  entries : List QueueEntry
  lost : Nat
  gapMark : Bool
  deriving DecidableEq, Repr

structure SwitchUnit where
  inputs : Table SwitchInput 32
  syncRaw : Bool
  syncHigh : Bool
  syncTimer : Timer
  partTime : Word
  queues : PerPort EventQueue
  deriving DecidableEq, Repr

/-! ### Lamp unit (chapter 9) -/

/-- A lamp: record (R142), target and ramp level (R149), applied level (R150). -/
structure Lamp where
  cfg : LampRecord
  target : Nat
  ramp : Nat
  applied : Nat
  deriving DecidableEq, Repr

/-- The names of a layer's two buffers (R143). -/
inductive BufferName where
  | x
  | y
  deriving DecidableEq, Repr

/-- A layer's commit state (R143). -/
inductive CommitState where
  | idle
  | armedSync
  | armedFrame
  deriving DecidableEq, Repr

/-- A layer (R143). An entry is a level, or none for TRANSPARENT. -/
structure Layer where
  x : Table (Option Nat) 32
  y : Table (Option Nat) 32
  shown : BufferName
  commit : CommitState
  deriving DecidableEq, Repr

/-- The lamp unit: the budget record (R142), and the Lb and the sum S of the latest frame (R150, R153). -/
structure LampUnit where
  lamps : Table Lamp 32
  budget : Nat
  inUse : Nat
  sum : Nat
  layers : PerPort Layer
  frame : Timer
  deriving DecidableEq, Repr

/-! ### Port unit (chapter 10) -/

/-- A well-formed request in a receiver's hold (R156). -/
structure Frame where
  kind : Byte
  body : List Byte
  deriving DecidableEq, Repr

/-- A reply that is leaving the part (R157), and whether a soft reset takes effect at its last byte (R164). -/
structure Sending where
  bytes : List Byte
  resets : Bool
  deriving DecidableEq, Repr

/-- A port: receiver (R156), port state and liveness (R158, R159), mask (R161), reply under way (R157). -/
structure PortRec where
  assembly : List Byte
  gap : Timer
  hold : Option Frame
  live : Bool
  liveness : Timer
  interval : Nat
  linkErrors : Nat
  mask : Word
  sending : Option Sending
  deriving DecidableEq, Repr

/-- The reasons of PULSE_DROPPED (Table 10-3; EXPIRED 0, HOT 1, SUPPLY 2). -/
inductive DropReason where
  | expired
  | hot
  | supply
  deriving DecidableEq, Repr

/-- A set flag (R160). -/
structure FlagRec where
  subject : Option Nat
  reason : Option DropReason
  count : Nat
  deriving DecidableEq, Repr

/-- An event latch: 16 flags in the bit order of Table 10-3, clear (none) or set (R160). -/
abbrev Latch := Table (Option FlagRec) 16

/-! ### Profile store (chapter 11) -/

/-- A save IN_FLIGHT (R169): the copy, the port that sent SAVE PROFILE, and the milliseconds left. -/
structure Save where
  copy : Profile
  sender : Port
  left : Nat
  deriving DecidableEq, Repr

/-- The profile store (R167). The save state is IDLE where `save` is none. -/
structure ProfileStore where
  records : Profile
  mark : Bool
  checksum : Word
  save : Option Save
  deriving DecidableEq, Repr

/-- The part's state (R168). -/
inductive PartState where
  | starting
  | run
  deriving DecidableEq, Repr

structure Part where
  state : PartState
  load : Timer
  deriving DecidableEq, Repr

/-! ### The whole part -/

/-- The whole part, block by block (Table 0-1), with the queue of commands that are waiting and the model's own counter of
free orders used (`orders`, log 4). -/
structure State where
  pending : List Instr
  channels : Table Channel 48
  coolTimer : Timer
  supply : SupplyMonitor
  arb : Arbiter
  flippers : Table Flipper 6
  links : Table Link 16
  steppers : Table Stepper 16
  banks : Table (List StepperId) 4
  sw : SwitchUnit
  lamp : LampUnit
  ports : PerPort PortRec
  latches : PerPort Latch
  lastServed : Port
  part : Part
  store : ProfileStore
  orders : Nat
  deriving DecidableEq, Repr

/-- No command of this part stops the machine with a fault: the spec answers every request with a status and gives every
event an effect or none (log 27). -/
inductive Fault where
  deriving DecidableEq, Repr

/-- Why a command has no meaning in the model. -/
inductive Refusal where
  /-- Raised by exec's refused arms only, for a row that has no meaning yet; safe (the model stops). No arm raises it. -/
  | notModelled (mnemonic : String)
  deriving DecidableEq, Repr

/-! ### Reset values -/

/-- Statistics with zero counts, zero band times and a peak of 0 (R78). -/
def HeatStats.reset : HeatStats where
  fires := 0
  shortened := 0
  cutoffs := 0
  peak := 0
  bandNormal := 0
  bandWarm := 0
  bandLimited := 0
  bandCutoff := 0

/-- Heat after power-on reset (R78); d_eff is the unconfigured record's d until the load ends (logs 8, 9). -/
def Heat.reset : Heat where
  h := 0
  thermal := .normal
  dEff := CoilRecord.unconfigured.duty
  stats := .reset

/-- A channel after power-on reset (R21, R78). -/
def Channel.reset : Channel where
  coil := .unconfigured
  state := .off
  stepBefore := none
  claims := .empty
  owed := false
  absorbed := 0
  heat := .reset

/-- The supply monitor after a reset (R33); the raw ILK level is an input (log 5). -/
def SupplyMonitor.reset : SupplyMonitor where
  cfg := .unconfigured
  state := .down
  countdown := none
  ilkRaw := false
  ilkClosed := false
  ilkTimer := none
  flipClaims := .empty
  directClaims := .empty
  flipOn := false
  directOn := false

/-- The arbiter after a reset (R60). -/
def Arbiter.reset : Arbiter where
  general := 0
  flipper := 0
  waitList := []
  pointer := 0
  attempts := 0

/-- A flipper after a reset (R96). -/
def Flipper.reset : Flipper where
  cfg := .unconfigured
  state := .disabled
  repowers := 0
  flips := 0
  eosMissing := 0
  repowerCount := 0
  blockedCount := 0

/-- A link after a reset (R106). -/
def Link.reset : Link where
  cfg := .unconfigured
  lockout := none
  entry := false
  fired := 0
  ignored := 0
  lost := 0

/-- A stepper after a reset (R129). -/
def Stepper.reset : Stepper where
  cfg := .unconfigured
  state := .idle
  position := none
  mismatch := 0
  lost := 0
  clamped := 0
  last := none
  due := false
  spacing := none
  inDrive := none
  homingEntry := false

/-- A switch after a reset (R140); the raw level is an input (log 5), the debounced state is taken at the load's end (log 35). -/
def SwitchInput.reset : SwitchInput where
  cfg := .unconfigured
  low := false
  closed := false
  timer := none

/-- An event queue after a reset (R140). -/
def EventQueue.reset : EventQueue where
  entries := []
  lost := 0
  gapMark := false

/-- The switch unit after a reset (R140). -/
def SwitchUnit.reset : SwitchUnit where
  inputs := .replicate 32 .reset
  syncRaw := true
  syncHigh := false
  syncTimer := none
  partTime := 0
  queues := ⟨.reset, .reset⟩

/-- A lamp after a reset (R154). -/
def Lamp.reset : Lamp where
  cfg := .unconfigured
  target := 0
  ramp := 0
  applied := 0

/-- A layer after a reset (R154). -/
def Layer.reset : Layer where
  x := .replicate 32 none
  y := .replicate 32 none
  shown := .x
  commit := .idle

/-- The lamp unit after a reset (R154). No frame has used an Lb yet; it reads as the budget record does (log 39). -/
def LampUnit.reset : LampUnit where
  lamps := .replicate 32 .reset
  budget := lampBudgetUnconfigured
  inUse := lampBudgetUnconfigured
  sum := 0
  layers := ⟨.reset, .reset⟩
  frame := none

/-- A port after a reset (R165). A reply under way is cut off at every reset: R164 says it of the soft reset, of the others it is the
model's choice (log 43). -/
def PortRec.reset : PortRec where
  assembly := []
  gap := none
  hold := none
  live := true
  liveness := none
  interval := 0
  linkErrors := 0
  mask := 0
  sending := none

/-- A latch with every flag clear (R165). -/
def Latch.reset : Latch := .replicate 16 none

/-- The store of a part that has never been saved: BLANK (R167; its other contents are log 6). -/
def ProfileStore.neverSaved : ProfileStore where
  records := .unconfigured
  mark := false
  checksum := 0
  save := none

/-- STARTING, with the 40 ms load begun (R168). -/
def Part.reset : Part where
  state := .starting
  load := some Config.loadTime

/-- The part right after power-on reset (R168), never saved, with its inputs at rest (logs 5, 6). -/
def State.reset : State where
  pending := []
  channels := .replicate 48 .reset
  coolTimer := none
  supply := .reset
  arb := .reset
  flippers := .replicate 6 .reset
  links := .replicate 16 .reset
  steppers := .replicate 16 .reset
  banks := .replicate 4 []
  sw := .reset
  lamp := .reset
  ports := ⟨.reset, .reset⟩
  latches := ⟨Latch.reset, Latch.reset⟩
  lastServed := .b
  part := .reset
  store := .neverSaved
  orders := 0

end Sys2Proof.Machine
end

