-- ==== Sys2Proof/Machine/Ops.lean ====
section
/-! DEFINITION. The named operations over the part's records: one accessor and one update for each kind of record, the load
report, the wait list's primitives, free orders and timers. Every other file of Machine reads and writes State through them. -/

namespace Sys2Proof.Machine

/-! ### Accessors and updates, one for each kind of record -/

namespace State

def chan (s : State) (c : ChannelId) : Channel := s.channels.get c

def flip (s : State) (f : FlipperId) : Flipper := s.flippers.get f

def link (s : State) (k : LinkId) : Link := s.links.get k

def stepper (s : State) (t : StepperId) : Stepper := s.steppers.get t

def bank (s : State) (n : BankId) : List StepperId := s.banks.get n

def input (s : State) (w : SwitchId) : SwitchInput := s.sw.inputs.get w

def port (s : State) (p : Port) : PortRec := s.ports.get p

def latch (s : State) (p : Port) : Latch := s.latches.get p

end State

/-- The present load of a channel (R1, R35): its weight in DRIVE, ceil (weight × d_eff / 16) in HOLD, 0 otherwise. -/
def Channel.load (ch : Channel) : Nat :=
  match ch.state with
  | .drive _ _ _ => ch.coil.weight
  | .hold => ceilDiv (ch.coil.weight * ch.heat.dEff) 16
  | .off => 0
  | .disabled => 0
  | .idle => 0
  | .recover _ _ => 0

/-- A channel's load where it counts in the general pool (R35: class not FLIPPER), else 0. -/
def Channel.generalLoad (ch : Channel) : Nat := if ch.coil.cls = .flipper then 0 else ch.load

/-- A channel's load where it counts in the flipper pool (R35: class FLIPPER), else 0. -/
def Channel.flipperLoad (ch : Channel) : Nat := if ch.coil.cls = .flipper then ch.load else 0

/-- The load report (R35): the arbiter replaces the channel's old load in its pool with the new one. -/
def Arbiter.report (a : Arbiter) (old new : Channel) : Arbiter :=
  { a with
    general := a.general - old.generalLoad + new.generalLoad
    flipper := a.flipper - old.flipperLoad + new.flipperLoad }

namespace State

/-- Writes a channel's record and reports its load to the arbiter: the one way a channel changes, so that every drive
start, drive end, cut, entry into HOLD, release and change of duty is reported (R1, R35). -/
def setChan (s : State) (c : ChannelId) (ch : Channel) : State :=
  { s with channels := s.channels.set c ch, arb := s.arb.report (s.chan c) ch }

def setArb (s : State) (a : Arbiter) : State := { s with arb := a }

def setSupply (s : State) (m : SupplyMonitor) : State := { s with supply := m }

def setFlip (s : State) (f : FlipperId) (x : Flipper) : State := { s with flippers := s.flippers.set f x }

def setLink (s : State) (k : LinkId) (x : Link) : State := { s with links := s.links.set k x }

def setStepper (s : State) (t : StepperId) (x : Stepper) : State := { s with steppers := s.steppers.set t x }

def setBank (s : State) (n : BankId) (reels : List StepperId) : State := { s with banks := s.banks.set n reels }

def setSw (s : State) (u : SwitchUnit) : State := { s with sw := u }

def setLamp (s : State) (u : LampUnit) : State := { s with lamp := u }

def setPort (s : State) (p : Port) (x : PortRec) : State := { s with ports := s.ports.set p x }

def setLatch (s : State) (p : Port) (x : Latch) : State := { s with latches := s.latches.set p x }

def setStore (s : State) (x : ProfileStore) : State := { s with store := x }

def setInput (s : State) (w : SwitchId) (x : SwitchInput) : State :=
  s.setSw { s.sw with inputs := s.sw.inputs.set w x }

def setHeat (s : State) (c : ChannelId) (x : Heat) : State := s.setChan c { s.chan c with heat := x }

def setWaitList (s : State) (l : List Entry) : State := s.setArb { s.arb with waitList := l }

/-- The supply is UP. -/
def isUp (s : State) : Bool := s.supply.state = .up

/-- The part is in RUN (R168). -/
def inRun (s : State) : Bool := s.part.state = .run

/-- A profile save is in flight (R169). -/
def saving (s : State) : Bool := s.store.save.isSome

/-- The debounced state of a switch: closed or not (R131). -/
def closed (s : State) (w : SwitchId) : Bool := (s.input w).closed

end State

/-- The other port. -/
def otherPort : Port → Port
  | .a => .b
  | .b => .a

/-! ### Timers (log 2) -/

/-- A timer is due when it runs and no millisecond is left. -/
def due (t : Timer) : Bool := t = some 0

/-- One millisecond of a timer. -/
def Timer.tick (t : Timer) : Timer := t.map (· - 1)

/-! ### Free orders (log 4) -/

/-- `xs` in the order that the choices `pick k, pick (k + 1), …` give: each choice takes one of those not yet taken. `fuel` is
the length of `xs`. -/
def arrange {α : Type} (pick : Nat → Nat) : Nat → Nat → List α → List α
  | 0, _, xs => xs
  | _ + 1, _, [] => []
  | fuel + 1, k, x :: xs =>
    let i := pick k % (xs.length + 1)
    ((x :: xs)[i]?).getD x :: arrange pick fuel (k + 1) ((x :: xs).eraseIdx i)

/-- `xs` in the free order number `n`. -/
def freely {α : Type} (n : Nat) (xs : List α) : List α := arrange (Config.freeOrder n) xs.length 0 xs

/-- A fresh free order of `xs`, with the counter advanced. -/
def State.takeOrder {α : Type} (s : State) (xs : List α) : State × List α :=
  ({ s with orders := s.orders + 1 }, freely s.orders xs)

/-- Every channel, C0 to C47. -/
def allChannels : List ChannelId := List.finRange 48

/-- Every flipper, F0 to F5. -/
def allFlippers : List FlipperId := List.finRange 6

/-- Every link, K0 to K15. -/
def allLinks : List LinkId := List.finRange 16

/-- Every stepper, T0 to T15. -/
def allSteppers : List StepperId := List.finRange 16

/-- Every switch, S0 to S31. -/
def allSwitches : List SwitchId := List.finRange 32

/-- Every lamp, L0 to L31. -/
def allLamps : List LampId := List.finRange 32

/-- The steppers in round-robin order from `p` (R48): `p` up through T15 and round from T0 to the one before `p`. -/
def roundRobin (p : StepperId) : List StepperId := allSteppers.map fun i => p + i

/-! ### Who names a channel (log 17) -/

/-- A configured flipper record names the channel as power or hold channel (R80: the other fields of an unconfigured record
have no effect). -/
def FlipperRecord.names (r : FlipperRecord) (c : ChannelId) : Bool :=
  r.power.isSome && (r.power = some c || r.hold = some c)

/-- A stepper record names the channel as up or down channel (R107). -/
def StepperRecord.names (r : StepperRecord) (c : ChannelId) : Bool := r.up = some c || r.down = some c

/-- The stepper that names the channel, if one does (R107: at most one). -/
def stepperOf (s : State) (c : ChannelId) : Option StepperId :=
  allSteppers.find? fun t => (s.stepper t).cfg.names c

/-- The flipper that names the channel, if one does (R80: at most one). -/
def flipperOf (s : State) (c : ChannelId) : Option FlipperId :=
  allFlippers.find? fun f => (s.flip f).cfg.names c

/-! ### The wait list (R39, R40) -/

/-- The wait entry of a channel (R40: at most one). -/
def entryOf (s : State) (c : ChannelId) : Option Entry := s.arb.waitList.find? fun e => e.channel = c

/-- The wait list holds 24 entries (R40). -/
def listFull (s : State) : Bool := Config.waitListSize ≤ s.arb.waitList.length

/-- A grant attempt is brought: it is made when the present effect has ended (R48, R50). -/
def bring (s : State) : State := s.setArb { s.arb with attempts := s.arb.attempts + 1 }

/-- A new entry at the tail of the list, with the attempt that its arrival brings (R40, R50). -/
def enter (s : State) (e : Entry) : State := bring (s.setWaitList (s.arb.waitList ++ [e]))

/-- The channel's entry leaves the list and those behind it close up (R40). -/
def dropEntry (s : State) (c : ChannelId) : State :=
  s.setWaitList (s.arb.waitList.filter fun e => e.channel ≠ c)

/-- Replaces the channel's entry in its place (R40, R44: a merge does not move the entry). -/
def changeEntry (s : State) (c : ChannelId) (f : Entry → Entry) : State :=
  s.setWaitList (s.arb.waitList.map fun e => if e.channel = c then f e else e)

/-- The channel's entry is a PULL_IN. -/
def hasPullIn (s : State) (c : ChannelId) : Bool :=
  match entryOf s c with
  | some e => match e.work with
    | .pullIn _ => true
    | .pulse _ => false
    | .fire _ _ => false
    | .step _ => false
  | none => false

/-- A STEP entry of the stepper waits. -/
def hasStepEntry (s : State) (t : StepperId) : Bool := s.arb.waitList.any fun e => e.work = .step t

/-- A FIRE entry of the link waits. -/
def hasFireEntry (s : State) (k : LinkId) : Bool :=
  s.arb.waitList.any fun e => match e.work with
    | .fire k' _ => k' = k
    | .pulse _ => false
    | .pullIn _ => false
    | .step _ => false

/-- The deadline of a PULSE or FIRE entry made now (R41). -/
def newDeadline (s : State) (r : CoilRecord) : Option Deadline :=
  if r.waitLimit = 0 then none
  else some ⟨s.sw.partTime + BitVec.ofNat 16 (r.waitLimit * 10), r.waitLimit * 10⟩

/-- The width of a PULSE or FIRE entry (R39): the default width for 0, clamped to the coil's max width. -/
def entryWidth (r : CoilRecord) (w : Nat) : Nat := min (if w = 0 then r.defWidth else w) r.maxWidth

/-- The general pool, B − F (R35). -/
def generalPool (s : State) : Nat := s.supply.cfg.budget - s.supply.cfg.reserve

end Sys2Proof.Machine
end

