-- ==== Sys2Proof/Machine/Flags.lean ====
section
/-! DEFINITION. The event latches (R160) and the ATTN lines (R161). -/

namespace Sys2Proof.Machine

/-- The event flags, in the bit order of Table 10-3. -/
inductive FlagName where
  | switch
  | eventLost
  | pulseDropped
  | trainDone
  | trainReload
  | trainStopped
  | stepperFault
  | rollover
  | heatWarn
  | heatCutoff
  | heatResume
  | supplyDown
  | supplyUp
  | flipperFault
  | lapsed
  | profile
  deriving DecidableEq, Repr

/-- The bit of a flag (Table 10-3). -/
def FlagName.bit : FlagName → Fin 16
  | .switch => 0
  | .eventLost => 1
  | .pulseDropped => 2
  | .trainDone => 3
  | .trainReload => 4
  | .trainStopped => 5
  | .stepperFault => 6
  | .rollover => 7
  | .heatWarn => 8
  | .heatCutoff => 9
  | .heatResume => 10
  | .supplyDown => 11
  | .supplyUp => 12
  | .flipperFault => 13
  | .lapsed => 14
  | .profile => 15

/-- One setting of a flag (R160): a clear flag becomes set with the subject and reason and a count of 1; at a set flag the
count rises by 1, saturating at 255, and subject and reason stay. -/
def raiseFlag (old : Option FlagRec) (subject : Option Nat) (reason : Option DropReason) : Option FlagRec :=
  match old with
  | none => some ⟨subject, reason, 1⟩
  | some r => some { r with count := sat Config.top8 (r.count + 1) }

/-- Sets a flag, with a reason, in one port's latch. -/
def setFlagReason (s : State) (p : Port) (n : FlagName) (subject : Option Nat) (reason : Option DropReason) : State :=
  s.setLatch p ((s.latch p).modify n.bit fun old => raiseFlag old subject reason)

/-- Sets a flag in one port's latch. -/
def setFlag (s : State) (p : Port) (n : FlagName) (subject : Option Nat) : State := setFlagReason s p n subject none

/-- Sets a flag in the latch of each port of a set. -/
def setFlagPorts (s : State) (ps : PortSet) (n : FlagName) (subject : Option Nat) : State :=
  let s := if ps.a then setFlag s .a n subject else s
  if ps.b then setFlag s .b n subject else s

/-- Sets a flag on both ports, in each latch independently (R160). -/
def setFlagBoth (s : State) (n : FlagName) (subject : Option Nat) : State := setFlagPorts s ⟨true, true⟩ n subject

/-- PULSE_DROPPED, with subject the channel and its reason, for each port of a set (R53, R56, R27). -/
def dropPulse (s : State) (ps : PortSet) (c : ChannelId) (r : DropReason) : State :=
  let s := if ps.a then setFlagReason s .a .pulseDropped (some c.val) (some r) else s
  if ps.b then setFlagReason s .b .pulseDropped (some c.val) (some r) else s

/-- The bitmap of the flags that are set in a latch (R162, Table 10-5). -/
def Latch.bitmap (l : Latch) : Nat :=
  (List.finRange 16).foldl (fun n i => if (l.get i).isSome then n + 2 ^ i.val else n) 0

/-- A port's ATTN line is pulled low while at least one flag of its latch is both set and unmasked (R161). The line is
recomputed at every change of latch or mask, so it is this function of the two (log 28). -/
def attnLow (s : State) (p : Port) : Bool :=
  (List.finRange 16).any fun i => ((s.latch p).get i).isSome && !(s.port p).mask.getLsbD i.val

/-- The level of a coil output (R1). -/
inductive CoilOutput where
  | off
  | chopped (sixteenths : Nat)
  | full
  deriving DecidableEq, Repr

/-- The output of a channel (R1): full drive in DRIVE, chopped at d_eff in HOLD, off otherwise. -/
def coilOutput (s : State) (c : ChannelId) : CoilOutput :=
  match (s.chan c).state with
  | .drive _ _ _ => .full
  | .hold => .chopped (s.chan c).heat.dEff
  | .off => .off
  | .disabled => .off
  | .idle => .off
  | .recover _ _ => .off

/-- The output of a lamp, in sixteenths (R141). -/
def lampOutput (s : State) (l : LampId) : Nat := (s.lamp.lamps.get l).applied

end Sys2Proof.Machine
end

