-- ==== Sys2Proof/Machine/Operands.lean ====
section
/-! DEFINITION. The bytes of frames, requests and replies: the CRC-8 (R155), the fields of request bodies (Table 10-4) and the
codes of reply bodies (R166, Table 10-5). -/

namespace Sys2Proof.Machine

/-! ### Frames (R155) -/

/-- One bit of the CRC-8 with generator x^8 + x^2 + x + 1 (07h), most significant bit first (R155). -/
def crcBit (r : Byte) : Byte := if r.msb then (r <<< 1) ^^^ 0x07#8 else r <<< 1

/-- One byte into the CRC-8 register. -/
def crcByte (r b : Byte) : Byte :=
  crcBit (crcBit (crcBit (crcBit (crcBit (crcBit (crcBit (crcBit (r ^^^ b))))))))

/-- The CRC-8 of a list of bytes, initial value 0 (R155). -/
def crc8 (bytes : List Byte) : Byte := bytes.foldl crcByte 0#8

def requestStart : Byte := 0xC3#8

def replyStart : Byte := 0x3C#8

/-- A number as one byte. -/
def byte (n : Nat) : Byte := BitVec.ofNat 8 n

/-- A request frame (R155): start, length, kind, body, check. -/
def requestFrame (kind : Byte) (body : List Byte) : List Byte :=
  let checked := byte body.length :: kind :: body
  requestStart :: checked ++ [crc8 checked]

/-- Status codes (Table 10-1). -/
inductive Status where
  | ok
  | busy
  | refused
  | range
  | full
  | hot
  | noSupply
  | unknown
  | malformed
  deriving DecidableEq, Repr

def Status.code : Status → Byte
  | .ok => 0x00#8
  | .busy => 0x01#8
  | .refused => 0x02#8
  | .range => 0x03#8
  | .full => 0x04#8
  | .hot => 0x05#8
  | .noSupply => 0x06#8
  | .unknown => 0x07#8
  | .malformed => 0x08#8

/-- A reply frame (R155): start, length, kind, status, body, check. -/
def replyFrame (kind : Byte) (status : Status) (body : List Byte) : List Byte :=
  let checked := byte body.length :: kind :: status.code :: body
  replyStart :: checked ++ [crc8 checked]

/-! ### Fields of request bodies: high byte first (R155) -/

/-- The byte at place `i` of a body, as a number. -/
def u8 (body : List Byte) (i : Nat) : Nat := (body.getD i 0#8).toNat

/-- The two-byte field at place `i`. -/
def u16 (body : List Byte) (i : Nat) : Nat := u8 body i * 256 + u8 body (i + 1)

/-- The three-byte field at place `i`. -/
def u24 (body : List Byte) (i : Nat) : Nat := u16 body i * 256 + u8 body (i + 2)

/-- A record's number, where it is in range. -/
def index (n k : Nat) : Option (Fin n) := if h : k < n then some ⟨k, h⟩ else none

/-- A number field that may be none (FFh, R166): `none` where it is out of range. -/
def indexOrNone (n k : Nat) : Option (Option (Fin n)) :=
  if k = 0xFF then some none else (index n k).map some

/-- A yes/no field (R166). -/
def yesNo (k : Nat) : Option Bool := if k = 0 then some false else if k = 1 then some true else none

/-- A set of ports (R166: bit 0 for A, bit 1 for B; no other bit). -/
def portSetOf (k : Nat) : Option PortSet := if k < 4 then some ⟨k % 2 = 1, k / 2 = 1⟩ else none

def coilClassOf (k : Nat) : Option CoilClass :=
  if k = 0 then some .off
  else if k = 1 then some .pulse
  else if k = 2 then some .holdable
  else if k = 3 then some .stepper
  else if k = 4 then some .flipper
  else none

def edgeOf (k : Nat) : Option Edge := if k = 0 then some .close else if k = 1 then some .open else none

def stepperKindOf (k : Nat) : Option StepperKind := if k = 0 then some .wrap else if k = 1 then some .stop else none

def directionOf (k : Nat) : Option Direction := if k = 0 then some .up else if k = 1 then some .down else none

def priorityOf (k : Nat) : Option Priority := if k = 0 then some .aOverB else if k = 1 then some .bOverA else none

def groupOf (k : Nat) : Option Group := if k = 0 then some .flippers else if k = 1 then some .direct else none

/-- The fields of a coil record, its class decoded (Table 10-4), hold duties above 16 stored as 16 and the gap of class FLIPPER
stored as 0 (R2). -/
def coilFields (cls : CoilClass) (b : List Byte) : CoilRecord where
  cls := cls
  maxWidth := u8 b 2
  defWidth := u8 b 3
  wmin := u8 b 4
  gap := if cls = .flipper then 0 else u8 b 5
  weight := u8 b 6
  duty := min (u8 b 7) 16
  gain := u8 b 8
  decay := u8 b 9
  warn := u16 b 10
  limit := u16 b 12
  cutoff := u16 b 14
  resume := u16 b 16
  waitLimit := u8 b 18

/-- The ranges and orders of R2. -/
def CoilRecord.accepted (r : CoilRecord) : Bool :=
  r.warn < r.cutoff && r.resume < r.warn && r.warn ≤ r.limit && r.limit ≤ r.cutoff &&
  1 ≤ r.wmin && r.wmin ≤ r.defWidth && r.defWidth ≤ r.maxWidth && r.maxWidth ≤ 255 &&
  1 ≤ r.duty && 1 ≤ r.weight && r.weight ≤ 63 && 1 ≤ r.gain && 1 ≤ r.decay

/-- The coil record of a CONFIGURE COIL body, where every field is in range and the orders hold (R19, check 2). -/
def coilRecordOf (b : List Byte) : Option CoilRecord :=
  match coilClassOf (u8 b 1) with
  | none => none
  | some cls => if (coilFields cls b).accepted then some (coilFields cls b) else none

/-- The flipper record of a CONFIGURE FLIPPER body, where every field is in range (R94, check 2; Table 5-1). -/
def flipperRecordOf (b : List Byte) : Option FlipperRecord :=
  match index 32 (u8 b 1), indexOrNone 48 (u8 b 2), indexOrNone 48 (u8 b 3), indexOrNone 32 (u8 b 4) with
  | some button, some power, some hold, some eos =>
    if 5 ≤ u8 b 5 && u8 b 5 ≤ 100 && 1 ≤ u8 b 6 && u8 b 6 ≤ u8 b 5 && 1 ≤ u8 b 7 && u8 b 7 ≤ u8 b 5 && u8 b 8 ≤ 3 then
      some ⟨button, power, hold, eos, u8 b 5, u8 b 6, u8 b 7, u8 b 8⟩
    else none
  | _, _, _, _ => none

/-- The award fields of a CONFIGURE LINK body: none, or a stepper with 1 to 9 steps (R104, check 2). -/
def awardOf (stepper steps : Nat) : Option (Option Award) :=
  match indexOrNone 16 stepper with
  | none => none
  | some none => some none
  | some (some t) => if 1 ≤ steps && steps ≤ 9 then some (some ⟨t, steps⟩) else none

/-- The link record of a CONFIGURE LINK body, where every field is in range (R104, check 2; Table 6-1). -/
def linkRecordOf (b : List Byte) : Option LinkRecord :=
  match index 32 (u8 b 1), edgeOf (u8 b 2), indexOrNone 48 (u8 b 3), awardOf (u8 b 6) (u8 b 7) with
  | some trigger, some edge, some channel, some award => some ⟨trigger, edge, channel, u8 b 4, u8 b 5, award⟩
  | _, _, _, _ => none

/-- The stepper record of a CONFIGURE STEPPER body, where every field is in range (R124, check 2; Table 7-1). -/
def stepperRecordOf (b : List Byte) : Option StepperRecord :=
  match stepperKindOf (u8 b 1), indexOrNone 48 (u8 b 3), indexOrNone 48 (u8 b 4), indexOrNone 32 (u8 b 5),
      indexOrNone 16 (u8 b 9) with
  | some kind, some up, some down, some home, some carry =>
    if 2 ≤ u8 b 2 && u8 b 2 ≤ 32 && u8 b 6 < u8 b 2 && 20 ≤ u16 b 7 && u16 b 7 ≤ 1000 then
      some ⟨kind, u8 b 2, up, down, home, u8 b 6, u16 b 7, carry⟩
    else none
  | _, _, _, _, _ => none

/-- The reels of a CONFIGURE BANK body, up to its reel count (R126; R166: the fields beyond it are not checked). -/
def reelsOf (b : List Byte) : Option (List StepperId) :=
  if u8 b 1 ≤ 5 then (List.range (u8 b 1)).mapM fun i => index 16 (u8 b (2 + i)) else none

/-- A debounce of CONFIGURE SWITCH: 0 is stored as 1, above 31 as 31 (R138). -/
def debounceMs (k : Nat) : Nat := max 1 (min k 31)

/-- The switch record of a CONFIGURE SWITCH body, where invert and report-to are in range (R138). -/
def switchRecordOf (b : List Byte) : Option SwitchRecord :=
  match yesNo (u8 b 3), portSetOf (u8 b 4) with
  | some invert, some reportTo => some ⟨debounceMs (u8 b 1), debounceMs (u8 b 2), invert, reportTo⟩
  | _, _ => none

/-! ### Codes of reply bodies (R166): enumerated values from 0 in the order of their defining table -/

/-- A two-byte field, high byte first (R155). -/
def be16 (n : Nat) : List Byte := [byte (n / 256), byte n]

/-- A three-byte field, high byte first (R155). -/
def be24 (n : Nat) : List Byte := [byte (n / 65536), byte (n / 256), byte n]

/-- FFh: none, UNKNOWN or absent (R166). -/
def absent : Byte := 0xFF#8

def boolByte (b : Bool) : Byte := if b then 1#8 else 0#8

/-- A switch's debounced state: closed 0, open 1, the order of Table 8-2 (log 10). -/
def closedByte (closed : Bool) : Byte := if closed then 0#8 else 1#8

def indexByte {n : Nat} (i : Option (Fin n)) : Byte :=
  match i with
  | none => absent
  | some k => byte k.val

def natByte (i : Option Nat) : Byte :=
  match i with
  | none => absent
  | some k => byte k

def PortSet.code (x : PortSet) : Nat := (if x.a then 1 else 0) + (if x.b then 2 else 0)

def Origin.code (o : Origin) : Nat := o.ports.code + (if o.loc then 4 else 0)

def CoilClass.code : CoilClass → Nat
  | .off => 0
  | .pulse => 1
  | .holdable => 2
  | .stepper => 3
  | .flipper => 4

def ChanState.code : ChanState → Nat
  | .off => 0
  | .disabled => 1
  | .idle => 2
  | .drive _ _ _ => 3
  | .hold => 4
  | .recover _ _ => 5

def DriveKind.code : DriveKind → Nat
  | .pulse => 0
  | .pullIn => 1
  | .fire => 2
  | .step => 3
  | .flipper => 4

def Thermal.code : Thermal → Nat
  | .normal => 0
  | .warm => 1
  | .limited => 2
  | .cutoff => 3

def SupplyState.code : SupplyState → Nat
  | .down => 0
  | .settling => 1
  | .up => 2

def FlipState.code : FlipState → Nat
  | .disabled => 0
  | .ready => 1
  | .waitOpen => 2
  | .power _ => 3
  | .hold => 4
  | .repower => 5
  | .blocked => 6

def StepState.code : StepState → Nat
  | .idle => 0
  | .running _ _ => 1
  | .homing _ _ => 2
  | .faulted => 3

def Edge.code : Edge → Nat
  | .close => 0
  | .open => 1

def StepperKind.code : StepperKind → Nat
  | .wrap => 0
  | .stop => 1

def Direction.code : Direction → Nat
  | .up => 0
  | .down => 1

def EndedBy.code : EndedBy → Nat
  | .done => 0
  | .stopped => 1
  | .fault => 2

def Priority.code : Priority → Nat
  | .aOverB => 0
  | .bOverA => 1

def BufferName.code : BufferName → Nat
  | .x => 0
  | .y => 1

def CommitState.code : CommitState → Nat
  | .idle => 0
  | .armedSync => 1
  | .armedFrame => 2

def DropReason.code : DropReason → Nat
  | .expired => 0
  | .hot => 1
  | .supply => 2

def PartState.code : PartState → Nat
  | .starting => 0
  | .run => 1

/-- A coil record as READ CONFIG returns it: the layout of its CONFIGURE body without the channel (R166). -/
def CoilRecord.bytes (r : CoilRecord) : List Byte :=
  [byte r.cls.code, byte r.maxWidth, byte r.defWidth, byte r.wmin, byte r.gap, byte r.weight, byte r.duty, byte r.gain,
    byte r.decay] ++ be16 r.warn ++ be16 r.limit ++ be16 r.cutoff ++ be16 r.resume ++ [byte r.waitLimit]

/-- The supply record: B; F; settle time in ms (R166). -/
def SupplyRecord.bytes (r : SupplyRecord) : List Byte := [byte r.budget, byte r.reserve] ++ be16 (r.settle * 10)

def FlipperRecord.bytes (r : FlipperRecord) : List Byte :=
  [byte r.button.val, indexByte r.power, indexByte r.hold, indexByte r.eos, byte r.maxPower, byte r.minPower,
    byte r.repowerWidth, byte r.repowerLimit]

/-- A link record; without an award stepper the steps are 0 (R104). -/
def LinkRecord.bytes (r : LinkRecord) : List Byte :=
  [byte r.trigger.val, byte r.edge.code, indexByte r.channel, byte r.width, byte r.lockout,
    indexByte (r.award.map Award.stepper), byte ((r.award.map Award.steps).getD 0)]

def StepperRecord.bytes (r : StepperRecord) : List Byte :=
  [byte r.kind.code, byte r.positions, indexByte r.up, indexByte r.down, indexByte r.home, byte r.homePos] ++
    be16 r.spacing ++ [indexByte r.carry]

/-- A bank: reel count; reel 0 to reel 4, FFh beyond the count (Table 10-4). -/
def bankBytes (reels : List StepperId) : List Byte :=
  byte reels.length :: (List.range 5).map fun i => indexByte reels[i]?

def SwitchRecord.bytes (r : SwitchRecord) : List Byte :=
  [byte r.closeMs, byte r.openMs, boolByte r.invert, byte r.reportTo.code]

def LampRecord.bytes (r : LampRecord) : List Byte := [byte r.priority.code, byte r.rampStep]

end Sys2Proof.Machine
end

