-- ==== Sys2Proof/Machine/Engine.lean ====
section
/-! DEFINITION. The receivers (R156) and the command engine (R157): how a request's bytes become a held request, when the
engine takes it, and what every service does around the request's own rules. -/

namespace Sys2Proof.Machine

/-! ### The receivers (R156) -/

/-- The link error count rises by 1 and saturates (R156). -/
def countLinkError (s : State) (p : Port) : State :=
  s.setPort p { s.port p with linkErrors := sat Config.top16 ((s.port p).linkErrors + 1) }

/-- The assembly area holds these bytes and waits for the next one (R156: at most 2 ms). -/
def assemble (s : State) (p : Port) (bytes : List Byte) : State :=
  s.setPort p { s.port p with assembly := bytes, gap := some Config.interByteGap }

/-- The assembly area empties. -/
def clearAssembly (s : State) (p : Port) : State := s.setPort p { s.port p with assembly := [], gap := none }

/-- A started frame is abandoned and the link error count rises by 1 (R156). -/
def abandonFrame (s : State) (p : Port) : State := countLinkError (clearAssembly s p) p

/-- The check byte arrives for the frame in `asm` (R156): a wrong check or a full hold discards the frame with a link error;
otherwise the request goes into the hold. -/
def completeFrame (s : State) (p : Port) (asm : List Byte) (check : Byte) : State :=
  let s := clearAssembly s p
  if crc8 (asm.drop 1) ≠ check then countLinkError s p
  else if (s.port p).hold.isSome then countLinkError s p
  else s.setPort p { s.port p with hold := some ⟨asm.getD 2 0#8, asm.drop 3⟩ }

/-- A byte arrives at a port's receiver, with or without its stop bit (R156). The assembly area holds the bytes of the frame so
far: start, length, kind, body. -/
def receiveByte (s : State) (p : Port) (b : Byte) (stop : Bool) : State :=
  let asm := (s.port p).assembly
  if asm = [] then
    if b ≠ requestStart then s
    else if stop then assemble s p [b]
    else if Config.brokenStartCounts then countLinkError s p
    else s
  else if !stop then abandonFrame s p
  else if asm.length = 1 then
    if Config.maxRequestBody < b.toNat then abandonFrame s p else assemble s p (asm ++ [b])
  else if asm.length < 3 + (asm.getD 1 0#8).toNat then assemble s p (asm ++ [b])
  else completeFrame s p asm b

/-- The bytes of a whole frame arrive, each with its stop bit. -/
def receiveFrame (s : State) (p : Port) (kind : Byte) (body : List Byte) : State :=
  (requestFrame kind body).foldl (fun s b => receiveByte s p b true) s

/-! ### The command engine (R157) -/

/-- What a request's own rules answer: the state they leave, the status, the body of an OK reply, and whether a soft reset
follows the reply (R164). -/
structure Answer where
  state : State
  status : Status
  body : List Byte
  resets : Bool

/-- Refused with a status: nothing changes. -/
def Answer.refuse (s : State) (status : Status) : Answer := ⟨s, status, [], false⟩

/-- Answered OK. -/
def Answer.okWith (s : State) (body : List Byte) : Answer := ⟨s, .ok, body, false⟩

/-- Answered OK with an empty body. -/
def Answer.done (s : State) : Answer := .okWith s []

/-- A port's request may be taken: the hold is full and the reply to its previous request has been wholly sent (R157). -/
def canTake (s : State) (p : Port) : Bool := (s.port p).hold.isSome && (s.port p).sending.isNone

/-- The engine takes port `p`'s request: of two that may be taken, the one of the port it did not serve last (R157). -/
def taken (s : State) (p : Port) : Bool :=
  canTake s p && !(canTake s (otherPort p) && s.lastServed = p)

/-- The engine takes the request: the hold empties, the port is recorded as served last and is LIVE (R156, R157, R159;
log 25). -/
def take (s : State) (p : Port) : State :=
  { s.setPort p { s.port p with hold := none, live := true } with lastServed := p }

/-- The liveness timer of an interval (R158): stopped for 0. -/
def livenessTimer (interval : Nat) : Timer := if interval = 0 then none else some (interval * 10)

/-- The reply begins to leave and the liveness timer restarts with the interval as it stands after the request (R157, R158). A
reply whose status is not OK has an empty body (R155). -/
def reply (p : Port) (kind : Byte) (a : Answer) : State :=
  a.state.setPort p { a.state.port p with
    liveness := livenessTimer (a.state.port p).interval
    sending := some ⟨replyFrame kind a.status (if a.status = .ok then a.body else []), a.resets⟩ }

/-- The kind of PING, the one request served while the part is STARTING (R157). -/
def pingKind : Byte := 0x01#8

/-- The status order of R157 for a kind of Table 10-2: MALFORMED, then BUSY while STARTING unless it is PING, then the
request's own rules. The part's state is that at the service, also for a frame that completed while STARTING (R164) and is taken after the
load's end, the model's choice (log 46). -/
def decideRequest (kind : Byte) (lengthOk : Bool) (carry : State → Answer) (s : State) : Answer :=
  if !lengthOk then .refuse s .malformed
  else if !s.inRun && kind ≠ pingKind then .refuse s .busy
  else carry s

/-- The request stands in the port's hold. Where the hold does not already keep exactly this request, its frame arrives now,
byte by byte (log 1). -/
def presented (p : Port) (kind : Byte) (body : List Byte) (s : State) : State :=
  if (s.port p).hold = some ⟨kind, body⟩ then s else receiveFrame s p kind body

/-- A request row: the request stands in the port's hold and, if the engine takes it, is served as one event; otherwise it
waits in the hold, or its frame was discarded by the receiver (R156, R157; log 1). -/
def request (p : Port) (kind : Byte) (body : List Byte) (answer : State → Answer) (s : State) : State :=
  let s := presented p kind body s
  if (s.port p).hold = some ⟨kind, body⟩ && taken s p then reply p kind (answer (take s p)) else s

/-- A request row of Table 10-2 with its body length. -/
def catalogued (p : Port) (kind : Byte) (length : Nat) (body : List Byte) (carry : State → Answer) (s : State) : State :=
  request p kind body (decideRequest kind (body.length = length) carry) s

end Sys2Proof.Machine
end

