-- ==== Sys2Proof/Machine/Heat.lean ====
section
/-! DEFINITION. The heat model (chapter 4): derating (R65), thermal states (R70, R71), the heat check (R66, R67), and the requests
READ HEAT (R76) and CLEAR STATS (R77). The cooling interval is in Machine/Cooling.lean. -/

namespace Sys2Proof.Machine

/-- The derated duty for a coil record and a heat (R65). -/
def derate (r : CoilRecord) (h : Nat) : Nat :=
  if h < r.warn then r.duty
  else if h < r.cutoff then r.duty - (h - r.warn) * (r.duty - 1) / (r.cutoff - r.warn)
  else 1

/-- The thermal state that the heat gives to a channel not in CUTOFF (R70). -/
def thermalOf (r : CoilRecord) (h : Nat) : Thermal :=
  if h < r.warn then .normal
  else if h < r.limit then .warm
  else if h < r.cutoff then .limited
  else .cutoff

/-- The channel's thermal state is CUTOFF. -/
def inCutoff (s : State) (c : ChannelId) : Bool := (s.chan c).heat.thermal = .cutoff

/-- A change of thermal state, with HEAT_WARN on both ports where it leaves NORMAL for another state (R71). -/
def setThermal (s : State) (c : ChannelId) (t : Thermal) : State :=
  let old := (s.chan c).heat
  let s := s.setHeat c { old with thermal := t }
  if old.thermal = .normal && t ≠ .normal then setFlagBoth s .heatWarn (some c.val) else s

/-- HEAT_CUTOFF on both ports and the cutoff count, at an entry into CUTOFF (R64, R67, R73). -/
def noteCutoff (s : State) (c : ChannelId) : State :=
  let x := (s.chan c).heat
  let s := s.setHeat c { x with stats := { x.stats with cutoffs := sat Config.top16 (x.stats.cutoffs + 1) } }
  setFlagBoth s .heatCutoff (some c.val)

/-- The channel enters CUTOFF (R67, R73). -/
def enterCutoff (s : State) (c : ChannelId) : State := noteCutoff (setThermal s c .cutoff) c

/-- The width after the shortening of R66, steps 2 and 3. -/
def checkedWidth (r : CoilRecord) (h w : Nat) : Nat :=
  if h + w * r.gain ≤ r.limit then w
  else min w (if h < r.limit then max r.wmin ((r.limit - h) / r.gain) else r.wmin)

/-- The charge of a passed check (R66, step 5): heat, fire count, shortened count, peak. -/
def Heat.charge (x : Heat) (r : CoilRecord) (w w' : Nat) : Heat :=
  let h := x.h + w' * r.gain
  { x with
    h := h
    stats := { x.stats with
      fires := sat Config.top16 (x.stats.fires + 1)
      shortened := if w' < w then sat Config.top16 (x.stats.shortened + 1) else x.stats.shortened
      peak := max x.stats.peak h } }

/-- The heat check of a channel not in CUTOFF with the requested width `w` (R66, R68): the width to drive, its heat charged; or none,
the channel having entered CUTOFF with its heat unchanged (R67). -/
def heatCheck (s : State) (c : ChannelId) (w : Nat) : State × Option Nat :=
  let r := (s.chan c).coil
  let x := (s.chan c).heat
  let w' := checkedWidth r x.h w
  if r.cutoff ≤ x.h + w' * r.gain then (enterCutoff s c, none)
  else
    let charged := x.charge r w w'
    (setThermal (s.setHeat c charged) c (thermalOf r charged.h), some w')

/-- The recomputation against a new coil record (R73, R79): a channel in CUTOFF stays there; another takes the state of its heat,
entering CUTOFF at or above C. -/
def recomputeThermal (s : State) (c : ChannelId) : State :=
  if inCutoff s c then s
  else
    let t := thermalOf (s.chan c).coil (s.chan c).heat.h
    if t = .cutoff then enterCutoff s c else setThermal s c t

/-- The channel enters HOLD at the d_eff its heat gives (R7, R65, R88), and its new load is reported. -/
def enterHold (s : State) (c : ChannelId) : State :=
  let ch := s.chan c
  s.setChan c { ch with state := .hold, heat := { ch.heat with dEff := derate ch.coil ch.heat.h } }

/-- The channel starts a drive (R6): DRIVE with its kind and width, timed from now. -/
def startDrive (s : State) (c : ChannelId) (kind : DriveKind) (w : Nat) : State :=
  s.setChan c { s.chan c with state := .drive kind w w }

/-- d_eff as READ HEAT returns it (R76). -/
def shownDuty (ch : Channel) : Nat := if ch.state = .hold then ch.heat.dEff else derate ch.coil ch.heat.h

/-- The reply body of READ HEAT (Table 10-5). -/
def heatBytes (ch : Channel) : List Byte :=
  let drive := match ch.state with
    | .drive kind width _ => [byte kind.code, byte width]
    | .off => [absent, 0#8]
    | .disabled => [absent, 0#8]
    | .idle => [absent, 0#8]
    | .hold => [absent, 0#8]
    | .recover _ _ => [absent, 0#8]
  let x := ch.heat
  byte ch.state.code :: drive ++ [byte ch.claims.code] ++ be16 ch.absorbed ++ be16 x.h ++
    [byte x.thermal.code, byte (shownDuty ch)] ++ be16 x.stats.fires ++ be16 x.stats.shortened ++ be16 x.stats.cutoffs ++
    be16 x.stats.peak ++ be24 x.stats.bandNormal ++ be24 x.stats.bandWarm ++ be24 x.stats.bandLimited ++
    be24 x.stats.bandCutoff

/-- READ HEAT (R76). -/
def readHeatRequest (body : List Byte) (s : State) : Answer :=
  match index 48 (u8 body 0) with
  | none => .refuse s .range
  | some c => .okWith s (heatBytes (s.chan c))

def execReadHeat (p : Port) (body : List Byte) (s : State) : Host.Outcome State Fault Refusal :=
  .next (catalogued p 0x09#8 1 body (readHeatRequest body) s)

/-- The statistics of a channel cleared: counts and band times 0, the peak at the present heat, the absorbed count 0 (R77). -/
def Channel.cleared (ch : Channel) : Channel :=
  { ch with
    absorbed := 0
    heat := { ch.heat with stats := { HeatStats.reset with peak := ch.heat.h } } }

/-- The statistics of one channel are cleared (R77). -/
def clearChannel (s : State) (c : ChannelId) : State := s.setChan c (s.chan c).cleared

/-- CLEAR STATS (R77); FFh names all channels (R166). -/
def clearStatsRequest (body : List Byte) (s : State) : Answer :=
  if u8 body 0 = 0xFF then .done (allChannels.foldl clearChannel s)
  else
    match index 48 (u8 body 0) with
    | none => .refuse s .range
    | some c => .done (clearChannel s c)

def execClearStats (p : Port) (body : List Byte) (s : State) : Host.Outcome State Fault Refusal :=
  .next (catalogued p 0x0A#8 1 body (clearStatsRequest body) s)

end Sys2Proof.Machine
end

