-- ==== Sys2Proof/Machine/Arbiter.lean ====
section
/-! DEFINITION. The pulse arbiter (chapter 3) with the feeders that its own walk reaches: pull-ins (R15), a stepper's step timing
and trains (R109, R111, R112, R115), freed places (R46), removals (R59), grants (R51 to R54), awards (R101).

An effect that brings a grant attempt only counts it (bring); `settle` makes the attempts one after another when the effect
has ended (R48, R50). -/

namespace Sys2Proof.Machine

/-! ### Pull-ins (R15) -/

/-- The pull-in condition of R15. -/
def pullInCondition (s : State) (c : ChannelId) : Bool :=
  let ch := s.chan c
  ch.coil.cls = .holdable && !ch.claims.isEmpty && ch.state = .idle && s.isUp && !inCutoff s c && (entryOf s c).isNone

/-- Makes the channel's PULL_IN entry: the default width, no deadline, the claim set as origin; a pull-in owed mark is cleared
(R15). -/
def makePullIn (s : State) (c : ChannelId) : State :=
  let ch := s.chan c
  enter (s.setChan c { ch with owed := false }) ⟨c, .pullIn ch.claims, ch.coil.defWidth, s.sw.partTime, none, 0⟩

/-- The test of the pull-in condition at one of the events of R15: an entry, or the owed mark where the list is full. -/
def pullInTest (s : State) (c : ChannelId) : State :=
  if pullInCondition s c then
    if listFull s then s.setChan c { s.chan c with owed := true } else makePullIn s c
  else s

/-! ### Trains and step timing (R109, R111, R112, R115) -/

/-- The channel of a direction (R111). -/
def StepperRecord.channelFor (r : StepperRecord) : Direction → Option ChannelId
  | .up => r.up
  | .down => r.down

/-- The homing direction (R121): UP for WRAP, DOWN for STOP. -/
def StepperRecord.homeDir (r : StepperRecord) : Direction :=
  match r.kind with
  | .wrap => .up
  | .stop => .down

/-- The state is HOMING. -/
def StepState.isHoming : StepState → Bool
  | .homing _ _ => true
  | .idle => false
  | .running _ _ => false
  | .faulted => false

/-- The direction of the step that the stepper has to make: RUNNING, or HOMING with a homing step to make (R111, R121). -/
def Stepper.nextDir (x : Stepper) : Option Direction :=
  match x.state with
  | .running train _ => some train.dir
  | .homing _ steps => if steps < x.cfg.positions + 2 then some x.cfg.homeDir else none
  | .idle => none
  | .faulted => none

/-- The channel, if there is one, is in DRIVE. -/
def driving (s : State) (c : Option ChannelId) : Bool :=
  match c with
  | none => false
  | some c => match (s.chan c).state with
    | .drive _ _ _ => true
    | .off => false
    | .disabled => false
    | .idle => false
    | .hold => false
    | .recover _ _ => false

/-- A step of the stepper is in DRIVE on either of its channels (R111; log 18). -/
def stepInDrive (s : State) (t : StepperId) : Bool :=
  (s.stepper t).inDrive.isSome || driving s (s.stepper t).cfg.up || driving s (s.stepper t).cfg.down

/-- The channel of the step that the stepper makes now, if the conditions of R111 all hold. -/
def stepReady (s : State) (t : StepperId) : Option ChannelId :=
  let x := s.stepper t
  match x.nextDir with
  | none => none
  | some d =>
    match x.cfg.channelFor d with
    | none => none
    | some c =>
      if s.isUp && (s.chan c).state = .idle && !inCutoff s c && !stepInDrive s t && x.spacing.isNone &&
          !hasStepEntry s t && (entryOf s c).isNone && !x.due then some c
      else none

/-- The running train of a STOP stepper stands at the end that its direction would pass (R112). -/
def Stepper.atEndStop (x : Stepper) : Bool :=
  match x.cfg.kind, x.state, x.position with
  | .stop, .running train _, some pos =>
    match train.dir with
    | .up => pos + 1 = x.cfg.positions
    | .down => pos = 0
  | _, _, _ => false

/-- The end of the running train (R115): the last-completed record, then the pending train with TRAIN_RELOAD, or IDLE with
TRAIN_DONE. -/
def endTrain (s : State) (t : StepperId) : State :=
  let x := s.stepper t
  match x.state with
  | .running train (some next) =>
    setFlagPorts (s.setStepper t { x with
      last := some ⟨train.delivered, .done⟩
      state := .running { next with delivered := 0 } none }) train.origin.ports .trainReload (some t.val)
  | .running train none =>
    setFlagPorts (s.setStepper t { x with last := some ⟨train.delivered, .done⟩, state := .idle })
      train.origin.ports .trainDone (some t.val)
  | .idle => s
  | .homing _ _ => s
  | .faulted => s

/-- The clamp of R112: the steps of the running train are consumed without drive, all in the one event, and the train ends. -/
def clampTrain (s : State) (t : StepperId) : State :=
  let x := s.stepper t
  match x.state with
  | .running train next =>
    endTrain (s.setStepper t { x with
      state := .running { train with remaining := 0 } next
      clamped := sat Config.top16 (x.clamped + train.remaining) }) t
  | .idle => s
  | .homing _ _ => s
  | .faulted => s

/-- The STEP entry of a stepper on a channel: the channel's default width and no deadline (R39, R111). -/
def stepEntry (s : State) (t : StepperId) (c : ChannelId) : Entry :=
  ⟨c, .step t, (s.chan c).coil.defWidth, s.sw.partTime, none, 0⟩

/-- The stepper's STEP entry is made (R111), for its homing or for its running train (R113). -/
def enterStep (s : State) (t : StepperId) (c : ChannelId) : State :=
  enter (s.setStepper t { s.stepper t with homingEntry := (s.stepper t).state.isHoming }) (stepEntry s t c)

/-- The step timing test of R111, at most `n` trains deep: a clamp ends a train and the test is made again for the next. -/
def stepTestN : Nat → State → StepperId → State
  | 0, s, _ => s
  | n + 1, s, t =>
    match stepReady s t with
    | none => s
    | some c =>
      if (s.stepper t).atEndStop then stepTestN n (clampTrain s t) t
      else if listFull s then s.setStepper t { s.stepper t with due := true }
      else enterStep s t c

/-- The step timing test of R111. A stepper has a running train and at most one pending train (R108), so at most two clamps come
before an entry or the end. -/
def stepTest (s : State) (t : StepperId) : State := stepTestN 3 s t

/-- The outcome of an accepted train (R110: RUNNING 0, PENDING 1, ADDED 2). -/
inductive TrainOutcome where
  | running
  | pending
  | added
  deriving DecidableEq, Repr

def TrainOutcome.code : TrainOutcome → Nat
  | .running => 0
  | .pending => 1
  | .added => 2

/-- The answer to an offered train (R109). -/
inductive Offered where
  | refused
  | busy
  | taken (outcome : TrainOutcome) (steps dropped : Nat)
  deriving DecidableEq, Repr

/-- The steps of the offer that were taken. -/
def Offered.steps : Offered → Nat
  | .refused => 0
  | .busy => 0
  | .taken _ n _ => n

/-- Steps offered and not taken are counted lost (R108, R109). -/
def Stepper.lose (x : Stepper) (k : Nat) : Stepper := { x with lost := sat Config.top16 (x.lost + k) }

/-- A train of `k` steps offered to a stepper (R109), from a port or as an award or a carry (`counted`, whose steps are counted
lost where the train is not taken). -/
def offerTrain (s : State) (t : StepperId) (dir : Direction) (k : Nat) (origin : Origin) (counted : Bool) : State × Offered :=
  let x := s.stepper t
  let turnedAway := if counted then s.setStepper t (x.lose k) else s
  if x.cfg.up.isNone then (turnedAway, .refused)
  else
    match x.state with
    | .faulted => (turnedAway, .refused)
    | .homing _ _ => (turnedAway, .busy)
    | .idle =>
      if dir = .down && (x.cfg.kind = .wrap || x.cfg.down.isNone) then (turnedAway, .refused)
      else (stepTest (s.setStepper t { x with state := .running ⟨dir, k, 0, origin⟩ none }) t, .taken .running k 0)
    | .running train none =>
      if dir = .down && (x.cfg.kind = .wrap || x.cfg.down.isNone) then (turnedAway, .refused)
      else (s.setStepper t { x with state := .running train (some ⟨dir, k, 0, origin⟩) }, .taken .pending k 0)
    | .running train (some next) =>
      if dir = .down && (x.cfg.kind = .wrap || x.cfg.down.isNone) then (turnedAway, .refused)
      else if dir = next.dir then
        let steps := min k (Config.trainMax - next.remaining)
        let joined := { next with
          remaining := next.remaining + steps
          origin := ⟨next.origin.ports.union origin.ports, next.origin.loc || origin.loc⟩ }
        (s.setStepper t { x.lose (k - steps) with state := .running train (some joined) }, .taken .added steps (k - steps))
      else (turnedAway, .busy)

/-! ### Freed places (R46) -/

/-- A channel with a pull-in owed is given a freed place (R46, R15). -/
def handoutChannel (s : State) (c : ChannelId) : State :=
  if !listFull s && (s.chan c).owed then
    let s := s.setChan c { s.chan c with owed := false }
    if pullInCondition s c then makePullIn s c else s
  else s

/-- A stepper with a step due is given a freed place (R46, R111). -/
def handoutStepper (s : State) (t : StepperId) : State :=
  if !listFull s && (s.stepper t).due then stepTest (s.setStepper t { s.stepper t with due := false }) t else s

/-- The freed place, and each place that is left, goes to the channels with a pull-in owed in ascending number, then to the
steppers with a step due in round-robin order, until the list is full again (R46). -/
def handout (s : State) : State :=
  (roundRobin s.arb.pointer).foldl handoutStepper (allChannels.foldl handoutChannel s)

/-! ### Removal without grant (R59) and its reports -/

/-- The link counts a loss (R102, R103). -/
def Link.lose (x : Link) : Link := { x with lost := sat Config.top16 (x.lost + 1) }

/-- A FIRE entry of the link has left without a grant: the entry mark is cleared and the lost count rises (R102). -/
def loseFire (s : State) (k : LinkId) : State := s.setLink k { (s.link k).lose with entry := false }

/-- The entry leaves the list without a grant (R59): the list closes up, a blocking entry's removal brings an attempt, a place
freed in a full list is handed out, and the channel unit tests the pull-in condition for a PULSE, FIRE or PULL_IN. -/
def removeEntry (s : State) (e : Entry) : State :=
  let full := listFull s
  let s := dropEntry s e.channel
  let s := if e.passed = Config.blockingCount then bring s else s
  let s := if full then handout s else s
  match e.work with
  | .step _ => s
  | .pulse _ => pullInTest s e.channel
  | .pullIn _ => pullInTest s e.channel
  | .fire _ _ => pullInTest s e.channel

/-- The report of a removal for the reason EXPIRED, HOT or SUPPLY, by kind (R27, R53, R56). A PULL_IN is told of HOT alone. -/
def reportDropped (s : State) (e : Entry) (r : DropReason) : State :=
  match e.work with
  | .pulse origin => dropPulse s origin e.channel r
  | .pullIn origin => if r = .hot then dropPulse s origin e.channel r else s
  | .fire k notified => dropPulse (loseFire s k) notified e.channel r
  | .step _ => s

/-- The report of a removal that tells no port (R16, R17, R57, R58): a FIRE is counted lost by its link. -/
def reportQuietly (s : State) (e : Entry) : State :=
  match e.work with
  | .fire k _ => loseFire s k
  | .pulse _ => s
  | .pullIn _ => s
  | .step _ => s

/-! ### Grants (R51, R52) -/

/-- A wait entry's drive kind (Table 1-5). -/
def Work.kind : Work → DriveKind
  | .pulse _ => .pulse
  | .pullIn _ => .pullIn
  | .fire _ _ => .fire
  | .step _ => .step

/-- The mark of a step at its grant (R113): what its entry was made for, homing or running train. -/
def Stepper.newMark (x : Stepper) : StepMark := if x.homingEntry then .homing else .train

/-- The grant of a STEP entry: the pointer moves on (R49), the stepper records the step in drive and starts its spacing timer
(R111, R113). -/
def grantStep (s : State) (t : StepperId) (c : ChannelId) : State :=
  let x := s.stepper t
  let s := s.setArb { s.arb with pointer := t + 1 }
  s.setStepper t { x with inDrive := some ⟨c, x.newMark⟩, spacing := some x.cfg.spacing }

/-- The grant of a FIRE entry (R101): the link's mark is cleared, its fired count rises, and its award, if it has one, is
offered as an up-train of origin LOCAL; if no step of it is taken, the lost count rises. -/
def grantFire (s : State) (k : LinkId) : State :=
  let x := s.link k
  let s := s.setLink k { x with entry := false, fired := sat Config.top16 (x.fired + 1) }
  match x.cfg.award with
  | none => s
  | some award =>
    let (s, answer) := offerTrain s award.stepper .up award.steps ⟨.empty, true⟩ true
    if answer.steps = 0 then s.setLink k (s.link k).lose else s

/-- The grant of an entry at the width that the heat check passed (R52): it leaves the list, its drive starts, a STEP is
reported, a place freed in a full list is handed out (log 13), a FIRE is reported. That a STEP moves the pointer before the place is handed
out round-robin from it is the model's choice (log 48). -/
def grant (s : State) (e : Entry) (w : Nat) : State :=
  let full := listFull s
  let s := startDrive (dropEntry s e.channel) e.channel e.work.kind w
  let s := match e.work with
    | .step t => grantStep s t e.channel
    | .pulse _ => s
    | .pullIn _ => s
    | .fire _ _ => s
  let s := if full then handout s else s
  match e.work with
  | .fire k _ => grantFire s k
  | .pulse _ => s
  | .pullIn _ => s
  | .step _ => s

/-- The removal of an entry that the heat check refused (R53). -/
def refuseEntry (s : State) (e : Entry) : State := removeEntry (reportDropped s e .hot) e

/-! ### The grant attempt (R47, R48, R51, R54) -/

/-- An entry is eligible: its channel is IDLE and not in CUTOFF, and the supply is UP (R47). -/
def eligible (s : State) (e : Entry) : Bool :=
  (s.chan e.channel).state = .idle && !inCutoff s e.channel && s.isUp

def Work.isFire : Work → Bool
  | .fire _ _ => true
  | .pulse _ => false
  | .pullIn _ => false
  | .step _ => false

def Work.isPort : Work → Bool
  | .pulse _ => true
  | .pullIn _ => true
  | .fire _ _ => false
  | .step _ => false

/-- The selection order (R48), as channels: eligible FIRE entries oldest first, then PULSE and PULL_IN oldest first, then STEP
entries in round-robin order from the pointer. -/
def selection (s : State) : List ChannelId :=
  let l := s.arb.waitList.filter fun e => eligible s e
  let steps := (roundRobin s.arb.pointer).filterMap fun t => l.find? fun e => e.work = .step t
  ((l.filter fun e => e.work.isFire) ++ (l.filter fun e => e.work.isPort) ++ steps).map Entry.channel

/-- The fit test (R36). -/
def fits (s : State) (c : ChannelId) : Bool := s.arb.general + (s.chan c).coil.weight ≤ generalPool s

/-- The walk of R51 over the selection order. `failed` are the entries that have failed the fit test so far; `passed` those of
them that stand ahead of a granted entry (R54). -/
def walk : List ChannelId → List ChannelId → List ChannelId → State → State × List ChannelId
  | [], _, passed, s => (s, passed)
  | c :: rest, failed, passed, s =>
    match entryOf s c with
    | none => walk rest failed passed s
    | some e =>
      if fits s c then
        match heatCheck s c e.width with
        | (s, none) => walk rest failed passed (refuseEntry s e)
        | (s, some w) => walk rest failed failed (grant s e w)
      else if e.passed = Config.blockingCount then (s, passed)
      else walk rest (failed ++ [c]) passed s

/-- The pass-over counts at the end of an attempt (R54). -/
def raisePassed (s : State) (cs : List ChannelId) : State :=
  s.setWaitList (s.arb.waitList.map fun e =>
    if e.channel ∈ cs then { e with passed := min Config.blockingCount (e.passed + 1) } else e)

/-- One grant attempt (R51, R54). -/
def attempt (s : State) : State :=
  let (s, passed) := walk (selection s) [] [] s
  raisePassed s passed

/-- The attempts that the present effects have brought, one after another (R48), with those that they bring in turn. -/
def settleN : Nat → State → State
  | 0, s => s.setArb { s.arb with attempts := 0 }
  | n + 1, s =>
    if s.arb.attempts = 0 then s
    else settleN n (attempt (s.setArb { s.arb with attempts := s.arb.attempts - 1 }))

/-- Every attempt brought is made. An attempt that grants and refuses nothing changes nothing and brings none, and one that does
takes a channel out of IDLE or into CUTOFF, so 48 channels bound the attempts that do anything (log 21). -/
def settle (s : State) : State := settleN 49 s

/-- A report that brings one attempt, made at once (R50, R55). -/
def attemptNow (s : State) : State := settle (bring s)

end Sys2Proof.Machine
end

