-- ==== Sys2Proof/Machine/Steppers.lean ====
section
/-! DEFINITION. The stepper unit (chapter 7) beyond train offers and step timing, which Machine/Arbiter.lean holds: home verification,
homing, faults, drive ends, carries, banks, and the stepper requests. -/

namespace Sys2Proof.Machine

/-! ### Faults, verification and homing (R117, R118, R121) -/

/-- The arbiter removes the stepper's STEP entry, if it has one (R58). -/
def removeStepEntry (s : State) (t : StepperId) : State :=
  match s.arb.waitList.find? (fun e => e.work = .step t) with
  | none => s
  | some e => removeEntry s e

/-- The delivered count of the running train, or the homing steps. -/
def StepState.delivered : StepState → Option Nat
  | .idle => none
  | .running train _ => some train.delivered
  | .homing _ steps => some steps
  | .faulted => none

/-- The last-completed record after the present train or homing ends so; without one the record stays (log 36). -/
def Stepper.completed (x : Stepper) (ended : EndedBy) : Option Completed :=
  match x.state.delivered with
  | some n => some ⟨n, ended⟩
  | none => x.last

/-- The stepper goes to FAULTED (R118); after a disable or an unfound home its position is UNKNOWN. -/
def faultStepper (s : State) (t : StepperId) (unknown : Bool) : State :=
  let x := s.stepper t
  let s := s.setStepper t { x with
    state := .faulted
    position := if unknown then none else x.position
    last := x.completed .fault
    due := false
    inDrive := none }
  setFlagBoth (removeStepEntry s t) .stepperFault (some t.val)

/-- A SLIP or a MISS (R117): the position is the home position in both, the mismatch count rises, and at 3 the stepper faults. A
count that already stands at 3 stays there and faults the stepper again, the model's choice (log 42). -/
def mismatch (s : State) (t : StepperId) : State :=
  let x := s.stepper t
  let s := s.setStepper t { x with position := some x.cfg.homePos, mismatch := min 3 (x.mismatch + 1) }
  if 3 ≤ x.mismatch + 1 then faultStepper s t false else s

/-- The verification of R117 against the home switch as it reads. -/
def verifyAgainst (s : State) (t : StepperId) (closed : Bool) : State :=
  let x := s.stepper t
  match closed, x.position with
  | true, none => s.setStepper t { x with position := some x.cfg.homePos }
  | true, some pos => if pos = x.cfg.homePos then s.setStepper t { x with mismatch := 0 } else mismatch s t
  | false, none => s
  | false, some pos => if pos = x.cfg.homePos then mismatch s t else s.setStepper t { x with mismatch := 0 }

/-- Home is found (R121). A homing entry still waiting, a homing step in DRIVE or a step due, which only a stepper with two channels can
have here, is left as it stands, the model's choice (log 45). -/
def homeFound (s : State) (t : StepperId) (origin : PortSet) (steps : Nat) : State :=
  let x := s.stepper t
  setFlagPorts (s.setStepper t { x with
    position := some x.cfg.homePos
    mismatch := 0
    state := .idle
    last := some ⟨steps, .done⟩ }) origin .trainDone (some t.val)

/-- The homing test (R121), but for the step timing test, which follows it. -/
def homingTest (s : State) (t : StepperId) (closed : Bool) (origin : PortSet) (steps : Nat) : State :=
  if closed then homeFound s t origin steps
  else if steps < (s.stepper t).cfg.positions + 2 then s
  else faultStepper s t true

/-- What the stepper makes of a return to IDLE after a drive of its own: the homing test in HOMING, the verification in IDLE and
RUNNING with a home switch, nothing otherwise (R117, R121). -/
def lookHome (s : State) (t : StepperId) : State :=
  let x := s.stepper t
  match x.cfg.home with
  | none => s
  | some w =>
    match x.state with
    | .idle => verifyAgainst s t (s.closed w)
    | .running _ _ => verifyAgainst s t (s.closed w)
    | .homing origin steps => homingTest s t (s.closed w) origin steps
    | .faulted => s

/-- The return to IDLE of one of the stepper's channels, reported to it (R11): verification or homing test after a drive of the
stepper, then the step timing test (R111). -/
def stepperIdle (s : State) (t : StepperId) (afterStep : Bool) : State :=
  stepTest (if afterStep then lookHome s t else s) t

/-! ### The drive end and the cut of a step (R113, R114, R116) -/

/-- The counts after a step of this mark reached its drive end (R113). -/
def StepState.count (x : StepState) (mark : StepMark) : StepState :=
  match mark, x with
  | .train, .running train next =>
    .running { train with remaining := train.remaining - 1, delivered := train.delivered + 1 } next
  | .homing, .homing origin steps => .homing origin (steps + 1)
  | _, x => x

/-- The direction of a step made on a channel of the stepper. -/
def StepperRecord.dirOf (r : StepperRecord) (c : ChannelId) : Direction := if r.up = some c then .up else .down

/-- The position one step further (R113); a STOP unit stays within its positions (log 37). -/
def StepperRecord.advance (r : StepperRecord) (dir : Direction) (pos : Nat) : Nat :=
  match r.kind, dir with
  | .wrap, _ => if pos + 1 = r.positions then 0 else pos + 1
  | .stop, .up => min (pos + 1) (r.positions - 1)
  | .stop, .down => pos - 1

/-- The step takes a WRAP stepper from its last position to 0. -/
def Stepper.wraps (x : Stepper) : Bool := x.cfg.kind = .wrap && x.position = some (x.cfg.positions - 1)

/-- The origin of a carry (R116): that of the train the wrapping step belonged to, LOCAL where the train was cleared. -/
def StepState.carryOrigin (x : StepState) (mark : StepMark) : Origin :=
  match mark, x with
  | .train, .running train _ => train.origin
  | _, _ => ⟨.empty, true⟩

/-- The bank of which the stepper is the top reel, if it is one. -/
def topReelOf (s : State) (t : StepperId) : Option BankId :=
  (List.finRange 4).find? fun n => (s.bank n).getLast? = some t

/-- The carry or the ROLLOVER of a wrap (R116). -/
def carry (s : State) (t : StepperId) (origin : Origin) : State :=
  match topReelOf s t with
  | some n => setFlagBoth s .rollover (some n.val)
  | none =>
    match (s.stepper t).cfg.carry with
    | none => s
    | some target => (offerTrain s target .up 1 origin true).1

/-- The running train has no step left. -/
def Stepper.trainDone (x : Stepper) : Bool :=
  match x.state with
  | .running train _ => train.remaining = 0
  | .idle => false
  | .homing _ _ => false
  | .faulted => false

/-- The drive end of a step, reported to its stepper (R113): counts, position, carry, end of the train. A reloaded train tests R111
here (R115), except where the channel's return to IDLE follows in the same event (`idleFollows`; log 20). -/
def stepDriveEnd (s : State) (t : StepperId) (c : ChannelId) (idleFollows : Bool) : State :=
  let x := s.stepper t
  match x.inDrive with
  | none => s
  | some step =>
    if step.channel = c then
      let wraps := x.wraps
      let origin := x.state.carryOrigin step.mark
      let s := s.setStepper t { x with
        inDrive := none
        state := x.state.count step.mark
        position := x.position.map (x.cfg.advance (x.cfg.dirOf c)) }
      let s := if wraps then carry s t origin else s
      if (s.stepper t).trainDone then
        let s := endTrain s t
        if idleFollows then s else stepTest s t
      else s
    else s

/-- A step's drive is cut by a supply loss (R114). -/
def cutStep (s : State) (t : StepperId) : State :=
  s.setStepper t { s.stepper t with inDrive := none, position := none }

/-! ### SPACING_EXPIRY (R111) -/

/-- The spacing timer expires and the stepper tests R111. -/
def spacingExpiry (t : StepperId) (s : State) : State :=
  if due (s.stepper t).spacing then settle (stepTest (s.setStepper t { s.stepper t with spacing := none }) t) else s

def execSpacingExpiry (t : StepperId) (s : State) : Host.Outcome State Fault Refusal := .next (spacingExpiry t s)

/-! ### STEP (R110) -/

/-- The reply to an offered train. -/
def offerAnswer (before : State) (result : State × Offered) : Answer :=
  match result.2 with
  | .refused => .refuse before .refused
  | .busy => .refuse before .busy
  | .taken outcome steps dropped => .okWith (settle result.1) (byte outcome.code :: be16 steps ++ be16 dropped)

/-- STEP (R110, R109). -/
def stepRequest (p : Port) (body : List Byte) (s : State) : Answer :=
  match index 16 (u8 body 0), directionOf (u8 body 1) with
  | some t, some dir =>
    if u16 body 2 = 0 then .refuse s .range
    else offerAnswer s (offerTrain s t dir (min (u16 body 2) Config.trainMax) ⟨.single p, false⟩ false)
  | _, _ => .refuse s .range

def execStep (p : Port) (body : List Byte) (s : State) : Host.Outcome State Fault Refusal :=
  .next (catalogued p 0x0F#8 4 body (stepRequest p body) s)

/-! ### STOP STEPPER (R119) -/

/-- The ports told of a stop: those of both trains' origins, or of the homing origin (R119). -/
def StepState.told : StepState → PortSet
  | .idle => .empty
  | .running train none => train.origin.ports
  | .running train (some next) => train.origin.ports.union next.origin.ports
  | .homing origin _ => origin
  | .faulted => .empty

/-- A RUNNING or HOMING stepper is stopped (R119): trains or homing cleared, a step in DRIVE marked cleared, the STEP entry removed,
TRAIN_STOPPED. -/
def stopStepper (s : State) (t : StepperId) : State :=
  let x := s.stepper t
  let s := s.setStepper t { x with
    state := .idle
    due := false
    last := x.completed .stopped
    inDrive := x.inDrive.map fun step => { step with mark := .cleared } }
  setFlagPorts (removeStepEntry s t) x.state.told .trainStopped (some t.val)

/-- STOP STEPPER (R119). -/
def stopStepperRequest (body : List Byte) (s : State) : Answer :=
  match index 16 (u8 body 0) with
  | none => .refuse s .range
  | some t =>
    match (s.stepper t).state.delivered with
    | none => .okWith s (be16 0)
    | some n => .okWith (settle (stopStepper s t)) (be16 n)

def execStopStepper (p : Port) (body : List Byte) (s : State) : Host.Outcome State Fault Refusal :=
  .next (catalogued p 0x10#8 1 body (stopStepperRequest body) s)

/-! ### HOME (R120) -/

/-- The channel, if there is one, is in DRIVE or RECOVER. -/
def drivingOrRecovering (s : State) (c : Option ChannelId) : Bool :=
  match c with
  | none => false
  | some c => match (s.chan c).state with
    | .drive _ _ _ => true
    | .recover _ _ => true
    | .off => false
    | .disabled => false
    | .idle => false
    | .hold => false

/-- The homing channel of a record that HOME takes: with an up channel and a home switch, and for STOP a down channel (R120). -/
def StepperRecord.homingChannel (r : StepperRecord) : Option ChannelId :=
  if r.up.isNone || r.home.isNone then none else r.channelFor r.homeDir

/-- The home switch reads closed. -/
def atHome (s : State) (t : StepperId) : Bool :=
  match (s.stepper t).cfg.home with
  | none => false
  | some w => s.closed w

/-- What was running is stopped (R120). -/
def stopRunning (s : State) (t : StepperId) : State :=
  match (s.stepper t).state with
  | .running _ _ => stopStepper s t
  | .idle => s
  | .homing _ _ => s
  | .faulted => s

/-- Home is found at once at a resting unit whose switch is closed, else the homing begins (R120); whether it was found. -/
def beginHoming (p : Port) (s : State) (t : StepperId) : State × Bool :=
  let r := (s.stepper t).cfg
  if !drivingOrRecovering s r.up && !drivingOrRecovering s r.down && atHome s t then
    (homeFound s t (.single p) 0, true)
  else (stepTest (s.setStepper t { s.stepper t with position := none, state := .homing (.single p) 0 }) t, false)

/-- An accepted HOME (R120): what was running is stopped, the step due mark and the STEP entry go, and the homing begins. That the attempt which
the removal of a blocking entry brings (R59) is made after the first homing step was entered is the model's choice (log 49). -/
def home (p : Port) (s : State) (t : StepperId) : State × Bool :=
  let s := stopRunning s t
  beginHoming p (removeStepEntry (s.setStepper t { s.stepper t with due := false }) t) t

/-- The state is RUNNING. -/
def StepState.isRunning : StepState → Bool
  | .running _ _ => true
  | .idle => false
  | .homing _ _ => false
  | .faulted => false

/-- HOME (R120); outcome FOUND 0 or HOMING 1. -/
def homeRequest (p : Port) (body : List Byte) (s : State) : Answer :=
  match index 16 (u8 body 0) with
  | none => .refuse s .range
  | some t =>
    match (s.stepper t).cfg.homingChannel with
    | none => .refuse s .refused
    | some c =>
      if (s.chan c).state = .disabled then .refuse s .refused
      else if (s.stepper t).state.isHoming then .refuse s .busy
      else
        let (s, found) := home p s t
        .okWith (settle s) [if found then 0#8 else 1#8]

def execHome (p : Port) (body : List Byte) (s : State) : Host.Outcome State Fault Refusal :=
  .next (catalogued p 0x11#8 1 body (homeRequest p body) s)

/-! ### SET POSITION (R122) -/

/-- SET POSITION (R122); FFh is UNKNOWN (R166). -/
def setPositionRequest (body : List Byte) (s : State) : Answer :=
  match index 16 (u8 body 0) with
  | none => .refuse s .range
  | some t =>
    let x := s.stepper t
    let unknown := u8 body 1 = 0xFF
    if x.cfg.up.isNone then .refuse s .refused
    else if !unknown && x.cfg.positions ≤ u8 body 1 then .refuse s .range
    else if x.state ≠ .idle then .refuse s .busy
    else .done (s.setStepper t { x with position := if unknown then none else some (u8 body 1), mismatch := 0 })

def execSetPosition (p : Port) (body : List Byte) (s : State) : Host.Outcome State Fault Refusal :=
  .next (catalogued p 0x12#8 2 body (setPositionRequest body) s)

/-! ### READ STEPPER (R123) -/

/-- A train in READ STEPPER: direction, remaining, delivered, origin (Table 10-5). -/
def trainBytes (train : Option Train) : List Byte :=
  match train with
  | none => absent :: be16 0 ++ be16 0 ++ [0#8]
  | some x => byte x.dir.code :: be16 x.remaining ++ be16 x.delivered ++ [byte x.origin.code]

/-- The state's trains, homing steps and homing origin, as READ STEPPER shows them. -/
def StepState.runningTrain : StepState → Option Train
  | .running train _ => some train
  | .idle => none
  | .homing _ _ => none
  | .faulted => none

def StepState.pendingTrain : StepState → Option Train
  | .running _ next => next
  | .idle => none
  | .homing _ _ => none
  | .faulted => none

def StepState.homingSteps : StepState → Nat
  | .homing _ steps => steps
  | .idle => 0
  | .running _ _ => 0
  | .faulted => 0

def StepState.homingOrigin : StepState → PortSet
  | .homing origin _ => origin
  | .idle => .empty
  | .running _ _ => .empty
  | .faulted => .empty

/-- A switch's debounced state in a reply, FFh where no switch is named (R166). -/
def switchByte (s : State) (w : Option SwitchId) : Byte :=
  match w with
  | none => absent
  | some w => closedByte (s.closed w)

/-- The reply body of READ STEPPER (Table 10-5). -/
def stepperBytes (s : State) (t : StepperId) : List Byte :=
  let x := s.stepper t
  let last := match x.last with
    | none => be16 0 ++ [absent]
    | some l => be16 l.delivered ++ [byte l.ended.code]
  x.cfg.bytes ++ [boolByte x.cfg.up.isSome, byte x.state.code, natByte x.position] ++ trainBytes x.state.runningTrain ++
    trainBytes x.state.pendingTrain ++ [byte x.mismatch] ++ be16 x.lost ++ be16 x.clamped ++ last ++
    [boolByte x.due, boolByte (hasStepEntry s t), boolByte (stepInDrive s t), switchByte s x.cfg.home,
      byte x.state.homingSteps, byte x.state.homingOrigin.code]

/-- READ STEPPER (R123). -/
def readStepperRequest (body : List Byte) (s : State) : Answer :=
  match index 16 (u8 body 0) with
  | none => .refuse s .range
  | some t => .okWith s (stepperBytes s t)

def execReadStepper (p : Port) (body : List Byte) (s : State) : Host.Outcome State Fault Refusal :=
  .next (catalogued p 0x13#8 1 body (readStepperRequest body) s)

/-! ### CONFIGURE STEPPER (R124) -/

/-- A channel that a stepper record may name: of class STEPPER and named by no other stepper (R124, check 5). -/
def channelForStepper (s : State) (t : StepperId) (c : Option ChannelId) : Bool :=
  match c with
  | none => true
  | some c => (s.chan c).coil.cls = .stepper && allSteppers.all fun u => u = t || !(s.stepper u).cfg.names c

/-- A configured WRAP record (R107). -/
def StepperRecord.isWrap (r : StepperRecord) : Bool := r.up.isSome && r.kind = .wrap

/-- A configured WRAP record of 10 positions (R126). -/
def StepperRecord.isReel (r : StepperRecord) : Bool := r.isWrap && r.positions = 10

/-- Check 5 of R124. -/
def stepperNamesFit (s : State) (t : StepperId) (r : StepperRecord) : Bool :=
  channelForStepper s t r.up && channelForStepper s t r.down && (r.up.isNone || r.up ≠ r.down) &&
  match r.kind with
  | .wrap => r.down.isNone && match r.carry with
    | none => true
    | some u => t < u && (s.stepper u).cfg.isWrap
  | .stop => r.carry.isNone

/-- The stepper is a reel of a bank. -/
def isBankReel (s : State) (t : StepperId) : Bool := (List.finRange 4).any fun n => t ∈ s.bank n

/-- Check 6 of R124. -/
def stepperRoleKept (s : State) (t : StepperId) (r : StepperRecord) : Bool :=
  (!isBankReel s t || r.isReel) &&
  ((allSteppers.all fun u => u = t || (s.stepper u).cfg.carry ≠ some t) || r.isWrap)

/-- CONFIGURE STEPPER (R124). -/
def configureStepperRequest (body : List Byte) (s : State) : Answer :=
  match index 16 (u8 body 0), stepperRecordOf body with
  | some t, some r =>
    let x := s.stepper t
    if s.saving then .refuse s .busy
    else if x.state.isRunning || x.state.isHoming || hasStepEntry s t || stepInDrive s t then .refuse s .busy
    else if !stepperNamesFit s t r then .refuse s .refused
    else if !stepperRoleKept s t r then .refuse s .refused
    else .done (s.setStepper t { Stepper.reset with cfg := if isBankReel s t then { r with carry := x.cfg.carry } else r })
  | _, _ => .refuse s .range

def execConfigureStepper (p : Port) (body : List Byte) (s : State) : Host.Outcome State Fault Refusal :=
  .next (catalogued p 0x14#8 10 body (configureStepperRequest body) s)

/-! ### CONFIGURE BANK (R126) -/

/-- A stepper's carry target is written. -/
def setCarry (s : State) (t : StepperId) (target : Option StepperId) : State :=
  s.setStepper t { s.stepper t with cfg := { (s.stepper t).cfg with carry := target } }

/-- Each reel's carry target becomes the reel after it, the last one's none (R126). -/
def joinReels : List StepperId → State → State
  | [], s => s
  | [t], s => setCarry s t none
  | t :: u :: rest, s => joinReels (u :: rest) (setCarry s t (some u))

/-- The list is in strictly ascending stepper index, so that no stepper stands twice in it (R126). -/
def ascending : List StepperId → Bool
  | [] => true
  | [_] => true
  | t :: u :: rest => t < u && ascending (u :: rest)

/-- A stepper that a bank may list: a configured WRAP stepper of 10 positions that is no reel of another bank (R126). -/
def reelForBank (s : State) (n : BankId) (t : StepperId) : Bool :=
  (s.stepper t).cfg.isReel && (List.finRange 4).all fun m => m = n || t ∉ s.bank m

/-- The stepper is RUNNING or HOMING. -/
def stepperMoving (s : State) (t : StepperId) : Bool := (s.stepper t).state.isRunning || (s.stepper t).state.isHoming

/-- CONFIGURE BANK (R126). -/
def configureBankRequest (body : List Byte) (s : State) : Answer :=
  match index 4 (u8 body 0), reelsOf body with
  | some n, some reels =>
    if s.saving then .refuse s .busy
    else if !ascending reels || !reels.all (reelForBank s n) then .refuse s .refused
    else if (s.bank n ++ reels).any (stepperMoving s) then .refuse s .busy
    else .done ((joinReels reels ((s.bank n).foldl (fun s t => setCarry s t none) s)).setBank n reels)
  | _, _ => .refuse s .range

def execConfigureBank (p : Port) (body : List Byte) (s : State) : Host.Outcome State Fault Refusal :=
  .next (catalogued p 0x17#8 7 body (configureBankRequest body) s)

/-! ### ADD SCORE (R127) -/

/-- The digits of `v`, units first, offered to the reels as trains UP. Answers the steps taken and dropped at each reel (R127). That the
attempt which an offer's entry brings is made before the next reel's offer is the model's choice (log 50). -/
def addDigits (p : Port) : List StepperId → Nat → State → State × List Byte
  | [], _, s => (s, [])
  | t :: rest, v, s =>
    if v % 10 = 0 then
      let (s, replies) := addDigits p rest (v / 10) s
      (s, 0#8 :: 0#8 :: replies)
    else
      let (s, answer) := offerTrain s t .up (v % 10) ⟨.single p, false⟩ false
      let (s, replies) := addDigits p rest (v / 10) (settle s)
      (s, byte answer.steps :: byte (v % 10 - answer.steps) :: replies)

/-- ADD SCORE (R127). -/
def addScoreRequest (p : Port) (body : List Byte) (s : State) : Answer :=
  match index 4 (u8 body 0) with
  | none => .refuse s .range
  | some n =>
    let reels := s.bank n
    let v := u24 body 1
    if reels = [] then .refuse s .refused
    else if v = 0 || 10 ^ reels.length ≤ v then .refuse s .range
    else if reels.any (fun t => (s.stepper t).state = .faulted) then .refuse s .refused
    else if reels.any (fun t => (s.stepper t).state.isHoming) then .refuse s .busy
    else
      let (s, replies) := addDigits p reels v s
      .okWith s (replies ++ List.replicate (10 - replies.length) 0#8)

def execAddScore (p : Port) (body : List Byte) (s : State) : Host.Outcome State Fault Refusal :=
  .next (catalogued p 0x15#8 4 body (addScoreRequest p body) s)

/-! ### READ BANK (R128) -/

/-- The reply body of READ BANK (Table 10-5). -/
def readBankBytes (s : State) (reels : List StepperId) : List Byte :=
  let reel (i : Nat) : List Byte := match reels[i]? with
    | none => [absent, absent]
    | some t => [byte t.val, natByte (s.stepper t).position]
  byte reels.length :: (List.range 5).flatMap reel ++
    [boolByte (reels.any fun t => stepperMoving s t || stepInDrive s t)]

/-- READ BANK (R128). -/
def readBankRequest (body : List Byte) (s : State) : Answer :=
  match index 4 (u8 body 0) with
  | none => .refuse s .range
  | some n => .okWith s (readBankBytes s (s.bank n))

def execReadBank (p : Port) (body : List Byte) (s : State) : Host.Outcome State Fault Refusal :=
  .next (catalogued p 0x16#8 1 body (readBankRequest body) s)

/-! ### A port's lapse (R125) -/

/-- A port is taken out of a train's origin. -/
def Train.forget (x : Train) (p : Port) : Train := { x with origin := { x.origin with ports := x.origin.ports.remove p } }

/-- A port is taken out of every origin of the stepper (R125). -/
def Stepper.forget (x : Stepper) (p : Port) : Stepper :=
  { x with state := match x.state with
    | .idle => .idle
    | .running train next => .running (train.forget p) (next.map fun y => y.forget p)
    | .homing origin steps => .homing (origin.remove p) steps
    | .faulted => .faulted }

end Sys2Proof.Machine
end

