-- ==== Sys2Proof/Machine/Ends.lean ====
section
/-! DEFINITION. How a channel leaves DRIVE or HOLD for RECOVER or IDLE, and the reports of a return to IDLE (R7, R10, R11, R55). -/

namespace Sys2Proof.Machine

/-- The output turns off, the load becomes 0, and the channel goes to RECOVER for its gap, or to IDLE where the gap is 0 (R7, R8,
R10). `after` is the stepper whose step's drive has ended or was cut. -/
def rest (s : State) (c : ChannelId) (after : Option StepperId) : State :=
  let ch := s.chan c
  s.setChan c { ch with state := if ch.coil.gap = 0 then .idle else .recover ch.coil.gap after }

/-- The reports of a return to IDLE (R11): to the arbiter, to the stepper that names the channel, to the pull-in test. -/
def reportIdle (s : State) (c : ChannelId) (after : Option StepperId) : State :=
  let s := attemptNow s
  let s := match stepperOf s c with
    | none => s
    | some t => settle (stepperIdle s t (after = some t))
  settle (pullInTest s c)

/-- The channel's gap is 0, so that it passes straight to IDLE (R7). -/
def gapless (s : State) (c : ChannelId) : Bool := (s.chan c).coil.gap = 0

/-- The channel is in DRIVE or HOLD. -/
def energised (s : State) (c : ChannelId) : Bool :=
  match (s.chan c).state with
  | .drive _ _ _ => true
  | .hold => true
  | .off => false
  | .disabled => false
  | .idle => false
  | .recover _ _ => false

/-- A drive or hold that no stepper owns ends: the channel rests, the arbiter is told, and a gap of 0 brings the reports of the
return to IDLE (R7, R10, R55). That the attempt of the end comes before these reports is the model's choice (log 51). -/
def release (s : State) (c : ChannelId) : State :=
  let s := attemptNow (rest s c none)
  if gapless s c then reportIdle s c none else s

/-- Ends the drive or hold of a channel, if it has one. -/
def releaseIfOn (s : State) (c : ChannelId) : State := if energised s c then release s c else s

end Sys2Proof.Machine
end

