-- ==== Sys2Proof/Machine/Flippers.lean ====
section
/-! DEFINITION. The flipper unit (chapter 5). -/

namespace Sys2Proof.Machine

/-! ### The ability to act (R82) -/

/-- A channel that the record may name is DISABLED. -/
def isDisabled (s : State) (c : Option ChannelId) : Bool :=
  match c with
  | none => false
  | some c => (s.chan c).state = .disabled

/-- The reasons why a flipper is not able to act, in the codes of Table 10-5 (group 1, channel 2, unconfigured 3). The hold channel
of an unconfigured record has no effect (R80). -/
def reasonsNotAble (s : State) (f : FlipperId) : List Nat :=
  let r := (s.flip f).cfg
  (if s.supply.flipOn then [] else [1]) ++
    (if r.power.isNone then [3] else if isDisabled s r.power || isDisabled s r.hold then [2] else [])

/-- The flipper is able to act (R82). -/
def able (s : State) (f : FlipperId) : Bool := reasonsNotAble s f = []

/-- The reason that READ FLIPPER gives (R95): able 0, or one of those that apply (log 38). -/
def reasonCode (s : State) (f : FlipperId) : Nat :=
  let reasons := reasonsNotAble s f
  reasons.getD (Config.freeReason reasons % reasons.length) 0

/-- The flipper goes to READY, WAIT_OPEN or DISABLED: repowers this flip becomes 0 (R81). -/
def flipperTo (s : State) (f : FlipperId) (state : FlipState) : State :=
  s.setFlip f { s.flip f with state := state, repowers := 0 }

/-- Every drive and hold of the flipper ends (R82). -/
def endFlipperDrives (s : State) (f : FlipperId) : State :=
  let r := (s.flip f).cfg
  let s := match r.power with
    | none => s
    | some c => releaseIfOn s c
  match r.hold with
  | none => s
  | some c => releaseIfOn s c

/-- The flipper goes to DISABLED with every drive and hold ended at once (R82, R92). -/
def disableFlipper (s : State) (f : FlipperId) : State := endFlipperDrives (flipperTo s f .disabled) f

/-- The test of R82. -/
def flipperTest (s : State) (f : FlipperId) : State :=
  if able s f then
    if (s.flip f).state = .disabled then flipperTo s f (if s.closed (s.flip f).cfg.button then .waitOpen else .ready) else s
  else if (s.flip f).state = .disabled then s
  else disableFlipper s f

/-- The flipper enters BLOCKED: the blocked count rises and FLIPPER_FAULT is set (R93). -/
def block (s : State) (f : FlipperId) : State :=
  let x := s.flip f
  setFlagBoth (s.setFlip f { x with
    state := .blocked
    repowers := 0
    blockedCount := sat Config.top16 (x.blockedCount + 1) }) .flipperFault (some f.val)

/-! ### Power, hold and repower (R84 to R91) -/

/-- The flipper is dual-wound and its hold channel is in CUTOFF. -/
def holdInCutoff (s : State) (r : FlipperRecord) : Bool :=
  match r.hold with
  | none => false
  | some c => inCutoff s c

/-- The button of a flipper in READY closes (R84); a power drive starts only on an IDLE channel (R5). -/
def startPower (s : State) (f : FlipperId) : State :=
  let x := s.flip f
  match x.cfg.power with
  | none => s
  | some c =>
    if (s.chan c).state ≠ .idle then s
    else if inCutoff s c || holdInCutoff s x.cfg then block s f
    else
      match heatCheck s c (min x.cfg.maxPower (s.chan c).coil.maxWidth) with
      | (s, none) => block s f
      | (s, some w) =>
        startDrive (s.setFlip f { x with
          state := .power ⟨w, 0, false, false, false⟩
          flips := sat Config.top16 (x.flips + 1) }) c .flipper w

/-- The effective minimum width of a POWER phase (R85). -/
def effectiveMin (r : FlipperRecord) (phase : PowerPhase) : Nat := min r.minPower phase.width

/-- The power drive ends toward READY (R87). -/
def powerToReady (s : State) (f : FlipperId) : State := endFlipperDrives (flipperTo s f .ready) f

/-- The flipper's state becomes HOLD. -/
def flipperHolds (s : State) (f : FlipperId) : State := s.setFlip f { s.flip f with state := .hold }

/-- The hand-over of the power drive on channel `c` to HOLD (R88). A dual-wound flipper that comes back from REPOWER finds its hold
channel in HOLD; one that comes from POWER begins the hold there, or is blocked where the channel is in CUTOFF. -/
def handOver (s : State) (f : FlipperId) (c : ChannelId) : State :=
  match (s.flip f).cfg.hold with
  | none => attemptNow (flipperHolds (enterHold s c) f)
  | some h =>
    let s := release s c
    if (s.chan h).state = .hold then flipperHolds s f
    else if inCutoff s h then block s f
    else flipperHolds (enterHold s h) f

/-- The hand-over where the flipper unit ends the power drive itself. -/
def handOverEarly (s : State) (f : FlipperId) : State :=
  match (s.flip f).cfg.power with
  | none => s
  | some c => handOver s f c

/-- The EOS switch of a flipper in HOLD opens (R90). -/
def repower (s : State) (f : FlipperId) : State :=
  let x := s.flip f
  match x.cfg.power with
  | none => s
  | some c =>
    if x.cfg.repowerLimit ≤ x.repowers then s
    else if inCutoff s c then endFlipperDrives (block s f) f
    else
      match heatCheck s c (min x.cfg.repowerWidth (s.chan c).coil.maxWidth) with
      | (s, none) => endFlipperDrives (block s f) f
      | (s, some w) =>
        startDrive (s.setFlip f { x with
          state := .repower
          repowers := x.repowers + 1
          repowerCount := sat Config.top16 (x.repowerCount + 1) }) c .flipper w

/-- The flipper's POWER phase goes on with these fields. -/
def setPhase (s : State) (f : FlipperId) (phase : PowerPhase) : State := s.setFlip f { s.flip f with state := .power phase }

/-- A flipper's button closes (R83, R84, R87). -/
def buttonCloses (s : State) (f : FlipperId) : State :=
  match (s.flip f).state with
  | .ready => startPower s f
  | .power phase => setPhase s f { phase with released := false }
  | .disabled => s
  | .waitOpen => s
  | .hold => s
  | .repower => s
  | .blocked => s

/-- A flipper's button opens (R83, R87, R89, R91). -/
def buttonOpens (s : State) (f : FlipperId) : State :=
  match (s.flip f).state with
  | .waitOpen => flipperTo s f .ready
  | .blocked => flipperTo s f .ready
  | .power phase =>
    if effectiveMin (s.flip f).cfg phase ≤ phase.elapsed then powerToReady s f
    else setPhase s f { phase with released := true }
  | .hold => endFlipperDrives (flipperTo s f .ready) f
  | .repower => endFlipperDrives (flipperTo s f .ready) f
  | .disabled => s
  | .ready => s

/-- A flipper's EOS switch closes (R85). -/
def eosCloses (s : State) (f : FlipperId) : State :=
  match (s.flip f).state with
  | .power phase =>
    let s' := setPhase s f { phase with eosNote := true, eosSeen := true }
    if effectiveMin (s.flip f).cfg phase ≤ phase.elapsed && !phase.released then handOverEarly s' f else s'
  | .disabled => s
  | .ready => s
  | .waitOpen => s
  | .hold => s
  | .repower => s
  | .blocked => s

/-- A flipper's EOS switch opens (R85, R90). -/
def eosOpens (s : State) (f : FlipperId) : State :=
  match (s.flip f).state with
  | .power phase => setPhase s f { phase with eosNote := false }
  | .hold => repower s f
  | .disabled => s
  | .ready => s
  | .waitOpen => s
  | .repower => s
  | .blocked => s

/-- A debounced change of a switch reaches a flipper (R80, R133). -/
def flipperSwitch (w : SwitchId) (closed : Bool) (s : State) (f : FlipperId) : State :=
  let r := (s.flip f).cfg
  if r.power.isNone then s
  else if r.button = w then (if closed then buttonCloses s f else buttonOpens s f)
  else if r.eos = some w then (if closed then eosCloses s f else eosOpens s f)
  else s

/-- The POWER phase has reached the effective minimum (R85, R87). -/
def flipperMinReached (f : FlipperId) (s : State) : State :=
  match (s.flip f).state with
  | .power phase =>
    if phase.elapsed < effectiveMin (s.flip f).cfg phase then s
    else if phase.released then powerToReady s f
    else if phase.eosNote then handOverEarly s f
    else s
  | .disabled => s
  | .ready => s
  | .waitOpen => s
  | .hold => s
  | .repower => s
  | .blocked => s

def execFlipperEffectiveMinReached (f : FlipperId) (s : State) : Host.Outcome State Fault Refusal :=
  .next (flipperMinReached f s)

/-- The POWER phase of a flipper with an EOS switch reached its width without the switch closing (R86, R93). -/
def countEosMissing (s : State) (f : FlipperId) : State :=
  let x := s.flip f
  setFlagBoth (s.setFlip f { x with eosMissing := sat Config.top16 (x.eosMissing + 1) }) .flipperFault (some f.val)

/-- A FLIPPER drive on channel `c` has reached its width, and the flipper unit names the next state (R7, R86, R91). A drive that ends
toward READY counts no EOS-missing (R87; log 15). -/
def flipperDriveEnd (s : State) (f : FlipperId) (c : ChannelId) : State :=
  match (s.flip f).state with
  | .power phase =>
    if phase.released then powerToReady s f
    else
      let s := if (s.flip f).cfg.eos.isSome && !phase.eosSeen then countEosMissing s f else s
      handOver s f c
  | .repower => handOver s f c
  | .disabled => release s c
  | .ready => release s c
  | .waitOpen => release s c
  | .hold => release s c
  | .blocked => release s c

/-- A cooling interval has ended the hold of one of the flipper's channels (R89, R91). -/
def flipperHoldCut (s : State) (f : FlipperId) : State :=
  match (s.flip f).state with
  | .hold => block s f
  | .repower => block (endFlipperDrives s f) f
  | .disabled => s
  | .ready => s
  | .waitOpen => s
  | .power _ => s
  | .blocked => s

/-! ### CONFIGURE FLIPPER (R94) -/

/-- A channel that the record of flipper `f` may name: of class FLIPPER and named by no other flipper (R94, check 6). -/
def channelForFlipper (s : State) (f : FlipperId) (c : Option ChannelId) : Bool :=
  match c with
  | none => true
  | some c => (s.chan c).coil.cls = .flipper && allFlippers.all fun g => g = f || !(s.flip g).cfg.names c

/-- Checks 5 and 6 of R94. -/
def flipperNamesFit (s : State) (f : FlipperId) (r : FlipperRecord) : Bool :=
  r.power.isNone ||
    (r.power ≠ r.hold && r.eos ≠ some r.button && channelForFlipper s f r.power && channelForFlipper s f r.hold)

/-- The state is POWER, HOLD or REPOWER. -/
def FlipState.acting : FlipState → Bool
  | .power _ => true
  | .hold => true
  | .repower => true
  | .disabled => false
  | .ready => false
  | .waitOpen => false
  | .blocked => false

/-- CONFIGURE FLIPPER (R94). -/
def configureFlipperRequest (body : List Byte) (s : State) : Answer :=
  match index 6 (u8 body 0), flipperRecordOf body with
  | some f, some r =>
    if s.saving then .refuse s .busy
    else if (s.flip f).state.acting then .refuse s .busy
    else if !flipperNamesFit s f r then .refuse s .refused
    else .done (flipperTest (s.setFlip f { Flipper.reset with cfg := r }) f)
  | _, _ => .refuse s .range

def execConfigureFlipper (p : Port) (body : List Byte) (s : State) : Host.Outcome State Fault Refusal :=
  .next (catalogued p 0x0B#8 9 body (configureFlipperRequest body) s)

/-! ### READ FLIPPER (R95) -/

/-- The fields of a POWER phase in READ FLIPPER: EOS note, EOS seen mark, release note, w'; outside POWER the yes/no fields are
absent (log 11) and w' is 0 (Table 10-5). -/
def phaseBytes (state : FlipState) : List Byte :=
  let outside := [Config.absentYesNo, Config.absentYesNo, Config.absentYesNo, 0#8]
  match state with
  | .power phase => [boolByte phase.eosNote, boolByte phase.eosSeen, boolByte phase.released, byte phase.width]
  | .disabled => outside
  | .ready => outside
  | .waitOpen => outside
  | .hold => outside
  | .repower => outside
  | .blocked => outside

/-- The reply body of READ FLIPPER (Table 10-5). -/
def flipperBytes (s : State) (f : FlipperId) : List Byte :=
  let x := s.flip f
  x.cfg.bytes ++ [boolByte x.cfg.power.isSome, byte x.state.code, byte (reasonCode s f), closedByte (s.closed x.cfg.button),
    switchByte s x.cfg.eos, byte x.repowers] ++ phaseBytes x.state ++ be16 x.flips ++ be16 x.eosMissing ++
    be16 x.repowerCount ++ be16 x.blockedCount

/-- READ FLIPPER (R95). -/
def readFlipperRequest (body : List Byte) (s : State) : Answer :=
  match index 6 (u8 body 0) with
  | none => .refuse s .range
  | some f => .okWith s (flipperBytes s f)

def execReadFlipper (p : Port) (body : List Byte) (s : State) : Host.Outcome State Fault Refusal :=
  .next (catalogued p 0x0C#8 1 body (readFlipperRequest body) s)

end Sys2Proof.Machine
end

