-- ==== Sys2Proof/Machine/Channels.lean ====
section
/-! DEFINITION. The channel unit (chapter 1) with the PULSE request and the deadlines of chapter 3: DRIVE_END, RECOVERY_GAP_EXPIRY,
DEADLINE_EXPIRY, PULSE, HOLD, DISABLE CHANNEL, ENABLE CHANNEL, CONFIGURE COIL. -/

namespace Sys2Proof.Machine

/-! ### DRIVE_END (R7) and RECOVERY_GAP_EXPIRY (R11) -/

/-- The absorbed count rises by 1 (R16). -/
def countAbsorbed (s : State) (c : ChannelId) : State :=
  let ch := s.chan c
  s.setChan c { ch with absorbed := sat Config.top16 (ch.absorbed + 1) }

/-- A PULSE or FIRE entry that waits for a channel now in HOLD is absorbed (R16). -/
def absorbWaiting (s : State) (c : ChannelId) : State :=
  match entryOf s c with
  | none => s
  | some e =>
    match e.work with
    | .pulse _ => removeEntry (countAbsorbed s c) e
    | .fire k _ => removeEntry (loseFire (countAbsorbed s c) k) e
    | .pullIn _ => s
    | .step _ => s

/-- The end of a STEP drive: the channel rests, the arbiter is told, then the stepper; a gap of 0 brings the reports of the return to
IDLE (R7, R113; log 20). -/
def stepChannelEnd (s : State) (c : ChannelId) : State :=
  match stepperOf s c with
  | none => release s c
  | some t =>
    let straight := gapless s c
    let s := attemptNow (rest s c (some t))
    let s := settle (stepDriveEnd s t c straight)
    if straight then reportIdle s c (some t) else s

/-- The natural end of a drive (R7), once it has run its width. A claimed pull-in lowers its load, then absorbs an entry with what its place
brings, then brings the drive end's attempt, and all these attempts are made after that: the model's choice (log 52). -/
def driveEnd (c : ChannelId) (s : State) : State :=
  match (s.chan c).state with
  | .drive kind _ 0 =>
    match kind with
    | .pullIn => if (s.chan c).claims.isEmpty then release s c else attemptNow (absorbWaiting (enterHold s c) c)
    | .flipper =>
      match flipperOf s c with
      | none => release s c
      | some f => flipperDriveEnd s f c
    | .step => stepChannelEnd s c
    | .pulse => release s c
    | .fire => release s c
  | _ => s

def execDriveEnd (c : ChannelId) (s : State) : Host.Outcome State Fault Refusal := .next (driveEnd c s)

/-- The recovery gap has expired: the channel returns to IDLE (R11). -/
def recoveryGapExpiry (c : ChannelId) (s : State) : State :=
  match (s.chan c).state with
  | .recover 0 after => reportIdle (s.setChan c { s.chan c with state := .idle }) c after
  | _ => s

def execRecoveryGapExpiry (c : ChannelId) (s : State) : Host.Outcome State Fault Refusal := .next (recoveryGapExpiry c s)

/-! ### DEADLINE_EXPIRY (R56) -/

/-- The entry's deadline has come. -/
def Entry.expired (e : Entry) : Bool :=
  match e.deadline with
  | none => false
  | some d => d.left = 0

/-- The deadline of the channel's entry expires (R56). -/
def deadlineExpiry (c : ChannelId) (s : State) : State :=
  match entryOf s c with
  | none => s
  | some e => if e.expired then settle (removeEntry (reportDropped s e .expired) e) else s

def execDeadlineExpiry (c : ChannelId) (s : State) : Host.Outcome State Fault Refusal := .next (deadlineExpiry c s)

/-! ### PULSE (R42 to R44) -/

/-- The entry after a PULSE of width `w` from port `p` merges into it (R44). -/
def Entry.mergePulse (e : Entry) (p : Port) (w : Nat) : Entry :=
  { e with
    width := max e.width w
    work := match e.work with
      | .pulse origin => .pulse (origin.add p)
      | .fire k notified => .fire k (notified.add p)
      | .pullIn origin => .pullIn origin
      | .step t => .step t }

/-- The class lets PULSE and FIRE drive the channel (R3). -/
def CoilClass.pulsed : CoilClass → Bool
  | .pulse => true
  | .holdable => true
  | .off => false
  | .stepper => false
  | .flipper => false

/-- The channel is held or about to be (R16). -/
def heldOrPulling (s : State) (c : ChannelId) : Bool := (s.chan c).state = .hold || hasPullIn s c

/-- PULSE (R42, R24, Table 3-2); outcomes ABSORBED 0, MERGED 1, ENTERED 2 (R166). -/
def pulseRequest (p : Port) (body : List Byte) (s : State) : Answer :=
  match index 48 (u8 body 0) with
  | none => .refuse s .range
  | some c =>
    let ch := s.chan c
    let w := entryWidth ch.coil (u8 body 1)
    if !ch.coil.cls.pulsed then .refuse s .refused
    else if ch.state = .disabled then .refuse s .refused
    else if s.supply.state = .down then .refuse s .noSupply
    else if inCutoff s c then .refuse s .hot
    else if heldOrPulling s c then .okWith (countAbsorbed s c) [0#8, byte w]
    else
      match entryOf s c with
      | some e => .okWith (settle (bring (changeEntry s c fun e => e.mergePulse p w))) [1#8, byte (e.mergePulse p w).width]
      | none =>
        if listFull s then .refuse s .full
        else
          .okWith (settle (enter s ⟨c, .pulse (.single p), w, s.sw.partTime, newDeadline s ch.coil, 0⟩)) [2#8, byte w]

def execPulse (p : Port) (body : List Byte) (s : State) : Host.Outcome State Fault Refusal :=
  .next (catalogued p 0x02#8 2 body (pulseRequest p body) s)

/-! ### HOLD (R13, R14) -/

/-- A waiting PULL_IN's origin is made equal to the claim set (R12). -/
def copyClaims (s : State) (c : ChannelId) : State :=
  let claims := (s.chan c).claims
  changeEntry s c fun e => match e.work with
    | .pullIn _ => { e with work := .pullIn claims }
    | .pulse _ => e
    | .fire _ _ => e
    | .step _ => e

/-- The sender joins the claim set (R13). -/
def addClaim (s : State) (c : ChannelId) (p : Port) : State :=
  s.setChan c { s.chan c with claims := (s.chan c).claims.add p }

/-- HOLD on (R13, R24). -/
def holdOnRequest (p : Port) (c : ChannelId) (s : State) : Answer :=
  let ch := s.chan c
  if ch.coil.cls ≠ .holdable then .refuse s .refused
  else if ch.state = .disabled then .refuse s .refused
  else if s.supply.state = .down then .refuse s .noSupply
  else if inCutoff s c then .refuse s .hot
  else if ch.claims.has p then .done s
  else if pullInCondition (addClaim s c p) c && listFull s then .refuse s .full
  else if ch.claims.isEmpty then .done (settle (pullInTest (addClaim s c p) c))
  else .done (copyClaims (addClaim s c p) c)

/-- The hold of a HOLDABLE channel ends for want of a claim (R10): the attempts of the hold release and, with a gap of 0, of the return
to IDLE are brought. The other reports of a return to IDLE find no stepper and no claim. -/
def endClaimedHold (s : State) (c : ChannelId) : State :=
  let s := bring (rest s c none)
  if gapless s c then bring s else s

/-- The claim set of a channel has become empty (R14): a hold ends, a waiting PULL_IN is removed, the owed mark is cleared. -/
def claimsEmptied (s : State) (c : ChannelId) : State :=
  let s := s.setChan c { s.chan c with owed := false }
  if (s.chan c).state = .hold then endClaimedHold s c
  else
    match entryOf s c with
    | none => s
    | some e =>
      match e.work with
      | .pullIn _ => removeEntry s e
      | .pulse _ => s
      | .fire _ _ => s
      | .step _ => s

/-- A port leaves the claim set of a channel, by HOLD off (R14) or by its lapse (R12). The attempts are brought. -/
def withdrawClaim (s : State) (c : ChannelId) (p : Port) : State :=
  let ch := s.chan c
  if ch.claims.has p then
    let s := s.setChan c { ch with claims := ch.claims.remove p }
    if (s.chan c).claims.isEmpty then claimsEmptied s c else copyClaims s c
  else s

/-- HOLD off (R14). -/
def holdOffRequest (p : Port) (c : ChannelId) (s : State) : Answer :=
  if (s.chan c).coil.cls ≠ .holdable then .refuse s .refused else .done (settle (withdrawClaim s c p))

/-- HOLD: one request of kind 03h, whose setting is off 0 or on 1 (R13, Table 10-4). -/
def holdRequest (p : Port) (body : List Byte) (s : State) : Answer :=
  match index 48 (u8 body 0) with
  | none => .refuse s .range
  | some c =>
    if u8 body 1 = 1 then holdOnRequest p c s
    else if u8 body 1 = 0 then holdOffRequest p c s
    else .refuse s .range

def execHoldOn (p : Port) (body : List Byte) (s : State) : Host.Outcome State Fault Refusal :=
  .next (catalogued p 0x03#8 2 body (holdRequest p body) s)

def execHoldOff (p : Port) (body : List Byte) (s : State) : Host.Outcome State Fault Refusal :=
  .next (catalogued p 0x03#8 2 body (holdRequest p body) s)

/-! ### DISABLE CHANNEL and ENABLE CHANNEL (R17, R18) -/

/-- The stepper whose drive the channel's next return to IDLE follows (R117): that of a STEP drive under way, or that of the RECOVER which
a STEP drive led to (log 19). -/
def stepBehind (s : State) (c : ChannelId) : Option StepperId :=
  match (s.chan c).state with
  | .drive kind _ _ => if kind = .step then stepperOf s c else none
  | .recover _ after => after
  | .off => none
  | .disabled => none
  | .idle => none
  | .hold => none

/-- The channel goes out of service (R17): output off, claims and owed mark gone; a cut or a hold's end is reported to the arbiter. -/
def takeOut (s : State) (c : ChannelId) : State :=
  let on := energised s c
  let s := s.setChan c { s.chan c with
    state := .disabled, stepBefore := stepBehind s c, claims := .empty, owed := false }
  if on then attemptNow s else s

/-- The channel's wait entry, if it has one, is removed (R17). -/
def removeQuietly (s : State) (c : ChannelId) : State :=
  match entryOf s c with
  | none => s
  | some e => settle (removeEntry (reportQuietly s e) e)

/-- The stepper that names the channel, if one does, faults (R17, R118). -/
def faultStepperOf (s : State) (c : ChannelId) : State :=
  match stepperOf s c with
  | none => s
  | some t => settle (faultStepper s t true)

/-- The flipper that names the channel, if one does, tests whether it is able to act (R82). -/
def testFlipperOf (s : State) (c : ChannelId) : State :=
  match flipperOf s c with
  | none => s
  | some f => flipperTest s f

/-- DISABLE CHANNEL of a channel in service (R17): the stepper that names it faults, the flipper that names it goes DISABLED. -/
def disableChannel (s : State) (c : ChannelId) : State :=
  testFlipperOf (faultStepperOf (removeQuietly (takeOut s c) c) c) c

/-- DISABLE CHANNEL (R17). -/
def disableChannelRequest (body : List Byte) (s : State) : Answer :=
  match index 48 (u8 body 0) with
  | none => .refuse s .range
  | some c => if (s.chan c).state = .disabled then .done s else .done (disableChannel s c)

def execDisableChannel (p : Port) (body : List Byte) (s : State) : Host.Outcome State Fault Refusal :=
  .next (catalogued p 0x04#8 1 body (disableChannelRequest body) s)

/-- The channel comes back into service: OFF for class OFF, else IDLE with the reports of a return to IDLE (R18, R11), which follows the
drive of the stepper that the DISABLE cut or whose gap it abandoned, if there was one (R117; log 19). -/
def putBack (s : State) (c : ChannelId) : State :=
  let ch := s.chan c
  if ch.coil.cls = .off then s.setChan c { ch with state := .off, stepBefore := none }
  else reportIdle (s.setChan c { ch with state := .idle, stepBefore := none }) c ch.stepBefore

/-- ENABLE CHANNEL of a DISABLED channel (R18). -/
def enableChannel (s : State) (c : ChannelId) : State := testFlipperOf (putBack s c) c

/-- ENABLE CHANNEL (R18). -/
def enableChannelRequest (body : List Byte) (s : State) : Answer :=
  match index 48 (u8 body 0) with
  | none => .refuse s .range
  | some c => if (s.chan c).state = .disabled then .done (enableChannel s c) else .done s

def execEnableChannel (p : Port) (body : List Byte) (s : State) : Host.Outcome State Fault Refusal :=
  .next (catalogued p 0x05#8 1 body (enableChannelRequest body) s)

/-! ### CONFIGURE COIL (R19, R20) -/

/-- A link's record names the channel (R97). -/
def linkNames (s : State) (c : ChannelId) : Bool := allLinks.any fun k => (s.link k).cfg.channel = some c

/-- The class that the records naming the channel need (R3; R19, check 5). -/
def classFits (s : State) (c : ChannelId) (cls : CoilClass) : Bool :=
  ((flipperOf s c).isNone || cls = .flipper) && ((stepperOf s c).isNone || cls = .stepper) &&
    (!linkNames s c || cls.pulsed)

/-- The weight that a record adds to the FLIPPER-class total. -/
def CoilRecord.flipperWeight (r : CoilRecord) : Nat := if r.cls = .flipper then r.weight else 0

/-- The sum of the weights of all FLIPPER-class channels (R3). -/
def flipperWeights (s : State) : Nat := (allChannels.map fun c => (s.chan c).coil.flipperWeight).sum

/-- The same sum with a record in place of the channel's own (R19, check 6). -/
def flipperWeightsWith (s : State) (c : ChannelId) (r : CoilRecord) : Nat :=
  (allChannels.map fun d => if d = c then r.flipperWeight else (s.chan d).coil.flipperWeight).sum

/-- The state of a configurable channel under a new class (R20). -/
def ChanState.underClass (x : ChanState) (cls : CoilClass) : ChanState :=
  if x = .disabled then .disabled else if cls = .off then .off else .idle

/-- The channel under its new record (R20): claims and owed mark go unless the class stays HOLDABLE. -/
def Channel.reconfigured (ch : Channel) (r : CoilRecord) : Channel :=
  { ch with
    coil := r
    state := ch.state.underClass r.cls
    claims := if r.cls = .holdable then ch.claims else .empty
    owed := r.cls = .holdable && ch.owed }

/-- An accepted CONFIGURE COIL (R20): the record, the thermal state against it (R73), then the pull-in test where the class stays
HOLDABLE (log 16). -/
def configureCoil (s : State) (c : ChannelId) (r : CoilRecord) : State :=
  let stays := (s.chan c).coil.cls = .holdable && r.cls = .holdable
  let s := recomputeThermal (s.setChan c ((s.chan c).reconfigured r)) c
  if stays then settle (pullInTest s c) else s

/-- The channel is OFF, IDLE or DISABLED (R19, check 4). -/
def ChanState.configurable : ChanState → Bool
  | .off => true
  | .idle => true
  | .disabled => true
  | .drive _ _ _ => false
  | .hold => false
  | .recover _ _ => false

/-- CONFIGURE COIL (R19). -/
def configureCoilRequest (body : List Byte) (s : State) : Answer :=
  match index 48 (u8 body 0), coilRecordOf body with
  | some c, some r =>
    let ch := s.chan c
    if s.saving then .refuse s .busy
    else if !ch.state.configurable || (entryOf s c).isSome then .refuse s .busy
    else if r.cls ≠ ch.coil.cls && !classFits s c r.cls then .refuse s .refused
    else if s.supply.cfg.reserve < flipperWeightsWith s c r then .refuse s .refused
    else .done (configureCoil s c r)
  | _, _ => .refuse s .range

def execConfigureCoil (p : Port) (body : List Byte) (s : State) : Host.Outcome State Fault Refusal :=
  .next (catalogued p 0x06#8 19 body (configureCoilRequest body) s)

end Sys2Proof.Machine
end

