-- ==== Sys2Proof/Machine/Links.lean ====
section
/-! DEFINITION. The direct-fire unit (chapter 6): triggers, lockouts, offered FIREs, the requests CONFIGURE LINK and READ LINK. -/

namespace Sys2Proof.Machine

/-! ### Offered FIREs (R45, R100) -/

/-- The link's entry mark is set (R100). -/
def markEntry (s : State) (k : LinkId) : State := s.setLink k { s.link k with entry := true }

/-- The link counts a loss. -/
def countLost (s : State) (k : LinkId) : State := s.setLink k (s.link k).lose

/-- A FIRE of link `k` for channel `c` is offered to the arbiter (R45), and the link records the answer (R100). -/
def offerFire (s : State) (k : LinkId) (c : ChannelId) : State :=
  let r := (s.chan c).coil
  let w := entryWidth r (s.link k).cfg.width
  if inCutoff s c then countLost s k
  else if heldOrPulling s c then countLost (countAbsorbed s c) k
  else
    match entryOf s c with
    | some e =>
      match e.work with
      | .pulse origin =>
        markEntry (bring (changeEntry s c fun e => { e with work := .fire k origin, width := max e.width w })) k
      | .fire _ _ => countLost (bring (changeEntry s c fun e => { e with width := max e.width w })) k
      | .pullIn _ => countLost s k
      | .step _ => countLost s k
    | none =>
      if listFull s then countLost s k
      else markEntry (enter s ⟨c, .fire k .empty, w, s.sw.partTime, newDeadline s r, 0⟩) k

/-! ### Triggers and lockout (R98, R99) -/

/-- The link's edge is a change to this state (R98). -/
def Edge.isTo (x : Edge) (closed : Bool) : Bool :=
  match x with
  | .close => closed
  | .open => !closed

/-- A trigger of link `k` (R98): the first case that applies. An accepted one starts the lockout, then offers its FIRE (R99), whose
attempt is made in the same event (R50). -/
def trigger (s : State) (k : LinkId) : State :=
  let x := s.link k
  match x.cfg.channel with
  | none => s
  | some c =>
    if !s.supply.directOn then s
    else if x.lockout.isSome then s.setLink k { x with ignored := sat Config.top16 (x.ignored + 1) }
    else if (s.chan c).state = .disabled then countLost s k
    else settle (offerFire (s.setLink k { x with lockout := if x.cfg.lockout = 0 then none else some x.cfg.lockout }) k c)

/-- A debounced change of a switch reaches a link (R97, R98, R133). -/
def linkSwitch (w : SwitchId) (closed : Bool) (s : State) (k : LinkId) : State :=
  if (s.link k).cfg.trigger = w && (s.link k).cfg.edge.isTo closed then trigger s k else s

/-- The lockout has run (R99). -/
def lockoutExpiry (k : LinkId) (s : State) : State :=
  if due (s.link k).lockout then s.setLink k { s.link k with lockout := none } else s

def execLockoutExpiry (k : LinkId) (s : State) : Host.Outcome State Fault Refusal := .next (lockoutExpiry k s)

/-! ### CONFIGURE LINK (R104) -/

/-- Check 5 of R104: a named channel is of class PULSE or HOLDABLE. -/
def linkChannelFits (s : State) (c : Option ChannelId) : Bool :=
  match c with
  | none => true
  | some c => (s.chan c).coil.cls.pulsed

/-- CONFIGURE LINK (R104). -/
def configureLinkRequest (body : List Byte) (s : State) : Answer :=
  match index 16 (u8 body 0), linkRecordOf body with
  | some k, some r =>
    if s.saving then .refuse s .busy
    else if hasFireEntry s k then .refuse s .busy
    else if !linkChannelFits s r.channel then .refuse s .refused
    else .done (s.setLink k { Link.reset with cfg := r })
  | _, _ => .refuse s .range

def execConfigureLink (p : Port) (body : List Byte) (s : State) : Host.Outcome State Fault Refusal :=
  .next (catalogued p 0x0D#8 8 body (configureLinkRequest body) s)

/-! ### READ LINK (R105) -/

/-- The reply body of READ LINK (Table 10-5). -/
def linkBytes (s : State) (k : LinkId) : List Byte :=
  let x := s.link k
  x.cfg.bytes ++ [boolByte x.cfg.channel.isSome, boolByte s.supply.directOn, closedByte (s.closed x.cfg.trigger),
    boolByte x.lockout.isSome, byte (x.lockout.getD 0), boolByte (hasFireEntry s k)] ++ be16 x.fired ++ be16 x.ignored ++
    be16 x.lost

/-- READ LINK (R105). -/
def readLinkRequest (body : List Byte) (s : State) : Answer :=
  match index 16 (u8 body 0) with
  | none => .refuse s .range
  | some k => .okWith s (linkBytes s k)

def execReadLink (p : Port) (body : List Byte) (s : State) : Host.Outcome State Fault Refusal :=
  .next (catalogued p 0x0E#8 1 body (readLinkRequest body) s)

end Sys2Proof.Machine
end

