-- ==== Sys2Proof/Machine/Supply.lean ====
section
/-! DEFINITION. The supply monitor (chapter 2): ILK, the supply states, supply up and supply loss, the enable groups, the requests
ENABLE GROUP and CONFIGURE SUPPLY. -/

namespace Sys2Proof.Machine

/-! ### Enable groups (R28, R30) -/

/-- Both effective enables are recomputed; a change of FLIPPERS reaches every flipper (R30, R34, R82). -/
def recomputeGroups (s : State) : State :=
  let m := s.supply
  let flipOn := s.isUp && !m.flipClaims.isEmpty
  let s := s.setSupply { m with flipOn := flipOn, directOn := s.isUp && !m.directClaims.isEmpty }
  if flipOn = m.flipOn then s else allFlippers.foldl flipperTest s

/-- A port's claim on a group is set or cleared (R28). -/
def SupplyMonitor.claim (m : SupplyMonitor) (g : Group) (p : Port) (on : Bool) : SupplyMonitor :=
  match g with
  | .flippers => { m with flipClaims := if on then m.flipClaims.add p else m.flipClaims.remove p }
  | .direct => { m with directClaims := if on then m.directClaims.add p else m.directClaims.remove p }

/-- ENABLE GROUP (R28); its setting is off 0 and on 1, as HOLD's is in Table 10-4, the model's choice (log 44). -/
def enableGroupRequest (p : Port) (body : List Byte) (s : State) : Answer :=
  match groupOf (u8 body 0), yesNo (u8 body 1) with
  | some g, some on =>
    let s := recomputeGroups (s.setSupply (s.supply.claim g p on))
    .okWith s [byte s.supply.flipClaims.code, boolByte s.supply.flipOn, byte s.supply.directClaims.code,
      boolByte s.supply.directOn]
  | _, _ => .refuse s .range

def execEnableGroup (p : Port) (body : List Byte) (s : State) : Host.Outcome State Fault Refusal :=
  .next (catalogued p 0x07#8 2 body (enableGroupRequest p body) s)

/-! ### Supply up (R25) -/

/-- The supply enters UP (R25): SUPPLY_UP, the arbiter's attempt, the pull-in tests in ascending channel number, the steppers' tests in
round-robin order, each with its own attempt, then the groups. -/
def enterUp (s : State) : State :=
  let s := setFlagBoth (s.setSupply { s.supply with state := .up, countdown := none }) .supplyUp none
  let s := attemptNow s
  let s := allChannels.foldl (fun s c => settle (pullInTest s c)) s
  let s := (roundRobin s.arb.pointer).foldl (fun s t => settle (stepTest s t)) s
  recomputeGroups s

/-! ### Supply loss (R26, R27) -/

/-- The flipper that names the channel, if one does, is taken to DISABLED by a cut (R92). -/
def cutFlipper (s : State) (c : ChannelId) : State :=
  match flipperOf s c with
  | none => s
  | some f => if (s.flip f).state = .disabled then s else disableFlipper s f

/-- A STEP drive is cut by supply loss; with a gap of 0 the return to IDLE follows (R26, R114, R117). -/
def cutStepChannel (s : State) (c : ChannelId) : State :=
  match stepperOf s c with
  | none => rest s c none
  | some t =>
    let straight := gapless s c
    let s := cutStep (rest s c (some t)) t
    if straight then stepperIdle s t true else s

/-- The loss at one channel (R26): its drive is cut or its hold ends, and its owed mark is cleared. No attempt grants anything while the
supply is not UP (R47). -/
def loseSupplyAt (s : State) (c : ChannelId) : State :=
  let s := s.setChan c { s.chan c with owed := false }
  match (s.chan c).state with
  | .drive kind _ _ =>
    match kind with
    | .step => cutStepChannel s c
    | .flipper => cutFlipper (rest s c none) c
    | .pulse => rest s c none
    | .pullIn => rest s c none
    | .fire => rest s c none
  | .hold => cutFlipper (rest s c none) c
  | .off => s
  | .disabled => s
  | .idle => s
  | .recover _ _ => s

/-- The wait list is emptied (R27), its entries reported in the given order; every step due mark goes (R111). -/
def emptyWaitList (s : State) (entries : List Entry) : State :=
  let s := (entries.foldl (fun s e => reportDropped s e .supply) s).setWaitList []
  { s with steppers := s.steppers.map fun x => { x with due := false } }

/-- The supply leaves UP for DOWN (R26, R27): the channels in the order `channels`, then the entries in the order that `order`
makes of the list, then the groups (log 22). -/
def loseSupply (channels : List ChannelId) (order : List Entry → List Entry) (s : State) : State :=
  let s := setFlagBoth (s.setSupply { s.supply with state := .down, countdown := none }) .supplyDown none
  let s := channels.foldl loseSupplyAt s
  settle (recomputeGroups (emptyWaitList s (order s.arb.waitList)))

/-- The supply loss, with both orders free (log 4). -/
def supplyLoss (s : State) : State :=
  loseSupply (freely s.orders allChannels) (freely (s.orders + 1)) { s with orders := s.orders + 2 }

/-! ### ILK and the settle countdown (R22, R23) -/

/-- The raw ILK level changes (R22): away from the debounced level a debounce starts, back to it the debounce is abandoned. No debounce
runs while the part is STARTING. -/
def ilkRawChange (closed : Bool) (s : State) : State :=
  let m := s.supply
  if m.ilkRaw = closed then s
  else s.setSupply { m with
    ilkRaw := closed
    ilkTimer := if s.inRun && closed ≠ m.ilkClosed then some Config.ilkDebounce else none }

def execIlkRawChange (closed : Bool) (s : State) : Host.Outcome State Fault Refusal := .next (ilkRawChange closed s)

/-- The close debounce of ILK has run (R23): the settle countdown starts, or a settle time of 0 takes the supply straight to UP. -/
def ilkDebouncedClose (s : State) : State :=
  let m := s.supply
  if due m.ilkTimer && !m.ilkClosed then
    let m := { m with ilkClosed := true, ilkTimer := none }
    if m.cfg.settle = 0 then enterUp (s.setSupply m)
    else s.setSupply { m with state := .settling, countdown := some (m.cfg.settle * 10) }
  else s

def execIlkDebouncedClose (s : State) : Host.Outcome State Fault Refusal := .next (ilkDebouncedClose s)

/-- The open debounce of ILK has run: from UP the supply is lost (R26), from SETTLING the countdown is abandoned (R23). -/
def ilkDebouncedOpen (s : State) : State :=
  let m := s.supply
  if due m.ilkTimer && m.ilkClosed then
    let s := s.setSupply { m with ilkClosed := false, ilkTimer := none }
    match m.state with
    | .up => supplyLoss s
    | .settling => setFlagBoth (s.setSupply { s.supply with state := .down, countdown := none }) .supplyDown none
    | .down => s
  else s

def execIlkDebouncedOpen (s : State) : Host.Outcome State Fault Refusal := .next (ilkDebouncedOpen s)

/-- The settle countdown expires (R23). -/
def settleExpiry (s : State) : State :=
  if due s.supply.countdown && s.supply.state = .settling then enterUp s else s

def execSettleExpiry (s : State) : Host.Outcome State Fault Refusal := .next (settleExpiry s)

/-! ### CONFIGURE SUPPLY (R31, R32) -/

/-- The supply record of a CONFIGURE SUPPLY body, its settle time stored in 10 ms units up to 255 (R31). -/
def supplyRecordOf (body : List Byte) : SupplyRecord := ⟨u8 body 0, u8 body 1, min 255 (u16 body 2 / 10)⟩

/-- CONFIGURE SUPPLY (R31, R32). -/
def configureSupplyRequest (body : List Byte) (s : State) : Answer :=
  let r := supplyRecordOf body
  if r.budget = 0 then .refuse s .range
  else if s.saving then .refuse s .busy
  else if r.budget < r.reserve then .refuse s .refused
  else if r.reserve < flipperWeights s then .refuse s .refused
  else if r.budget - r.reserve < s.arb.general then .refuse s .busy
  else
    let s' := s.setSupply { s.supply with cfg := r }
    .done (if generalPool s < generalPool s' then attemptNow s' else s')

def execConfigureSupply (p : Port) (body : List Byte) (s : State) : Host.Outcome State Fault Refusal :=
  .next (catalogued p 0x08#8 4 body (configureSupplyRequest body) s)

end Sys2Proof.Machine
end

