-- ==== Sys2Proof/Machine/Switches.lean ====
section
/-! DEFINITION. The switch unit (chapter 8): debounce, delivery of changes, event queues, the switch requests, and the debounce of
SYNC. -/

namespace Sys2Proof.Machine

/-! ### Delivery (R133 to R135) -/

/-- A port's event queue is replaced. -/
def setQueue (s : State) (p : Port) (q : EventQueue) : State := s.setSw { s.sw with queues := s.sw.queues.set p q }

/-- A change to be appended to a port's queue (R134, R135). -/
def appendEvent (s : State) (p : Port) (w : SwitchId) (closed : Bool) : State :=
  let q := s.sw.queues.get p
  if q.entries.length < Config.queueSize then
    let s' := setQueue s p { q with entries := q.entries ++ [⟨w, closed, s.sw.partTime, q.gapMark⟩], gapMark := false }
    if q.entries = [] then setFlag s' p .switch (some w.val) else s'
  else
    setFlag (setQueue s p { q with lost := sat Config.top8 (q.lost + 1), gapMark := true }) p .eventLost (some w.val)

/-- A change reaches the queue of a port that the switch reports to, if the port is LIVE (R133). -/
def reportEvent (w : SwitchId) (closed : Bool) (s : State) (p : Port) : State :=
  if (s.input w).cfg.reportTo.has p && (s.port p).live then appendEvent s p w closed else s

/-- A debounced change is delivered: to the flippers in the order `flippers`, to the links in ascending index (R97), to the queues
(R133). That the flipper unit takes it before the direct-fire unit is the model's choice (log 47). -/
def deliverIn (flippers : List FlipperId) (w : SwitchId) (closed : Bool) (s : State) : State :=
  let s := flippers.foldl (flipperSwitch w closed) s
  let s := allLinks.foldl (linkSwitch w closed) s
  [Port.a, Port.b].foldl (reportEvent w closed) s

/-- A debounced change is delivered, the flippers in a free order (R80, R133; log 4). -/
def deliver (w : SwitchId) (closed : Bool) (s : State) : State :=
  deliverIn (freely s.orders allFlippers) w closed { s with orders := s.orders + 1 }

/-! ### Debounce (R131) -/

/-- The logical input: the level after the record's inversion (R130, section 8.2). -/
def SwitchInput.logical (x : SwitchInput) : Bool := x.low != x.cfg.invert

/-- The debounce time of a change to this state. -/
def SwitchRecord.debounce (r : SwitchRecord) (closed : Bool) : Nat := if closed then r.closeMs else r.openMs

/-- The timer that the logical input calls for: a fresh debounce where it differs from the debounced state, none where it agrees. -/
def SwitchInput.freshTimer (x : SwitchInput) : Timer := if x.logical = x.closed then none else some (x.cfg.debounce x.logical)

/-- The raw level of a switch input changes (R131). No debounce runs while the part is STARTING (R140). -/
def switchRawChange (w : SwitchId) (low : Bool) (s : State) : State :=
  let x := s.input w
  if x.low = low then s
  else
    let x := { x with low := low }
    s.setInput w { x with timer := if s.inRun then x.freshTimer else none }

def execSwitchRawChange (w : SwitchId) (low : Bool) (s : State) : Host.Outcome State Fault Refusal :=
  .next (switchRawChange w low s)

/-- The debounce timer of a switch expires: the debounced state takes the logical input and the change is delivered (R131). -/
def switchDebounceExpiry (w : SwitchId) (s : State) : State :=
  let x := s.input w
  if due x.timer then deliver w x.logical (s.setInput w { x with closed := x.logical, timer := none }) else s

def execSwitchDebounceExpiry (w : SwitchId) (s : State) : Host.Outcome State Fault Refusal :=
  .next (switchDebounceExpiry w s)

/-! ### Requests (R136 to R138) -/

/-- An accepted CONFIGURE SWITCH (R138): a changed inversion takes the logical input at once and delivers a difference; an unchanged one
starts a fresh debounce for a difference. -/
def configureSwitch (s : State) (w : SwitchId) (r : SwitchRecord) : State :=
  let old := s.input w
  let x := { old with cfg := r, timer := none }
  if r.invert = old.cfg.invert then s.setInput w { x with timer := x.freshTimer }
  else if x.logical = x.closed then s.setInput w x
  else deliver w x.logical (s.setInput w { x with closed := x.logical })

/-- CONFIGURE SWITCH (R138). -/
def configureSwitchRequest (body : List Byte) (s : State) : Answer :=
  match index 32 (u8 body 0), switchRecordOf body with
  | some w, some r => if s.saving then .refuse s .busy else .done (configureSwitch s w r)
  | _, _ => .refuse s .range

def execConfigureSwitch (p : Port) (body : List Byte) (s : State) : Host.Outcome State Fault Refusal :=
  .next (catalogued p 0x18#8 5 body (configureSwitchRequest body) s)

/-- The states of eight switches from `first`, the lowest in bit 0 (Table 10-5). -/
def switchStates (s : State) (first : Nat) : Byte :=
  byte (((List.range 8).map fun i => match index 32 (first + i) with
    | none => 0
    | some w => (closedByte (s.closed w)).toNat * 2 ^ i).sum)

/-- READ SWITCHES (R137). -/
def readSwitchesRequest (s : State) : Answer :=
  .okWith s ([0, 8, 16, 24].map (switchStates s) ++ be16 s.sw.partTime.toNat)

def execReadSwitches (p : Port) (body : List Byte) (s : State) : Host.Outcome State Fault Refusal :=
  .next (catalogued p 0x19#8 0 body readSwitchesRequest s)

/-- A queue entry in READ EVENTS: switch; state in bit 0 and gap flag in bit 1; time (Table 10-5). -/
def QueueEntry.bytes (e : QueueEntry) : List Byte :=
  [byte e.switch.val, byte ((closedByte e.closed).toNat + if e.gap then 2 else 0)] ++ be16 e.time.toNat

/-- READ EVENTS (R136). -/
def readEventsRequest (p : Port) (s : State) : Answer :=
  let q := s.sw.queues.get p
  let left := q.entries.drop Config.eventsPerRead
  .okWith (setQueue s p { q with entries := left, lost := 0 })
    (byte left.length :: byte q.lost :: (q.entries.take Config.eventsPerRead).flatMap QueueEntry.bytes)

def execReadEvents (p : Port) (body : List Byte) (s : State) : Host.Outcome State Fault Refusal :=
  .next (catalogued p 0x1A#8 0 body (readEventsRequest p) s)

/-- A lapse empties the port's queue and sets its gap mark; the lost count is kept (R135). -/
def lapseQueue (s : State) (p : Port) : State :=
  setQueue s p { s.sw.queues.get p with entries := [], gapMark := true }

/-! ### SYNC (R139) -/

/-- The raw SYNC level changes (R139). -/
def syncRawChange (high : Bool) (s : State) : State :=
  let u := s.sw
  if u.syncRaw = high then s
  else s.setSw { u with
    syncRaw := high
    syncTimer := if s.inRun && high ≠ u.syncHigh then some Config.syncDebounce else none }

def execSyncRawChange (high : Bool) (s : State) : Host.Outcome State Fault Refusal := .next (syncRawChange high s)

/-- The debounce of a SYNC change from high to low has run; it is delivered to no one (R139). -/
def syncDebouncedFall (s : State) : State :=
  if due s.sw.syncTimer && s.sw.syncHigh then s.setSw { s.sw with syncHigh := false, syncTimer := none } else s

def execSyncDebouncedFall (s : State) : Host.Outcome State Fault Refusal := .next (syncDebouncedFall s)

end Sys2Proof.Machine
end

