-- ==== Sys2Proof/Machine/Lamps.lean ====
section
/-! DEFINITION. The lamp unit (chapter 9): layers and commits, the lamp frame, the lamp requests, and the SYNC rising edge that commits
armed layers. -/

namespace Sys2Proof.Machine

/-! ### Layers (R143, R146) -/

def BufferName.other : BufferName → BufferName
  | .x => .y
  | .y => .x

/-- The buffer of a name. -/
def Layer.buffer (x : Layer) : BufferName → Table (Option Nat) 32
  | .x => x.x
  | .y => x.y

def Layer.setBuffer (x : Layer) (n : BufferName) (b : Table (Option Nat) 32) : Layer :=
  match n with
  | .x => { x with x := b }
  | .y => { x with y := b }

/-- The shown buffer's entry for a lamp. -/
def Layer.entry (x : Layer) (l : LampId) : Option Nat := (x.buffer x.shown).get l

/-- A commit (R146): the buffers exchange roles, the new open buffer takes a copy of the new shown one, the commit state is IDLE. -/
def Layer.commitNow (x : Layer) : Layer :=
  let shown := x.shown.other
  { x.setBuffer x.shown (x.buffer shown) with shown := shown, commit := .idle }

/-- A layer armed in this way is committed (R147, R148). -/
def Layer.commitIf (x : Layer) (armed : CommitState) : Layer := if x.commit = armed then x.commitNow else x

def setLayer (s : State) (p : Port) (x : Layer) : State := s.setLamp { s.lamp with layers := s.lamp.layers.set p x }

/-- A lapse clears the port's layer (R151). -/
def lapseLayer (s : State) (p : Port) : State :=
  setLayer s p { s.lamp.layers.get p with x := .replicate 32 none, y := .replicate 32 none, commit := .idle }

/-! ### SYNC_RISING_EDGE (R139, R147) -/

/-- The debounce of a SYNC change from low to high has run: each layer armed for SYNC is committed (R139, R147). -/
def syncRisingEdge (s : State) : State :=
  if due s.sw.syncTimer && !s.sw.syncHigh then
    let s := s.setSw { s.sw with syncHigh := true, syncTimer := none }
    s.setLamp { s.lamp with layers := s.lamp.layers.map fun x => x.commitIf .armedSync }
  else s

def execSyncRisingEdge (s : State) : Host.Outcome State Fault Refusal := .next (syncRisingEdge s)

/-! ### The lamp frame (R148 to R150) -/

/-- A lamp's target from the two layers' entries (R149). -/
def targetOf (priority : Priority) (a b : Option Nat) : Nat :=
  match priority with
  | .aOverB => (a <|> b).getD 0
  | .bOverA => (b <|> a).getD 0

/-- The new ramp level (R149). -/
def rampOf (target ramp step : Nat) : Nat := if ramp < target then min target (ramp + step) else target

/-- The lamps with their new targets and ramp levels (R149). -/
def rampedLamps (u : LampUnit) : Table Lamp 32 :=
  .ofFn fun l =>
    let x := u.lamps.get l
    let target := targetOf x.cfg.priority (u.layers.a.entry l) (u.layers.b.entry l)
    { x with target := target, ramp := rampOf target x.ramp x.cfg.rampStep }

/-- The applied level (R150). -/
def appliedOf (ramp sum budget : Nat) : Nat := if sum ≤ budget then ramp else ramp * budget / sum

/-- The image of a frame: commits of ARMED_FRAME layers, targets and ramps, the sum S and the Lb in use, the applied levels (R148,
R150). -/
def LampUnit.image (u : LampUnit) : LampUnit :=
  let u := { u with layers := u.layers.map fun x => x.commitIf .armedFrame }
  let lamps := rampedLamps u
  let sum := (lamps.toList.map Lamp.ramp).sum
  { u with sum := sum, inUse := u.budget, lamps := lamps.map fun x => { x with applied := appliedOf x.ramp sum u.budget } }

/-- The lamp frame interval expires (R148). -/
def lampFrame (s : State) : State :=
  if due s.lamp.frame then s.setLamp { s.lamp.image with frame := some Config.lampFrame } else s

def execLampFrame (s : State) : Host.Outcome State Fault Refusal := .next (lampFrame s)

/-! ### LAMPS (R144) -/

/-- The entry that a value writes: a level, clamped to 15, or TRANSPARENT for 255 (R144). -/
def entryOfValue (v : Nat) : Option Nat := if v = 255 then none else some (min v 15)

/-- The value is clamped to 15 (R144). -/
def isClamped (v : Nat) : Bool := 16 ≤ v && v ≤ 254

/-- The values written into a buffer from lamp `start` on. -/
def writeValues (start : Nat) (values : List Byte) (b : Table (Option Nat) 32) : Table (Option Nat) 32 :=
  .ofFn fun l =>
    if l.val < start then b.get l
    else match values[l.val - start]? with
      | none => b.get l
      | some v => entryOfValue v.toNat

/-- The layer after a LAMPS request: the open buffer written, then the commit if its flag is set (R144). -/
def Layer.written (x : Layer) (start : Nat) (values : List Byte) (commit : Bool) : Layer :=
  let n := x.shown.other
  let x := x.setBuffer n (writeValues start values (x.buffer n))
  if commit then x.commitNow else x

/-- LAMPS (R144). -/
def lampsRequest (p : Port) (body : List Byte) (s : State) : Answer :=
  let start := u8 body 0
  let count := u8 body 1
  let values := body.drop 3
  let x := s.lamp.layers.get p
  match yesNo (u8 body 2) with
  | none => .refuse s .range
  | some commit =>
    if 31 < start || 32 < start + count then .refuse s .range
    else if x.commit ≠ .idle then .refuse s .busy
    else .okWith (setLayer s p (x.written start values commit))
      [byte count, byte (values.countP fun v => isClamped v.toNat), boolByte commit]

/-- LAMPS has a body of 3 bytes plus its count (Table 10-2), so its length is tested against its own count byte. -/
def execLamps (p : Port) (body : List Byte) (s : State) : Host.Outcome State Fault Refusal :=
  .next (catalogued p 0x1B#8 (3 + u8 body 1) body (lampsRequest p body) s)

/-! ### LAMP COMMIT (R145) -/

/-- The commit state of a mode (Table 10-4: SYNC 0, FRAME 1). -/
def commitMode (k : Nat) : Option CommitState := if k = 0 then some .armedSync else if k = 1 then some .armedFrame else none

/-- LAMP COMMIT (R145). -/
def lampCommitRequest (p : Port) (body : List Byte) (s : State) : Answer :=
  let x := s.lamp.layers.get p
  match commitMode (u8 body 0) with
  | none => .refuse s .range
  | some mode =>
    if x.commit ≠ .idle then .refuse s .busy else .okWith (setLayer s p { x with commit := mode }) [byte (u8 body 0)]

def execLampCommit (p : Port) (body : List Byte) (s : State) : Host.Outcome State Fault Refusal :=
  .next (catalogued p 0x1C#8 1 body (lampCommitRequest p body) s)

/-! ### CONFIGURE LAMP (R152) -/

/-- What a selector names (R166): a lamp by 0 to 31, all lamps by 20h, the budget by 21h. -/
inductive LampSelector where
  | one (l : LampId)
  | all
  | budget
  deriving DecidableEq, Repr

def lampSelectorOf (k : Nat) : Option LampSelector :=
  match index 32 k with
  | some l => some (.one l)
  | none => if k = 0x20 then some .all else if k = 0x21 then some .budget else none

/-- The lamp record of a CONFIGURE LAMP body, where its fields are in range (R152, check 2). -/
def lampRecordOf (body : List Byte) : Option LampRecord :=
  match priorityOf (u8 body 1) with
  | none => none
  | some priority => if 1 ≤ u8 body 2 && u8 body 2 ≤ 15 then some ⟨priority, u8 body 2⟩ else none

/-- The Lb of a CONFIGURE LAMP body, where it is in range (R152, check 2). -/
def lampBudgetOf (body : List Byte) : Option Nat := if 16 ≤ u16 body 3 && u16 body 3 ≤ 480 then some (u16 body 3) else none

/-- The lamp unit after an accepted CONFIGURE LAMP, or none where check 1 or 2 fails (R152). -/
def configuredLamps (u : LampUnit) (body : List Byte) : Option LampUnit :=
  match lampSelectorOf (u8 body 0) with
  | none => none
  | some (.one l) => (lampRecordOf body).map fun r => { u with lamps := u.lamps.modify l fun x => { x with cfg := r } }
  | some .all => (lampRecordOf body).map fun r => { u with lamps := u.lamps.map fun x => { x with cfg := r } }
  | some .budget => (lampBudgetOf body).map fun lb => { u with budget := lb }

/-- CONFIGURE LAMP (R152). -/
def configureLampRequest (body : List Byte) (s : State) : Answer :=
  match configuredLamps s.lamp body with
  | none => .refuse s .range
  | some u => if s.saving then .refuse s .busy else .done (s.setLamp u)

def execConfigureLamp (p : Port) (body : List Byte) (s : State) : Host.Outcome State Fault Refusal :=
  .next (catalogued p 0x1D#8 5 body (configureLampRequest body) s)

/-! ### READ LAMPS (R153) -/

/-- A lamp in READ LAMPS: target and ramp level in one byte, then the applied level (Table 10-5). -/
def Lamp.bytes (x : Lamp) : List Byte := [byte (x.target * 16 + x.ramp), byte x.applied]

/-- A layer in READ LAMPS: shown buffer and commit state (Table 10-5). -/
def Layer.bytes (x : Layer) : List Byte := [byte x.shown.code, byte x.commit.code]

/-- READ LAMPS (R153), with the Lb and the S of the latest frame (before the first one: log 39). -/
def readLampsRequest (s : State) : Answer :=
  let u := s.lamp
  .okWith s (u.lamps.toList.flatMap Lamp.bytes ++ be16 u.inUse ++ be16 u.sum ++ u.layers.a.bytes ++ u.layers.b.bytes)

def execReadLamps (p : Port) (body : List Byte) (s : State) : Host.Outcome State Fault Refusal :=
  .next (catalogued p 0x1E#8 0 body readLampsRequest s)

end Sys2Proof.Machine
end

