-- ==== Sys2Proof/Machine/Cooling.lean ====
section
/-! DEFINITION. The cooling interval (R62 to R64), the room for a rising hold load (R37) and the exit from CUTOFF (R72). -/

namespace Sys2Proof.Machine

/-- The heat after one decay (R62). -/
def decayed (h decay : Nat) : Nat := if h = 0 then 0 else h - max 1 (h * decay / 1024)

/-- The hold load of a weight at a duty (R1). -/
def holdLoad (weight duty : Nat) : Nat := ceilDiv (weight * duty) 16

/-- The largest duty from `old` to `asked` whose hold load is no greater than `room`, at least `old` (R37). -/
def largestDuty (weight room old asked : Nat) : Nat :=
  (List.range (asked + 1)).foldl (fun best d => if old ≤ d && holdLoad weight d ≤ room then max best d else best) old

/-- The duty applied to a held channel that asks for `asked` (R37, R63): a rise of load in the general pool is held to the room there. -/
def appliedDuty (s : State) (c : ChannelId) (asked : Nat) : Nat :=
  let ch := s.chan c
  let load := ch.load
  let room := load + (generalPool s - s.arb.general)
  if ch.coil.cls = .flipper || holdLoad ch.coil.weight asked ≤ load || holdLoad ch.coil.weight asked ≤ room then asked
  else largestDuty ch.coil.weight room ch.heat.dEff asked

/-- The hold accrual of an interval (R63). -/
def accrual (gain duty : Nat) : Nat := 10 * gain * duty / 16

/-- The hold figures of the interval for a channel in HOLD, its heat decayed (R9, R63): the duty applied and its load reported, with an
attempt where the load falls, then the accrual. -/
def holdFigures (s : State) (c : ChannelId) : State :=
  let ch := s.chan c
  let duty := appliedDuty s c (derate ch.coil ch.heat.h)
  let s := s.setHeat c { ch.heat with dEff := duty }
  let s := if (s.chan c).load < ch.load then attemptNow s else s
  let x := (s.chan c).heat
  s.setHeat c { x with h := sat Config.top16 (x.h + accrual ch.coil.gain duty) }

/-- The thermal state recomputed at a cooling interval (R64, R70, R72). -/
def cooledThermal (r : CoilRecord) (x : Heat) : Thermal :=
  if x.thermal = .cutoff then (if x.h ≤ r.resume then .normal else .cutoff) else thermalOf r x.h

/-- The band time of a thermal state rises by 1 (R75). -/
def HeatStats.spend (x : HeatStats) (t : Thermal) : HeatStats :=
  match t with
  | .normal => { x with bandNormal := sat Config.top24 (x.bandNormal + 1) }
  | .warm => { x with bandWarm := sat Config.top24 (x.bandWarm + 1) }
  | .limited => { x with bandLimited := sat Config.top24 (x.bandLimited + 1) }
  | .cutoff => { x with bandCutoff := sat Config.top24 (x.bandCutoff + 1) }

/-- Steps 1 and 2 of R64: the thermal state, the band time, the peak. -/
def recordInterval (s : State) (c : ChannelId) : State :=
  let ch := s.chan c
  let t := cooledThermal ch.coil ch.heat
  let s := setThermal s c t
  let x := (s.chan c).heat
  s.setHeat c { x with stats := { x.stats.spend t with peak := max x.stats.peak x.h } }

/-- Step 3 of R64: a held channel that took CUTOFF ends its hold; a flipper learns of it (R89, R91). -/
def cutHold (s : State) (c : ChannelId) : State :=
  let s := release (noteCutoff s c) c
  match flipperOf s c with
  | none => s
  | some f => flipperHoldCut s f

/-- The exit from CUTOFF (R72): HEAT_RESUME, then the reports to the arbiter, the channel unit and the stepper unit (log 23). -/
def leaveCutoff (s : State) (c : ChannelId) : State :=
  let s := attemptNow (setFlagBoth s .heatResume (some c.val))
  let s := settle (pullInTest s c)
  match stepperOf s c with
  | none => s
  | some t => settle (stepTest s t)

/-- The cooling interval at one channel, whole (R62 to R64), the same for every class and state (R74). The reports of an exit from
CUTOFF come after the band time of step 2, the model's choice (log 41). -/
def coolChannel (s : State) (c : ChannelId) : State :=
  let ch := s.chan c
  let held := ch.state = .hold
  let s := s.setHeat c { ch.heat with h := decayed ch.heat.h ch.coil.decay }
  let s := if held then holdFigures s c else s
  let s := recordInterval s c
  if held && inCutoff s c then cutHold s c
  else if ch.heat.thermal = .cutoff && !inCutoff s c then leaveCutoff s c
  else s

/-- The channels cooled one after another. -/
def coolAll (channels : List ChannelId) (s : State) : State := channels.foldl coolChannel s

/-- The cooling interval (R62): every channel, in a free order (log 4), and the timer runs on. -/
def coolingInterval (s : State) : State :=
  if due s.coolTimer then
    coolAll (freely s.orders allChannels) { s with coolTimer := some Config.coolingInterval, orders := s.orders + 1 }
  else s

def execCoolingInterval (s : State) : Host.Outcome State Fault Refusal := .next (coolingInterval s)

end Sys2Proof.Machine
end

