-- ==== Sys2Proof/Machine/Profiles.lean ====
section
/-! DEFINITION. The profile store and start-up (chapter 11): the resets, the load, the save, SAVE PROFILE and READ CONFIG. -/

namespace Sys2Proof.Machine

/-! ### Resets (R168 and the values after reset of each chapter) -/

/-- The inputs keep their raw levels through a reset (log 5). -/
def keepSwitchLevels (u : SwitchUnit) : SwitchUnit :=
  { SwitchUnit.reset with
    inputs := u.inputs.map fun x => { SwitchInput.reset with low := x.low }
    syncRaw := u.syncRaw }

/-- The stored profile through a reset (R170): a save in flight is abandoned; its mark was removed at acceptance (log 32). -/
def ProfileStore.abandonSave (x : ProfileStore) : ProfileStore := { x with save := none }

/-- What every reset leaves (R21, R33, R60, R78, R96, R106, R129, R140, R154, R165, R168), with these heats. -/
def resetWith (heats : Table Heat 48) (s : State) : State :=
  { State.reset with
    pending := s.pending
    channels := heats.map fun x => { Channel.reset with heat := x }
    supply := { SupplyMonitor.reset with ilkRaw := s.supply.ilkRaw }
    sw := keepSwitchLevels s.sw
    store := s.store.abandonSave
    orders := s.orders }

/-- POWER_ON_RESET (R168): the heat model starts from nothing (R78). -/
def powerOnReset (s : State) : State := resetWith (.replicate 48 .reset) s

def execPowerOnReset (s : State) : Host.Outcome State Fault Refusal := .next (powerOnReset s)

/-- Pin reset and soft reset (R168): heat, thermal states and statistics are kept (R78). -/
def warmReset (s : State) : State := resetWith (s.channels.map Channel.heat) s

def execPinReset (s : State) : Host.Outcome State Fault Refusal := .next (warmReset s)

/-! ### PROFILE_LOAD_END (R168) -/

/-- The store state is VALID (R167): the mark is present and the checksum agrees. -/
def ProfileStore.valid (x : ProfileStore) : Bool := x.mark && x.checksum = Config.checksum x.records

/-- The subjects of PROFILE (Table 10-3): BLANK 0, BAD 1, SAVED 2. -/
def profileBlank : Nat := 0
def profileBad : Nat := 1
def profileSaved : Nat := 2

/-- The records that the load puts to work (R168). -/
def ProfileStore.loaded (x : ProfileStore) : Profile := if x.valid then x.records else .unconfigured

/-- Every working record takes its loaded record (R168); each channel's state is OFF or IDLE by its class, without claims, owed mark or
absorbed count (R21), with no load in either pool (R60); the Lb in use is the loaded one until the first frame (log 39). -/
def loadRecords (s : State) (r : Profile) : State :=
  { s with
    channels := .ofFn fun c =>
      let x := (s.chan c).heat
      let coil := r.coils.get c
      { Channel.reset with
        coil := coil
        state := if coil.cls = .off then .off else .idle
        heat := { x with dEff := derate coil x.h } }
    arb := { s.arb with general := 0, flipper := 0 }
    supply := { s.supply with cfg := r.supply }
    flippers := .ofFn fun f => { s.flip f with cfg := r.flippers.get f }
    links := .ofFn fun k => { s.link k with cfg := r.links.get k }
    steppers := .ofFn fun t => { s.stepper t with cfg := r.steppers.get t }
    banks := r.banks
    sw := { s.sw with inputs := .ofFn fun w => { s.input w with cfg := r.switches.get w } }
    lamp := { s.lamp with
      lamps := .ofFn fun l => { s.lamp.lamps.get l with cfg := r.lamps.get l }
      budget := r.lampBudget
      inUse := r.lampBudget } }

/-- PROFILE on both ports where the store is not VALID (R168). -/
def reportProfile (s : State) : State :=
  if s.store.valid then s
  else setFlagBoth s .profile (some (if s.store.mark then profileBad else profileBlank))

/-- The thermal state of a channel at the load's end (R79): HEAT_CUTOFF for a kept CUTOFF too. -/
def loadThermal (s : State) (c : ChannelId) : State :=
  if inCutoff s c then setFlagBoth s .heatCutoff (some c.val) else recomputeThermal s c

/-- ILK is sampled: a close debounce starts where it reads closed (R22). -/
def sampleIlk (s : State) : State :=
  s.setSupply { s.supply with ilkTimer := if s.supply.ilkRaw then some Config.ilkDebounce else none }

/-- Each switch and SYNC take their present level as debounced state (R140). -/
def sampleSwitches (s : State) : State :=
  s.setSw { s.sw with inputs := s.sw.inputs.map fun x => { x with closed := x.logical }, syncHigh := s.sw.syncRaw }

/-- The end of the load, the channels' thermal states taken in the given order (R168, R79). -/
def endLoad (channels : List ChannelId) (s : State) : State :=
  let s := reportProfile (loadRecords s s.store.loaded)
  let s := { s with part := ⟨.run, none⟩, coolTimer := some Config.coolingInterval }
  let s := sampleSwitches (sampleIlk (channels.foldl loadThermal s))
  s.setLamp { s.lamp with frame := some Config.lampFrame }

/-- The 40 ms load ends (R168), the channels in a free order (log 4). -/
def profileLoadEnd (s : State) : State :=
  if due s.part.load then endLoad (freely s.orders allChannels) { s with orders := s.orders + 1 } else s

def execProfileLoadEnd (s : State) : Host.Outcome State Fault Refusal := .next (profileLoadEnd s)

/-! ### The save (R169, R170) -/

/-- The working records that a profile stores (R167). -/
def workingProfile (s : State) : Profile where
  coils := s.channels.map Channel.coil
  supply := s.supply.cfg
  flippers := s.flippers.map Flipper.cfg
  links := s.links.map Link.cfg
  steppers := s.steppers.map Stepper.cfg
  banks := s.banks
  switches := s.sw.inputs.map SwitchInput.cfg
  lamps := s.lamp.lamps.map Lamp.cfg
  lampBudget := s.lamp.budget

/-- SAVE PROFILE (R169). -/
def saveProfileRequest (p : Port) (s : State) : Answer :=
  if s.saving then .refuse s .busy
  else .done (s.setStore { s.store with mark := false, save := some ⟨workingProfile s, p, Config.saveTime⟩ })

def execSaveProfile (p : Port) (body : List Byte) (s : State) : Host.Outcome State Fault Refusal :=
  .next (catalogued p 0x23#8 0 body (saveProfileRequest p) s)

/-- The save completes (R170). -/
def saveComplete (s : State) : State :=
  match s.store.save with
  | none => s
  | some save =>
    if save.left = 0 then
      setFlag (s.setStore ⟨save.copy, true, Config.checksum save.copy, none⟩) save.sender .profile (some profileSaved)
    else s

def execSaveComplete (s : State) : Host.Outcome State Fault Refusal := .next (saveComplete s)

/-! ### READ CONFIG (R171) -/

/-- The bytes of record number `i` of a table, where there is one. -/
def recordBytes {α : Type} {n : Nat} (t : Table α n) (bytes : α → List Byte) (i : Nat) : Option (List Byte) :=
  (index n i).map fun k => bytes (t.get k)

/-- The record that a kind and an index name (R171), in the layout of R166: coil 0, supply 1, flipper 2, link 3, stepper 4, bank 5,
switch 6, lamp 7, lamp budget 8. -/
def configRecord (s : State) (kind i : Nat) : Option (List Byte) :=
  if kind = 0 then recordBytes s.channels (fun x => x.coil.bytes) i
  else if kind = 1 then (if i = 0 then some s.supply.cfg.bytes else none)
  else if kind = 2 then recordBytes s.flippers (fun x => x.cfg.bytes) i
  else if kind = 3 then recordBytes s.links (fun x => x.cfg.bytes) i
  else if kind = 4 then recordBytes s.steppers (fun x => x.cfg.bytes) i
  else if kind = 5 then recordBytes s.banks bankBytes i
  else if kind = 6 then recordBytes s.sw.inputs (fun x => x.cfg.bytes) i
  else if kind = 7 then recordBytes s.lamp.lamps (fun x => x.cfg.bytes) i
  else if kind = 8 then (if i = 0 then some (be16 s.lamp.budget) else none)
  else none

/-- READ CONFIG (R171). -/
def readConfigRequest (body : List Byte) (s : State) : Answer :=
  match configRecord s (u8 body 0) (u8 body 1) with
  | none => .refuse s .range
  | some bytes => .okWith s (byte (u8 body 0) :: byte (u8 body 1) :: bytes)

def execReadConfig (p : Port) (body : List Byte) (s : State) : Host.Outcome State Fault Refusal :=
  .next (catalogued p 0x24#8 2 body (readConfigRequest body) s)

end Sys2Proof.Machine
end

