-- ==== Sys2Proof/WellFormed.lean ====
section
/-! DEFINITION. Which commands a master or the playfield can give: the checks on a command's own operands. The numbers of
records are bounded by their types. exec is total on every command, well-formed or not (log 31). -/

namespace Sys2Proof

/-- The kinds of Table 10-2 run from 01h to 24h. -/
def kindInCatalogue (kind : Byte) : Bool := 1 ≤ kind.toNat && kind.toNat ≤ 0x24

/-- A request frame has 0 to 56 body bytes (R155). -/
def bodyFits (body : List Byte) : Bool := body.length ≤ 56

/-- The body of a HOLD request whose setting is off (0), Table 10-4. -/
def holdSettingOff (body : List Byte) : Bool := body.length = 2 && body[1]? = some 0#8

namespace Instr

/-- The checks on a command's operands: a body no longer than a frame carries, a kind outside the catalogue for
UNKNOWN_KIND_REQUEST, and the setting that tells HOLD_ON from HOLD_OFF (both are requests of kind 03h). -/
def wellFormed : Instr → Bool
  | .powerOnReset => true
  | .pinReset => true
  | .profileLoadEnd => true
  | .saveComplete => true
  | .frameReceived _ _ _ => true
  | .interByteGapTimeout _ => true
  | .replySent _ => true
  | .unknownKindRequest _ kind body => bodyFits body && !kindInCatalogue kind
  | .ping _ body => bodyFits body
  | .pulse _ body => bodyFits body
  | .holdOn _ body => bodyFits body && !holdSettingOff body
  | .holdOff _ body => bodyFits body && holdSettingOff body
  | .disableChannel _ body => bodyFits body
  | .enableChannel _ body => bodyFits body
  | .configureCoil _ body => bodyFits body
  | .enableGroup _ body => bodyFits body
  | .configureSupply _ body => bodyFits body
  | .readHeat _ body => bodyFits body
  | .clearStats _ body => bodyFits body
  | .configureFlipper _ body => bodyFits body
  | .readFlipper _ body => bodyFits body
  | .configureLink _ body => bodyFits body
  | .readLink _ body => bodyFits body
  | .step _ body => bodyFits body
  | .stopStepper _ body => bodyFits body
  | .home _ body => bodyFits body
  | .setPosition _ body => bodyFits body
  | .readStepper _ body => bodyFits body
  | .configureStepper _ body => bodyFits body
  | .configureBank _ body => bodyFits body
  | .addScore _ body => bodyFits body
  | .readBank _ body => bodyFits body
  | .configureSwitch _ body => bodyFits body
  | .readSwitches _ body => bodyFits body
  | .readEvents _ body => bodyFits body
  | .lamps _ body => bodyFits body
  | .lampCommit _ body => bodyFits body
  | .configureLamp _ body => bodyFits body
  | .readLamps _ body => bodyFits body
  | .readFlags _ body => bodyFits body
  | .setMask _ body => bodyFits body
  | .configurePort _ body => bodyFits body
  | .resetPart _ body => bodyFits body
  | .saveProfile _ body => bodyFits body
  | .readConfig _ body => bodyFits body
  | .livenessExpiry _ => true
  | .ilkRawChange _ => true
  | .ilkDebouncedClose => true
  | .ilkDebouncedOpen => true
  | .settleExpiry => true
  | .partTimeTick => true
  | .switchRawChange _ _ => true
  | .switchDebounceExpiry _ => true
  | .flipperEffectiveMinReached _ => true
  | .lockoutExpiry _ => true
  | .syncRawChange _ => true
  | .syncRisingEdge => true
  | .lampFrame => true
  | .coolingInterval => true
  | .driveEnd _ => true
  | .recoveryGapExpiry _ => true
  | .spacingExpiry _ => true
  | .deadlineExpiry _ => true
  | .byteReceived _ _ _ => true
  | .syncDebouncedFall => true

end Instr

end Sys2Proof
end

