-- ==== Sys2Proof/Machine/Ports.lean ====
section
/-! DEFINITION. The port unit's own events and requests (chapter 10): bytes and frames, the end of a reply, the lapse, PING, READ FLAGS,
SET MASK, CONFIGURE PORT, RESET PART, requests of unknown kinds. -/

namespace Sys2Proof.Machine

/-! ### The link (R156, R157) -/

/-- BYTE_RECEIVED (R156). -/
def execByteReceived (p : Port) (b : Byte) (stop : Bool) (s : State) : Host.Outcome State Fault Refusal :=
  .next (receiveByte s p b stop)

/-- FRAME_RECEIVED (R156): the byte that arrives is a frame's check byte. -/
def execFrameReceived (p : Port) (check : Byte) (stop : Bool) (s : State) : Host.Outcome State Fault Refusal :=
  .next (receiveByte s p check stop)

/-- More than 2 ms have passed since the last byte of a started frame (R156; log 26). -/
def interByteGapTimeout (p : Port) (s : State) : State := if due (s.port p).gap then abandonFrame s p else s

def execInterByteGapTimeout (p : Port) (s : State) : Host.Outcome State Fault Refusal := .next (interByteGapTimeout p s)

/-- The last byte of a port's reply leaves the part (R157); after the OK reply to RESET PART the soft reset takes effect (R164). -/
def replySent (p : Port) (s : State) : State :=
  match (s.port p).sending with
  | none => s
  | some reply => if reply.resets then warmReset s else s.setPort p { s.port p with sending := none }

def execReplySent (p : Port) (s : State) : Host.Outcome State Fault Refusal := .next (replySent p s)

/-! ### Lapse (R159) -/

/-- The lapsed port leaves a wait entry's origin or notified ports (R57). -/
def Entry.forget (e : Entry) (p : Port) : Entry :=
  { e with work := match e.work with
    | .pulse origin => .pulse (origin.remove p)
    | .pullIn origin => .pullIn (origin.remove p)
    | .fire k notified => .fire k (notified.remove p)
    | .step t => .step t }

/-- A PULSE or PULL_IN entry whose origin is empty (R57). -/
def Entry.orphan (e : Entry) : Bool :=
  match e.work with
  | .pulse origin => origin.isEmpty
  | .pullIn origin => origin.isEmpty
  | .fire _ _ => false
  | .step _ => false

/-- The lapsed port leaves a channel's claim set; an emptied set clears the owed mark (R12, R14). -/
def Channel.forget (ch : Channel) (p : Port) : Channel :=
  let claims := ch.claims.remove p
  { ch with claims := claims, owed := ch.owed && !claims.isEmpty }

/-- A HOLDABLE channel in HOLD without a claim ends its hold (R10). -/
def endUnclaimedHold (s : State) (c : ChannelId) : State :=
  if (s.chan c).coil.cls = .holdable && (s.chan c).state = .hold && (s.chan c).claims.isEmpty then endClaimedHold s c else s

/-- The port leaves every claim set and every entry; unclaimed holds end and orphaned entries go, without flags (R12, R57). The
attempts are brought and made later (log 24); several orphaned entries go in list order, the model's choice (log 40). -/
def lapseCoilWork (s : State) (p : Port) : State :=
  let s := allChannels.foldl (fun s c => s.setChan c ((s.chan c).forget p)) s
  let s := s.setWaitList (s.arb.waitList.map fun e => e.forget p)
  let s := allChannels.foldl endUnclaimedHold s
  (s.arb.waitList.filter Entry.orphan).foldl removeEntry s

/-- The supply monitor clears the port's claims on both groups (R29). -/
def lapseGroups (s : State) (p : Port) : State :=
  recomputeGroups (s.setSupply { s.supply with
    flipClaims := s.supply.flipClaims.remove p
    directClaims := s.supply.directClaims.remove p })

/-- The lapse of a port (R159). -/
def lapse (p : Port) (s : State) : State :=
  let s := s.setPort p { s.port p with live := false, liveness := none }
  let s := lapseCoilWork s p
  let s := { s with steppers := s.steppers.map fun x => x.forget p }
  let s := lapseQueue (lapseLayer s p) p
  settle (setFlag (lapseGroups s p) p .lapsed none)

/-- The liveness timer of a LIVE port expires (R159). -/
def livenessExpiry (p : Port) (s : State) : State :=
  if (s.port p).live && due (s.port p).liveness then lapse p s else s

def execLivenessExpiry (p : Port) (s : State) : Host.Outcome State Fault Refusal := .next (livenessExpiry p s)

/-! ### Requests of the port unit -/

/-- A request whose kind is not in the catalogue (R157): UNKNOWN. A command of this row with a kind of the catalogue is ill-formed and
has no effect (log 31). -/
def unknownKindRequest (p : Port) (kind : Byte) (body : List Byte) (s : State) : State :=
  if kindInCatalogue kind then s else request p kind body (fun s => .refuse s .unknown) s

def execUnknownKindRequest (p : Port) (kind : Byte) (body : List Byte) (s : State) : Host.Outcome State Fault Refusal :=
  .next (unknownKindRequest p kind body s)

/-- A port's state, LIVE 0 or LAPSED 1 (R159, R166). -/
def liveByte (x : PortRec) : Byte := if x.live then 0#8 else 1#8

/-- PING (R163). -/
def pingRequest (p : Port) (s : State) : Answer :=
  .okWith s ([byte s.part.state.code, byte s.supply.state.code, liveByte (s.port .a), liveByte (s.port .b)] ++
    be16 (s.port p).linkErrors ++ be16 s.sw.partTime.toNat)

def execPing (p : Port) (body : List Byte) (s : State) : Host.Outcome State Fault Refusal :=
  .next (catalogued p pingKind 0 body (pingRequest p) s)

/-- A set flag in READ FLAGS: subject; count; and the reason of PULSE_DROPPED (Table 10-5). -/
def flagBytes (i : Fin 16) (flag : Option FlagRec) : List Byte :=
  match flag with
  | none => []
  | some r =>
    [natByte r.subject, byte r.count] ++
      if i = FlagName.pulseDropped.bit then [match r.reason with
        | none => absent
        | some reason => byte reason.code]
      else []

/-- The reply body of READ FLAGS (Table 10-5). -/
def latchBytes (l : Latch) : List Byte := be16 l.bitmap ++ (List.finRange 16).flatMap fun i => flagBytes i (l.get i)

/-- READ FLAGS (R162): every set flag is returned and cleared. -/
def readFlagsRequest (p : Port) (s : State) : Answer := .okWith (s.setLatch p .reset) (latchBytes (s.latch p))

def execReadFlags (p : Port) (body : List Byte) (s : State) : Host.Outcome State Fault Refusal :=
  .next (catalogued p 0x1F#8 0 body (readFlagsRequest p) s)

/-- SET MASK (R161). -/
def setMaskRequest (p : Port) (body : List Byte) (s : State) : Answer :=
  .okWith (s.setPort p { s.port p with mask := BitVec.ofNat 16 (u16 body 0) }) (be16 (u16 body 0))

def execSetMask (p : Port) (body : List Byte) (s : State) : Host.Outcome State Fault Refusal :=
  .next (catalogued p 0x20#8 2 body (setMaskRequest p body) s)

/-- The interval stored for a CONFIGURE PORT value: 1 to 4 are stored as 5 (R158). -/
def storedInterval (k : Nat) : Nat := if k = 0 then 0 else max 5 k

/-- CONFIGURE PORT (R158). -/
def configurePortRequest (p : Port) (body : List Byte) (s : State) : Answer :=
  if s.saving then .refuse s .busy
  else .okWith (s.setPort p { s.port p with interval := storedInterval (u8 body 0) }) [byte (storedInterval (u8 body 0))]

def execConfigurePort (p : Port) (body : List Byte) (s : State) : Host.Outcome State Fault Refusal :=
  .next (catalogued p 0x21#8 1 body (configurePortRequest p body) s)

/-- RESET PART (R164): OK, and the soft reset follows when the reply has left. -/
def resetPartRequest (s : State) : Answer := { Answer.done s with resets := true }

def execResetPart (p : Port) (body : List Byte) (s : State) : Host.Outcome State Fault Refusal :=
  .next (catalogued p 0x22#8 0 body resetPartRequest s)

end Sys2Proof.Machine
end

