-- ==== Sys2Proof/Machine/Timers.lean ====
section
/-! DEFINITION. PART_TIME_TICK: one millisecond of part time (R132) and of every running timer (log 2). -/

namespace Sys2Proof.Machine

/-- One millisecond of a drive or a recovery gap (R6, R11). -/
def ChanState.tick : ChanState → ChanState
  | .drive kind width left => .drive kind width (left - 1)
  | .recover left after => .recover (left - 1) after
  | .off => .off
  | .disabled => .disabled
  | .idle => .idle
  | .hold => .hold

/-- One millisecond of a wait entry's deadline (R41). -/
def Entry.tick (e : Entry) : Entry := { e with deadline := e.deadline.map fun d => { d with left := d.left - 1 } }

/-- One millisecond of a POWER phase (R85); the elapsed time is not counted past the power width. -/
def FlipState.tick : FlipState → FlipState
  | .power phase => .power { phase with elapsed := min phase.width (phase.elapsed + 1) }
  | .disabled => .disabled
  | .ready => .ready
  | .waitOpen => .waitOpen
  | .hold => .hold
  | .repower => .repower
  | .blocked => .blocked

/-- One millisecond of a port's timers (R156, R158). -/
def PortRec.tick (x : PortRec) : PortRec := { x with gap := x.gap.tick, liveness := x.liveness.tick }

/-- One millisecond of the switch unit: part time rises by 1 and wraps at 65536 (R132), the debounces run (R131, R139). -/
def SwitchUnit.tick (u : SwitchUnit) : SwitchUnit :=
  { u with
    partTime := u.partTime + 1
    inputs := u.inputs.map fun x => { x with timer := x.timer.tick }
    syncTimer := u.syncTimer.tick }

/-- One millisecond of the save (R169). -/
def ProfileStore.tick (x : ProfileStore) : ProfileStore :=
  { x with save := x.save.map fun save => { save with left := save.left - 1 } }

/-- PART_TIME_TICK. -/
def partTimeTick (s : State) : State :=
  { s with
    channels := s.channels.map fun ch => { ch with state := ch.state.tick }
    coolTimer := s.coolTimer.tick
    supply := { s.supply with countdown := s.supply.countdown.tick, ilkTimer := s.supply.ilkTimer.tick }
    arb := { s.arb with waitList := s.arb.waitList.map Entry.tick }
    flippers := s.flippers.map fun x => { x with state := x.state.tick }
    links := s.links.map fun x => { x with lockout := x.lockout.tick }
    steppers := s.steppers.map fun x => { x with spacing := x.spacing.tick }
    sw := s.sw.tick
    lamp := { s.lamp with frame := s.lamp.frame.tick }
    ports := s.ports.map PortRec.tick
    part := { s.part with load := s.part.load.tick }
    store := s.store.tick }

def execPartTimeTick (s : State) : Host.Outcome State Fault Refusal := .next (partTimeTick s)

end Sys2Proof.Machine
end

