-- ==== Sys2Proof/Machine/Dispatch.lean ====
section
/-! DEFINITION. The command's effect on everything but the queue: one arm for each row of spec/opcode_table.json. -/

namespace Sys2Proof.Machine

def exec (i : Instr) (s : State) : Host.Outcome State Fault Refusal :=
  match i with
  | .powerOnReset => Sys2Proof.Machine.execPowerOnReset s
  | .pinReset => Sys2Proof.Machine.execPinReset s
  | .profileLoadEnd => Sys2Proof.Machine.execProfileLoadEnd s
  | .saveComplete => Sys2Proof.Machine.execSaveComplete s
  | .frameReceived p check stop => Sys2Proof.Machine.execFrameReceived p check stop s
  | .interByteGapTimeout p => Sys2Proof.Machine.execInterByteGapTimeout p s
  | .replySent p => Sys2Proof.Machine.execReplySent p s
  | .unknownKindRequest p kind body => Sys2Proof.Machine.execUnknownKindRequest p kind body s
  | .ping p body => Sys2Proof.Machine.execPing p body s
  | .pulse p body => Sys2Proof.Machine.execPulse p body s
  | .holdOn p body => Sys2Proof.Machine.execHoldOn p body s
  | .holdOff p body => Sys2Proof.Machine.execHoldOff p body s
  | .disableChannel p body => Sys2Proof.Machine.execDisableChannel p body s
  | .enableChannel p body => Sys2Proof.Machine.execEnableChannel p body s
  | .configureCoil p body => Sys2Proof.Machine.execConfigureCoil p body s
  | .enableGroup p body => Sys2Proof.Machine.execEnableGroup p body s
  | .configureSupply p body => Sys2Proof.Machine.execConfigureSupply p body s
  | .readHeat p body => Sys2Proof.Machine.execReadHeat p body s
  | .clearStats p body => Sys2Proof.Machine.execClearStats p body s
  | .configureFlipper p body => Sys2Proof.Machine.execConfigureFlipper p body s
  | .readFlipper p body => Sys2Proof.Machine.execReadFlipper p body s
  | .configureLink p body => Sys2Proof.Machine.execConfigureLink p body s
  | .readLink p body => Sys2Proof.Machine.execReadLink p body s
  | .step p body => Sys2Proof.Machine.execStep p body s
  | .stopStepper p body => Sys2Proof.Machine.execStopStepper p body s
  | .home p body => Sys2Proof.Machine.execHome p body s
  | .setPosition p body => Sys2Proof.Machine.execSetPosition p body s
  | .readStepper p body => Sys2Proof.Machine.execReadStepper p body s
  | .configureStepper p body => Sys2Proof.Machine.execConfigureStepper p body s
  | .configureBank p body => Sys2Proof.Machine.execConfigureBank p body s
  | .addScore p body => Sys2Proof.Machine.execAddScore p body s
  | .readBank p body => Sys2Proof.Machine.execReadBank p body s
  | .configureSwitch p body => Sys2Proof.Machine.execConfigureSwitch p body s
  | .readSwitches p body => Sys2Proof.Machine.execReadSwitches p body s
  | .readEvents p body => Sys2Proof.Machine.execReadEvents p body s
  | .lamps p body => Sys2Proof.Machine.execLamps p body s
  | .lampCommit p body => Sys2Proof.Machine.execLampCommit p body s
  | .configureLamp p body => Sys2Proof.Machine.execConfigureLamp p body s
  | .readLamps p body => Sys2Proof.Machine.execReadLamps p body s
  | .readFlags p body => Sys2Proof.Machine.execReadFlags p body s
  | .setMask p body => Sys2Proof.Machine.execSetMask p body s
  | .configurePort p body => Sys2Proof.Machine.execConfigurePort p body s
  | .resetPart p body => Sys2Proof.Machine.execResetPart p body s
  | .saveProfile p body => Sys2Proof.Machine.execSaveProfile p body s
  | .readConfig p body => Sys2Proof.Machine.execReadConfig p body s
  | .livenessExpiry p => Sys2Proof.Machine.execLivenessExpiry p s
  | .ilkRawChange closed => Sys2Proof.Machine.execIlkRawChange closed s
  | .ilkDebouncedClose => Sys2Proof.Machine.execIlkDebouncedClose s
  | .ilkDebouncedOpen => Sys2Proof.Machine.execIlkDebouncedOpen s
  | .settleExpiry => Sys2Proof.Machine.execSettleExpiry s
  | .partTimeTick => Sys2Proof.Machine.execPartTimeTick s
  | .switchRawChange sw low => Sys2Proof.Machine.execSwitchRawChange sw low s
  | .switchDebounceExpiry sw => Sys2Proof.Machine.execSwitchDebounceExpiry sw s
  | .flipperEffectiveMinReached f => Sys2Proof.Machine.execFlipperEffectiveMinReached f s
  | .lockoutExpiry k => Sys2Proof.Machine.execLockoutExpiry k s
  | .syncRawChange high => Sys2Proof.Machine.execSyncRawChange high s
  | .syncRisingEdge => Sys2Proof.Machine.execSyncRisingEdge s
  | .lampFrame => Sys2Proof.Machine.execLampFrame s
  | .coolingInterval => Sys2Proof.Machine.execCoolingInterval s
  | .driveEnd c => Sys2Proof.Machine.execDriveEnd c s
  | .recoveryGapExpiry c => Sys2Proof.Machine.execRecoveryGapExpiry c s
  | .spacingExpiry t => Sys2Proof.Machine.execSpacingExpiry t s
  | .deadlineExpiry c => Sys2Proof.Machine.execDeadlineExpiry c s
  | .byteReceived p byte stop => Sys2Proof.Machine.execByteReceived p byte stop s
  | .syncDebouncedFall => Sys2Proof.Machine.execSyncDebouncedFall s

end Sys2Proof.Machine
end

