-- ==== Sys2Proof/Safety.lean ====
section
/-! DEFINITION. What counts as a safe state of the CD48: the bounds that the spec's prose promises at every moment, gathered in
invariants; what coil work leaves alone; and the words that the statements about commands are written in. -/

namespace Sys2Proof.Machine

/-- A coil record as it is stored: in the ranges and orders of R2, the duty and the levels within their fields, the gap of class
FLIPPER 0. -/
def CoilRecord.stored (r : CoilRecord) : Bool :=
  r.accepted && r.duty ≤ 16 && r.cutoff ≤ 65535 && (r.cls ≠ .flipper || r.gap = 0)

/-- The weight of all FLIPPER-class coils of a profile (R3). -/
def Profile.flipperWeights (p : Profile) : Nat := (allChannels.map fun c => (p.coils.get c).flipperWeight).sum

/-- The guarantees that configuration keeps among the records (R2, R3, R31, R94). -/
structure Profile.Sound (p : Profile) : Prop where
  coils : ∀ c, (p.coils.get c).stored = true
  named : ∀ f c, (p.flippers.get f).names c = true → (p.coils.get c).cls = .flipper
  reserve : p.supply.reserve ≤ p.supply.budget
  weights : p.flipperWeights ≤ p.supply.reserve

/-- The sum of the general loads of all channels (R35). -/
def generalLoads (s : State) : Nat := (allChannels.map fun c => (s.chan c).generalLoad).sum

/-- The sum of the flipper loads of all channels (R35). -/
def flipperLoads (s : State) : Nat := (allChannels.map fun c => (s.chan c).flipperLoad).sum

/-- The safe states. Every step keeps this invariant, and the state after reset has it (see the obligations). -/
structure Safe (s : State) : Prop where
  /-- R40: at most 24 entries. -/
  listFits : s.arb.waitList.length ≤ Config.waitListSize
  /-- R40: never two entries for the same channel. -/
  oneEach : (s.arb.waitList.map Entry.channel).Nodup
  /-- R35: the general load is the sum of the present loads of all channels whose class is not FLIPPER. -/
  general : s.arb.general = generalLoads s
  /-- R35: the flipper load is the sum of the present loads of all channels of class FLIPPER. -/
  flipper : s.arb.flipper = flipperLoads s
  /-- R35: the general load never exceeds B − F. -/
  pool : s.arb.general ≤ generalPool s
  /-- R65: d_eff lies from 1 to d, which is at most 16. -/
  duty : ∀ c, 1 ≤ (s.chan c).heat.dEff ∧ (s.chan c).heat.dEff ≤ 16
  /-- R61: a heat accumulator stays within 0 to 65535. -/
  heat : ∀ c, (s.chan c).heat.h ≤ 65535
  /-- R12: a claim set contains a port only while the channel's class is HOLDABLE. -/
  claims : ∀ c, (s.chan c).claims.isEmpty = false → (s.chan c).coil.cls = .holdable
  /-- The working records (R2, R3). -/
  working : (workingProfile s).Sound
  /-- The stored records, once saved from working records (R169). -/
  stored : s.store.records.Sound
  /-- The copy of a save in flight (R169). -/
  copied : ∀ save, s.store.save = some save → save.copy.Sound
  /-- R134: an event queue holds at most 32 entries. -/
  queues : ∀ p, (s.sw.queues.get p).entries.length ≤ Config.queueSize

/-- The flags that coil work sets: those of the arbiter, the steppers, the heat model and the flippers. -/
def coilFlag : FlagName → Bool
  | .pulseDropped => true
  | .trainDone => true
  | .trainReload => true
  | .trainStopped => true
  | .stepperFault => true
  | .rollover => true
  | .heatWarn => true
  | .heatCutoff => true
  | .heatResume => true
  | .flipperFault => true
  | .switch => false
  | .eventLost => false
  | .supplyDown => false
  | .supplyUp => false
  | .lapsed => false
  | .profile => false

/-- The ports that a wait entry names: its origin, or the notified ports of a FIRE (R39). -/
def Work.ports : Work → PortSet
  | .pulse origin => origin
  | .pullIn origin => origin
  | .fire _ notified => notified
  | .step _ => .empty

/-- A wait entry names the port. -/
def EntryNames (s : State) (p : Port) : Prop := ∃ e ∈ s.arb.waitList, e.work.ports.has p = true

/-- The origin of a train or of a homing names the port (R108). -/
def TrainNames (s : State) (p : Port) : Prop := ∃ t, (s.stepper t).state.told.has p = true

/-- Coil work: what grants, drive ends, cuts, flips, trains and their reports may do. It changes channels, pools, the wait list, the
running state of flippers, links and steppers, and the latches; it changes no configuration record, no supply state, no claim of
a group, no switch, queue, lamp, port, timer of the part, nor the store; it adds a claim to a channel for a LIVE port alone, and names in
entries and trains no port but a LIVE one and those that claims, entries and trains name already; it sets none of the other units' flags; and it keeps a safe state safe. -/
structure CoilWork (s t : State) : Prop where
  pending : t.pending = s.pending
  coolTimer : t.coolTimer = s.coolTimer
  supply : t.supply = s.supply
  sw : t.sw = s.sw
  lamp : t.lamp = s.lamp
  ports : t.ports = s.ports
  lastServed : t.lastServed = s.lastServed
  part : t.part = s.part
  store : t.store = s.store
  orders : t.orders = s.orders
  profile : workingProfile t = workingProfile s
  claimed : ∀ c p, (t.chan c).claims.has p = true → (s.chan c).claims.has p = true ∨ (s.port p).live = true
  entered : ∀ p, EntryNames t p → EntryNames s p ∨ (∃ c, (s.chan c).claims.has p = true) ∨ (s.port p).live = true
  origins : ∀ p, TrainNames t p → TrainNames s p ∨ (s.port p).live = true
  latched : ∀ p n, coilFlag n = false → (t.latch p).get n.bit = (s.latch p).get n.bit
  safe : Safe s → Safe t

/-! ### Records that name one another (R3, R80, R97, R107, R126) -/

/-- The conditions that CONFIGURE keeps between records that name channels, steppers and reels. -/
structure Profile.Joined (r : Profile) : Prop where
  /-- R80: a channel is named by at most one flipper. -/
  flipperOnce : ∀ f g c, (r.flippers.get f).names c = true → (r.flippers.get g).names c = true → f = g
  /-- R3, R107: a channel named by a stepper is of class STEPPER. -/
  stepper : ∀ t c, (r.steppers.get t).names c = true → (r.coils.get c).cls = .stepper
  /-- R107: a channel is named by at most one stepper. -/
  stepperOnce : ∀ t u c, (r.steppers.get t).names c = true → (r.steppers.get u).names c = true → t = u
  /-- R3, R97: a channel named by a link is of class PULSE or HOLDABLE. -/
  link : ∀ k c, (r.links.get k).channel = some c → (r.coils.get c).cls = .pulse ∨ (r.coils.get c).cls = .holdable
  /-- R126: a reel of a bank is a configured WRAP stepper of 10 positions. -/
  reels : ∀ n t, t ∈ r.banks.get n → (r.steppers.get t).isReel = true
  /-- R126: a stepper belongs to at most one bank. -/
  reelOnce : ∀ m n t, t ∈ r.banks.get m → t ∈ r.banks.get n → m = n
  /-- R107: a carry target is a configured WRAP stepper of higher index. -/
  carry : ∀ t u, (r.steppers.get t).carry = some u → t < u ∧ (r.steppers.get u).isWrap = true

/-- The working records, the stored records and the copy of a save in flight are joined so. -/
structure RecordsJoined (s : State) : Prop where
  working : (workingProfile s).Joined
  stored : s.store.records.Joined
  copied : ∀ save, s.store.save = some save → save.copy.Joined

/-! ### A LAPSED port (R12, R29, R135, R151) -/

/-- Nothing stands on the account of a LAPSED port. -/
structure LapsedWithdrawn (s : State) : Prop where
  /-- R12: a claim set contains a port only while that port is LIVE. -/
  claims : ∀ c p, (s.chan c).claims.has p = true → (s.port p).live = true
  /-- R29: a group's claim set contains a port only while that port is LIVE. -/
  groups : ∀ p, s.supply.flipClaims.has p = true ∨ s.supply.directClaims.has p = true → (s.port p).live = true
  /-- R135: a LAPSED port's queue is empty. -/
  queue : ∀ p, (s.port p).live = false → (s.sw.queues.get p).entries = []
  /-- R151: a LAPSED port's layer is TRANSPARENT and its commit state IDLE. -/
  layer : ∀ p, (s.port p).live = false → (s.lamp.layers.get p).commit = .idle ∧
    ∀ l, (s.lamp.layers.get p).x.get l = none ∧ (s.lamp.layers.get p).y.get l = none

/-! ### From a reset to the end of the load (R21, R22, R60, R79, R96, R140, R148) -/

/-- STARTING with every channel OFF and every flipper DISABLED, no wait entry, the supply DOWN, and none of the timers running that the
end of the load starts. -/
structure Asleep (s : State) : Prop where
  /-- R168: the load has not ended. -/
  starting : s.part.state = .starting
  /-- R21: every channel is in state OFF. -/
  off : ∀ c, (s.chan c).state = .off
  /-- R96: every flipper is DISABLED. -/
  flippers : ∀ f, (s.flip f).state = .disabled
  /-- R60: no wait entry exists. -/
  list : s.arb.waitList = []
  /-- R33: the supply is DOWN. -/
  down : s.supply.state = .down
  /-- R22, R33: neither the ILK debounce nor the settle countdown runs. -/
  supply : s.supply.ilkTimer = none ∧ s.supply.countdown = none
  /-- R79: the cooling timer does not run. -/
  cooling : s.coolTimer = none
  /-- R140: no debounce runs. -/
  switches : s.sw.syncTimer = none ∧ ∀ w, (s.input w).timer = none
  /-- R148: the lamp frame interval does not run. -/
  lamps : s.lamp.frame = none

/-! ### The words of the statements -/

/-- A port's request stands in its hold, it is the one that the engine takes (R157), and the part is in RUN. -/
structure Ready (p : Port) (kind : Byte) (body : List Byte) (s : State) : Prop where
  held : (s.port p).hold = some ⟨kind, body⟩
  turn : taken s p = true
  run : s.inRun = true

/-- The state after a service that leaves `u` and answers OK with these bytes (R157, R158). -/
def okTo (p : Port) (kind : Byte) (u : State) (bytes : List Byte) : State := reply p kind (.okWith u bytes)

/-- The state after a service that changes nothing and answers a status other than OK (R157, R158). -/
def refusedTo (p : Port) (kind : Byte) (u : State) (status : Status) : State := reply p kind (.refuse u status)

/-- Port, kind, body length of Table 10-2 and body of a request row. -/
def requestLine : Instr → Option (Port × Byte × Nat × List Byte)
  | .ping p b => some (p, 0x01#8, 0, b)
  | .pulse p b => some (p, 0x02#8, 2, b)
  | .holdOn p b => some (p, 0x03#8, 2, b)
  | .holdOff p b => some (p, 0x03#8, 2, b)
  | .disableChannel p b => some (p, 0x04#8, 1, b)
  | .enableChannel p b => some (p, 0x05#8, 1, b)
  | .configureCoil p b => some (p, 0x06#8, 19, b)
  | .enableGroup p b => some (p, 0x07#8, 2, b)
  | .configureSupply p b => some (p, 0x08#8, 4, b)
  | .readHeat p b => some (p, 0x09#8, 1, b)
  | .clearStats p b => some (p, 0x0A#8, 1, b)
  | .configureFlipper p b => some (p, 0x0B#8, 9, b)
  | .readFlipper p b => some (p, 0x0C#8, 1, b)
  | .configureLink p b => some (p, 0x0D#8, 8, b)
  | .readLink p b => some (p, 0x0E#8, 1, b)
  | .step p b => some (p, 0x0F#8, 4, b)
  | .stopStepper p b => some (p, 0x10#8, 1, b)
  | .home p b => some (p, 0x11#8, 1, b)
  | .setPosition p b => some (p, 0x12#8, 2, b)
  | .readStepper p b => some (p, 0x13#8, 1, b)
  | .configureStepper p b => some (p, 0x14#8, 10, b)
  | .addScore p b => some (p, 0x15#8, 4, b)
  | .readBank p b => some (p, 0x16#8, 1, b)
  | .configureBank p b => some (p, 0x17#8, 7, b)
  | .configureSwitch p b => some (p, 0x18#8, 5, b)
  | .readSwitches p b => some (p, 0x19#8, 0, b)
  | .readEvents p b => some (p, 0x1A#8, 0, b)
  | .lamps p b => some (p, 0x1B#8, 3 + u8 b 1, b)
  | .lampCommit p b => some (p, 0x1C#8, 1, b)
  | .configureLamp p b => some (p, 0x1D#8, 5, b)
  | .readLamps p b => some (p, 0x1E#8, 0, b)
  | .readFlags p b => some (p, 0x1F#8, 0, b)
  | .setMask p b => some (p, 0x20#8, 2, b)
  | .configurePort p b => some (p, 0x21#8, 1, b)
  | .resetPart p b => some (p, 0x22#8, 0, b)
  | .saveProfile p b => some (p, 0x23#8, 0, b)
  | .readConfig p b => some (p, 0x24#8, 2, b)
  | _ => none

/-! ### Frames: which parts of the state a group of commands may change -/

/-- The port's record and the port served last. -/
def PortFrame (p : Port) (s t : State) : Prop :=
  t = { s with ports := s.ports.set p (t.port p), lastServed := t.lastServed }

/-- Channels, arbiter, flippers, links, steppers and latches, no configuration record among them. -/
def CoilFrame (s t : State) : Prop :=
  t = { s with
    channels := t.channels
    arb := t.arb
    flippers := t.flippers
    links := t.links
    steppers := t.steppers
    latches := t.latches } ∧ workingProfile t = workingProfile s

/-- The two together: a request of the coils. -/
def CoilRequestFrame (p : Port) (s t : State) : Prop :=
  t = { s with
    channels := t.channels
    arb := t.arb
    flippers := t.flippers
    links := t.links
    steppers := t.steppers
    latches := t.latches
    ports := s.ports.set p (t.port p)
    lastServed := t.lastServed } ∧ workingProfile t = workingProfile s

/-- The rows that may write a configuration record: the CONFIGURE requests, the resets, the end of the load, and the end of a
reply, at which a soft reset takes effect. -/
def writesRecords : Instr → Bool
  | .configureCoil _ _ => true
  | .configureSupply _ _ => true
  | .configureFlipper _ _ => true
  | .configureLink _ _ => true
  | .configureStepper _ _ => true
  | .configureBank _ _ => true
  | .configureSwitch _ _ => true
  | .configureLamp _ _ => true
  | .powerOnReset => true
  | .pinReset => true
  | .profileLoadEnd => true
  | .replySent _ => true
  | _ => false

/-- The rows that change at most the record of the port named. -/
def portOnly : Instr → Option Port
  | .ping p _ => some p
  | .unknownKindRequest p _ _ => some p
  | .readHeat p _ => some p
  | .readFlipper p _ => some p
  | .readLink p _ => some p
  | .readStepper p _ => some p
  | .readBank p _ => some p
  | .readSwitches p _ => some p
  | .readLamps p _ => some p
  | .readConfig p _ => some p
  | .setMask p _ => some p
  | .configurePort p _ => some p
  | .resetPart p _ => some p
  | .byteReceived p _ _ => some p
  | .frameReceived p _ _ => some p
  | .interByteGapTimeout p => some p
  | _ => none

/-- The requests of the coils from the port named. -/
def coilRequest : Instr → Option Port
  | .pulse p _ => some p
  | .holdOn p _ => some p
  | .holdOff p _ => some p
  | .disableChannel p _ => some p
  | .enableChannel p _ => some p
  | .clearStats p _ => some p
  | .step p _ => some p
  | .stopStepper p _ => some p
  | .home p _ => some p
  | .setPosition p _ => some p
  | .addScore p _ => some p
  | _ => none

/-- The timed events of the coils. -/
def coilEvent : Instr → Bool
  | .driveEnd _ => true
  | .recoveryGapExpiry _ => true
  | .spacingExpiry _ => true
  | .deadlineExpiry _ => true
  | .lockoutExpiry _ => true
  | .flipperEffectiveMinReached _ => true
  | _ => false

end Sys2Proof.Machine
end

