-- ==== Sys2Proof/Certificates/Slice0/Obligations.lean ====
section
/-! DEFINITION. The statements about the CD48 that the provers prove or refute: invariants, frames, and what each command does. -/

open Sys2Proof Sys2Proof.Machine

/-! ### Steps and the queue of commands -/

/-- The block's own step: the command at the front of the queue leaves it and has its effect on the rest. That the part idles on an
empty queue is the model's choice (log 3). -/
def Obligations.StepServesTheFrontCommand : Prop :=
  (∀ (c : Instr) (rest : List Instr) (s : State), s.pending = c :: rest → step s = exec c { s with pending := rest }) ∧
  (∀ s : State, s.pending = [] → step s = .next s)

/-- No command stops the part (logs 27, 31), and none touches the queue. -/
def Obligations.EveryCommandCompletesAndKeepsTheQueue : Prop :=
  ∀ (c : Instr) (s : State), ∃ t, exec c s = .next t ∧ t.pending = s.pending

/-! ### Invariants -/

/-- The state after reset has the three invariants that every step keeps. -/
def Obligations.ResetStateHasTheInvariants : Prop :=
  Safe State.reset ∧ RecordsJoined State.reset ∧ LapsedWithdrawn State.reset

/-- Every step from a safe state, whatever the command, leaves a safe state. -/
def Obligations.EveryStepKeepsTheStateSafe : Prop :=
  ∀ s t : State, Safe s → step s = .next t → Safe t

/-- R35: general load within B − F, flipper load within F, total within B. -/
def Obligations.SafeLoadsStayWithinTheBudget : Prop :=
  ∀ s : State, Safe s →
    s.arb.general ≤ s.supply.cfg.budget - s.supply.cfg.reserve ∧ s.arb.flipper ≤ s.supply.cfg.reserve ∧
    generalLoads s + flipperLoads s ≤ s.supply.cfg.budget

/-- Every step keeps the conditions between records that name channels, steppers and reels. -/
def Obligations.EveryStepKeepsTheRecordsJoined : Prop :=
  ∀ s t : State, RecordsJoined s → step s = .next t → RecordsJoined t

/-- Every step keeps it true that nothing stands on the account of a LAPSED port. -/
def Obligations.EveryStepKeepsLapsedPortsWithdrawn : Prop :=
  ∀ s t : State, LapsedWithdrawn s → step s = .next t → LapsedWithdrawn t

/-! ### Frames -/

def Obligations.OnlyConfigurationWritesTheRecords : Prop :=
  ∀ (c : Instr) (s t : State), writesRecords c = false → exec c s = .next t → workingProfile t = workingProfile s

/-- Commands that read or that serve a port's link change that port's record alone; the requests of the coils and the coils' timed events
change channels, arbiter, flippers, links, steppers and latches alone, no configuration record, and the port's own record. -/
def Obligations.ReadsPortsAndCoilsKeepToTheirOwnState : Prop :=
  (∀ (c : Instr) (p : Port) (s t : State), portOnly c = some p → exec c s = .next t → PortFrame p s t) ∧
  (∀ (c : Instr) (p : Port) (s t : State), coilRequest c = some p → exec c s = .next t → CoilRequestFrame p s t) ∧
  (∀ (c : Instr) (s t : State), coilEvent c = true → exec c s = .next t → CoilFrame s t)

/-- What the commands of the lamps, the switches' inputs, the latches, the queues and the store leave unchanged. That a save in flight
leaves the stored records and their checksum as they were is the model's choice (log 32). -/
def Obligations.LampQueueLatchAndStoreFrames : Prop :=
  (∀ (p : Port) (body : List Byte) (s t : State),
    (exec (.lamps p body) s = .next t ∨ exec (.lampCommit p body) s = .next t →
      t = { s with
        lamp := { s.lamp with layers := s.lamp.layers.set p (t.lamp.layers.get p) }
        ports := s.ports.set p (t.port p)
        lastServed := t.lastServed }) ∧
    (exec (.configureLamp p body) s = .next t →
      t = { s with
        lamp := { s.lamp with lamps := t.lamp.lamps, budget := t.lamp.budget }
        ports := s.ports.set p (t.port p)
        lastServed := t.lastServed } ∧
      ∀ l, (t.lamp.lamps.get l).target = (s.lamp.lamps.get l).target ∧ (t.lamp.lamps.get l).ramp = (s.lamp.lamps.get l).ramp ∧
        (t.lamp.lamps.get l).applied = (s.lamp.lamps.get l).applied) ∧
    (exec (.readEvents p body) s = .next t →
      t = { s with
        sw := { s.sw with queues := s.sw.queues.set p (t.sw.queues.get p) }
        ports := s.ports.set p (t.port p)
        lastServed := t.lastServed }) ∧
    (exec (.readFlags p body) s = .next t →
      t = { s with
        latches := s.latches.set p (t.latch p)
        ports := s.ports.set p (t.port p)
        lastServed := t.lastServed }) ∧
    (exec (.saveProfile p body) s = .next t →
      t = { s with store := t.store, ports := s.ports.set p (t.port p), lastServed := t.lastServed } ∧
        t.store.records = s.store.records ∧ t.store.checksum = s.store.checksum)) ∧
  (∀ s t : State,
    (exec .saveComplete s = .next t → t = { s with store := t.store, latches := t.latches }) ∧
    (exec .lampFrame s = .next t → t = { s with lamp := t.lamp } ∧ t.lamp.budget = s.lamp.budget) ∧
    (exec .syncRisingEdge s = .next t →
      t = { s with
        sw := { s.sw with syncHigh := t.sw.syncHigh, syncTimer := t.sw.syncTimer }
        lamp := { s.lamp with layers := t.lamp.layers } }) ∧
    (exec .syncDebouncedFall s = .next t →
      t = { s with sw := { s.sw with syncHigh := t.sw.syncHigh, syncTimer := t.sw.syncTimer } })) ∧
  (∀ (high : Bool) (s t : State), exec (.syncRawChange high) s = .next t →
    t = { s with sw := { s.sw with syncRaw := t.sw.syncRaw, syncTimer := t.sw.syncTimer } }) ∧
  (∀ (w : SwitchId) (low : Bool) (s t : State), exec (.switchRawChange w low) s = .next t →
    t = { s with sw := { s.sw with inputs := s.sw.inputs.set w (t.input w) } }) ∧
  (∀ (closed : Bool) (s t : State), exec (.ilkRawChange closed) s = .next t →
    t = { s with supply := { s.supply with ilkRaw := t.supply.ilkRaw, ilkTimer := t.supply.ilkTimer } })

/-! ### The receivers and the command engine (R156, R157) -/

/-- A request frame's bytes, with the CRC-8 of generator 07h and initial value 0 over length, kind and body (R155).
A frame of up to 56 body bytes that arrives whole, with its CRC-8, at an empty assembly area and an empty hold is held. What one byte
does at a receiver, and the gap of more than 2 ms (log 26: due once 2 ms have run). The model's choices among the clauses:
FRAME_RECEIVED does what BYTE_RECEIVED does with the frame's last byte (log 31), and a gap timeout that is not due does nothing
(log 2). -/
def Obligations.ReceiverHoldsOrAbandonsAFrame : Prop :=
  (crc8 [] = 0#8 ∧
    (∀ (l : List Byte) (b : Byte), crc8 (l ++ [b]) =
      (List.range 8).foldl (fun (r : Byte) _ => if r.msb = true then (r <<< 1) ^^^ 0x07#8 else r <<< 1) (crc8 l ^^^ b)) ∧
    ∀ (kind : Byte) (body : List Byte), requestFrame kind body =
      [0xC3#8, byte body.length, kind] ++ body ++ [crc8 ([byte body.length, kind] ++ body)]) ∧
  (∀ (p : Port) (kind : Byte) (body : List Byte) (s : State),
    body.length ≤ 56 → (s.port p).assembly = [] → (s.port p).hold = none →
    (requestFrame kind body).foldl (fun u b => receiveByte u p b true) s =
      s.setPort p { s.port p with hold := some ⟨kind, body⟩, gap := none }) ∧
  (∀ (p : Port) (b : Byte) (stop : Bool) (s : State),
    let x := s.port p
    let error := { x with assembly := [], gap := none, linkErrors := min 65535 (x.linkErrors + 1) }
    (exec (.byteReceived p b stop) s = exec (.frameReceived p b stop) s) ∧
    (x.assembly = [] → b ≠ 0xC3#8 → exec (.byteReceived p b stop) s = .next s) ∧
    (x.assembly = [] → exec (.byteReceived p 0xC3#8 true) s =
      .next (s.setPort p { x with assembly := [0xC3#8], gap := some 2 })) ∧
    (x.assembly ≠ [] → exec (.byteReceived p b false) s = .next (s.setPort p error)) ∧
    (x.assembly = [0xC3#8] → 56 < b.toNat → exec (.byteReceived p b true) s = .next (s.setPort p error)) ∧
    (∀ n kind body, x.assembly = 0xC3#8 :: n :: kind :: body → body.length = n.toNat →
      exec (.byteReceived p b true) s = .next (s.setPort p (
        if b ≠ crc8 (n :: kind :: body) then error
        else if x.hold.isSome then error
        else { x with assembly := [], gap := none, hold := some ⟨kind, body⟩ }))) ∧
    (x.gap = some 0 → exec (.interByteGapTimeout p) s = .next (s.setPort p error)) ∧
    (x.gap ≠ some 0 → exec (.interByteGapTimeout p) s = .next s))

/-- The first cases of the status order: a wrong body length is MALFORMED and a kind outside Table 10-2 UNKNOWN, whatever the state of
the part; while STARTING every other request but PING is BUSY. -/
def Obligations.MalformedAndUnknownComeBeforeBusy : Prop :=
  (∀ (c : Instr) (p : Port) (kind : Byte) (n : Nat) (body : List Byte) (s : State),
    requestLine c = some (p, kind, n, body) → (s.port p).hold = some ⟨kind, body⟩ → taken s p = true →
    (body.length ≠ n → exec c s = .next (refusedTo p kind (take s p) .malformed)) ∧
    (body.length = n → s.inRun = false → kind ≠ 0x01#8 → exec c s = .next (refusedTo p kind (take s p) .busy))) ∧
  (∀ (p : Port) (kind : Byte) (body : List Byte) (s : State),
    (s.port p).hold = some ⟨kind, body⟩ → taken s p = true → kindInCatalogue kind = false →
    exec (.unknownKindRequest p kind body) s = .next (refusedTo p kind (take s p) .unknown))

/-- When the engine takes a held request: not while the reply before it is still leaving, and of two that may be taken the one of the
port it did not serve last. One that may not be taken waits in its hold (log 1). A service empties the hold, makes the port LIVE, restarts
its liveness timer with the interval as it then stands, and sends the reply, whose frame is laid out as R155 says, with the status codes of
Table 10-1. -/
def Obligations.RequestIsTakenInItsTurnAndAnswered : Prop :=
  ((∀ (kind : Byte) (status : Status) (body : List Byte), replyFrame kind status body =
      [0x3C#8, byte body.length, kind, status.code] ++ body ++ [crc8 ([byte body.length, kind, status.code] ++ body)]) ∧
    [Status.ok, .busy, .refused, .range, .full, .hot, .noSupply, .unknown, .malformed].map Status.code =
      [0x00#8, 0x01#8, 0x02#8, 0x03#8, 0x04#8, 0x05#8, 0x06#8, 0x07#8, 0x08#8]) ∧
  (∀ (p : Port) (s : State), taken s p = true ↔ (s.port p).hold.isSome = true ∧ (s.port p).sending = none ∧
    ((s.port (otherPort p)).hold.isSome = true → (s.port (otherPort p)).sending = none → s.lastServed = otherPort p)) ∧
  (∀ (c : Instr) (p : Port) (kind : Byte) (n : Nat) (body : List Byte) (s : State),
    requestLine c = some (p, kind, n, body) → (s.port p).hold = some ⟨kind, body⟩ → taken s p = false → exec c s = .next s) ∧
  (∀ (p : Port) (kind : Byte) (bytes : List Byte) (status : Status) (s u : State),
    (((take s p).port p).hold = none ∧ ((take s p).port p).live = true ∧ (take s p).lastServed = p ∧
      (take s p).port (otherPort p) = s.port (otherPort p)) ∧
    okTo p kind u bytes = u.setPort p { u.port p with
      liveness := if (u.port p).interval = 0 then none else some ((u.port p).interval * 10)
      sending := some ⟨replyFrame kind .ok bytes, false⟩ } ∧
    (status ≠ .ok → refusedTo p kind u status = u.setPort p { u.port p with
      liveness := if (u.port p).interval = 0 then none else some ((u.port p).interval * 10)
      sending := some ⟨replyFrame kind status [], false⟩ }))

/-! ### Latches and ATTN (R160 to R162) -/

/-- R160, whole: a clear flag becomes set with subject, reason and a count of 1; a set flag keeps subject and reason and counts on,
up to 255; other flags of the latch, the mask and the other latch are left as they are. -/
def Obligations.SettingAFlagKeepsTheFirstSubjectAndCounts : Prop :=
  ∀ (p : Port) (n m : FlagName) (subject : Option Nat) (reason : Option DropReason) (s : State),
    let t := setFlagReason s p n subject reason
    ((s.latch p).get n.bit = none → (t.latch p).get n.bit = some ⟨subject, reason, 1⟩) ∧
    (∀ r, (s.latch p).get n.bit = some r → (t.latch p).get n.bit = some { r with count := min 255 (r.count + 1) }) ∧
    (m ≠ n → (t.latch p).get m.bit = (s.latch p).get m.bit) ∧
    t.latch (otherPort p) = s.latch (otherPort p) ∧
    (∀ q, t.port q = s.port q) ∧
    (setFlagBoth s n subject).latch p = (setFlag s p n subject).latch p

/-- SET MASK replaces the mask whole and answers it (R161); READ FLAGS returns every set flag with its subject, its count and, for
PULSE_DROPPED, its reason, and clears the latch (R162); ATTN is low exactly while a flag is set and unmasked. The sixteen flags have the bits
0 to 15 in the order of Table 10-3. -/
def Obligations.SetMaskAndReadFlags : Prop :=
  ([FlagName.switch, .eventLost, .pulseDropped, .trainDone, .trainReload, .trainStopped, .stepperFault, .rollover, .heatWarn, .heatCutoff,
    .heatResume, .supplyDown, .supplyUp, .flipperFault, .lapsed, .profile].map FlagName.bit =
    [0, 1, 2, 3, 4, 5, 6, 7, 8, 9, 10, 11, 12, 13, 14, 15]) ∧
  (∀ (p : Port) (hi lo : Byte) (s : State), Ready p 0x20#8 [hi, lo] s →
    exec (.setMask p [hi, lo]) s = .next (okTo p 0x20#8
      ((take s p).setPort p { (take s p).port p with mask := hi ++ lo }) [hi, lo])) ∧
  (∀ (p : Port) (s : State), Ready p 0x1F#8 [] s →
    exec (.readFlags p []) s = .next (okTo p 0x1F#8 ((take s p).setLatch p Latch.reset) (latchBytes (s.latch p))) ∧
    (s.setLatch p Latch.reset).latch (otherPort p) = s.latch (otherPort p)) ∧
  (∀ (p : Port) (s : State), attnLow s p = true ↔
    ∃ i : Fin 16, ((s.latch p).get i).isSome = true ∧ (s.port p).mask.getLsbD i.val = false) ∧
  (∀ (p : Port) (s : State), attnLow (s.setLatch p Latch.reset) p = false) ∧
  (∀ i, Latch.reset.get i = none) ∧ latchBytes Latch.reset = [0#8, 0#8] ∧
  (∀ x : Latch, latchBytes x =
    be16 ((List.finRange 16).map fun i => if (x.get i).isSome then 2 ^ i.val else 0).sum ++
      (List.finRange 16).flatMap fun i => match x.get i with
        | none => []
        | some r => [match r.subject with
            | none => 0xFF#8
            | some k => byte k, byte r.count] ++ if i = FlagName.pulseDropped.bit then [match r.reason with
              | none => 0xFF#8
              | some .expired => 0#8
              | some .hot => 1#8
              | some .supply => 2#8] else []) ∧
  (∀ n : Nat, be16 n = [byte (n / 256), byte n])

/-! ### Resets, the load and the save (R165, R168 to R170) -/

/-- The port unit after the three resets (the soft reset takes effect when the last byte of RESET PART's reply leaves), and the part's
state: STARTING until the load ends, RUN from then on until a reset. A reply under way on either port is cut off, which R164 says of the
soft reset; of the other resets it is the model's choice (log 43). -/
def Obligations.PortUnitAfterEveryReset : Prop :=
  (∀ (c : Instr) (s : State),
    (c = .powerOnReset ∨ c = .pinReset ∨ ∃ p r, c = .replySent p ∧ (s.port p).sending = some r ∧ r.resets = true) →
    ∃ t, exec c s = .next t ∧ t.lastServed = .b ∧ t.part.state = .starting ∧
      ∀ q, (t.port q).assembly = [] ∧ (t.port q).hold = none ∧ (t.port q).live = true ∧ (t.port q).interval = 0 ∧
        (t.port q).liveness = none ∧ (t.port q).linkErrors = 0 ∧ (∀ i, (t.latch q).get i = none) ∧ (t.port q).mask = 0 ∧
        (t.port q).sending = none ∧ attnLow t q = false) ∧
  (∀ (c : Instr) (s t : State), s.part.state = .starting → exec c s = .next t →
    t.part.state = .starting ∨ c = .profileLoadEnd ∧ t.part.state = .run) ∧
  (∀ s : State, s.part.load = some 0 → ∃ t, exec .profileLoadEnd s = .next t ∧ t.part.state = .run) ∧
  (∀ (c : Instr) (s t : State), s.part.state = .run → exec c s = .next t →
    t.part.state = .run ∨ c = .powerOnReset ∨ c = .pinReset ∨
      ∃ p r, c = .replySent p ∧ (s.port p).sending = some r ∧ r.resets = true)

/-- R78, whole: power-on reset empties the heat model; pin reset and soft reset keep heat, thermal state and statistics, while every
drive and hold ends. -/
def Obligations.HeatThroughTheResets : Prop :=
  (∀ s : State, ∃ t, exec .powerOnReset s = .next t ∧ ∀ c, (t.chan c).heat.h = 0 ∧ (t.chan c).heat.thermal = .normal ∧
    (t.chan c).heat.dEff = (t.chan c).coil.duty ∧ (t.chan c).heat.stats = ⟨0, 0, 0, 0, 0, 0, 0, 0⟩) ∧
  (∀ (c : Instr) (s : State),
    (c = .pinReset ∨ ∃ p r, c = .replySent p ∧ (s.port p).sending = some r ∧ r.resets = true) →
    ∃ t, exec c s = .next t ∧ ∀ d, (t.chan d).heat.h = (s.chan d).heat.h ∧
      (t.chan d).heat.thermal = (s.chan d).heat.thermal ∧ (t.chan d).heat.stats = (s.chan d).heat.stats ∧
      coilOutput t d = .off)

/-- What each other block holds after each kind of reset, every channel's state OFF among it, and what of it stays so until the load
ends. The raw input levels are inputs and keep theirs (log 5); the working records read as unconfigured until the load ends (log 8); that
an abandoned save leaves the stored records as they were is the model's choice (log 32). -/
def Obligations.BlocksAfterEveryReset : Prop :=
  (∀ (c : Instr) (s t : State), Asleep s → exec c s = .next t → t.part.state = .starting → Asleep t) ∧
  (∀ s : State, Asleep s → ∀ d, coilOutput s d = .off ∧ (s.chan d).load = 0) ∧
  ∀ (c : Instr) (s : State),
    (c = .powerOnReset ∨ c = .pinReset ∨ ∃ p r, c = .replySent p ∧ (s.port p).sending = some r ∧ r.resets = true) →
    ∃ t, exec c s = .next t ∧ Asleep t ∧
      (∀ d, (t.chan d).state = .off ∧ (t.chan d).claims = .empty ∧ (t.chan d).owed = false ∧ (t.chan d).absorbed = 0 ∧ (t.chan d).load = 0 ∧
        (t.chan d).stepBefore = none) ∧
      t.supply.state = .down ∧ t.supply.countdown = none ∧ t.supply.ilkClosed = false ∧ t.supply.ilkTimer = none ∧
      t.supply.flipClaims = .empty ∧ t.supply.directClaims = .empty ∧ t.supply.flipOn = false ∧ t.supply.directOn = false ∧
      t.arb.waitList = [] ∧ t.arb.general = 0 ∧ t.arb.flipper = 0 ∧ t.arb.pointer = 0 ∧
      (∀ f, t.flip f = Flipper.reset) ∧ (∀ k, t.link k = Link.reset) ∧ (∀ u, t.stepper u = Stepper.reset) ∧
      t.sw.partTime = 0 ∧ t.sw.syncTimer = none ∧ (∀ w, (t.input w).timer = none) ∧
      (∀ q, t.sw.queues.get q = ⟨[], 0, false⟩) ∧
      (∀ l, t.lamp.lamps.get l = Lamp.reset) ∧ t.lamp.sum = 0 ∧ t.lamp.frame = none ∧
      (∀ q, t.lamp.layers.get q = Layer.reset) ∧ t.coolTimer = none ∧ t.part.load = some 40 ∧
      t.store.save = none ∧ t.store.records = s.store.records ∧ t.store.mark = s.store.mark ∧
      t.supply.ilkRaw = s.supply.ilkRaw ∧ t.sw.syncRaw = s.sw.syncRaw ∧ ∀ w, (t.input w).low = (s.input w).low

/-- The end of the load: the records take the stored ones where the store is VALID and their unconfigured values otherwise, the part
enters RUN, and the timers of the heat model and the lamp unit start. Each thermal state is taken afresh from the kept heat, but for a
kept CUTOFF, and the flags of the event are those of R79 and PROFILE. That PROFILE_LOAD_END does nothing before the load's 40 ms have
run is the model's choice (log 2). -/
def Obligations.LoadEndPutsTheProfileToWork : Prop :=
  (∀ s : State, s.part.load ≠ some 0 → exec .profileLoadEnd s = .next s) ∧
  ∀ s : State, s.part.load = some 0 →
    ∃ t, exec .profileLoadEnd s = .next t ∧
      workingProfile t = (if s.store.mark = true ∧ s.store.checksum = Config.checksum s.store.records then s.store.records
        else Profile.unconfigured) ∧
      t.part = ⟨.run, none⟩ ∧ t.coolTimer = some 10 ∧ t.lamp.frame = some 20 ∧ t.store = s.store ∧
      t.supply.ilkTimer = (if s.supply.ilkRaw = true then some 20 else none) ∧ t.pending = s.pending ∧
      t.sw.syncHigh = s.sw.syncRaw ∧
      (∀ w, (t.input w).closed = ((t.input w).low != (t.input w).cfg.invert)) ∧
      (∀ c, (t.chan c).state = if (t.chan c).coil.cls = .off then .off else .idle) ∧
      (∀ c, let old := (s.chan c).heat
        let r := (t.chan c).coil
        let new := (t.chan c).heat
        new.h = old.h ∧
        new.thermal = (if old.thermal = .cutoff then .cutoff else if old.h < r.warn then .normal
          else if old.h < r.limit then .warm else if old.h < r.cutoff then .limited else .cutoff) ∧
        new.stats = (if old.thermal ≠ .cutoff ∧ new.thermal = .cutoff then
          { old.stats with cutoffs := min 65535 (old.stats.cutoffs + 1) } else old.stats)) ∧
      (∀ q, (((t.latch q).get FlagName.heatCutoff.bit).isSome = true ↔
          ((s.latch q).get FlagName.heatCutoff.bit).isSome = true ∨ ∃ c, (t.chan c).heat.thermal = .cutoff) ∧
        (((t.latch q).get FlagName.heatWarn.bit).isSome = true ↔ ((s.latch q).get FlagName.heatWarn.bit).isSome = true ∨
          ∃ c, (s.chan c).heat.thermal = .normal ∧ (t.chan c).heat.thermal ≠ .normal)) ∧
      (∀ q, (s.store.mark = false → ((t.latch q).get FlagName.profile.bit) =
          raiseFlag ((s.latch q).get FlagName.profile.bit) (some 0) none) ∧
        (s.store.mark = true → s.store.checksum ≠ Config.checksum s.store.records →
          ((t.latch q).get FlagName.profile.bit) = raiseFlag ((s.latch q).get FlagName.profile.bit) (some 1) none) ∧
        (s.store.valid = true → (t.latch q).get FlagName.profile.bit = (s.latch q).get FlagName.profile.bit))

/-- SAVE PROFILE copies the working records and removes the mark; 180 ms later the copy is stored with its checksum and mark, and its
sender alone is told. The model's choices among the clauses: SAVE_COMPLETE that is not due, or with no save in flight, does nothing
(log 2), and the stored records and checksum stay as they were while the save is in flight (log 32). -/
def Obligations.SaveProfileCopiesAndCompletes : Prop :=
  (∀ (p : Port) (s : State), Ready p 0x23#8 [] s →
    exec (.saveProfile p []) s = .next (
      if s.store.save.isSome then refusedTo p 0x23#8 (take s p) .busy
      else okTo p 0x23#8 ((take s p).setStore { s.store with mark := false, save := some ⟨workingProfile s, p, 180⟩ }) [])) ∧
  (∀ (save : Save) (s : State), s.store.save = some save →
    (save.left = 0 → exec .saveComplete s = .next (setFlag
      (s.setStore ⟨save.copy, true, Config.checksum save.copy, none⟩) save.sender .profile (some 2))) ∧
    (save.left ≠ 0 → exec .saveComplete s = .next s)) ∧
  (∀ s : State, s.store.save = none → exec .saveComplete s = .next s)

/-! ### Port requests (R158, R163, R164) -/

/-- PING answers part state, supply state, both port states, the sender's link errors and part time, each state by its number (R166), and
changes nothing else; it is served while STARTING. The sender's own state reads LIVE, since its service makes it so (log 25). -/
def Obligations.PingReportsTheState : Prop :=
  (∀ (p : Port) (s : State), (s.port p).hold = some ⟨0x01#8, []⟩ → taken s p = true →
    exec (.ping p []) s = .next (okTo p 0x01#8 (take s p)
      ([byte s.part.state.code, byte s.supply.state.code,
        liveByte ((take s p).port .a), liveByte ((take s p).port .b)] ++ be16 (s.port p).linkErrors ++
          be16 s.sw.partTime.toNat))) ∧
  [PartState.starting, .run].map PartState.code = [0, 1] ∧
  [SupplyState.down, .settling, .up].map SupplyState.code = [0, 1, 2] ∧
  (∀ x : PortRec, liveByte x = if x.live = true then 0#8 else 1#8) ∧
  ∀ (p : Port) (s : State), ((take s p).port p).live = true ∧ ((take s p).port (otherPort p)).live = (s.port (otherPort p)).live

/-- CONFIGURE PORT stores an interval of 1 to 4 as 5 and answers it, and the liveness timer runs with it from this service. RESET PART is
answered OK with an empty body, and the reset takes effect when that reply has left; the end of any other reply only frees the port's
link. -/
def Obligations.ConfigurePortAndResetPart : Prop :=
  (∀ (p : Port) (x : Byte) (s : State), Ready p 0x21#8 [x] s →
    let k := if x.toNat = 0 then 0 else max 5 x.toNat
    exec (.configurePort p [x]) s = .next (
      if s.store.save.isSome then refusedTo p 0x21#8 (take s p) .busy
      else okTo p 0x21#8 ((take s p).setPort p { (take s p).port p with interval := k }) [byte k])) ∧
  (∀ (p : Port) (s : State), Ready p 0x22#8 [] s →
    exec (.resetPart p []) s = .next ((take s p).setPort p { (take s p).port p with
      liveness := if (s.port p).interval = 0 then none else some ((s.port p).interval * 10)
      sending := some ⟨replyFrame 0x22#8 .ok [], true⟩ })) ∧
  (∀ (p : Port) (r : Sending) (s : State), (s.port p).sending = some r →
    exec (.replySent p) s = .next (if r.resets = true then warmReset s else s.setPort p { s.port p with sending := none })) ∧
  (∀ (p : Port) (s : State), (s.port p).sending = none → exec (.replySent p) s = .next s)

/-- LIVENESS_EXPIRY: the port is LAPSED with its timer stopped; its claims, its place in the origins and notified ports of wait entries
(R57) and in the origins of trains and homings (R125), its layer and its queue are withdrawn, the shown buffer keeps its name, the other
port keeps its own, and LAPSED is told to the port alone. The second part is the work of R10, R12 and R57 by itself, in any state whose
wait list names no channel twice (R40): every claim set loses the port, a hold left without a claim ends, a PULSE or PULL_IN whose origin
is left empty goes without a flag, and every other entry stays in its place with width, deadline and count; what is added behind them are
the pull-ins and steps that the removals bring (R59). The third is R29: both groups lose the port's claim and their effective enables are
recomputed (R30, with R82 for the flippers). The fourth is R125: a stepper keeps its trains and its homing, with their counts, and loses the
port from their origins alone. That a port already LAPSED, or a timer not due, is left is the model's choice (log 2), and so
are the attempts' place, after all removals (log 24), and the order of several removals, that of the list (log 40). -/
def Obligations.LapseWithdrawsThePortsWork : Prop :=
  (∀ (p : Port) (u : State), (u.arb.waitList.map Entry.channel).Nodup →
    let v := lapseCoilWork u p
    let kept := (u.arb.waitList.map fun e => { e with work := match e.work with
      | .pulse origin => .pulse (origin.remove p)
      | .pullIn origin => .pullIn (origin.remove p)
      | .fire k notified => .fire k (notified.remove p)
      | .step t => .step t }).filter fun e => e.work ≠ .pulse .empty ∧ e.work ≠ .pullIn .empty
    (∃ added, v.arb.waitList = kept ++ added ∧ ∀ e ∈ added, (∃ t, e.work = .step t) ∨
      ∃ origin, e.work = .pullIn origin ∧ origin ≠ .empty ∧ origin = (v.chan e.channel).claims) ∧
    (∀ c,
      let ends := (u.chan c).coil.cls = .holdable ∧ (u.chan c).state = .hold ∧ (u.chan c).claims.remove p = .empty
      (v.chan c).claims = (u.chan c).claims.remove p ∧
      ((v.chan c).claims = .empty → (v.chan c).owed = false) ∧
      (ends → (v.chan c).state = (if (u.chan c).coil.gap = 0 then .idle else .recover (u.chan c).coil.gap none) ∧
        (v.chan c).load = 0 ∧ coilOutput v c = .off) ∧
      (¬ends → (v.chan c).state = (u.chan c).state)) ∧
    ∀ q, (v.latch q).get FlagName.pulseDropped.bit = (u.latch q).get FlagName.pulseDropped.bit) ∧
  (∀ (p : Port) (u : State), lapseGroups u p = recomputeGroups (u.setSupply { u.supply with
    flipClaims := u.supply.flipClaims.remove p
    directClaims := u.supply.directClaims.remove p })) ∧
  (∀ (p : Port) (x : Stepper),
    let left : Train → Train := fun y => { y with origin := ⟨y.origin.ports.remove p, y.origin.loc⟩ }
    (∀ run, x.state = .running run none → x.forget p = { x with state := .running (left run) none }) ∧
    (∀ run next, x.state = .running run (some next) → x.forget p = { x with state := .running (left run) (some (left next)) }) ∧
    (∀ origin steps, x.state = .homing origin steps → x.forget p = { x with state := .homing (origin.remove p) steps }) ∧
    (x.state = .idle ∨ x.state = .faulted → x.forget p = x)) ∧
  ∀ (p : Port) (s : State),
    ((s.port p).live = true → (s.port p).liveness = some 0 →
      let v := lapseCoilWork (s.setPort p { s.port p with live := false, liveness := none }) p
      exec (.livenessExpiry p) s = .next (settle (setFlag (lapseGroups (lapseQueue (lapseLayer
        { v with steppers := v.steppers.map fun x => x.forget p } p) p) p) p .lapsed none)) ∧
      ∃ t, exec (.livenessExpiry p) s = .next t ∧
        t.port p = { s.port p with live := false, liveness := none } ∧
        t.port (otherPort p) = s.port (otherPort p) ∧
        (∀ c, (t.chan c).claims.has p = false) ∧
        (∀ e ∈ t.arb.waitList, ∀ origin, (e.work = .pulse origin ∨ e.work = .pullIn origin ∨ ∃ k, e.work = .fire k origin) →
          origin.has p = false) ∧
        (∀ u run next, (t.stepper u).state = .running run next → run.origin.ports.has p = false ∧
          ∀ y, next = some y → y.origin.ports.has p = false) ∧
        (∀ u origin steps, (t.stepper u).state = .homing origin steps → origin.has p = false) ∧
        t.supply.flipClaims = s.supply.flipClaims.remove p ∧ t.supply.directClaims = s.supply.directClaims.remove p ∧
        t.lamp.layers.get p = ⟨.replicate 32 none, .replicate 32 none, (s.lamp.layers.get p).shown, .idle⟩ ∧
        t.lamp.layers.get (otherPort p) = s.lamp.layers.get (otherPort p) ∧
        t.sw.queues.get p = ⟨[], (s.sw.queues.get p).lost, true⟩ ∧
        t.sw.queues.get (otherPort p) = s.sw.queues.get (otherPort p) ∧
        (t.latch p).get FlagName.lapsed.bit = raiseFlag ((s.latch p).get FlagName.lapsed.bit) none none ∧
        (t.latch (otherPort p)).get FlagName.lapsed.bit = (s.latch (otherPort p)).get FlagName.lapsed.bit) ∧
    (((s.port p).live = false ∨ (s.port p).liveness ≠ some 0) → exec (.livenessExpiry p) s = .next s)

/-! ### Pulses, holds and channels (chapters 1 and 3) -/

/-- PULSE by Table 3-2, with the merge of R44: the larger width, the sender in the origin or the notified ports, the rest kept. -/
def Obligations.PulseIsAnsweredByItsTable : Prop :=
  ∀ (p : Port) (w : Byte) (s : State),
    (∀ c : ChannelId, Ready p 0x02#8 [byte c.val, w] s →
      let u := take s p
      let ch := s.chan c
      let width := min (if w.toNat = 0 then ch.coil.defWidth else w.toNat) ch.coil.maxWidth
      exec (.pulse p [byte c.val, w]) s = .next (
        if ch.coil.cls ≠ .pulse ∧ ch.coil.cls ≠ .holdable then refusedTo p 0x02#8 u .refused
        else if ch.state = .disabled then refusedTo p 0x02#8 u .refused
        else if s.supply.state = .down then refusedTo p 0x02#8 u .noSupply
        else if ch.heat.thermal = .cutoff then refusedTo p 0x02#8 u .hot
        else if ch.state = .hold ∨ hasPullIn s c = true then
          okTo p 0x02#8 (u.setChan c { ch with absorbed := min 65535 (ch.absorbed + 1) }) [0#8, byte width]
        else match entryOf s c with
          | some e =>
            let merged : Entry → Entry := fun x => { x with
              width := max x.width width
              work := match x.work with
                | .pulse origin => .pulse (origin.add p)
                | .fire k notified => .fire k (notified.add p)
                | work => work }
            okTo p 0x02#8 (settle (bring (u.setWaitList (u.arb.waitList.map fun x => if x.channel = c then merged x else x))))
              [1#8, byte (max e.width width)]
          | none =>
            if 24 ≤ s.arb.waitList.length then refusedTo p 0x02#8 u .full
            else okTo p 0x02#8 (settle (enter u {
              channel := c, work := .pulse (PortSet.empty.add p), width := width, enteredAt := s.sw.partTime
              deadline := if ch.coil.waitLimit = 0 then none
                else some ⟨s.sw.partTime + BitVec.ofNat 16 (ch.coil.waitLimit * 10), ch.coil.waitLimit * 10⟩
              passed := 0 })) [2#8, byte width])) ∧
    (∀ x : Byte, 47 < x.toNat → Ready p 0x02#8 [x, w] s →
      exec (.pulse p [x, w]) s = .next (refusedTo p 0x02#8 (take s p) .range))

/-- A PULSE for an idle cool coil that fits the general pool, with an empty wait list, is granted in the event of its own service:
the channel is in DRIVE at the full width, the heat of the whole width is charged, and the weight is added to the general load. -/
def Obligations.PulseOnAnIdleCoilDrivesAtOnce : Prop :=
  ∀ (p : Port) (c : ChannelId) (w : Byte) (s : State), Ready p 0x02#8 [byte c.val, w] s →
    let ch := s.chan c
    let width := min (if w.toNat = 0 then ch.coil.defWidth else w.toNat) ch.coil.maxWidth
    (ch.coil.cls = .pulse ∨ ch.coil.cls = .holdable) → ch.state = .idle → s.supply.state = .up → ch.heat.thermal ≠ .cutoff →
    s.arb.waitList = [] → s.arb.attempts = 0 →
    s.arb.general + ch.coil.weight ≤ s.supply.cfg.budget - s.supply.cfg.reserve →
    ch.heat.h + width * ch.coil.gain ≤ ch.coil.limit → ch.heat.h + width * ch.coil.gain < ch.coil.cutoff →
    ∃ t, exec (.pulse p [byte c.val, w]) s = .next t ∧
      (t.port p).sending = some ⟨replyFrame 0x02#8 .ok [2#8, byte width], false⟩ ∧
      (t.chan c).state = .drive .pulse width width ∧ coilOutput t c = .full ∧
      (t.chan c).heat.h = ch.heat.h + width * ch.coil.gain ∧
      (t.chan c).heat.stats.fires = min 65535 (ch.heat.stats.fires + 1) ∧
      (t.chan c).heat.stats.shortened = ch.heat.stats.shortened ∧
      t.arb.general = s.arb.general + ch.coil.weight ∧ t.arb.flipper = s.arb.flipper ∧
      t.arb.waitList = [] ∧ t.arb.pointer = s.arb.pointer ∧ ∀ d, d ≠ c → t.chan d = s.chan d

/-- HOLD on by the table of R13. -/
def Obligations.HoldOnIsAnsweredByItsTable : Prop :=
  ∀ (p : Port) (s : State),
    (∀ c : ChannelId, Ready p 0x03#8 [byte c.val, 1#8] s →
      let u := take s p
      let ch := s.chan c
      let joined := u.setChan c { ch with claims := ch.claims.add p }
      exec (.holdOn p [byte c.val, 1#8]) s = .next (
        if ch.coil.cls ≠ .holdable then refusedTo p 0x03#8 u .refused
        else if ch.state = .disabled then refusedTo p 0x03#8 u .refused
        else if s.supply.state = .down then refusedTo p 0x03#8 u .noSupply
        else if ch.heat.thermal = .cutoff then refusedTo p 0x03#8 u .hot
        else if ch.claims.has p = true then okTo p 0x03#8 u []
        else if pullInCondition joined c = true ∧ 24 ≤ s.arb.waitList.length then refusedTo p 0x03#8 u .full
        else if ch.claims = .empty then okTo p 0x03#8 (settle (pullInTest joined c)) []
        else okTo p 0x03#8 (copyClaims joined c) [])) ∧
    (∀ x setting : Byte, (47 < x.toNat ∨ 1 < setting.toNat) → Ready p 0x03#8 [x, setting] s →
      exec (.holdOn p [x, setting]) s = .next (refusedTo p 0x03#8 (take s p) .range))

/-- HOLD off by R14: the sender leaves the claim set; a set left empty clears the owed mark and ends a hold or removes a waiting
PULL_IN, without a flag, and a PULL_IN in DRIVE runs on; a set that still holds the other port is copied into a waiting PULL_IN. -/
def Obligations.HoldOffWithdrawsTheClaim : Prop :=
  ∀ (p : Port) (s : State),
    (∀ c : ChannelId, Ready p 0x03#8 [byte c.val, 0#8] s →
      let u := take s p
      let ch := s.chan c
      let rest := u.setChan c { ch with claims := ch.claims.remove p }
      exec (.holdOff p [byte c.val, 0#8]) s = .next (
        if ch.coil.cls ≠ .holdable then refusedTo p 0x03#8 u .refused
        else okTo p 0x03#8 (settle (
          if ch.claims.has p = false then u
          else if ch.claims.remove p = .empty then claimsEmptied rest c
          else copyClaims rest c)) [])) ∧
    (∀ c : ChannelId, (s.chan c).state = .hold →
      ((claimsEmptied s c).chan c).state =
        (if (s.chan c).coil.gap = 0 then .idle else .recover (s.chan c).coil.gap none) ∧
      ((claimsEmptied s c).chan c).owed = false ∧ ((claimsEmptied s c).chan c).load = 0) ∧
    (∀ c : ChannelId, (s.chan c).state ≠ .hold →
      let u := s.setChan c { s.chan c with owed := false }
      (∀ e origin, entryOf s c = some e → e.work = .pullIn origin → claimsEmptied s c = removeEntry u e ∧
        ((s.chan c).claims = .empty → stepperOf s c = none → entryOf (claimsEmptied s c) c = none)) ∧
      ((∀ e origin, entryOf s c = some e → e.work ≠ .pullIn origin) → claimsEmptied s c = u) ∧
      ((s.chan c).claims = .empty → ((claimsEmptied s c).chan c).owed = false) ∧
      ∀ d, ((claimsEmptied s c).chan d).state = (s.chan d).state) ∧
    (∀ (c : ChannelId) (q : Port),
      ((claimsEmptied s c).latch q).get FlagName.pulseDropped.bit = (s.latch q).get FlagName.pulseDropped.bit) ∧
    (∀ c : ChannelId, copyClaims s c = s.setWaitList (s.arb.waitList.map fun e => if e.channel = c then
      { e with work := match e.work with
        | .pullIn _ => .pullIn (s.chan c).claims
        | work => work } else e)) ∧
    (∀ x : Byte, 47 < x.toNat → Ready p 0x03#8 [x, 0#8] s →
      exec (.holdOff p [x, 0#8]) s = .next (refusedTo p 0x03#8 (take s p) .range))

/-- DISABLE CHANNEL and ENABLE CHANNEL: what becomes of the channel itself, for every state it may be in. A channel enabled from DISABLED
is OFF for class OFF, else IDLE with the reports of a return to IDLE (R18), and a flipper that names it then takes the test of R82. A channel
disabled has no wait entry left (R17). It remembers the stepper whose step the DISABLE cut, and the return to IDLE at an ENABLE brings that
stepper's verification or homing test (R117, R121). That it also remembers the stepper whose gap the DISABLE abandoned is the model's reading
(log 19). -/
def Obligations.DisableAndEnableAChannel : Prop :=
  ∀ (p : Port) (c : ChannelId) (s : State),
    (Ready p 0x04#8 [byte c.val] s →
      ((s.chan c).state = .disabled → exec (.disableChannel p [byte c.val]) s = .next (okTo p 0x04#8 (take s p) [])) ∧
      ((s.chan c).state ≠ .disabled → ∃ t, exec (.disableChannel p [byte c.val]) s = .next t ∧
        (t.port p).sending = some ⟨replyFrame 0x04#8 .ok [], false⟩ ∧
        (t.chan c).state = .disabled ∧ (t.chan c).claims = .empty ∧ (t.chan c).owed = false ∧ (t.chan c).load = 0 ∧
        coilOutput t c = .off ∧ entryOf t c = none ∧
        (t.chan c).stepBefore = match (s.chan c).state with
          | .drive kind _ _ => if kind = .step then stepperOf s c else none
          | .recover _ after => after
          | _ => none)) ∧
    (Ready p 0x05#8 [byte c.val] s →
      ((s.chan c).state ≠ .disabled → exec (.enableChannel p [byte c.val]) s = .next (okTo p 0x05#8 (take s p) [])) ∧
      ((s.chan c).state = .disabled → (s.chan c).coil.cls = .off →
        ∃ t, exec (.enableChannel p [byte c.val]) s = .next t ∧
          (t.port p).sending = some ⟨replyFrame 0x05#8 .ok [], false⟩ ∧ (t.chan c).state = .off) ∧
      ((s.chan c).state = .disabled → (s.chan c).coil.cls ≠ .off → flipperOf s c = none →
        ∃ t, exec (.enableChannel p [byte c.val]) s = .next t ∧
          (t.port p).sending = some ⟨replyFrame 0x05#8 .ok [], false⟩ ∧
          ((t.chan c).state = .idle ∨ ∃ kind w, (t.chan c).state = .drive kind w w)) ∧
      ((s.chan c).state = .disabled → (s.chan c).coil.cls = .flipper → stepperOf s c = none → entryOf s c = none →
        ∃ t, exec (.enableChannel p [byte c.val]) s = .next t ∧
          (t.port p).sending = some ⟨replyFrame 0x05#8 .ok [], false⟩ ∧ (t.chan c).state = .idle) ∧
      ((s.chan c).state = .disabled →
        let u := take s p
        let back := if (s.chan c).coil.cls = .off then u.setChan c { s.chan c with state := .off, stepBefore := none }
          else reportIdle (u.setChan c { s.chan c with state := .idle, stepBefore := none }) c (s.chan c).stepBefore
        exec (.enableChannel p [byte c.val]) s = .next (okTo p 0x05#8 (match flipperOf back c with
          | none => back
          | some f => flipperTest back f) []))) ∧
    (∀ x : Byte, 47 < x.toNat →
      (Ready p 0x04#8 [x] s → exec (.disableChannel p [x]) s = .next (refusedTo p 0x04#8 (take s p) .range)) ∧
      (Ready p 0x05#8 [x] s → exec (.enableChannel p [x]) s = .next (refusedTo p 0x05#8 (take s p) .range)))

/-- CONFIGURE COIL: the checks of R19 in their order, with the ranges and orders of R2 and the classes that records naming the channel need,
and the effects of R20. The model's choice: the thermal state is taken afresh against the new record (R73) before the pull-in test, an order
that R20 does not give (log 16). That an unconfigured flipper names no channel is the model's reading (log 17). -/
def Obligations.ConfigureCoilChecksAndReplaces : Prop :=
  (∀ (body : List Byte) (r : CoilRecord),
    let one : Nat → Nat := fun i => (body.getD i 0#8).toNat
    let two : Nat → Nat := fun i => one i * 256 + one (i + 1)
    coilRecordOf body = some r ↔
      [CoilClass.off, .pulse, .holdable, .stepper, .flipper][one 1]? = some r.cls ∧
      r.maxWidth = one 2 ∧ r.defWidth = one 3 ∧ r.wmin = one 4 ∧ r.gap = (if r.cls = .flipper then 0 else one 5) ∧
      r.weight = one 6 ∧ r.duty = min 16 (one 7) ∧ r.gain = one 8 ∧ r.decay = one 9 ∧
      r.warn = two 10 ∧ r.limit = two 12 ∧ r.cutoff = two 14 ∧ r.resume = two 16 ∧ r.waitLimit = one 18 ∧
      r.warn < r.cutoff ∧ r.resume < r.warn ∧ r.warn ≤ r.limit ∧ r.limit ≤ r.cutoff ∧
      1 ≤ r.wmin ∧ r.wmin ≤ r.defWidth ∧ r.defWidth ≤ r.maxWidth ∧ r.maxWidth ≤ 255 ∧
      1 ≤ r.duty ∧ 1 ≤ r.weight ∧ r.weight ≤ 63 ∧ 1 ≤ r.gain ∧ 1 ≤ r.decay) ∧
  (∀ (s : State) (c : ChannelId) (cls : CoilClass), classFits s c cls = true ↔
    (∀ f, (s.flip f).cfg.power ≠ none → (s.flip f).cfg.power = some c ∨ (s.flip f).cfg.hold = some c → cls = .flipper) ∧
    (∀ t, (s.stepper t).cfg.up = some c ∨ (s.stepper t).cfg.down = some c → cls = .stepper) ∧
    ∀ k, (s.link k).cfg.channel = some c → cls = .pulse ∨ cls = .holdable) ∧
  (∀ (s : State) (c : ChannelId) (r : CoilRecord), flipperWeightsWith s c r = ((List.finRange 48).map fun d =>
    let x := if d = c then r else (s.chan d).coil
    if x.cls = .flipper then x.weight else 0).sum) ∧
  ∀ (p : Port) (body : List Byte) (s : State), Ready p 0x06#8 body s → body.length = 19 →
    ((index 48 (u8 body 0) = none ∨ coilRecordOf body = none) →
      exec (.configureCoil p body) s = .next (refusedTo p 0x06#8 (take s p) .range)) ∧
    (∀ (c : ChannelId) (r : CoilRecord), index 48 (u8 body 0) = some c → coilRecordOf body = some r →
      let u := take s p
      let ch := s.chan c
      let v := recomputeThermal (u.setChan c { ch with
        coil := r
        state := if ch.state = .disabled then .disabled else if r.cls = .off then .off else .idle
        claims := if r.cls = .holdable then ch.claims else .empty
        owed := r.cls = .holdable && ch.owed }) c
      exec (.configureCoil p body) s = .next (
        if s.store.save.isSome then refusedTo p 0x06#8 u .busy
        else if (ch.state ≠ .off ∧ ch.state ≠ .idle ∧ ch.state ≠ .disabled) ∨ (entryOf s c).isSome then refusedTo p 0x06#8 u .busy
        else if r.cls ≠ ch.coil.cls ∧ classFits s c r.cls = false then refusedTo p 0x06#8 u .refused
        else if s.supply.cfg.reserve < flipperWeightsWith s c r then refusedTo p 0x06#8 u .refused
        else okTo p 0x06#8 (if ch.coil.cls = .holdable ∧ r.cls = .holdable then settle (pullInTest v c) else v) []))

/-- DRIVE_END, once the width has run: a PULSE, FIRE or unclaimed PULL_IN drive rests, and so does a STEP or FLIPPER drive that no record
owns; a claimed PULL_IN holds, and absorbs a PULSE or FIRE that waits (R16); a STEP rests and is counted by its stepper (order: log 20); a
FLIPPER drive goes on as its flipper says. The model's choices: DRIVE_END does nothing before the width has run (log 2); with a gap of 0 the
attempt of the drive end comes before the reports of the return to IDLE (log 51); and where an entry is absorbed, the load falls first, then
the entry's place is handed out, then the attempts are made (log 52). -/
def Obligations.DriveEndLeadsToRecoverOrHold : Prop :=
  (∀ (c : ChannelId) (kind : DriveKind) (w left : Nat) (s : State), (s.chan c).state = .drive kind w left →
    let ch := s.chan c
    let rests := kind = .pulse ∨ kind = .fire ∨ kind = .pullIn ∧ ch.claims = .empty ∨ kind = .step ∧ stepperOf s c = none ∨
      kind = .flipper ∧ flipperOf s c = none
    (left ≠ 0 → exec (.driveEnd c) s = .next s) ∧
    (left = 0 → rests → ch.coil.gap ≠ 0 →
      exec (.driveEnd c) s = .next (attemptNow (s.setChan c { ch with state := .recover ch.coil.gap none }))) ∧
    (left = 0 → rests → ch.coil.gap = 0 →
      exec (.driveEnd c) s = .next (reportIdle (attemptNow (s.setChan c { ch with state := .idle })) c none)) ∧
    (left = 0 → kind = .pullIn → ch.claims ≠ .empty → entryOf s c = none →
      exec (.driveEnd c) s = .next (attemptNow (s.setChan c { ch with
        state := .hold
        heat := { ch.heat with dEff := derate ch.coil ch.heat.h } }))) ∧
    (∀ e, left = 0 → kind = .pullIn → ch.claims ≠ .empty → entryOf s c = some e →
      let held := s.setChan c { ch with
        state := .hold
        absorbed := min 65535 (ch.absorbed + 1)
        heat := { ch.heat with dEff := derate ch.coil ch.heat.h } }
      (∀ origin, e.work = .pulse origin → exec (.driveEnd c) s = .next (attemptNow (removeEntry held e))) ∧
      (∀ k notified, e.work = .fire k notified → exec (.driveEnd c) s = .next (attemptNow (removeEntry (held.setLink k {
        s.link k with entry := false, lost := min 65535 ((s.link k).lost + 1) }) e)))) ∧
    (∀ t, left = 0 → kind = .step → stepperOf s c = some t →
      exec (.driveEnd c) s = .next (
        if ch.coil.gap = 0 then
          reportIdle (settle (stepDriveEnd (attemptNow (s.setChan c { ch with state := .idle })) t c true)) c (some t)
        else settle (stepDriveEnd (attemptNow (s.setChan c { ch with state := .recover ch.coil.gap (some t) })) t c false))) ∧
    (∀ f, left = 0 → kind = .flipper → flipperOf s c = some f → exec (.driveEnd c) s = .next (flipperDriveEnd s f c))) ∧
  (∀ (e : Entry) (s : State),
    (∀ q, ((removeEntry s e).latch q).get FlagName.pulseDropped.bit = (s.latch q).get FlagName.pulseDropped.bit) ∧
    ((s.chan e.channel).state = .hold → entryOf (removeEntry s e) e.channel = none))

/-- RECOVERY_GAP_EXPIRY: the channel is IDLE, and the arbiter, its stepper and the pull-in test learn of it, in that order. Which returns
to IDLE follow a drive of the stepper is the model's reading (log 19), and that a gap that is not due does nothing is its choice
(log 2). -/
def Obligations.RecoveryGapExpiryReturnsToIdle : Prop :=
  ∀ (c : ChannelId) (s : State),
    (∀ after, (s.chan c).state = .recover 0 after →
      exec (.recoveryGapExpiry c) s = .next (reportIdle (s.setChan c { s.chan c with state := .idle }) c after)) ∧
    ((∀ after, (s.chan c).state ≠ .recover 0 after) → exec (.recoveryGapExpiry c) s = .next s) ∧
    (∀ after, reportIdle s c after =
      let a := attemptNow s
      let b := match stepperOf a c with
        | none => a
        | some t => settle (stepTest (if after = some t then lookHome a t else a) t)
      settle (pullInTest b c))

/-- DEADLINE_EXPIRY removes the entry and tells the ports of a PULSE or the link and notified ports of a FIRE. That it does nothing
without a due deadline is the model's choice (log 2). -/
def Obligations.DeadlineExpiryRemovesTheEntry : Prop :=
  ∀ (c : ChannelId) (s : State),
    (∀ (e : Entry) (d : Deadline), entryOf s c = some e → e.deadline = some d → d.left = 0 →
      (∀ origin, e.work = .pulse origin →
        exec (.deadlineExpiry c) s = .next (settle (removeEntry (dropPulse s origin e.channel .expired) e))) ∧
      (∀ k notified, e.work = .fire k notified →
        exec (.deadlineExpiry c) s = .next (settle (removeEntry (dropPulse (s.setLink k { s.link k with
          entry := false
          lost := min 65535 ((s.link k).lost + 1) }) notified e.channel .expired) e))) ∧
      entryOf (dropEntry s c) c = none) ∧
    ((∀ e d, entryOf s c = some e → e.deadline = some d → d.left ≠ 0) → exec (.deadlineExpiry c) s = .next s)

/-- An attempt grants nothing while the supply is not UP, nor anything to a channel that is not IDLE or is in CUTOFF (R47). A granted
entry leaves the list, its weight joins the general load, and its drive starts at the width passed; the grant of a step moves the pointer
past its stepper and starts its spacing (R49). An entry that leaves a full list by grant or by removal frees a place, which is handed to
the channels with a pull-in owed in ascending number, then to the steppers with a step due in round-robin order, until the list is full
or none is waiting (R46). An attempt walks its selection order: an entry that does not fit is passed, or ends the walk where it is
blocking; one that the heat check refuses is removed and reported; and those that did not fit ahead of a granted one have their counts
raised at the end, to at most 4 (R48, R51, R53, R54). The model's reading of where the freed place is handed out: in a grant before the
report of a FIRE (log 13), in a removal before the channel's own pull-in test (log 14). That the grant of a STEP moves the pointer before the
freed place is handed out from it is the model's choice (log 48). The last clauses say how the attempts that an effect brings are made: each
one brought is counted, and they are made one after another, with those that they bring, until none is left (R48, R50). -/
def Obligations.GrantsNeedTheSupplyAndStartTheDrive : Prop :=
  (∀ s : State, (s.supply.state ≠ .up ∨ ∀ e ∈ s.arb.waitList, (s.chan e.channel).state ≠ .idle ∨
      (s.chan e.channel).heat.thermal = .cutoff) →
    selection s = [] ∧ (attemptNow s).channels = s.channels ∧ (attemptNow s).arb.waitList = s.arb.waitList ∧
      (attemptNow s).arb.general = s.arb.general) ∧
  (∀ (s : State) (e : Entry) (w : Nat), s.arb.waitList.length < 24 → (s.chan e.channel).state = .idle →
    (s.chan e.channel).coil.cls ≠ .flipper →
    let t := grant s e w
    entryOf t e.channel = none ∧ (t.chan e.channel).state = .drive e.work.kind w w ∧
    t.arb.general = s.arb.general + (s.chan e.channel).coil.weight ∧
    (∀ u, e.work = .step u → t.arb.pointer = u + 1 ∧ (t.stepper u).spacing = some (s.stepper u).cfg.spacing ∧
      (t.stepper u).inDrive.isSome = true) ∧
    ((∀ u, e.work ≠ .step u) → t.arb.pointer = s.arb.pointer)) ∧
  (∀ (s : State) (e : Entry) (w : Nat),
    let u := (dropEntry s e.channel).setChan e.channel { s.chan e.channel with state := .drive e.work.kind w w }
    let v := if e.passed = 4 then bring (dropEntry s e.channel) else dropEntry s e.channel
    let freed : State → State := fun x => if 24 ≤ s.arb.waitList.length then handout x else x
    (∀ origin, e.work = .pulse origin ∨ e.work = .pullIn origin → grant s e w = freed u) ∧
    (∀ t, e.work = .step t → grant s e w = freed ((u.setArb { u.arb with pointer := t + 1 }).setStepper t { s.stepper t with
      inDrive := some ⟨e.channel, if (s.stepper t).homingEntry = true then .homing else .train⟩
      spacing := some (s.stepper t).cfg.spacing })) ∧
    (∀ k notified, e.work = .fire k notified → grant s e w = grantFire (freed u) k) ∧
    (∀ t, e.work = .step t → removeEntry s e = freed v) ∧
    ((∀ t, e.work ≠ .step t) → removeEntry s e = pullInTest (freed v) e.channel) ∧
    (∀ origin, e.work = .pulse origin ∨ e.work = .pullIn origin →
      refuseEntry s e = removeEntry (dropPulse s origin e.channel .hot) e) ∧
    (∀ k notified, e.work = .fire k notified → refuseEntry s e = removeEntry (dropPulse (s.setLink k { s.link k with
      entry := false, lost := min 65535 ((s.link k).lost + 1) }) notified e.channel .hot) e) ∧
    (∀ t, e.work = .step t → refuseEntry s e = removeEntry s e)) ∧
  (∀ (s : State),
    handout s = ((List.finRange 16).map fun i => s.arb.pointer + i).foldl handoutStepper
      ((List.finRange 48).foldl handoutChannel s) ∧
    (∀ c, handoutChannel s c =
      if s.arb.waitList.length < 24 ∧ (s.chan c).owed = true then
        let u := s.setChan c { s.chan c with owed := false }
        if pullInCondition s c = true then
          enter u ⟨c, .pullIn (s.chan c).claims, (s.chan c).coil.defWidth, s.sw.partTime, none, 0⟩
        else u
      else s) ∧
    (∀ t, handoutStepper s t =
      if s.arb.waitList.length < 24 ∧ (s.stepper t).due = true then
        stepTest (s.setStepper t { s.stepper t with due := false }) t
      else s) ∧
    (s.arb.waitList.length ≤ 24 → (handout s).arb.waitList.length ≤ 24) ∧
    ((handout s).arb.waitList.length < 24 → (∀ c, ((handout s).chan c).owed = false) ∧ ∀ t, ((handout s).stepper t).due = false)) ∧
  (∀ (s : State),
    (attempt s = raisePassed (walk (selection s) [] [] s).1 (walk (selection s) [] [] s).2) ∧
    (selection s =
      let l := s.arb.waitList.filter fun e => (s.chan e.channel).state = .idle ∧ (s.chan e.channel).heat.thermal ≠ .cutoff ∧
        s.supply.state = .up
      ((l.filter fun e => e.work.kind = .fire) ++ (l.filter fun e => e.work.kind = .pulse ∨ e.work.kind = .pullIn) ++
        ((List.finRange 16).map fun i => s.arb.pointer + i).filterMap fun t => l.find? fun e => e.work = .step t).map
          Entry.channel) ∧
    (∀ cs, (raisePassed s cs).arb.waitList = s.arb.waitList.map fun e =>
      if e.channel ∈ cs then { e with passed := min 4 (e.passed + 1) } else e) ∧
    (∀ failed passed, walk [] failed passed s = (s, passed)) ∧
    (∀ c rest failed passed e, entryOf s c = some e →
      let fit := s.arb.general + (s.chan c).coil.weight ≤ s.supply.cfg.budget - s.supply.cfg.reserve
      (¬fit → e.passed = 4 → walk (c :: rest) failed passed s = (s, passed)) ∧
      (¬fit → e.passed ≠ 4 → walk (c :: rest) failed passed s = walk rest (failed ++ [c]) passed s) ∧
      (fit → (heatCheck s c e.width).2 = none →
        walk (c :: rest) failed passed s = walk rest failed passed (refuseEntry (heatCheck s c e.width).1 e)) ∧
      (∀ w, fit → (heatCheck s c e.width).2 = some w →
        walk (c :: rest) failed passed s = walk rest failed failed (grant (heatCheck s c e.width).1 e w))) ∧
    (∀ c rest failed passed, entryOf s c = none → walk (c :: rest) failed passed s = walk rest failed passed s)) ∧
  (∀ s : State,
    bring s = s.setArb { s.arb with attempts := s.arb.attempts + 1 } ∧
    attemptNow s = settle (bring s) ∧
    (s.arb.attempts = 0 → settle s = s) ∧
    (∀ n, s.arb.attempts = n + 1 → settle s = settle (attempt (s.setArb { s.arb with attempts := n }))) ∧
    (settle s).arb.attempts = 0)

/-! ### Heat (chapter 4) -/

/-- The derated duty by its table, and its bounds for a stored record. The heat check by its steps: it refuses with the heat unchanged
and CUTOFF, or passes a width no longer than asked, charged whole, below the cutoff level. Its flags, on both ports with the channel as
subject: HEAT_CUTOFF at a refusal, and HEAT_WARN where the channel leaves NORMAL, by either (R67, R71); no other. -/
def Obligations.DeratedDutyAndHeatCheck : Prop :=
  (∀ (r : CoilRecord) (h : Nat), r.stored = true →
    (h < r.warn → derate r h = r.duty) ∧
    (r.warn ≤ h → h < r.cutoff → derate r h = r.duty - (h - r.warn) * (r.duty - 1) / (r.cutoff - r.warn)) ∧
    (r.cutoff ≤ h → derate r h = 1) ∧ 1 ≤ derate r h ∧ derate r h ≤ r.duty ∧ (r.warn = h → derate r h = r.duty)) ∧
  (∀ (s : State) (c : ChannelId) (w : Nat),
    let r := (s.chan c).coil
    let x := (s.chan c).heat
    let w' := if x.h + w * r.gain ≤ r.limit then w
      else if x.h < r.limit then min w (max r.wmin ((r.limit - x.h) / r.gain)) else min w r.wmin
    let t := (heatCheck s c w).1
    (r.cutoff ≤ x.h + w' * r.gain → (heatCheck s c w).2 = none ∧ t.chan c = { s.chan c with heat := { x with
      thermal := .cutoff
      stats := { x.stats with cutoffs := min 65535 (x.stats.cutoffs + 1) } } }) ∧
    (x.h + w' * r.gain < r.cutoff → (heatCheck s c w).2 = some w' ∧ w' ≤ w ∧ t.chan c = { s.chan c with heat := { x with
      h := x.h + w' * r.gain
      thermal := if x.h + w' * r.gain < r.warn then .normal else if x.h + w' * r.gain < r.limit then .warm else .limited
      stats := { x.stats with
        fires := min 65535 (x.stats.fires + 1)
        shortened := if w' < w then min 65535 (x.stats.shortened + 1) else x.stats.shortened
        peak := max x.stats.peak (x.h + w' * r.gain) } } }) ∧
    (∀ q,
      let told : Bool → FlagName → Prop := fun raised n => (t.latch q).get n.bit =
        if raised = true then raiseFlag ((s.latch q).get n.bit) (some c.val) none else (s.latch q).get n.bit
      let refused : Bool := r.cutoff ≤ x.h + w' * r.gain
      told refused .heatCutoff ∧
      told (x.thermal = .normal && (refused || r.warn ≤ x.h + w' * r.gain)) .heatWarn ∧
      ∀ n, n ≠ .heatCutoff → n ≠ .heatWarn → told false n) ∧
    ∀ d, d ≠ c → t.chan d = s.chan d)

/-- COOLING_INTERVAL: the timer runs on and every channel is cooled once, in some order (log 4). A channel that is not held decays by at
least 1 while above 0 (R62), takes the thermal state of its heat, with HEAT_WARN where it leaves NORMAL (R70, R71), and, in CUTOFF with
its heat at Z or below, leaves it with HEAT_RESUME, an attempt, the pull-in test and its stepper's test (R72; the reports' order is log 23,
and that they come after the band time is log 41). A held channel of a safe state then applies its derated duty, as far as the general pool has room for
the load (R37), gains the hold accrual of that duty (R63), and stays held or, at C or above, ends its hold in CUTOFF (R64); a flipper learns
of a hold's end (R89, R91). CLEAR STATS: counts and band times 0, the peak at the present heat, the absorbed count 0; heat, thermal state
and duty stay. That COOLING_INTERVAL does nothing before it is due is the model's choice (log 2). -/
def Obligations.CoolingIntervalDecaysAndClearStatsClears : Prop :=
  (∀ s : State, s.coolTimer = some 0 → ∃ t, exec .coolingInterval s = .next t ∧ t.coolTimer = some 10) ∧
  (∀ s : State, s.coolTimer ≠ some 0 → exec .coolingInterval s = .next s) ∧
  (∀ s : State, s.coolTimer = some 0 → ∃ order : List ChannelId, order.Perm (List.finRange 48) ∧
    exec .coolingInterval s = .next (order.foldl coolChannel { s with coolTimer := some 10, orders := s.orders + 1 })) ∧
  (∀ s : State, s.coolTimer = some 0 →
    (∀ c, (s.chan c).state ≠ .hold ∧ (s.chan c).heat.thermal ≠ .cutoff ∧ (s.chan c).heat.h < (s.chan c).coil.cutoff) →
    ∃ t, exec .coolingInterval s = .next t ∧ ∀ c,
      let x := (s.chan c).heat
      let d := (s.chan c).coil.decay
      (t.chan c).heat.h = (if x.h = 0 then 0 else x.h - max 1 (x.h * d / 1024)) ∧
      (t.chan c).heat.thermal = thermalOf (s.chan c).coil (t.chan c).heat.h ∧
      (t.chan c).state = (s.chan c).state) ∧
  (∀ (h : Nat) (d : Nat), 0 < h → d ≤ 255 → decayed h d < h) ∧
  (∀ (c : ChannelId) (s : State),
    let ch := s.chan c
    let r := ch.coil
    let x := ch.heat
    let h := if x.h = 0 then 0 else x.h - max 1 (x.h * r.decay / 1024)
    let cooled : Nat → Thermal := fun h => if x.thermal = .cutoff then (if h ≤ r.resume then .normal else .cutoff)
      else if h < r.warn then .normal else if h < r.limit then .warm else if h < r.cutoff then .limited else .cutoff
    let spent : Thermal → Nat → HeatStats := fun t h => { x.stats with
      peak := max x.stats.peak h
      bandNormal := if t = .normal then min 16777215 (x.stats.bandNormal + 1) else x.stats.bandNormal
      bandWarm := if t = .warm then min 16777215 (x.stats.bandWarm + 1) else x.stats.bandWarm
      bandLimited := if t = .limited then min 16777215 (x.stats.bandLimited + 1) else x.stats.bandLimited
      bandCutoff := if t = .cutoff then min 16777215 (x.stats.bandCutoff + 1) else x.stats.bandCutoff }
    (ch.state ≠ .hold →
      let u := s.setChan c { ch with heat := { x with h := h, thermal := cooled h, stats := spent (cooled h) h } }
      let v := if x.thermal = .normal ∧ cooled h ≠ .normal then setFlagBoth u .heatWarn (some c.val) else u
      coolChannel s c =
        if x.thermal = .cutoff ∧ h ≤ r.resume then
          let a := settle (pullInTest (attemptNow (setFlagBoth v .heatResume (some c.val))) c)
          match stepperOf a c with
          | none => a
          | some t => settle (stepTest a t)
        else v) ∧
    (Safe s → ch.state = .hold → x.thermal ≠ .cutoff →
      let a := appliedDuty s c (derate r h)
      let held := min 65535 (h + 10 * r.gain * a / 16)
      let t := coolChannel s c
      (t.chan c).claims = ch.claims ∧ (t.chan c).coil = r ∧ (t.chan c).heat.h = held ∧ (t.chan c).heat.dEff = a ∧
      (held < r.cutoff → (t.chan c).state = .hold ∧ coilOutput t c = .chopped a ∧ (t.chan c).load = (r.weight * a + 15) / 16 ∧
        (t.chan c).heat.thermal = cooled held ∧ (t.chan c).heat.stats = spent (cooled held) held) ∧
      (r.warn ≤ held → r.limit ≤ held → r.cutoff ≤ held →
        (t.chan c).state = (if r.gap = 0 then .idle else .recover r.gap none) ∧ coilOutput t c = .off ∧ (t.chan c).load = 0 ∧
        (t.chan c).heat.thermal = .cutoff ∧
        (t.chan c).heat.stats = { spent .cutoff held with cutoffs := min 65535 (x.stats.cutoffs + 1) } ∧
        ∀ q, ((t.latch q).get FlagName.heatCutoff.bit).isSome = true))) ∧
  (∀ (c : ChannelId) (s : State) (asked : Nat),
    let ch := s.chan c
    let load : Nat → Nat := fun d => (ch.coil.weight * d + 15) / 16
    let room := load ch.heat.dEff + (s.supply.cfg.budget - s.supply.cfg.reserve - s.arb.general)
    ch.state = .hold →
      (ch.coil.cls = .flipper ∨ load asked ≤ load ch.heat.dEff ∨ load asked ≤ room → appliedDuty s c asked = asked) ∧
      (ch.coil.cls ≠ .flipper → room < load asked → ch.heat.dEff ≤ appliedDuty s c asked ∧ appliedDuty s c asked < asked ∧
        load (appliedDuty s c asked) ≤ room ∧ ∀ d, appliedDuty s c asked < d → d ≤ asked → room < load d)) ∧
  (∀ (f : FlipperId) (s : State),
    let blocked : State → State := fun u => setFlagBoth (u.setFlip f { u.flip f with
      state := .blocked, repowers := 0, blockedCount := min 65535 ((u.flip f).blockedCount + 1) }) .flipperFault (some f.val)
    (∀ c, cutHold s c =
      let u := release (setFlagBoth (s.setChan c { s.chan c with heat := { (s.chan c).heat with
        stats := { (s.chan c).heat.stats with cutoffs := min 65535 ((s.chan c).heat.stats.cutoffs + 1) } } })
          .heatCutoff (some c.val)) c
      match flipperOf u c with
      | none => u
      | some g => flipperHoldCut u g) ∧
    ((s.flip f).state = .hold → flipperHoldCut s f = blocked s) ∧
    ((s.flip f).state = .repower → flipperHoldCut s f = blocked (endFlipperDrives s f))) ∧
  (∀ (p : Port) (x : Byte) (s : State), Ready p 0x0A#8 [x] s →
    (x.toNat ≤ 47 ∨ x = 0xFF#8 → ∃ t, exec (.clearStats p [x]) s = .next t ∧
      (t.port p).sending = some ⟨replyFrame 0x0A#8 .ok [], false⟩ ∧
      ∀ c, (x = 0xFF#8 ∨ x.toNat = c.val → t.chan c = { s.chan c with
          absorbed := 0
          heat := { (s.chan c).heat with stats := ⟨0, 0, 0, (s.chan c).heat.h, 0, 0, 0, 0⟩ } }) ∧
        (x ≠ 0xFF#8 → x.toNat ≠ c.val → t.chan c = s.chan c)) ∧
    (47 < x.toNat → x ≠ 0xFF#8 → exec (.clearStats p [x]) s = .next (refusedTo p 0x0A#8 (take s p) .range)))

/-! ### Requests that read -/

/-- Each READ request answers OK with the bytes of the record as it stands, in every state of it, and RANGE for an index out of range, in
the layouts of Tables 10-4 and 10-5, each number high byte first. The model's choices among the clauses: a closed switch reads 0 and an open
one 1 (log 10), the yes/no fields that are absent outside POWER are a free value (log 11), a step of a stepper is in DRIVE by its own record or
while one of its channels is in DRIVE, which READ STEPPER and the in-motion flag of READ BANK show (log 18), the reason of READ FLIPPER where
several apply is a free one of them (log 38), and before the first frame after a reset the Lb in use is the budget record's (log 39). -/
def Obligations.ReadRequestsAnswerTheRecords : Prop :=
  (∀ (p : Port) (x y : Byte) (s : State),
    let u := take s p
    (Ready p 0x09#8 [x] s → exec (.readHeat p [x]) s = .next (match index 48 x.toNat with
      | none => refusedTo p 0x09#8 u .range
      | some c => okTo p 0x09#8 u (heatBytes (s.chan c)))) ∧
    (Ready p 0x0C#8 [x] s → exec (.readFlipper p [x]) s = .next (match index 6 x.toNat with
      | none => refusedTo p 0x0C#8 u .range
      | some f => okTo p 0x0C#8 u (flipperBytes s f))) ∧
    (Ready p 0x0E#8 [x] s → exec (.readLink p [x]) s = .next (match index 16 x.toNat with
      | none => refusedTo p 0x0E#8 u .range
      | some k => okTo p 0x0E#8 u (linkBytes s k))) ∧
    (Ready p 0x13#8 [x] s → exec (.readStepper p [x]) s = .next (match index 16 x.toNat with
      | none => refusedTo p 0x13#8 u .range
      | some t => okTo p 0x13#8 u (stepperBytes s t))) ∧
    (Ready p 0x16#8 [x] s → exec (.readBank p [x]) s = .next (match index 4 x.toNat with
      | none => refusedTo p 0x16#8 u .range
      | some n => okTo p 0x16#8 u (readBankBytes s (s.bank n)))) ∧
    (Ready p 0x19#8 [] s → exec (.readSwitches p []) s = .next (okTo p 0x19#8 u
      ([0, 8, 16, 24].map (switchStates s) ++ be16 s.sw.partTime.toNat))) ∧
    (Ready p 0x1E#8 [] s → exec (.readLamps p []) s = .next (okTo p 0x1E#8 u
      (s.lamp.lamps.toList.flatMap (fun l => [byte (l.target * 16 + l.ramp), byte l.applied]) ++ be16 s.lamp.inUse ++
        be16 s.lamp.sum ++ s.lamp.layers.a.bytes ++ s.lamp.layers.b.bytes))) ∧
    (Ready p 0x24#8 [x, y] s → exec (.readConfig p [x, y]) s = .next (match configRecord s x.toNat y.toNat with
      | none => refusedTo p 0x24#8 u .range
      | some bytes => okTo p 0x24#8 u (x :: y :: bytes)))) ∧
  (∀ ch : Channel, heatBytes ch =
    [byte ch.state.code] ++
    (match ch.state with
      | .drive kind width _ => [byte kind.code, byte width]
      | _ => [0xFF#8, 0#8]) ++
    [byte ch.claims.code] ++ be16 ch.absorbed ++ be16 ch.heat.h ++ [byte ch.heat.thermal.code] ++
    [byte (if ch.state = .hold then ch.heat.dEff else derate ch.coil ch.heat.h)] ++
    be16 ch.heat.stats.fires ++ be16 ch.heat.stats.shortened ++ be16 ch.heat.stats.cutoffs ++ be16 ch.heat.stats.peak ++
    be24 ch.heat.stats.bandNormal ++ be24 ch.heat.stats.bandWarm ++ be24 ch.heat.stats.bandLimited ++
    be24 ch.heat.stats.bandCutoff) ∧
  (∀ (s : State) (f : FlipperId),
    let x := s.flip f
    let disabled := ∃ c, (x.cfg.power = some c ∨ x.cfg.hold = some c) ∧ (s.chan c).state = .disabled
    flipperBytes s f = x.cfg.bytes ++ [boolByte x.cfg.power.isSome, byte x.state.code, byte (reasonCode s f),
        closedByte (s.input x.cfg.button).closed] ++
      (match x.cfg.eos with
        | none => [0xFF#8]
        | some w => [closedByte (s.input w).closed]) ++
      [byte x.repowers] ++
      (match x.state with
        | .power phase => [boolByte phase.eosNote, boolByte phase.eosSeen, boolByte phase.released, byte phase.width]
        | _ => [Config.absentYesNo, Config.absentYesNo, Config.absentYesNo, 0#8]) ++
      be16 x.flips ++ be16 x.eosMissing ++ be16 x.repowerCount ++ be16 x.blockedCount ∧
    (reasonCode s f = 0 ∧ s.supply.flipOn = true ∧ x.cfg.power ≠ none ∧ ¬disabled ∨
      reasonCode s f = 1 ∧ s.supply.flipOn = false ∨
      reasonCode s f = 2 ∧ x.cfg.power ≠ none ∧ disabled ∨
      reasonCode s f = 3 ∧ x.cfg.power = none)) ∧
  (∀ (s : State) (k : LinkId),
    let x := s.link k
    linkBytes s k = x.cfg.bytes ++ [boolByte x.cfg.channel.isSome, boolByte s.supply.directOn,
      closedByte (s.input x.cfg.trigger).closed, boolByte x.lockout.isSome, byte (x.lockout.getD 0),
      boolByte (hasFireEntry s k)] ++ be16 x.fired ++ be16 x.ignored ++ be16 x.lost ∧
    (hasFireEntry s k = true ↔ ∃ e ∈ s.arb.waitList, ∃ notified, e.work = .fire k notified)) ∧
  (∀ (s : State) (t : StepperId),
    let x := s.stepper t
    let train : Option Train → List Byte := fun y => match y with
      | none => [0xFF#8] ++ be16 0 ++ be16 0 ++ [0#8]
      | some y => [byte y.dir.code] ++ be16 y.remaining ++ be16 y.delivered ++ [byte y.origin.code]
    stepperBytes s t = x.cfg.bytes ++ [boolByte x.cfg.up.isSome, byte x.state.code, natByte x.position] ++
      (match x.state with
        | .running run next => train (some run) ++ train next
        | _ => train none ++ train none) ++
      [byte x.mismatch] ++ be16 x.lost ++ be16 x.clamped ++
      (match x.last with
        | none => be16 0 ++ [0xFF#8]
        | some l => be16 l.delivered ++ [byte l.ended.code]) ++
      [boolByte x.due, boolByte (hasStepEntry s t), boolByte (stepInDrive s t)] ++
      (match x.cfg.home with
        | none => [0xFF#8]
        | some w => [closedByte (s.input w).closed]) ++
      (match x.state with
        | .homing origin steps => [byte steps, byte origin.code]
        | _ => [0#8, 0#8]) ∧
    (hasStepEntry s t = true ↔ ∃ e ∈ s.arb.waitList, e.work = .step t) ∧
    (stepInDrive s t = true ↔ x.inDrive ≠ none ∨ ∃ c, (x.cfg.up = some c ∨ x.cfg.down = some c) ∧
      ∃ kind width left, (s.chan c).state = .drive kind width left)) ∧
  (∀ (s : State) (reels : List StepperId), readBankBytes s reels =
    [byte reels.length] ++
    (List.range 5).flatMap (fun i => match reels[i]? with
      | none => [0xFF#8, 0xFF#8]
      | some t => [byte t.val, natByte (s.stepper t).position]) ++
    [boolByte (reels.any fun t => (s.stepper t).state.isRunning || (s.stepper t).state.isHoming || stepInDrive s t)]) ∧
  (∀ (s : State) (w : Fin 4), switchStates s (8 * w.val) = byte ((List.finRange 8).map fun i : Fin 8 =>
    if (s.input ⟨8 * w.val + i.val, by omega⟩).closed = true then 0 else 2 ^ i.val).sum) ∧
  (∀ (s : State) (kind i : Nat), configRecord s kind i =
    match kind with
    | 0 => (index 48 i).map fun c => (s.chan c).coil.bytes
    | 1 => if i = 0 then some s.supply.cfg.bytes else none
    | 2 => (index 6 i).map fun f => (s.flip f).cfg.bytes
    | 3 => (index 16 i).map fun k => (s.link k).cfg.bytes
    | 4 => (index 16 i).map fun t => (s.stepper t).cfg.bytes
    | 5 => (index 4 i).map fun n => bankBytes (s.bank n)
    | 6 => (index 32 i).map fun w => (s.input w).cfg.bytes
    | 7 => (index 32 i).map fun l => (s.lamp.lamps.get l).cfg.bytes
    | 8 => if i = 0 then some (be16 s.lamp.budget) else none
    | _ => none) ∧
  (∀ r : CoilRecord, r.bytes = [byte r.cls.code, byte r.maxWidth, byte r.defWidth, byte r.wmin, byte r.gap, byte r.weight,
    byte r.duty, byte r.gain, byte r.decay] ++ be16 r.warn ++ be16 r.limit ++ be16 r.cutoff ++ be16 r.resume ++
    [byte r.waitLimit]) ∧
  (∀ r : SupplyRecord, r.bytes = [byte r.budget, byte r.reserve] ++ be16 (r.settle * 10)) ∧
  (∀ r : FlipperRecord, r.bytes = [byte r.button.val, indexByte r.power, indexByte r.hold, indexByte r.eos, byte r.maxPower,
    byte r.minPower, byte r.repowerWidth, byte r.repowerLimit]) ∧
  (∀ r : LinkRecord, r.bytes = [byte r.trigger.val, byte r.edge.code, indexByte r.channel, byte r.width, byte r.lockout] ++
    match r.award with
      | none => [0xFF#8, 0#8]
      | some a => [byte a.stepper.val, byte a.steps]) ∧
  (∀ r : StepperRecord, r.bytes = [byte r.kind.code, byte r.positions, indexByte r.up, indexByte r.down, indexByte r.home,
    byte r.homePos] ++ be16 r.spacing ++ [indexByte r.carry]) ∧
  (∀ reels : List StepperId, bankBytes reels = [byte reels.length, indexByte reels[0]?, indexByte reels[1]?, indexByte reels[2]?,
    indexByte reels[3]?, indexByte reels[4]?]) ∧
  (∀ r : SwitchRecord, r.bytes = [byte r.closeMs, byte r.openMs, boolByte r.invert, byte r.reportTo.code]) ∧
  (∀ r : LampRecord, r.bytes = [byte r.priority.code, byte r.rampStep]) ∧
  (∀ x : Layer, x.bytes = [byte x.shown.code, byte x.commit.code]) ∧
  ((∀ n, byte n = BitVec.ofNat 8 n) ∧ (∀ n, be16 n = [byte (n / 256), byte n]) ∧
    (∀ n, be24 n = [byte (n / 65536), byte (n / 256), byte n]) ∧
    boolByte false = 0#8 ∧ boolByte true = 1#8 ∧ closedByte true = 0#8 ∧ closedByte false = 1#8 ∧
    natByte none = 0xFF#8 ∧ (∀ n, natByte (some n) = byte n) ∧
    (∀ n, indexByte (none : Option (Fin n)) = 0xFF#8) ∧ (∀ n (i : Fin n), indexByte (some i) = byte i.val) ∧
    (∀ n k (h : k < n), index n k = some ⟨k, h⟩) ∧ (∀ n k, n ≤ k → index n k = none)) ∧
  ([CoilClass.off, .pulse, .holdable, .stepper, .flipper].map CoilClass.code = [0, 1, 2, 3, 4] ∧
    (∀ kind width left after, [ChanState.off, .disabled, .idle, .drive kind width left, .hold, .recover left after].map
      ChanState.code = [0, 1, 2, 3, 4, 5]) ∧
    [DriveKind.pulse, .pullIn, .fire, .step, .flipper].map DriveKind.code = [0, 1, 2, 3, 4] ∧
    [Thermal.normal, .warm, .limited, .cutoff].map Thermal.code = [0, 1, 2, 3] ∧
    (∀ phase, [FlipState.disabled, .ready, .waitOpen, .power phase, .hold, .repower, .blocked].map FlipState.code =
      [0, 1, 2, 3, 4, 5, 6]) ∧
    (∀ run next origin steps, [StepState.idle, .running run next, .homing origin steps, .faulted].map StepState.code =
      [0, 1, 2, 3]) ∧
    [Edge.close, .open].map Edge.code = [0, 1] ∧ [StepperKind.wrap, .stop].map StepperKind.code = [0, 1] ∧
    [Direction.up, .down].map Direction.code = [0, 1] ∧ [EndedBy.done, .stopped, .fault].map EndedBy.code = [0, 1, 2] ∧
    [Priority.aOverB, .bOverA].map Priority.code = [0, 1] ∧ [BufferName.x, .y].map BufferName.code = [0, 1] ∧
    [CommitState.idle, .armedSync, .armedFrame].map CommitState.code = [0, 1, 2] ∧
    (∀ a b l : Bool, PortSet.code ⟨a, b⟩ = a.toNat + 2 * b.toNat ∧ Origin.code ⟨⟨a, b⟩, l⟩ = a.toNat + 2 * b.toNat + 4 * l.toNat))

/-! ### Supply and groups (chapter 2) -/

/-- ENABLE GROUP sets or clears the sender's claim on the group named, recomputes both effective enables, a change of FLIPPERS taking each
flipper through the test of R82 (R30), and answers both. That its setting is numbered off 0, on 1, as HOLD's is, is the model's choice
(log 44). -/
def Obligations.EnableGroupRecordsTheClaim : Prop :=
  ∀ (p : Port) (x y : Byte) (s : State), Ready p 0x07#8 [x, y] s →
    (1 < x.toNat ∨ 1 < y.toNat → exec (.enableGroup p [x, y]) s = .next (refusedTo p 0x07#8 (take s p) .range)) ∧
    (x.toNat ≤ 1 → y.toNat ≤ 1 → ∃ t, exec (.enableGroup p [x, y]) s = .next t ∧
      t.supply.flipClaims = (if x = 0#8 then (if y = 1#8 then s.supply.flipClaims.add p else s.supply.flipClaims.remove p)
        else s.supply.flipClaims) ∧
      t.supply.directClaims = (if x = 1#8 then (if y = 1#8 then s.supply.directClaims.add p else s.supply.directClaims.remove p)
        else s.supply.directClaims) ∧
      t.supply.flipOn = (s.isUp && !t.supply.flipClaims.isEmpty) ∧
      t.supply.directOn = (s.isUp && !t.supply.directClaims.isEmpty) ∧
      t.supply.state = s.supply.state ∧
      (t.port p).sending = some ⟨replyFrame 0x07#8 .ok [byte t.supply.flipClaims.code, boolByte t.supply.flipOn,
        byte t.supply.directClaims.code, boolByte t.supply.directOn], false⟩) ∧
    (x.toNat ≤ 1 → y.toNat ≤ 1 →
      let claim : PortSet → PortSet := fun claims => if y = 1#8 then claims.add p else claims.remove p
      let m := if x = 0#8 then { s.supply with flipClaims := claim s.supply.flipClaims }
        else { s.supply with directClaims := claim s.supply.directClaims }
      let u := (take s p).setSupply m
      let v := u.setSupply { m with flipOn := s.isUp && !m.flipClaims.isEmpty, directOn := s.isUp && !m.directClaims.isEmpty }
      let w := if v.supply.flipOn = s.supply.flipOn then v else (List.finRange 6).foldl flipperTest v
      recomputeGroups u = w ∧
      exec (.enableGroup p [x, y]) s = .next (okTo p 0x07#8 w [byte w.supply.flipClaims.code, boolByte w.supply.flipOn,
        byte w.supply.directClaims.code, boolByte w.supply.directOn]))

/-- CONFIGURE SUPPLY: the checks of R31 in their order; an accepted record replaces the old one whole, and a larger general pool brings a
grant attempt, while work granted goes on where it has not grown (R32). -/
def Obligations.ConfigureSupplyChecksAndReplaces : Prop :=
  ∀ (p : Port) (b f hi lo : Byte) (s : State), Ready p 0x08#8 [b, f, hi, lo] s →
    let u := take s p
    let new : SupplyRecord := ⟨b.toNat, f.toNat, min 255 ((hi.toNat * 256 + lo.toNat) / 10)⟩
    let v := u.setSupply { s.supply with cfg := new }
    exec (.configureSupply p [b, f, hi, lo]) s = .next (
      if b.toNat = 0 then refusedTo p 0x08#8 u .range
      else if s.store.save.isSome then refusedTo p 0x08#8 u .busy
      else if b.toNat < f.toNat then refusedTo p 0x08#8 u .refused
      else if f.toNat < flipperWeights s then refusedTo p 0x08#8 u .refused
      else if b.toNat - f.toNat < s.arb.general then refusedTo p 0x08#8 u .busy
      else okTo p 0x08#8 (if s.supply.cfg.budget - s.supply.cfg.reserve < b.toNat - f.toNat then attemptNow v else v) []) ∧
    (b.toNat ≠ 0 → s.store.save = none → f.toNat ≤ b.toNat → flipperWeights s ≤ f.toNat →
      s.arb.general ≤ b.toNat - f.toNat →
      ∃ t, exec (.configureSupply p [b, f, hi, lo]) s = .next t ∧
        (t.port p).sending = some ⟨replyFrame 0x08#8 .ok [], false⟩ ∧
        t.supply = { s.supply with cfg := new } ∧ (workingProfile t).supply = new ∧
        configRecord t 1 0 = some ([b, f] ++ be16 (new.settle * 10)) ∧
        (b.toNat - f.toNat ≤ s.supply.cfg.budget - s.supply.cfg.reserve → t.channels = s.channels ∧ t.arb = s.arb))

/-- ILK and the settle countdown: raw changes, the debounced close, its countdown and the loss in SETTLING. Entering UP (R25) sets
SUPPLY_UP and reports in order: an attempt over the list, the pull-in test of every channel in ascending number, the step test of every
stepper in round-robin order from the pointer, each with its own attempt, then both effective enables (R30), a change of FLIPPERS taking
each flipper through the test of R82. -/
def Obligations.InterlockLeadsThroughSettlingToUp : Prop :=
  (∀ (closed : Bool) (s : State),
    let up : SupplyMonitor → State := fun m =>
      let a := attemptNow (setFlagBoth (s.setSupply { m with state := .up, countdown := none }) .supplyUp none)
      let b := (List.finRange 48).foldl (fun u c => settle (pullInTest u c)) a
      recomputeGroups (((List.finRange 16).map fun i => b.arb.pointer + i).foldl (fun u t => settle (stepTest u t)) b)
    exec (.ilkRawChange closed) s = .next (if s.supply.ilkRaw = closed then s else s.setSupply { s.supply with
      ilkRaw := closed
      ilkTimer := if s.part.state = .run ∧ closed ≠ s.supply.ilkClosed then some 20 else none }) ∧
    (s.supply.ilkTimer = some 0 → s.supply.ilkClosed = false → s.supply.cfg.settle ≠ 0 →
      exec .ilkDebouncedClose s = .next (s.setSupply { s.supply with
        ilkClosed := true, ilkTimer := none, state := .settling, countdown := some (s.supply.cfg.settle * 10) })) ∧
    (s.supply.ilkTimer = some 0 → s.supply.ilkClosed = false → s.supply.cfg.settle = 0 →
      (∃ t, exec .ilkDebouncedClose s = .next t ∧ t.supply.state = .up ∧ t.supply.ilkClosed = true) ∧
      exec .ilkDebouncedClose s = .next (up { s.supply with ilkClosed := true, ilkTimer := none })) ∧
    (s.supply.countdown = some 0 → s.supply.state = .settling →
      exec .settleExpiry s = .next (up s.supply) ∧
      ∃ t, exec .settleExpiry s = .next t ∧ t.supply.state = .up ∧ t.supply.countdown = none ∧
        t.supply.flipOn = !s.supply.flipClaims.isEmpty ∧ t.supply.directOn = !s.supply.directClaims.isEmpty ∧
        ∀ q, (t.latch q).get FlagName.supplyUp.bit = raiseFlag ((s.latch q).get FlagName.supplyUp.bit) none none) ∧
    (s.supply.ilkTimer = some 0 → s.supply.ilkClosed = true → s.supply.state = .settling →
      exec .ilkDebouncedOpen s = .next (setFlagBoth (s.setSupply { s.supply with
        ilkClosed := false, ilkTimer := none, state := .down, countdown := none }) .supplyDown none))) ∧
  (∀ (c : ChannelId) (s : State),
    let ch := s.chan c
    (pullInCondition s c = true ↔ ch.coil.cls = .holdable ∧ ch.claims ≠ .empty ∧ ch.state = .idle ∧ s.supply.state = .up ∧
      ch.heat.thermal ≠ .cutoff ∧ entryOf s c = none) ∧
    pullInTest s c =
      if pullInCondition s c = true then
        if 24 ≤ s.arb.waitList.length then s.setChan c { ch with owed := true }
        else enter (s.setChan c { ch with owed := false }) ⟨c, .pullIn ch.claims, ch.coil.defWidth, s.sw.partTime, none, 0⟩
      else s) ∧
  (∀ s : State,
    let u := s.setSupply { s.supply with
      flipOn := s.isUp && !s.supply.flipClaims.isEmpty
      directOn := s.isUp && !s.supply.directClaims.isEmpty }
    recomputeGroups s = if u.supply.flipOn = s.supply.flipOn then u else (List.finRange 6).foldl flipperTest u) ∧
  (∀ (f : FlipperId) (s : State),
    let x := s.flip f
    let goes : FlipState → State := fun state => s.setFlip f { x with state := state, repowers := 0 }
    (able s f = true ↔ s.supply.flipOn = true ∧ x.cfg.power ≠ none ∧
      ∀ c, (x.cfg.power = some c ∨ x.cfg.hold = some c) → (s.chan c).state ≠ .disabled) ∧
    flipperTest s f =
      if able s f = true then
        if x.state = .disabled then goes (if (s.input x.cfg.button).closed = true then .waitOpen else .ready) else s
      else if x.state = .disabled then s
      else endFlipperDrives (goes .disabled) f)

/-- A supply loss: SUPPLY_DOWN on both ports, no channel in DRIVE or HOLD, both loads 0, the wait list empty, no group effective, every
flipper DISABLED if FLIPPERS was effective, claims kept. Of the emptied list (R27) each PULSE and FIRE entry counts in PULSE_DROPPED, with
reason SUPPLY, of each port that it names, and each FIRE entry in its link's lost count. A channel in DRIVE or HOLD goes to RECOVER for its
gap, or to IDLE where the gap is 0, and every other channel keeps its state, a running gap among them (R26). A stepper whose STEP drive is cut
keeps everything, its trains and counts among it, but for the step in drive and the step due mark, and its position is UNKNOWN (R27, R114); with
a gap of 0 the channel's return to IDLE follows, whose verification or homing test (R117, R121) leaves it so where the home switch reads open and
homing steps are left. This is stated for safe states, and the cut step for safe states whose records are joined, which every run is in.
The rest says in any state what the loss does as a whole and at one channel. The model's choices: channels and entries each in some order
(log 4), all channels before all entries and those before the groups (log 22). -/
def Obligations.SupplyLossReleasesEveryCoil : Prop :=
  (∀ s : State, s.supply.ilkTimer = some 0 → s.supply.ilkClosed = true → s.supply.state = .up →
    ∃ order : List ChannelId, order.Perm (List.finRange 48) ∧ ∃ entries : List Entry,
      let down := setFlagBoth { s with
        supply := { s.supply with ilkClosed := false, ilkTimer := none, state := .down, countdown := none }
        orders := s.orders + 2 } .supplyDown none
      let cut := order.foldl loseSupplyAt down
      let told := (entries.foldl (fun u e => match e.work with
        | .pulse origin => dropPulse u origin e.channel .supply
        | .pullIn _ => u
        | .fire k notified => dropPulse (u.setLink k { u.link k with
          entry := false, lost := min 65535 ((u.link k).lost + 1) }) notified e.channel .supply
        | .step _ => u) cut).setWaitList []
      entries.Perm cut.arb.waitList ∧
      exec .ilkDebouncedOpen s = .next (settle (recomputeGroups { told with
        steppers := told.steppers.map fun x => { x with due := false } }))) ∧
  (∀ (c : ChannelId) (s : State),
    let ch := s.chan c
    let rested : Option StepperId → State := fun after => (s.setChan c { ch with owed := false }).setChan c { ch with
      owed := false, state := if ch.coil.gap = 0 then .idle else .recover ch.coil.gap after }
    let flipperOff : State :=
      match flipperOf s c with
      | none => rested none
      | some f => if (s.flip f).state = .disabled then rested none
        else endFlipperDrives ((rested none).setFlip f { s.flip f with state := .disabled, repowers := 0 }) f
    ((∀ kind w left, ch.state ≠ .drive kind w left) → ch.state ≠ .hold → loseSupplyAt s c = s.setChan c { ch with owed := false }) ∧
    (ch.state = .hold → loseSupplyAt s c = flipperOff) ∧
    (∀ w left, ch.state = .drive .flipper w left → loseSupplyAt s c = flipperOff) ∧
    (∀ kind w left, ch.state = .drive kind w left → kind = .pulse ∨ kind = .pullIn ∨ kind = .fire ∨ kind = .step ∧ stepperOf s c = none →
      loseSupplyAt s c = rested none) ∧
    (∀ w left t, ch.state = .drive .step w left → stepperOf s c = some t →
      let v := (rested (some t)).setStepper t { s.stepper t with inDrive := none, position := none }
      loseSupplyAt s c = if ch.coil.gap = 0 then stepTest (lookHome v t) t else v)) ∧
  ∀ s : State, Safe s → s.supply.ilkTimer = some 0 → s.supply.ilkClosed = true → s.supply.state = .up →
    ∃ t, exec .ilkDebouncedOpen s = .next t ∧ t.supply.state = .down ∧
      (∀ c, (t.chan c).load = 0 ∧ coilOutput t c = .off ∧ (t.chan c).claims = (s.chan c).claims ∧ (t.chan c).owed = false) ∧
      t.arb.general = 0 ∧ t.arb.flipper = 0 ∧ t.arb.waitList = [] ∧
      t.supply.flipOn = false ∧ t.supply.directOn = false ∧
      t.supply.flipClaims = s.supply.flipClaims ∧ t.supply.directClaims = s.supply.directClaims ∧
      (∀ u, (t.stepper u).due = false) ∧
      (∀ c, let on := (s.chan c).state = .hold ∨ ∃ kind w left, (s.chan c).state = .drive kind w left
        (on → (s.chan c).coil.gap = 0 → (t.chan c).state = .idle) ∧
        (on → (s.chan c).coil.gap ≠ 0 → ∃ after, (t.chan c).state = .recover (s.chan c).coil.gap after) ∧
        (¬on → (t.chan c).state = (s.chan c).state)) ∧
      (∀ u, let x := s.stepper u
        let cut : ChannelId → Prop := fun c => stepperOf s c = some u ∧ ∃ w left, (s.chan c).state = .drive .step w left
        ((∀ c, ¬cut c) → t.stepper u = { x with due := false }) ∧
        (∀ c, RecordsJoined s → cut c → (∀ d, cut d → d = c) →
          ((s.chan c).coil.gap ≠ 0 ∨ (∀ w, x.cfg.home = some w → (s.input w).closed = false) ∧
            ∀ origin steps, x.state = .homing origin steps → steps < x.cfg.positions + 2) →
          t.stepper u = { x with inDrive := none, position := none, due := false })) ∧
      (s.supply.flipOn = true → ∀ f, (t.flip f).state = .disabled) ∧
      (∀ q, (t.latch q).get FlagName.supplyDown.bit = raiseFlag ((s.latch q).get FlagName.supplyDown.bit) none none) ∧
      (∀ q,
        let told := s.arb.waitList.filter fun e => match e.work with
          | .pulse origin => origin.has q
          | .fire _ notified => notified.has q
          | .pullIn _ => false
          | .step _ => false
        let flag := FlagName.pulseDropped.bit
        (told = [] → (t.latch q).get flag = (s.latch q).get flag) ∧
        (told ≠ [] → (s.latch q).get flag = none → ∃ e ∈ told,
          (t.latch q).get flag = some ⟨some e.channel.val, some .supply, min 255 told.length⟩) ∧
        (∀ r, told ≠ [] → (s.latch q).get flag = some r →
          (t.latch q).get flag = some { r with count := min 255 (r.count + told.length) })) ∧
      (∀ k,
        let lost := s.arb.waitList.countP fun e => match e.work with
          | .fire j _ => j = k
          | .pulse _ => false
          | .pullIn _ => false
          | .step _ => false
        t.link k = if lost = 0 then s.link k
          else { s.link k with entry := false, lost := min 65535 ((s.link k).lost + lost) })

/-! ### Flippers and links (chapters 5 and 6) -/

/-- CONFIGURE FLIPPER and CONFIGURE LINK: the checks in their order, with the ranges of Tables 5-1 and 6-1 and the names that R94 refuses;
the record replaced whole, counters and running state fresh. That an unconfigured flipper names no channel is the model's reading (log 17). -/
def Obligations.ConfigureFlipperAndLink : Prop :=
  (∀ (body : List Byte) (r : FlipperRecord), body.length = 9 → (flipperRecordOf body = some r ↔
    body.drop 1 = [byte r.button.val, indexByte r.power, indexByte r.hold, indexByte r.eos, byte r.maxPower, byte r.minPower,
      byte r.repowerWidth, byte r.repowerLimit] ∧
    5 ≤ r.maxPower ∧ r.maxPower ≤ 100 ∧ 1 ≤ r.minPower ∧ r.minPower ≤ r.maxPower ∧ 1 ≤ r.repowerWidth ∧
      r.repowerWidth ≤ r.maxPower ∧ r.repowerLimit ≤ 3)) ∧
  (∀ (body : List Byte) (r : LinkRecord), body.length = 8 → (linkRecordOf body = some r ↔
    (body.drop 1).take 5 = [byte r.trigger.val, byte r.edge.code, indexByte r.channel, byte r.width, byte r.lockout] ∧
    r.width ≤ 255 ∧ r.lockout ≤ 255 ∧
    match r.award with
      | none => body.getD 6 0#8 = 0xFF#8
      | some a => 1 ≤ a.steps ∧ a.steps ≤ 9 ∧ body.drop 6 = [byte a.stepper.val, byte a.steps])) ∧
  (∀ (s : State) (f : FlipperId) (r : FlipperRecord), flipperNamesFit s f r = true ↔
    r.power = none ∨
      r.power ≠ r.hold ∧ r.eos ≠ some r.button ∧ ∀ c, r.power = some c ∨ r.hold = some c →
        (s.chan c).coil.cls = .flipper ∧
        ∀ g, g ≠ f → (s.flip g).cfg.power ≠ none → (s.flip g).cfg.power ≠ some c ∧ (s.flip g).cfg.hold ≠ some c) ∧
  (∀ (p : Port) (body : List Byte) (s : State), Ready p 0x0B#8 body s → body.length = 9 →
    exec (.configureFlipper p body) s = .next (match index 6 (u8 body 0), flipperRecordOf body with
      | some f, some r =>
        if s.store.save.isSome then refusedTo p 0x0B#8 (take s p) .busy
        else if (match (s.flip f).state with
          | .power _ => true
          | .hold => true
          | .repower => true
          | _ => false) = true then refusedTo p 0x0B#8 (take s p) .busy
        else if flipperNamesFit s f r = false then refusedTo p 0x0B#8 (take s p) .refused
        else okTo p 0x0B#8 (flipperTest ((take s p).setFlip f ⟨r, .disabled, 0, 0, 0, 0, 0⟩) f) []
      | _, _ => refusedTo p 0x0B#8 (take s p) .range)) ∧
  (∀ (p : Port) (body : List Byte) (s : State), Ready p 0x0D#8 body s → body.length = 8 →
    exec (.configureLink p body) s = .next (match index 16 (u8 body 0), linkRecordOf body with
      | some k, some r =>
        if s.store.save.isSome then refusedTo p 0x0D#8 (take s p) .busy
        else if hasFireEntry s k = true then refusedTo p 0x0D#8 (take s p) .busy
        else if (∃ c, r.channel = some c ∧ (s.chan c).coil.cls ≠ .pulse ∧ (s.chan c).coil.cls ≠ .holdable) then
          refusedTo p 0x0D#8 (take s p) .refused
        else okTo p 0x0D#8 ((take s p).setLink k ⟨r, none, false, 0, 0, 0⟩) []
      | _, _ => refusedTo p 0x0D#8 (take s p) .range))

/-- The button of a flipper, by its state. Pressed in READY: BLOCKED, with FLIPPER_FAULT and the blocked count, where either channel is in
CUTOFF (no check is made) or the heat check refuses (R84, R93); else driven at the width that the heat check passes. Pressed in POWER: the
release note is cleared (R87). Let go: READY from WAIT_OPEN and BLOCKED (R83), and from HOLD and REPOWER with every drive and hold ended (R89,
R91); in POWER at once once the effective minimum has passed, else noted (R87). A switch change reaches a configured flipper that names the
switch (R80). That at a gap of 0 the attempt of a drive's or hold's end comes before the reports of the return to IDLE is the model's choice
(log 51). -/
def Obligations.FlipperPressStartsThePowerDrive : Prop :=
  (∀ (s : State) (f : FlipperId) (c : ChannelId), (s.flip f).cfg.power = some c → (s.flip f).state = .ready →
    (s.chan c).state = .idle →
    let r := (s.flip f).cfg
    let width := min r.maxPower (s.chan c).coil.maxWidth
    ((s.chan c).heat.thermal = .cutoff → ((buttonCloses s f).flip f).state = .blocked ∧ (buttonCloses s f).channels = s.channels) ∧
    (∀ h, r.hold = some h → (s.chan h).heat.thermal = .cutoff → ((buttonCloses s f).flip f).state = .blocked) ∧
    ((s.chan c).heat.thermal ≠ .cutoff → (∀ h, r.hold = some h → (s.chan h).heat.thermal ≠ .cutoff) →
      (∀ w, (heatCheck s c width).2 = some w →
        ((buttonCloses s f).flip f).state = .power ⟨w, 0, false, false, false⟩ ∧
        ((buttonCloses s f).flip f).flips = min 65535 ((s.flip f).flips + 1) ∧
        ((buttonCloses s f).chan c).state = .drive .flipper w w) ∧
      ((heatCheck s c width).2 = none → ((buttonCloses s f).flip f).state = .blocked ∧
        ((buttonCloses s f).flip f).blockedCount = min 65535 ((s.flip f).blockedCount + 1) ∧
        ((buttonCloses s f).chan c).state = .idle))) ∧
  (∀ (s : State) (f : FlipperId),
    let x := s.flip f
    let r := x.cfg
    let goes : FlipState → State := fun state => s.setFlip f { x with state := state, repowers := 0 }
    let blocked : State → State := fun u => setFlagBoth (u.setFlip f { u.flip f with
      state := .blocked, repowers := 0, blockedCount := min 65535 ((u.flip f).blockedCount + 1) }) .flipperFault (some f.val)
    (∀ c, r.power = some c → x.state = .ready → (s.chan c).state = .idle →
      let checked := heatCheck s c (min r.maxPower (s.chan c).coil.maxWidth)
      let hot := (s.chan c).heat.thermal = .cutoff ∨ ∃ h, r.hold = some h ∧ (s.chan h).heat.thermal = .cutoff
      (hot → buttonCloses s f = blocked s) ∧
      (¬hot → checked.2 = none → buttonCloses s f = blocked checked.1) ∧
      (∀ w, ¬hot → checked.2 = some w → buttonCloses s f = (checked.1.setFlip f { x with
        state := .power ⟨w, 0, false, false, false⟩
        flips := min 65535 (x.flips + 1) }).setChan c { checked.1.chan c with state := .drive .flipper w w })) ∧
    (∀ phase, x.state = .power phase →
      buttonCloses s f = s.setFlip f { x with state := .power { phase with released := false } }) ∧
    ((x.state = .disabled ∨ x.state = .waitOpen ∨ x.state = .hold ∨ x.state = .repower ∨ x.state = .blocked) →
      buttonCloses s f = s) ∧
    ((x.state = .waitOpen ∨ x.state = .blocked) → buttonOpens s f = goes .ready) ∧
    (∀ phase, x.state = .power phase → buttonOpens s f =
      if min r.minPower phase.width ≤ phase.elapsed then endFlipperDrives (goes .ready) f
      else s.setFlip f { x with state := .power { phase with released := true } }) ∧
    ((x.state = .hold ∨ x.state = .repower) → buttonOpens s f = endFlipperDrives (goes .ready) f) ∧
    ((x.state = .disabled ∨ x.state = .ready) → buttonOpens s f = s) ∧
    (∀ w closed, flipperSwitch w closed s f =
      if r.power = none then s
      else if r.button = w then (if closed = true then buttonCloses s f else buttonOpens s f)
      else if r.eos = some w then (if closed = true then eosCloses s f else eosOpens s f)
      else s)) ∧
  (∀ (s : State) (f : FlipperId),
    endFlipperDrives s f =
      let a := match (s.flip f).cfg.power with
        | none => s
        | some c => releaseIfOn s c
      match (s.flip f).cfg.hold with
        | none => a
        | some c => releaseIfOn a c) ∧
  (∀ (s : State) (c : ChannelId),
    let on := (s.chan c).state = .hold ∨ ∃ kind w left, (s.chan c).state = .drive kind w left
    (¬on → releaseIfOn s c = s) ∧
    (on → (s.chan c).coil.gap = 0 →
      releaseIfOn s c = reportIdle (attemptNow (s.setChan c { s.chan c with state := .idle })) c none) ∧
    (on → (s.chan c).coil.gap ≠ 0 →
      releaseIfOn s c = attemptNow (s.setChan c { s.chan c with state := .recover (s.chan c).coil.gap none })))

/-- FLIPPER_EFFECTIVE_MIN_REACHED and the end of the power drive: a released flipper ends its drives and is READY, one with the EOS note
is handed to its hold, any other drive runs on to its width and then is handed to its hold, with EOS missing counted where it was not
seen. The EOS switch sets and clears the note in POWER (R85) and, opening in HOLD, brings a repower below the limit (R90), whose end is
handed to the hold again (R91); the hand-over of R88, single-wound and dual-wound. The model's choices among the clauses: the event does
nothing before the effective minimum (log 2), and a released drive that reaches its width counts no EOS missing (log 15, read from R87: "A
power drive that ends toward READY charges no further heat and is not counted as a fault, whatever its EOS marks."). At a gap of 0
the attempt of the drive's or hold's end comes before the reports of the return to IDLE: the model's choice too (log 51). -/
def Obligations.PowerStrokeEndsInReadyOrHold : Prop :=
  (∀ (f : FlipperId) (phase : PowerPhase) (s : State), (s.flip f).state = .power phase →
    let least := min (s.flip f).cfg.minPower phase.width
    (phase.elapsed < least → exec (.flipperEffectiveMinReached f) s = .next s) ∧
    (least ≤ phase.elapsed → phase.released = true →
      exec (.flipperEffectiveMinReached f) s =
        .next (endFlipperDrives (s.setFlip f { s.flip f with state := .ready, repowers := 0 }) f)) ∧
    (least ≤ phase.elapsed → phase.released = false → phase.eosNote = true → ∀ c, (s.flip f).cfg.power = some c →
      exec (.flipperEffectiveMinReached f) s = .next (handOver s f c)) ∧
    (least ≤ phase.elapsed → phase.released = false → phase.eosNote = false →
      exec (.flipperEffectiveMinReached f) s = .next s) ∧
    (∀ c, flipperDriveEnd s f c =
      if phase.released = true then endFlipperDrives (s.setFlip f { s.flip f with state := .ready, repowers := 0 }) f
      else if (s.flip f).cfg.eos ≠ none ∧ phase.eosSeen = false then
        handOver (setFlagBoth (s.setFlip f { s.flip f with eosMissing := min 65535 ((s.flip f).eosMissing + 1) }) .flipperFault
          (some f.val)) f c
      else handOver s f c) ∧
    (∀ c, (s.flip f).cfg.power = some c →
      let noted := s.setFlip f { s.flip f with state := .power { phase with eosNote := true, eosSeen := true } }
      eosCloses s f = if least ≤ phase.elapsed ∧ phase.released = false then handOver noted f c else noted) ∧
    eosOpens s f = s.setFlip f { s.flip f with state := .power { phase with eosNote := false } }) ∧
  (∀ (f : FlipperId) (s : State),
    let x := s.flip f
    ((∀ phase, x.state ≠ .power phase) → eosCloses s f = s) ∧
    ((∀ phase, x.state ≠ .power phase) → x.state ≠ .hold → eosOpens s f = s) ∧
    (∀ c, x.state = .repower → flipperDriveEnd s f c = handOver s f c)) ∧
  (∀ (f : FlipperId) (c : ChannelId) (s : State),
    let x := s.flip f
    let r := x.cfg
    let blocked : State → State := fun u => setFlagBoth (u.setFlip f { u.flip f with
      state := .blocked, repowers := 0, blockedCount := min 65535 ((u.flip f).blockedCount + 1) }) .flipperFault (some f.val)
    let checked := heatCheck s c (min r.repowerWidth (s.chan c).coil.maxWidth)
    x.state = .hold → r.power = some c →
      (r.repowerLimit ≤ x.repowers → eosOpens s f = s) ∧
      (x.repowers < r.repowerLimit → (s.chan c).heat.thermal = .cutoff → eosOpens s f = endFlipperDrives (blocked s) f) ∧
      (x.repowers < r.repowerLimit → (s.chan c).heat.thermal ≠ .cutoff → checked.2 = none →
        eosOpens s f = endFlipperDrives (blocked checked.1) f) ∧
      (∀ w, x.repowers < r.repowerLimit → (s.chan c).heat.thermal ≠ .cutoff → checked.2 = some w →
        eosOpens s f = (checked.1.setFlip f { x with
          state := .repower
          repowers := x.repowers + 1
          repowerCount := min 65535 (x.repowerCount + 1) }).setChan c { checked.1.chan c with state := .drive .flipper w w })) ∧
  (∀ (f : FlipperId) (c : ChannelId) (s : State),
    let held : State → ChannelId → State := fun u d => (u.setChan d { u.chan d with
      state := .hold
      heat := { (u.chan d).heat with dEff := derate (u.chan d).coil (u.chan d).heat.h } }).setFlip f { u.flip f with state := .hold }
    ((s.flip f).cfg.hold = none → handOver s f c = attemptNow (held s c)) ∧
    (∀ h, (s.flip f).cfg.hold = some h →
      let u := release s c
      handOver s f c =
        if (u.chan h).state = .hold then u.setFlip f { u.flip f with state := .hold }
        else if (u.chan h).heat.thermal = .cutoff then setFlagBoth (u.setFlip f { u.flip f with
          state := .blocked, repowers := 0, blockedCount := min 65535 ((u.flip f).blockedCount + 1) }) .flipperFault (some f.val)
        else held u h) ∧
    ((s.chan c).coil.gap = 0 →
      release s c = reportIdle (attemptNow (s.setChan c { s.chan c with state := .idle })) c none) ∧
    ((s.chan c).coil.gap ≠ 0 →
      release s c = attemptNow (s.setChan c { s.chan c with state := .recover (s.chan c).coil.gap none })))

/-- A link's trigger by the table of R98, the cases of the FIRE that it offers (R45, R100), the grant of a FIRE with its award (R101), what the
target of an award or a carry makes of its steps UP by the table of R109 (R108, R116), and LOCKOUT_EXPIRY. That LOCKOUT_EXPIRY does nothing before the lockout has run is the model's choice (log 2). -/
def Obligations.LinkTriggerAndLockout : Prop :=
  (∀ (k : LinkId) (s : State),
    ((s.link k).cfg.channel = none → trigger s k = s) ∧
    (∀ c, (s.link k).cfg.channel = some c →
      let x := s.link k
      trigger s k =
        if s.supply.directOn = false then s
        else if x.lockout ≠ none then s.setLink k { x with ignored := min 65535 (x.ignored + 1) }
        else if (s.chan c).state = .disabled then s.setLink k { x with lost := min 65535 (x.lost + 1) }
        else settle (offerFire (s.setLink k { x with
          lockout := if x.cfg.lockout = 0 then none else some x.cfg.lockout }) k c)) ∧
    ((s.link k).lockout = some 0 → exec (.lockoutExpiry k) s = .next (s.setLink k { s.link k with lockout := none })) ∧
    ((s.link k).lockout ≠ some 0 → exec (.lockoutExpiry k) s = .next s) ∧
    (∀ w closed, linkSwitch w closed s k =
      if (s.link k).cfg.trigger = w ∧ (s.link k).cfg.edge = (if closed = true then .close else .open) then trigger s k else s)) ∧
  (∀ (k : LinkId) (c : ChannelId) (s : State),
    let ch := s.chan c
    let asked := (s.link k).cfg.width
    let width := min (if asked = 0 then ch.coil.defWidth else asked) ch.coil.maxWidth
    let lost : State → State := fun u => u.setLink k { u.link k with lost := min 65535 ((u.link k).lost + 1) }
    let marked : State → State := fun u => u.setLink k { u.link k with entry := true }
    let changed : (Entry → Entry) → State := fun g => bring (s.setWaitList (s.arb.waitList.map fun e =>
      if e.channel = c then g e else e))
    let held := ch.state = .hold ∨ ∃ e origin, entryOf s c = some e ∧ e.work = .pullIn origin
    (ch.heat.thermal = .cutoff → offerFire s k c = lost s) ∧
    (ch.heat.thermal ≠ .cutoff → held →
      offerFire s k c = lost (s.setChan c { ch with absorbed := min 65535 (ch.absorbed + 1) })) ∧
    (∀ e origin, ch.heat.thermal ≠ .cutoff → ¬held → entryOf s c = some e → e.work = .pulse origin →
      offerFire s k c = marked (changed fun e => { e with work := .fire k origin, width := max e.width width })) ∧
    (∀ e j notified, ch.heat.thermal ≠ .cutoff → ¬held → entryOf s c = some e → e.work = .fire j notified →
      offerFire s k c = lost (changed fun e => { e with width := max e.width width })) ∧
    (ch.heat.thermal ≠ .cutoff → ¬held → entryOf s c = none → 24 ≤ s.arb.waitList.length → offerFire s k c = lost s) ∧
    (ch.heat.thermal ≠ .cutoff → ¬held → entryOf s c = none → s.arb.waitList.length < 24 →
      offerFire s k c = marked (enter s {
        channel := c, work := .fire k .empty, width := width, enteredAt := s.sw.partTime
        deadline := if ch.coil.waitLimit = 0 then none
          else some ⟨s.sw.partTime + BitVec.ofNat 16 (ch.coil.waitLimit * 10), ch.coil.waitLimit * 10⟩
        passed := 0 }))) ∧
  (∀ (k : LinkId) (s : State),
    let x := s.link k
    let fired := s.setLink k { x with entry := false, fired := min 65535 (x.fired + 1) }
    (x.cfg.award = none → grantFire s k = fired) ∧
    (∀ a, x.cfg.award = some a →
      let o := offerTrain fired a.stepper .up a.steps ⟨.empty, true⟩ true
      grantFire s k = if o.2.steps = 0 then o.1.setLink k { o.1.link k with lost := min 65535 ((o.1.link k).lost + 1) } else o.1)) ∧
  (∀ (t : StepperId) (n : Nat) (origin : Origin) (s : State),
    let x := s.stepper t
    (x.cfg.up = none ∨ x.state = .faulted ∨ (∃ among steps, x.state = .homing among steps) ∨
        ∃ run next, x.state = .running run (some next) ∧ next.dir = .down) →
      (offerTrain s t .up n origin true).1 = s.setStepper t { x with lost := min 65535 (x.lost + n) } ∧
      (offerTrain s t .up n origin true).2.steps = 0) ∧
  (∀ (t : StepperId) (n : Nat) (origin : Origin) (s : State),
    let x := s.stepper t
    x.cfg.up ≠ none →
    (x.state = .idle → offerTrain s t .up n origin true =
      (stepTest (s.setStepper t { x with state := .running ⟨.up, n, 0, origin⟩ none }) t, .taken .running n 0)) ∧
    (∀ run, x.state = .running run none → offerTrain s t .up n origin true =
      (s.setStepper t { x with state := .running run (some ⟨.up, n, 0, origin⟩) }, .taken .pending n 0)) ∧
    (∀ run next, x.state = .running run (some next) → next.dir = .up →
      let steps := min n (999 - next.remaining)
      offerTrain s t .up n origin true =
        (s.setStepper t { x with
          lost := min 65535 (x.lost + (n - steps))
          state := .running run (some { next with
            remaining := next.remaining + steps
            origin := ⟨next.origin.ports.union origin.ports, next.origin.loc || origin.loc⟩ }) },
        .taken .added steps (n - steps))) ∧
    (∀ outcome k dropped, (Offered.taken outcome k dropped).steps = k))

/-! ### Steppers and banks (chapter 7) -/

/-- STEP: the checks of R110, then the table of R109 for a port's train. -/
def Obligations.StepOffersATrain : Prop :=
  (∀ (p : Port) (x d hi lo : Byte) (s : State), Ready p 0x0F#8 [x, d, hi, lo] s → 15 < x.toNat →
    exec (.step p [x, d, hi, lo]) s = .next (refusedTo p 0x0F#8 (take s p) .range)) ∧
  ∀ (p : Port) (t : StepperId) (d hi lo : Byte) (s : State), Ready p 0x0F#8 [byte t.val, d, hi, lo] s →
    let u := take s p
    let x := s.stepper t
    let k := min (hi.toNat * 256 + lo.toNat) 999
    let c := Instr.step p [byte t.val, d, hi, lo]
    ((1 < d.toNat ∨ hi.toNat * 256 + lo.toNat = 0) → exec c s = .next (refusedTo p 0x0F#8 u .range)) ∧
    (d.toNat ≤ 1 → hi.toNat * 256 + lo.toNat ≠ 0 →
      let dir := if d.toNat = 0 then Direction.up else Direction.down
      let noDown := d.toNat = 1 ∧ (x.cfg.kind = .wrap ∨ x.cfg.down = none)
      let train : Train := ⟨dir, k, 0, ⟨PortSet.empty.add p, false⟩⟩
      (x.cfg.up = none → exec c s = .next (refusedTo p 0x0F#8 u .refused)) ∧
      (x.cfg.up ≠ none → x.state = .faulted → exec c s = .next (refusedTo p 0x0F#8 u .refused)) ∧
      (∀ o n, x.cfg.up ≠ none → x.state = .homing o n → exec c s = .next (refusedTo p 0x0F#8 u .busy)) ∧
      (x.cfg.up ≠ none → x.state = .idle → exec c s = .next (
        if noDown then refusedTo p 0x0F#8 u .refused
        else okTo p 0x0F#8 (settle (stepTest (u.setStepper t { x with state := .running train none }) t))
          (0#8 :: be16 k ++ be16 0))) ∧
      (∀ run, x.cfg.up ≠ none → x.state = .running run none → exec c s = .next (
        if noDown then refusedTo p 0x0F#8 u .refused
        else okTo p 0x0F#8 (settle (u.setStepper t { x with state := .running run (some train) }))
          (1#8 :: be16 k ++ be16 0))) ∧
      (∀ run next, x.cfg.up ≠ none → x.state = .running run (some next) → exec c s = .next (
        if noDown then refusedTo p 0x0F#8 u .refused
        else if dir ≠ next.dir then refusedTo p 0x0F#8 u .busy
        else
          let steps := min k (999 - next.remaining)
          okTo p 0x0F#8 (settle (u.setStepper t { x with
            lost := min 65535 (x.lost + (k - steps))
            state := .running run (some { next with
              remaining := next.remaining + steps
              origin := ⟨next.origin.ports.union (PortSet.empty.add p), next.origin.loc⟩ }) }))
            (2#8 :: be16 steps ++ be16 (k - steps)))))

/-- STOP STEPPER: an idle or faulted stepper is left as it is; a running train or a homing is cleared, recorded as STOPPED and told to its
origins, those of both trains, its STEP entry leaves the wait list (R58), and a step in drive runs on, marked cleared. SET POSITION: its
checks in their order, and the position set with the mismatch count 0. -/
def Obligations.StopStepperAndSetPosition : Prop :=
  (∀ (p : Port) (t : StepperId) (s : State), Ready p 0x10#8 [byte t.val] s →
    ((s.stepper t).state = .idle ∨ (s.stepper t).state = .faulted →
      exec (.stopStepper p [byte t.val]) s = .next (okTo p 0x10#8 (take s p) (be16 0))) ∧
    (∀ n, (s.stepper t).state.delivered = some n →
      exec (.stopStepper p [byte t.val]) s = .next (okTo p 0x10#8 (settle (stopStepper (take s p) t)) (be16 n)) ∧
      (stopStepper (take s p) t).stepper t = { s.stepper t with
        state := .idle
        last := some ⟨n, .stopped⟩
        due := false
        inDrive := (s.stepper t).inDrive.map fun step => { step with mark := .cleared } } ∧
      ∀ q, ((stopStepper (take s p) t).latch q).get FlagName.trainStopped.bit =
        if (s.stepper t).state.told.has q = true then raiseFlag ((s.latch q).get FlagName.trainStopped.bit) (some t.val) none
        else (s.latch q).get FlagName.trainStopped.bit) ∧
    (∀ run next, (s.stepper t).state = .running run next → (s.stepper t).state.delivered = some run.delivered) ∧
    (∀ origin steps, (s.stepper t).state = .homing origin steps → (s.stepper t).state.delivered = some steps)) ∧
  (∀ (t : StepperId) (n : Nat) (s : State), (s.stepper t).state.delivered = some n →
    let cleared := s.setStepper t { s.stepper t with
      state := .idle
      last := some ⟨n, .stopped⟩
      due := false
      inDrive := (s.stepper t).inDrive.map fun step => { step with mark := .cleared } }
    let left := match s.arb.waitList.find? fun e => e.work = .step t with
      | none => cleared
      | some e => removeEntry cleared e
    stopStepper s t = setFlagPorts left (s.stepper t).state.told .trainStopped (some t.val) ∧
    ((∀ e ∈ s.arb.waitList, ∀ f ∈ s.arb.waitList, e.work = .step t → f.work = .step t → e.channel = f.channel) →
      ∀ e ∈ (stopStepper s t).arb.waitList, e.work ≠ .step t)) ∧
  ((∀ run, (StepState.running run none).told = run.origin.ports) ∧
    (∀ run next, (StepState.running run (some next)).told = run.origin.ports.union next.origin.ports) ∧
    (∀ origin steps, (StepState.homing origin steps).told = origin) ∧
    (∀ (a b : PortSet) (q : Port), (a.union b).has q = (a.has q || b.has q))) ∧
  (∀ (p : Port) (x : Byte) (s : State), Ready p 0x10#8 [x] s → 15 < x.toNat →
    exec (.stopStepper p [x]) s = .next (refusedTo p 0x10#8 (take s p) .range)) ∧
  (∀ (p : Port) (x y : Byte) (s : State), Ready p 0x12#8 [x, y] s →
    let u := take s p
    exec (.setPosition p [x, y]) s = .next (match index 16 x.toNat with
      | none => refusedTo p 0x12#8 u .range
      | some t =>
        if (s.stepper t).cfg.up = none then refusedTo p 0x12#8 u .refused
        else if y ≠ 0xFF#8 ∧ (s.stepper t).cfg.positions ≤ y.toNat then refusedTo p 0x12#8 u .range
        else if (s.stepper t).state ≠ .idle then refusedTo p 0x12#8 u .busy
        else okTo p 0x12#8 (u.setStepper t { s.stepper t with
          position := if y = 0xFF#8 then none else some y.toNat, mismatch := 0 }) []))

/-- HOME: its refusals; what was running is stopped, and a waiting STEP entry and the step due mark go; home found at once at a resting unit that
stands at its switch; else HOMING at an UNKNOWN position, with the first homing step tested. That the attempt which the removal of a blocking
entry brings is made after that test, and not before it, is the model's choice (log 49). -/
def Obligations.HomeFindsOrBeginsHoming : Prop :=
  (∀ (p : Port) (x : Byte) (s : State), Ready p 0x11#8 [x] s → 15 < x.toNat →
    exec (.home p [x]) s = .next (refusedTo p 0x11#8 (take s p) .range)) ∧
  ∀ (p : Port) (t : StepperId) (s : State), Ready p 0x11#8 [byte t.val] s →
    let r := (s.stepper t).cfg
    let channel := if r.kind = .wrap then r.up else r.down
    ((r.up = none ∨ r.home = none ∨ channel = none) →
      exec (.home p [byte t.val]) s = .next (refusedTo p 0x11#8 (take s p) .refused)) ∧
    (∀ c w, r.up ≠ none → r.home = some w → channel = some c →
      ((s.chan c).state = .disabled → exec (.home p [byte t.val]) s = .next (refusedTo p 0x11#8 (take s p) .refused)) ∧
      ((s.chan c).state ≠ .disabled → (s.stepper t).state.isHoming = true →
        exec (.home p [byte t.val]) s = .next (refusedTo p 0x11#8 (take s p) .busy)) ∧
      ((s.chan c).state ≠ .disabled → (s.stepper t).state.isRunning = true → ∀ v, v = stopStepper (take s p) t →
        let h := beginHoming p (removeStepEntry (v.setStepper t { v.stepper t with due := false }) t) t
        exec (.home p [byte t.val]) s = .next (okTo p 0x11#8 (settle h.1) [if h.2 = true then 0#8 else 1#8])) ∧
      ((s.chan c).state ≠ .disabled → ((s.stepper t).state = .idle ∨ (s.stepper t).state = .faulted) → hasStepEntry s t = false →
        drivingOrRecovering s r.up = false → drivingOrRecovering s r.down = false → (s.input w).closed = true →
        exec (.home p [byte t.val]) s = .next (okTo p 0x11#8 (settle (setFlagPorts ((take s p).setStepper t {
          s.stepper t with
          due := false, position := some r.homePos, mismatch := 0, state := .idle, last := some ⟨0, .done⟩ })
          (PortSet.empty.add p) .trainDone (some t.val))) [0#8])) ∧
      ((s.chan c).state ≠ .disabled → ((s.stepper t).state = .idle ∨ (s.stepper t).state = .faulted) → hasStepEntry s t = false →
        (drivingOrRecovering s r.up = true ∨ drivingOrRecovering s r.down = true ∨ (s.input w).closed = false) →
        exec (.home p [byte t.val]) s = .next (okTo p 0x11#8 (settle (stepTest ((take s p).setStepper t {
          s.stepper t with due := false, position := none, state := .homing (PortSet.empty.add p) 0 }) t)) [1#8])) ∧
      ((s.chan c).state ≠ .disabled → ((s.stepper t).state = .idle ∨ (s.stepper t).state = .faulted) →
        let h := beginHoming p (removeStepEntry ((take s p).setStepper t { s.stepper t with due := false }) t) t
        exec (.home p [byte t.val]) s = .next (okTo p 0x11#8 (settle h.1) [if h.2 = true then 0#8 else 1#8]))) ∧
    (∀ w v, (v.stepper t).cfg.home = some w →
      let x := v.stepper t
      beginHoming p v t =
        if drivingOrRecovering v x.cfg.up = false ∧ drivingOrRecovering v x.cfg.down = false ∧ (v.input w).closed = true then
          (setFlagPorts (v.setStepper t { x with
            position := some x.cfg.homePos, mismatch := 0, state := .idle, last := some ⟨0, .done⟩ })
            (PortSet.empty.add p) .trainDone (some t.val), true)
        else (stepTest (v.setStepper t { x with position := none, state := .homing (PortSet.empty.add p) 0 }) t, false)) ∧
    (∀ v, drivingOrRecovering v none = false) ∧
    (∀ v c, drivingOrRecovering v (some c) = true ↔
      (∃ kind w left, (v.chan c).state = .drive kind w left) ∨ ∃ left after, (v.chan c).state = .recover left after)

/-- CONFIGURE STEPPER and CONFIGURE BANK: the checks in their order, with the ranges of Table 7-1, the names of R124's checks 5 and 6 and the
reels of R126; the fresh stepper, and the carries that join a bank's reels. A step in DRIVE: log 18. That a stepper record names each of its
two channels by itself is the model's reading (log 17). -/
def Obligations.ConfigureStepperAndBank : Prop :=
  (∀ (body : List Byte) (r : StepperRecord), body.length = 10 → (stepperRecordOf body = some r ↔
    body.drop 1 = [byte r.kind.code, byte r.positions, indexByte r.up, indexByte r.down, indexByte r.home, byte r.homePos] ++
      be16 r.spacing ++ [indexByte r.carry] ∧
    2 ≤ r.positions ∧ r.positions ≤ 32 ∧ r.homePos < r.positions ∧ 20 ≤ r.spacing ∧ r.spacing ≤ 1000)) ∧
  (∀ (body : List Byte) (reels : List StepperId), body.length = 7 → (reelsOf body = some reels ↔
    reels.length ≤ 5 ∧ body.getD 1 0#8 = byte reels.length ∧
      (body.drop 2).take reels.length = reels.map fun t => byte t.val)) ∧
  (∀ (s : State) (t : StepperId) (r : StepperRecord),
    (stepperNamesFit s t r = true ↔
      (∀ c, r.up = some c ∨ r.down = some c → (s.chan c).coil.cls = .stepper ∧
        ∀ u, u ≠ t → (s.stepper u).cfg.up ≠ some c ∧ (s.stepper u).cfg.down ≠ some c) ∧
      (r.up ≠ none → r.up ≠ r.down) ∧
      (r.kind = .wrap → r.down = none ∧
        ∀ u, r.carry = some u → t < u ∧ (s.stepper u).cfg.up ≠ none ∧ (s.stepper u).cfg.kind = .wrap) ∧
      (r.kind = .stop → r.carry = none)) ∧
    (stepperRoleKept s t r = true ↔
      ((∃ n, t ∈ s.bank n) → r.up ≠ none ∧ r.kind = .wrap ∧ r.positions = 10) ∧
      ((∃ u, u ≠ t ∧ (s.stepper u).cfg.carry = some t) → r.up ≠ none ∧ r.kind = .wrap)) ∧
    (isBankReel s t = true ↔ ∃ n, t ∈ s.bank n)) ∧
  (∀ (s : State) (n : BankId) (t : StepperId), reelForBank s n t = true ↔
    ((s.stepper t).cfg.up ≠ none ∧ (s.stepper t).cfg.kind = .wrap ∧ (s.stepper t).cfg.positions = 10) ∧
      ∀ m, m ≠ n → t ∉ s.bank m) ∧
  (∀ reels : List StepperId, ascending reels = true ↔ reels.Pairwise (· < ·)) ∧
  (∀ (p : Port) (body : List Byte) (s : State), Ready p 0x14#8 body s → body.length = 10 →
    exec (.configureStepper p body) s = .next (match index 16 (u8 body 0), stepperRecordOf body with
      | some t, some r =>
        if s.store.save.isSome then refusedTo p 0x14#8 (take s p) .busy
        else if (s.stepper t).state.isRunning = true ∨ (s.stepper t).state.isHoming = true ∨ hasStepEntry s t = true ∨
          stepInDrive s t = true then refusedTo p 0x14#8 (take s p) .busy
        else if stepperNamesFit s t r = false ∨ stepperRoleKept s t r = false then refusedTo p 0x14#8 (take s p) .refused
        else okTo p 0x14#8 ((take s p).setStepper t
          ⟨if isBankReel s t = true then { r with carry := (s.stepper t).cfg.carry } else r, .idle, none, 0, 0, 0, none, false,
            none, none, false⟩) []
      | _, _ => refusedTo p 0x14#8 (take s p) .range)) ∧
  (∀ (p : Port) (body : List Byte) (s : State), Ready p 0x17#8 body s → body.length = 7 →
    exec (.configureBank p body) s = .next (match index 4 (u8 body 0), reelsOf body with
      | some n, some reels =>
        if s.store.save.isSome then refusedTo p 0x17#8 (take s p) .busy
        else if ascending reels = false ∨ (∃ t ∈ reels, reelForBank s n t = false) then refusedTo p 0x17#8 (take s p) .refused
        else if (∃ t ∈ s.bank n ++ reels, (s.stepper t).state.isRunning = true ∨ (s.stepper t).state.isHoming = true) then
          refusedTo p 0x17#8 (take s p) .busy
        else okTo p 0x17#8 ((joinReels reels ((s.bank n).foldl (fun u t => setCarry u t none) (take s p))).setBank n reels) []
      | _, _ => refusedTo p 0x17#8 (take s p) .range)) ∧
  (∀ (n : BankId) (reels : List StepperId) (s : State), ascending reels = true →
    let u := (joinReels reels ((s.bank n).foldl (fun u t => setCarry u t none) s)).setBank n reels
    u.bank n = reels ∧ (∀ m, m ≠ n → u.bank m = s.bank m) ∧
    ∀ t, u.stepper t = { s.stepper t with cfg := { (s.stepper t).cfg with
      carry :=
        if t ∈ reels then reels[reels.idxOf t + 1]?
        else if t ∈ s.bank n then none
        else (s.stepper t).cfg.carry } })

/-- ADD SCORE: its refusals; an accepted value gives each reel its digit as a train UP and answers what each reel took. That the attempt which
a reel's entry brings is made before the next reel is offered its digit is the model's choice (log 50). -/
def Obligations.AddScoreGivesEachReelItsDigit : Prop :=
  (∀ (p : Port) (x a b c : Byte) (s : State), Ready p 0x15#8 [x, a, b, c] s → 3 < x.toNat →
    exec (.addScore p [x, a, b, c]) s = .next (refusedTo p 0x15#8 (take s p) .range)) ∧
  ∀ (p : Port) (n : BankId) (a b c : Byte) (s : State), Ready p 0x15#8 [byte n.val, a, b, c] s →
    let v := (a.toNat * 256 + b.toNat) * 256 + c.toNat
    let reels := s.bank n
    exec (.addScore p [byte n.val, a, b, c]) s = .next (
      if reels = [] then refusedTo p 0x15#8 (take s p) .refused
      else if v = 0 ∨ 10 ^ reels.length ≤ v then refusedTo p 0x15#8 (take s p) .range
      else if (∃ t ∈ reels, (s.stepper t).state = .faulted) then refusedTo p 0x15#8 (take s p) .refused
      else if (∃ t ∈ reels, (s.stepper t).state.isHoming = true) then refusedTo p 0x15#8 (take s p) .busy
      else okTo p 0x15#8 (addDigits p reels v (take s p)).1
        ((addDigits p reels v (take s p)).2 ++ List.replicate (10 - (addDigits p reels v (take s p)).2.length) 0#8)) ∧
    (∀ t rest m u, addDigits p (t :: rest) m u =
      if m % 10 = 0 then ((addDigits p rest (m / 10) u).1, 0#8 :: 0#8 :: (addDigits p rest (m / 10) u).2)
      else
        let o := offerTrain u t .up (m % 10) ⟨PortSet.empty.add p, false⟩ false
        ((addDigits p rest (m / 10) (settle o.1)).1,
          byte o.2.steps :: byte (m % 10 - o.2.steps) :: (addDigits p rest (m / 10) (settle o.1)).2)) ∧
    (∀ m u, addDigits p [] m u = (u, []))

/-- SPACING_EXPIRY: the spacing timer stops and the stepper tests its next step by the conditions of R111 (a step in DRIVE: log 18), and
makes the entry, noting whether it is for a homing (R113), or owes it; at the end that its direction would pass, a STOP unit at a known position consumes the train without drive (R112)
and the train ends (R115), a pending one taking its place and testing again. That SPACING_EXPIRY does nothing before the spacing has run is
the model's choice (log 2). -/
def Obligations.SpacingExpiryTestsTheNextStep : Prop :=
  ∀ (t : StepperId) (s : State),
    let x := s.stepper t
    (x.spacing = some 0 →
      exec (.spacingExpiry t) s = .next (settle (stepTest (s.setStepper t { x with spacing := none }) t))) ∧
    (x.spacing ≠ some 0 → exec (.spacingExpiry t) s = .next s) ∧
    (stepReady s t = none → stepTest s t = s) ∧
    (∀ c, stepReady s t = some c → x.atEndStop = false → s.arb.waitList.length < 24 →
      stepTest s t = enter (s.setStepper t { x with homingEntry := x.state.isHoming })
        ⟨c, .step t, (s.chan c).coil.defWidth, s.sw.partTime, none, 0⟩) ∧
    (∀ c, stepReady s t = some c → x.atEndStop = false → 24 ≤ s.arb.waitList.length →
      stepTest s t = s.setStepper t { x with due := true }) ∧
    (∀ c, stepReady s t = some c ↔
      ((∃ train next, x.state = .running train next ∧ (if train.dir = .up then x.cfg.up else x.cfg.down) = some c) ∨
        ∃ origin steps, x.state = .homing origin steps ∧ steps < x.cfg.positions + 2 ∧
          (if x.cfg.kind = .wrap then x.cfg.up else x.cfg.down) = some c) ∧
      s.supply.state = .up ∧ (s.chan c).state = .idle ∧ (s.chan c).heat.thermal ≠ .cutoff ∧ x.inDrive = none ∧
      (∀ d, (x.cfg.up = some d ∨ x.cfg.down = some d) → ∀ kind w left, (s.chan d).state ≠ .drive kind w left) ∧
      x.spacing = none ∧ (∀ e ∈ s.arb.waitList, e.work ≠ .step t) ∧ entryOf s c = none ∧ x.due = false) ∧
    (x.atEndStop = true ↔ x.cfg.kind = .stop ∧ ∃ train next pos, x.state = .running train next ∧ x.position = some pos ∧
      (train.dir = .up ∧ pos + 1 = x.cfg.positions ∨ train.dir = .down ∧ pos = 0)) ∧
    (∀ c train, stepReady s t = some c → x.atEndStop = true → x.state = .running train none →
      stepTest s t = setFlagPorts (s.setStepper t { x with
        state := .idle
        clamped := min 65535 (x.clamped + train.remaining)
        last := some ⟨train.delivered, .done⟩ }) train.origin.ports .trainDone (some t.val)) ∧
    (∀ c train next, stepReady s t = some c → x.atEndStop = true → x.state = .running train (some next) →
      stepTest s t = stepTest (setFlagPorts (s.setStepper t { x with
        state := .running { next with delivered := 0 } none
        clamped := min 65535 (x.clamped + train.remaining)
        last := some ⟨train.delivered, .done⟩ }) train.origin.ports .trainReload (some t.val)) t)

/-- The drive end of a step at its stepper: the step moves the unit one position and counts in its train or homing (a STOP unit stays
within its positions, log 37); a train that is left with none is done, with TRAIN_DONE to its origin, or with TRAIN_RELOAD where a pending
train takes its place, which tests its first step at once unless the channel's return to IDLE follows in the same event (log 20); a step of
a cleared train, or a homing step beside a running train (log 45), counts nowhere; a wrap is carried, with origin LOCAL for a cleared step,
or, at the top reel of a bank, sets ROLLOVER. -/
def Obligations.StepDriveEndMovesAndCounts : Prop :=
  (∀ (t : StepperId) (c : ChannelId) (mark : StepMark) (straight : Bool) (s : State), (s.stepper t).inDrive = some ⟨c, mark⟩ →
    let x := s.stepper t
    let moved := x.position.map (x.cfg.advance (if x.cfg.up = some c then .up else .down))
    let ends : State → State := fun v => if (v.stepper t).trainDone = false then v else if straight = true then endTrain v t
      else stepTest (endTrain v t) t
    (∀ train next, x.wraps = false → x.state = .running train next → mark = .train → 1 < train.remaining →
      stepDriveEnd s t c straight = s.setStepper t { x with
        inDrive := none
        position := moved
        state := .running { train with remaining := train.remaining - 1, delivered := train.delivered + 1 } next }) ∧
    (∀ train next, x.wraps = true → x.state = .running train next → mark = .train →
      stepDriveEnd s t c straight = ends (carry (s.setStepper t { x with
        inDrive := none
        position := moved
        state := .running { train with remaining := train.remaining - 1, delivered := train.delivered + 1 } next }) t
          train.origin)) ∧
    (∀ train, x.wraps = false → x.state = .running train none → mark = .train → train.remaining = 1 →
      stepDriveEnd s t c straight = setFlagPorts (s.setStepper t { x with
        inDrive := none
        position := moved
        state := .idle
        last := some ⟨train.delivered + 1, .done⟩ }) train.origin.ports .trainDone (some t.val)) ∧
    (∀ train next, x.wraps = false → x.state = .running train (some next) → mark = .train → train.remaining = 1 →
      let v := setFlagPorts (s.setStepper t { x with
        inDrive := none
        position := moved
        state := .running { next with delivered := 0 } none
        last := some ⟨train.delivered + 1, .done⟩ }) train.origin.ports .trainReload (some t.val)
      stepDriveEnd s t c straight = if straight = true then v else stepTest v t) ∧
    (∀ origin steps, x.wraps = false → x.state = .homing origin steps → mark = .homing →
      stepDriveEnd s t c straight = s.setStepper t { x with
        inDrive := none, position := moved, state := .homing origin (steps + 1) }) ∧
    (x.wraps = false → (x.state = .idle ∨ x.state = .faulted ∨ mark = .cleared ∧ x.state.isHoming = true) →
      stepDriveEnd s t c straight = s.setStepper t { x with inDrive := none, position := moved }) ∧
    (∀ train next, x.wraps = false → (mark = .cleared ∨ mark = .homing) → x.state = .running train next → 1 ≤ train.remaining →
      stepDriveEnd s t c straight = s.setStepper t { x with inDrive := none, position := moved }) ∧
    (x.wraps = true → mark = .cleared →
      stepDriveEnd s t c straight = ends (carry (s.setStepper t { x with inDrive := none, position := moved }) t ⟨.empty, true⟩)) ∧
    (∀ origin, carry s t origin = match topReelOf s t with
      | some n => setFlagBoth s .rollover (some n.val)
      | none => match x.cfg.carry with
        | none => s
        | some target => (offerTrain s target .up 1 origin true).1)) ∧
  (∀ (t : StepperId) (s : State),
    let x := s.stepper t
    (∀ train, x.state = .running train none → endTrain s t = setFlagPorts (s.setStepper t { x with
      last := some ⟨train.delivered, .done⟩, state := .idle }) train.origin.ports .trainDone (some t.val)) ∧
    (∀ train next, x.state = .running train (some next) → endTrain s t = setFlagPorts (s.setStepper t { x with
      last := some ⟨train.delivered, .done⟩
      state := .running { next with delivered := 0 } none }) train.origin.ports .trainReload (some t.val)) ∧
    (x.trainDone = true ↔ ∃ train next, x.state = .running train next ∧ train.remaining = 0) ∧
    (x.wraps = true ↔ x.cfg.kind = .wrap ∧ x.position = some (x.cfg.positions - 1)) ∧
    (∀ d pos, x.cfg.advance d pos = if x.cfg.kind = .wrap then (if pos + 1 = x.cfg.positions then 0 else pos + 1)
      else if d = .up then min (pos + 1) (x.cfg.positions - 1) else pos - 1) ∧
    (∀ n, topReelOf s t = some n → (s.bank n).getLast? = some t) ∧
    (topReelOf s t = none → ∀ n, (s.bank n).getLast? ≠ some t))

/-! ### Switches and SYNC (chapter 8) -/

/-- CONFIGURE SWITCH stores its clamped debounces and acts on the inversion; READ EVENTS returns and removes up to 12 entries, clears the
lost count and keeps the gap mark. An entry is laid out by Table 10-5: switch, state in bit 0 and gap flag in bit 1, time high byte first; that
a closed switch is numbered 0 and an open one 1 is the model's reading (log 10). -/
def Obligations.SwitchRequestsConfigureAndDrain : Prop :=
  (∀ (p : Port) (w : SwitchId) (b d i r : Byte) (s : State), Ready p 0x18#8 [byte w.val, b, d, i, r] s →
    let c := Instr.configureSwitch p [byte w.val, b, d, i, r]
    let record : SwitchRecord := ⟨max 1 (min b.toNat 31), max 1 (min d.toNat 31), i = 1#8, ⟨r.toNat % 2 = 1, r.toNat / 2 = 1⟩⟩
    let x := { s.input w with cfg := record, timer := none }
    (1 < i.toNat ∨ 3 < r.toNat → exec c s = .next (refusedTo p 0x18#8 (take s p) .range)) ∧
    (i.toNat ≤ 1 → r.toNat ≤ 3 → exec c s = .next (
      if s.store.save.isSome then refusedTo p 0x18#8 (take s p) .busy
      else okTo p 0x18#8 (
        if record.invert = (s.input w).cfg.invert then (take s p).setInput w { x with timer := x.freshTimer }
        else if x.logical = x.closed then (take s p).setInput w x
        else deliver w x.logical ((take s p).setInput w { x with closed := x.logical })) []))) ∧
  (∀ (p : Port) (x b d i r : Byte) (s : State), Ready p 0x18#8 [x, b, d, i, r] s → 31 < x.toNat →
    exec (.configureSwitch p [x, b, d, i, r]) s = .next (refusedTo p 0x18#8 (take s p) .range)) ∧
  (∀ (p : Port) (s : State), Ready p 0x1A#8 [] s →
    let q := s.sw.queues.get p
    exec (.readEvents p []) s = .next (okTo p 0x1A#8
      (setQueue (take s p) p { q with entries := q.entries.drop 12, lost := 0 })
      (byte (q.entries.length - 12) :: byte q.lost :: (q.entries.take 12).flatMap QueueEntry.bytes))) ∧
  (∀ e : QueueEntry, e.bytes =
    [byte e.switch.val, byte ((if e.closed = true then 0 else 1) + (if e.gap = true then 2 else 0)),
      byte (e.time.toNat / 256), byte e.time.toNat])

/-- A switch's raw change and its debounce, and the delivery that follows: flippers in some order, links in ascending index, then the
queue of each LIVE port that the switch reports to, which appends the change or, full, drops it. The model's choices: all flippers are taken
before all links (log 47), the flippers in a free order (log 4), and SWITCH_DEBOUNCE_EXPIRY does nothing before the debounce has run
(log 2). -/
def Obligations.SwitchDebounceDeliversTheChange : Prop :=
  ∀ (w : SwitchId) (low : Bool) (s : State),
    (exec (.switchRawChange w low) s = .next (if (s.input w).low = low then s else
      let x := { s.input w with low := low }
      s.setInput w { x with timer :=
        if s.part.state = .run ∧ x.logical ≠ x.closed then some (if x.logical = true then x.cfg.closeMs else x.cfg.openMs)
        else none })) ∧
    ((s.input w).timer ≠ some 0 → exec (.switchDebounceExpiry w) s = .next s) ∧
    ((s.input w).timer = some 0 → ∃ order : List FlipperId, order.Perm (List.finRange 6) ∧
      exec (.switchDebounceExpiry w) s = .next (
        let closed := (s.input w).logical
        let v := { s.setInput w { s.input w with closed := closed, timer := none } with orders := s.orders + 1 }
        let v := order.foldl (flipperSwitch w closed) v
        let v := (List.finRange 16).foldl (linkSwitch w closed) v
        [Port.a, Port.b].foldl (reportEvent w closed) v)) ∧
    (∀ (closed : Bool) (p : Port), ((s.input w).cfg.reportTo.has p = false ∨ (s.port p).live = false) →
      reportEvent w closed s p = s) ∧
    (∀ (closed : Bool) (p : Port), (s.input w).cfg.reportTo.has p = true → (s.port p).live = true →
      let q := s.sw.queues.get p
      let t := reportEvent w closed s p
      (q.entries.length < 32 → t.sw.queues.get p = ⟨q.entries ++ [⟨w, closed, s.sw.partTime, q.gapMark⟩], q.lost, false⟩ ∧
        (t.latch p).get FlagName.switch.bit = (if q.entries = [] then
          raiseFlag ((s.latch p).get FlagName.switch.bit) (some w.val) none else (s.latch p).get FlagName.switch.bit)) ∧
      (32 ≤ q.entries.length → t.sw.queues.get p = ⟨q.entries, min 255 (q.lost + 1), true⟩ ∧
        (t.latch p).get FlagName.eventLost.bit = raiseFlag ((s.latch p).get FlagName.eventLost.bit) (some w.val) none) ∧
      t.sw.queues.get (otherPort p) = s.sw.queues.get (otherPort p) ∧ t.latch (otherPort p) = s.latch (otherPort p))

/-- SYNC: raw changes, the rising edge that commits the layers armed for it, and the fall that is delivered to no one. That either edge
does nothing before its debounce has run, or at the level that it leads to, is the model's choice (log 2). -/
def Obligations.SyncDebounceCommitsArmedLayers : Prop :=
  ∀ (high : Bool) (s : State),
    exec (.syncRawChange high) s = .next (if s.sw.syncRaw = high then s else s.setSw { s.sw with
      syncRaw := high
      syncTimer := if s.part.state = .run ∧ high ≠ s.sw.syncHigh then some 1 else none }) ∧
    (s.sw.syncTimer = some 0 → s.sw.syncHigh = false → ∃ t, exec .syncRisingEdge s = .next t ∧ t.sw.syncHigh = true ∧
      t.sw.syncTimer = none ∧ ∀ p, t.lamp.layers.get p =
        if (s.lamp.layers.get p).commit = .armedSync then (s.lamp.layers.get p).commitNow else s.lamp.layers.get p) ∧
    (s.sw.syncTimer = some 0 → s.sw.syncHigh = true →
      exec .syncDebouncedFall s = .next (s.setSw { s.sw with syncHigh := false, syncTimer := none })) ∧
    ((s.sw.syncTimer ≠ some 0 ∨ s.sw.syncHigh = true) → exec .syncRisingEdge s = .next s) ∧
    ((s.sw.syncTimer ≠ some 0 ∨ s.sw.syncHigh = false) → exec .syncDebouncedFall s = .next s)

/-- PART_TIME_TICK: part time rises by 1 and wraps, and every running timer loses a millisecond (log 2). -/
def Obligations.TickAdvancesPartTimeAndTimers : Prop :=
  ∀ s : State, ∃ t, exec .partTimeTick s = .next t ∧ t.sw.partTime.toNat = (s.sw.partTime.toNat + 1) % 65536 ∧
    (∀ c kind w left, (s.chan c).state = .drive kind w left → (t.chan c).state = .drive kind w (left - 1)) ∧
    (∀ c left after, (s.chan c).state = .recover left after → (t.chan c).state = .recover (left - 1) after) ∧
    (∀ c, (s.chan c).load = (t.chan c).load) ∧
    t.coolTimer = s.coolTimer.map (· - 1) ∧ t.supply.countdown = s.supply.countdown.map (· - 1) ∧
    t.supply.ilkTimer = s.supply.ilkTimer.map (· - 1) ∧ t.lamp.frame = s.lamp.frame.map (· - 1) ∧
    t.sw.syncTimer = s.sw.syncTimer.map (· - 1) ∧ t.part.load = s.part.load.map (· - 1) ∧
    (∀ w, (t.input w).timer = (s.input w).timer.map (· - 1)) ∧ (∀ k, (t.link k).lockout = (s.link k).lockout.map (· - 1)) ∧
    (∀ u, (t.stepper u).spacing = (s.stepper u).spacing.map (· - 1)) ∧
    (∀ p, (t.port p).gap = (s.port p).gap.map (· - 1) ∧ (t.port p).liveness = (s.port p).liveness.map (· - 1)) ∧
    (∀ f phase, (s.flip f).state = .power phase →
      (t.flip f).state = .power { phase with elapsed := min phase.width (phase.elapsed + 1) }) ∧
    t.arb.waitList = s.arb.waitList.map (fun e => { e with deadline := e.deadline.map fun d => { d with left := d.left - 1 } }) ∧
    t.store.save = s.store.save.map (fun x => { x with left := x.left - 1 }) ∧
    t.arb.general = s.arb.general ∧ t.arb.flipper = s.arb.flipper ∧ t.supply.state = s.supply.state ∧
    t.sw.queues = s.sw.queues ∧ t.lamp.layers = s.lamp.layers ∧ t.lamp.lamps = s.lamp.lamps ∧
    t.latches = s.latches ∧ t.banks = s.banks ∧ workingProfile t = workingProfile s

/-! ### Lamps (chapter 9) -/

/-- LAMPS and LAMP COMMIT by their tables. -/
def Obligations.LampsWriteTheOpenBuffer : Prop :=
  (∀ (p : Port) (start count flag : Byte) (values : List Byte) (s : State),
    Ready p 0x1B#8 (start :: count :: flag :: values) s → values.length = count.toNat →
    let c := Instr.lamps p (start :: count :: flag :: values)
    let x := s.lamp.layers.get p
    let openName := x.shown.other
    ((31 < start.toNat ∨ 32 < start.toNat + count.toNat ∨ 1 < flag.toNat) →
      exec c s = .next (refusedTo p 0x1B#8 (take s p) .range)) ∧
    (start.toNat ≤ 31 → start.toNat + count.toNat ≤ 32 → flag.toNat ≤ 1 → x.commit ≠ .idle →
      exec c s = .next (refusedTo p 0x1B#8 (take s p) .busy)) ∧
    (start.toNat ≤ 31 → start.toNat + count.toNat ≤ 32 → flag.toNat ≤ 1 → x.commit = .idle →
      ∃ y : Layer, exec c s = .next (okTo p 0x1B#8 (setLayer (take s p) p (if flag = 1#8 then y.commitNow else y))
          [count, byte (values.countP fun v => 16 ≤ v.toNat && v.toNat ≤ 254), flag]) ∧
        y.shown = x.shown ∧ y.commit = .idle ∧ y.buffer x.shown = x.buffer x.shown ∧
        (∀ l : LampId, l.val < start.toNat ∨ start.toNat + count.toNat ≤ l.val →
          (y.buffer openName).get l = (x.buffer openName).get l) ∧
        (∀ (l : LampId) (i : Nat) (v : Byte), l.val = start.toNat + i → values[i]? = some v →
          (y.buffer openName).get l = if v = 255#8 then none else some (min v.toNat 15)))) ∧
  (∀ (p : Port) (m : Byte) (s : State), Ready p 0x1C#8 [m] s →
    let x := s.lamp.layers.get p
    exec (.lampCommit p [m]) s = .next (
      if 1 < m.toNat then refusedTo p 0x1C#8 (take s p) .range
      else if x.commit ≠ .idle then refusedTo p 0x1C#8 (take s p) .busy
      else okTo p 0x1C#8 (setLayer (take s p) p { x with commit := if m = 0#8 then .armedSync else .armedFrame }) [m]))

/-- R146, whole, of the layer that a commit of any mode leaves; that a commit sets no flag is in the frames of its commands. -/
def Obligations.CommitSwapsAndCopiesTheBuffers : Prop :=
  (∀ x : Layer, x.commitNow.shown = x.shown.other ∧ x.commitNow.commit = .idle ∧
    (∀ n, x.commitNow.buffer n = x.buffer x.shown.other)) ∧
  (∀ (p : Port) (s t : State), exec (.lamps p [0#8, 0#8, 1#8]) s = .next t → t.latches = s.latches) ∧
  (∀ s t : State, exec .syncRisingEdge s = .next t ∨ exec .lampFrame s = .next t → t.latches = s.latches) ∧
  (∀ (p : Port) (s : State), Ready p 0x1B#8 [0#8, 0#8, 1#8] s → (s.lamp.layers.get p).commit = .idle →
    ∃ t, exec (.lamps p [0#8, 0#8, 1#8]) s = .next t ∧ t.lamp.layers.get p = (s.lamp.layers.get p).commitNow ∧
      t.lamp.lamps = s.lamp.lamps)

/-- CONFIGURE LAMP: selector, ranges and save checked in that order; the records named replaced whole, levels untouched. -/
def Obligations.ConfigureLampReplacesRecords : Prop :=
  ∀ (p : Port) (sel pr step hi lo : Byte) (s : State), Ready p 0x1D#8 [sel, pr, step, hi, lo] s →
    let c := Instr.configureLamp p [sel, pr, step, hi, lo]
    let lb := hi.toNat * 256 + lo.toNat
    let record : LampRecord := ⟨if pr = 0#8 then .aOverB else .bOverA, step.toNat⟩
    (33 < sel.toNat → exec c s = .next (refusedTo p 0x1D#8 (take s p) .range)) ∧
    (sel.toNat ≤ 32 → (1 < pr.toNat ∨ step.toNat = 0 ∨ 15 < step.toNat) →
      exec c s = .next (refusedTo p 0x1D#8 (take s p) .range)) ∧
    (sel.toNat = 33 → (lb < 16 ∨ 480 < lb) → exec c s = .next (refusedTo p 0x1D#8 (take s p) .range)) ∧
    (sel.toNat ≤ 32 → pr.toNat ≤ 1 → 1 ≤ step.toNat → step.toNat ≤ 15 → s.store.save.isSome = true →
      exec c s = .next (refusedTo p 0x1D#8 (take s p) .busy)) ∧
    (sel.toNat ≤ 32 → pr.toNat ≤ 1 → 1 ≤ step.toNat → step.toNat ≤ 15 → s.store.save = none →
      ∃ t, exec c s = .next t ∧ (t.port p).sending = some ⟨replyFrame 0x1D#8 .ok [], false⟩ ∧ t.lamp.budget = s.lamp.budget ∧
        ∀ l, t.lamp.lamps.get l = if sel.toNat = 32 ∨ sel.toNat = l.val then { s.lamp.lamps.get l with cfg := record }
          else s.lamp.lamps.get l) ∧
    (sel.toNat = 33 → 16 ≤ lb → lb ≤ 480 → exec c s = .next (
      if s.store.save.isSome then refusedTo p 0x1D#8 (take s p) .busy
      else okTo p 0x1D#8 ((take s p).setLamp { s.lamp with budget := lb }) []))

/-- LAMP_FRAME: the interval starts again for 20 ms and the layers armed for a frame are committed (R148), then targets by priority, ramps
limited by the ramp step (R149), and the sum of applied levels within the budget, which is the Lb in use from this frame on (R150, R152). That
LAMP_FRAME does nothing before the interval has run is the model's choice (log 2). -/
def Obligations.LampFrameStaysWithinTheBudget : Prop :=
  (∀ s : State, s.lamp.frame ≠ some 0 → exec .lampFrame s = .next s) ∧
  (∀ s : State, s.lamp.frame = some 0 → ∃ t, exec .lampFrame s = .next t ∧ t.lamp.frame = some 20 ∧
    (∀ p, t.lamp.layers.get p =
      if (s.lamp.layers.get p).commit = .armedFrame then (s.lamp.layers.get p).commitNow else s.lamp.layers.get p) ∧
    (∀ l, let old := s.lamp.lamps.get l
      let new := t.lamp.lamps.get l
      new.cfg = old.cfg ∧
      new.target = (match old.cfg.priority with
        | .aOverB => (((t.lamp.layers.get .a).entry l).or ((t.lamp.layers.get .b).entry l)).getD 0
        | .bOverA => (((t.lamp.layers.get .b).entry l).or ((t.lamp.layers.get .a).entry l)).getD 0) ∧
      new.ramp = (if old.ramp < new.target then min new.target (old.ramp + old.cfg.rampStep) else new.target) ∧
      new.applied = (if t.lamp.sum ≤ s.lamp.budget then new.ramp else new.ramp * s.lamp.budget / t.lamp.sum) ∧
      new.applied ≤ new.target) ∧
    t.lamp.budget = s.lamp.budget ∧ t.lamp.inUse = s.lamp.budget ∧
    t.lamp.sum = ((List.finRange 32).map fun l => (t.lamp.lamps.get l).ramp).sum ∧
    ((List.finRange 32).map fun l => (t.lamp.lamps.get l).applied).sum ≤ s.lamp.budget)

/-- A return to IDLE after a drive of the stepper (R117, R121). With a home switch, an IDLE or RUNNING stepper verifies its position: the
six rows of R117's table, a third mismatch in a row faulting it (a count that already stands at 3 faults it again: the model's choice, log 42).
A HOMING one finds home at a closed switch, goes on at an open one, or is faulted once positions + 2 steps are made. That a found home leaves
a waiting STEP entry, the step in DRIVE and the step due mark as they stand is the model's choice (log 45). A fault (R118)
clears trains and marks, removes the STEP entry, records FAULT (a stepper without train or homing keeps its last-completed record: log 36)
and sets STEPPER_FAULT. DISABLE CHANNEL faults the stepper of its channel at an UNKNOWN position, with the attempts that this brings, between
taking the channel out with its entry and testing its flipper (R17). Taking it out cuts a drive or a hold, with the attempt of R55; its entry
then leaves by the removal of R59 (GrantsNeedTheSupplyAndStartTheDrive says what that does), with the attempts that this brings and without
PULSE_DROPPED, a FIRE counted lost by its link. -/
def Obligations.HomeVerificationHomingAndFaults : Prop :=
  (∀ (t : StepperId) (s : State),
    let x := s.stepper t
    let home := x.cfg.homePos
    (x.cfg.home = none ∨ x.state = .faulted → lookHome s t = s) ∧
    ∀ w, x.cfg.home = some w →
      ((x.state = .idle ∨ ∃ train next, x.state = .running train next) →
        ((s.input w).closed = true → x.position = none →
          lookHome s t = s.setStepper t { x with position := some home }) ∧
        ((s.input w).closed = true → x.position = some home → lookHome s t = s.setStepper t { x with mismatch := 0 }) ∧
        ((s.input w).closed = false → x.position = none → lookHome s t = s) ∧
        (∀ pos, (s.input w).closed = false → x.position = some pos → pos ≠ home →
          lookHome s t = s.setStepper t { x with mismatch := 0 }) ∧
        (∀ pos, x.position = some pos → ((s.input w).closed = true ↔ pos ≠ home) →
          (x.mismatch < 2 → lookHome s t = s.setStepper t { x with position := some home, mismatch := x.mismatch + 1 }) ∧
          (2 ≤ x.mismatch →
            lookHome s t = faultStepper (s.setStepper t { x with position := some home, mismatch := 3 }) t false))) ∧
      (∀ origin steps, x.state = .homing origin steps →
        ((s.input w).closed = true → lookHome s t = setFlagPorts (s.setStepper t { x with
          position := some home
          mismatch := 0
          state := .idle
          last := some ⟨steps, .done⟩ }) origin .trainDone (some t.val)) ∧
        ((s.input w).closed = false → steps < x.cfg.positions + 2 → lookHome s t = s) ∧
        ((s.input w).closed = false → x.cfg.positions + 2 ≤ steps → lookHome s t = faultStepper s t true))) ∧
  (∀ (t : StepperId) (unknown : Bool) (s : State),
    let x := s.stepper t
    let y := { x with
      state := StepState.faulted
      position := if unknown = true then none else x.position
      last := match x.state with
        | .running train _ => some ⟨train.delivered, .fault⟩
        | .homing _ steps => some ⟨steps, .fault⟩
        | _ => x.last
      due := false
      inDrive := none }
    faultStepper s t unknown = setFlagBoth (removeStepEntry (s.setStepper t y) t) .stepperFault (some t.val) ∧
    (faultStepper s t unknown).stepper t = y ∧
    ((∀ e ∈ s.arb.waitList, e.work ≠ .step t) → removeStepEntry s t = s) ∧
    (∀ e ∈ s.arb.waitList, e.work = .step t → (∀ o ∈ s.arb.waitList, o.work = .step t → o = e) →
      removeStepEntry s t = removeEntry s e)) ∧
  (∀ (p : Port) (c : ChannelId) (s : State), Ready p 0x04#8 [byte c.val] s → (s.chan c).state ≠ .disabled →
    let out := removeQuietly (takeOut (take s p) c) c
    (stepperOf s c = none → exec (.disableChannel p [byte c.val]) s = .next (okTo p 0x04#8 (testFlipperOf out c) [])) ∧
    ∀ t, stepperOf s c = some t →
      exec (.disableChannel p [byte c.val]) s = .next (okTo p 0x04#8 (testFlipperOf (settle (faultStepper out t true)) c) [])) ∧
  (∀ (c : ChannelId) (s : State),
    let on := (s.chan c).state = .hold ∨ ∃ kind w left, (s.chan c).state = .drive kind w left
    let off := s.setChan c { s.chan c with
      state := .disabled
      stepBefore := match (s.chan c).state with
        | .drive kind _ _ => if kind = .step then stepperOf s c else none
        | .recover _ after => after
        | _ => none
      claims := .empty
      owed := false }
    (on → takeOut s c = attemptNow off) ∧
    (¬on → takeOut s c = off) ∧
    (entryOf s c = none → removeQuietly s c = s) ∧
    (∀ e, entryOf s c = some e →
      (∀ k notified, e.work = .fire k notified → removeQuietly s c = settle (removeEntry (s.setLink k { s.link k with
        entry := false, lost := min 65535 ((s.link k).lost + 1) }) e)) ∧
      ((∀ k notified, e.work ≠ .fire k notified) → removeQuietly s c = settle (removeEntry s e)))) ∧
  (∀ (e : Entry) (s : State),
    ((s.chan e.channel).state = .disabled → entryOf (removeEntry s e) e.channel = none) ∧
    (∀ q, ((removeEntry s e).latch q).get FlagName.pulseDropped.bit = (s.latch q).get FlagName.pulseDropped.bit) ∧
    (∀ d, d ≠ e.channel → ∀ x, entryOf s d = some x → entryOf (removeEntry s e) d = some x))
end

