-- ==== Sys2Proof/Laws/Base.lean ====
section
/-! SUPPORT. Lemmas about the tables of records, the pairs of ports, sums over a table, and free orders. -/

namespace Sys2Proof

namespace Table

variable {α β : Type} {n : Nat}

@[simp] theorem get_set_self (t : Table α n) (i : Fin n) (x : α) : (t.set i x).get i = x := by
  simp [get, set]

theorem get_set_ne (t : Table α n) (i j : Fin n) (x : α) (h : j ≠ i) : (t.set i x).get j = t.get j := by
  have : i.val ≠ j.val := fun e => h (Fin.ext e.symm)
  simp [get, set, this]

theorem get_set (t : Table α n) (i j : Fin n) (x : α) : (t.set i x).get j = if j = i then x else t.get j := by
  split
  · next h => subst h; exact get_set_self _ _ _
  · next h => exact get_set_ne _ _ _ _ h

@[simp] theorem get_replicate (x : α) (i : Fin n) : (replicate n x).get i = x := by
  simp [get, replicate]

@[simp] theorem get_map (f : α → β) (t : Table α n) (i : Fin n) : (t.map f).get i = f (t.get i) := by
  simp [get, map]

@[simp] theorem get_ofFn (f : Fin n → α) (i : Fin n) : (ofFn f).get i = f i := by
  simp [get, ofFn]

theorem get_modify (t : Table α n) (i j : Fin n) (f : α → α) :
    (t.modify i f).get j = if j = i then f (t.get i) else t.get j := get_set _ _ _ _

/-- Two tables with the same records are equal. -/
theorem ext_get {t u : Table α n} (h : ∀ i, t.get i = u.get i) : t = u := by
  cases t with
  | mk l hl =>
    cases u with
    | mk m hm =>
      have : l = m := by
        apply List.ext_getElem (hl.trans hm.symm)
        intro i h1 h2
        exact h ⟨i, hl ▸ h1⟩
      subst this
      rfl

@[simp] theorem set_get_self (t : Table α n) (i : Fin n) : t.set i (t.get i) = t := by
  apply ext_get
  intro j
  rw [get_set]
  split
  · next h => rw [h]
  · rfl

end Table

namespace Machine

namespace PerPort

variable {α β : Type}

@[simp] theorem get_set_self (t : PerPort α) (p : Port) (x : α) : (t.set p x).get p = x := by cases p <;> rfl

theorem get_set_ne (t : PerPort α) (p q : Port) (x : α) (h : q ≠ p) : (t.set p x).get q = t.get q := by
  cases p <;> cases q <;> first | rfl | exact absurd rfl h

@[simp] theorem get_map (f : α → β) (t : PerPort α) (p : Port) : (t.map f).get p = f (t.get p) := by cases p <;> rfl

end PerPort

namespace PortSet

@[simp] theorem has_add_self (x : PortSet) (p : Port) : (x.add p).has p = true := by cases p <;> rfl

@[simp] theorem has_remove_self (x : PortSet) (p : Port) : (x.remove p).has p = false := by cases p <;> rfl

end PortSet

/-- Two functions on the records that differ at one record only have sums that differ by it. -/
theorem sum_finRange_update {n : Nat} (f g : Fin n → Nat) (c : Fin n) (h : ∀ d, d ≠ c → g d = f d) :
    ((List.finRange n).map g).sum + f c = ((List.finRange n).map f).sum + g c := by
  simp only [← List.ofFn_eq_map, List.sum_ofFn]
  rw [← Finset.add_sum_erase _ f (Finset.mem_univ c), ← Finset.add_sum_erase _ g (Finset.mem_univ c)]
  have : ∑ d ∈ Finset.univ.erase c, g d = ∑ d ∈ Finset.univ.erase c, f d :=
    Finset.sum_congr rfl fun d hd => h d (Finset.ne_of_mem_erase hd)
  omega

/-- A record's share of a sum is at most the sum. -/
theorem le_sum_finRange {n : Nat} (f : Fin n → Nat) (c : Fin n) : f c ≤ ((List.finRange n).map f).sum :=
  List.le_sum_of_mem (List.mem_map_of_mem (List.mem_finRange c))

/-- A free order takes each record once (log 4). -/
theorem arrange_perm {α : Type} (pick : Nat → Nat) (fuel k : Nat) (xs : List α) : (arrange pick fuel k xs).Perm xs := by
  induction fuel generalizing k xs with
  | zero => exact .refl _
  | succ fuel ih =>
    cases xs with
    | nil => exact .refl _
    | cons x xs =>
      have hi : pick k % (xs.length + 1) < (x :: xs).length := Nat.mod_lt _ (Nat.succ_pos _)
      simp only [arrange, List.getElem?_eq_getElem hi, Option.getD_some]
      exact ((ih _ _).cons _).trans (List.getElem_cons_eraseIdx_perm hi)

/-- A free order takes each record once (log 4). -/
theorem freely_perm {α : Type} (n : Nat) (xs : List α) : (freely n xs).Perm xs := arrange_perm _ _ _ _

end Machine

end Sys2Proof
end

