-- ==== Sys2Proof/Laws/State.lean ====
section
/-! SUPPORT. One lemma for each field of State under each update, so that no proof unfolds a record update. -/

namespace Sys2Proof.Machine.State

variable (s : State)

/-! ### setChan -/

@[simp] theorem setChan_pending (c : ChannelId) (x : Channel) : (s.setChan c x).pending = s.pending := rfl
@[simp] theorem setChan_coolTimer (c : ChannelId) (x : Channel) : (s.setChan c x).coolTimer = s.coolTimer := rfl
@[simp] theorem setChan_supply (c : ChannelId) (x : Channel) : (s.setChan c x).supply = s.supply := rfl
@[simp] theorem setChan_flippers (c : ChannelId) (x : Channel) : (s.setChan c x).flippers = s.flippers := rfl
@[simp] theorem setChan_links (c : ChannelId) (x : Channel) : (s.setChan c x).links = s.links := rfl
@[simp] theorem setChan_steppers (c : ChannelId) (x : Channel) : (s.setChan c x).steppers = s.steppers := rfl
@[simp] theorem setChan_banks (c : ChannelId) (x : Channel) : (s.setChan c x).banks = s.banks := rfl
@[simp] theorem setChan_sw (c : ChannelId) (x : Channel) : (s.setChan c x).sw = s.sw := rfl
@[simp] theorem setChan_lamp (c : ChannelId) (x : Channel) : (s.setChan c x).lamp = s.lamp := rfl
@[simp] theorem setChan_ports (c : ChannelId) (x : Channel) : (s.setChan c x).ports = s.ports := rfl
@[simp] theorem setChan_latches (c : ChannelId) (x : Channel) : (s.setChan c x).latches = s.latches := rfl
@[simp] theorem setChan_lastServed (c : ChannelId) (x : Channel) : (s.setChan c x).lastServed = s.lastServed := rfl
@[simp] theorem setChan_part (c : ChannelId) (x : Channel) : (s.setChan c x).part = s.part := rfl
@[simp] theorem setChan_store (c : ChannelId) (x : Channel) : (s.setChan c x).store = s.store := rfl
@[simp] theorem setChan_orders (c : ChannelId) (x : Channel) : (s.setChan c x).orders = s.orders := rfl
@[simp] theorem setChan_channels (c : ChannelId) (x : Channel) : (s.setChan c x).channels = s.channels.set c x := rfl
@[simp] theorem setChan_arb (c : ChannelId) (x : Channel) : (s.setChan c x).arb = s.arb.report (s.chan c) x := rfl
@[simp] theorem chan_setChan_self (c : ChannelId) (x : Channel) : (s.setChan c x).chan c = x := Table.get_set_self _ _ _
theorem chan_setChan_ne (c d : ChannelId) (x : Channel) (h : d ≠ c) : (s.setChan c x).chan d = s.chan d :=
  Table.get_set_ne _ _ _ _ h

/-! ### setHeat -/

@[simp] theorem setHeat_pending (c : ChannelId) (x : Heat) : (s.setHeat c x).pending = s.pending := rfl
@[simp] theorem setHeat_coolTimer (c : ChannelId) (x : Heat) : (s.setHeat c x).coolTimer = s.coolTimer := rfl
@[simp] theorem setHeat_supply (c : ChannelId) (x : Heat) : (s.setHeat c x).supply = s.supply := rfl
@[simp] theorem setHeat_flippers (c : ChannelId) (x : Heat) : (s.setHeat c x).flippers = s.flippers := rfl
@[simp] theorem setHeat_links (c : ChannelId) (x : Heat) : (s.setHeat c x).links = s.links := rfl
@[simp] theorem setHeat_steppers (c : ChannelId) (x : Heat) : (s.setHeat c x).steppers = s.steppers := rfl
@[simp] theorem setHeat_banks (c : ChannelId) (x : Heat) : (s.setHeat c x).banks = s.banks := rfl
@[simp] theorem setHeat_sw (c : ChannelId) (x : Heat) : (s.setHeat c x).sw = s.sw := rfl
@[simp] theorem setHeat_lamp (c : ChannelId) (x : Heat) : (s.setHeat c x).lamp = s.lamp := rfl
@[simp] theorem setHeat_ports (c : ChannelId) (x : Heat) : (s.setHeat c x).ports = s.ports := rfl
@[simp] theorem setHeat_latches (c : ChannelId) (x : Heat) : (s.setHeat c x).latches = s.latches := rfl
@[simp] theorem setHeat_lastServed (c : ChannelId) (x : Heat) : (s.setHeat c x).lastServed = s.lastServed := rfl
@[simp] theorem setHeat_part (c : ChannelId) (x : Heat) : (s.setHeat c x).part = s.part := rfl
@[simp] theorem setHeat_store (c : ChannelId) (x : Heat) : (s.setHeat c x).store = s.store := rfl
@[simp] theorem setHeat_orders (c : ChannelId) (x : Heat) : (s.setHeat c x).orders = s.orders := rfl
theorem setHeat_eq (c : ChannelId) (x : Heat) : s.setHeat c x = s.setChan c { s.chan c with heat := x } := rfl

/-! ### setArb -/

@[simp] theorem setArb_pending (x : Arbiter) : (s.setArb x).pending = s.pending := rfl
@[simp] theorem setArb_channels (x : Arbiter) : (s.setArb x).channels = s.channels := rfl
@[simp] theorem setArb_coolTimer (x : Arbiter) : (s.setArb x).coolTimer = s.coolTimer := rfl
@[simp] theorem setArb_supply (x : Arbiter) : (s.setArb x).supply = s.supply := rfl
@[simp] theorem setArb_flippers (x : Arbiter) : (s.setArb x).flippers = s.flippers := rfl
@[simp] theorem setArb_links (x : Arbiter) : (s.setArb x).links = s.links := rfl
@[simp] theorem setArb_steppers (x : Arbiter) : (s.setArb x).steppers = s.steppers := rfl
@[simp] theorem setArb_banks (x : Arbiter) : (s.setArb x).banks = s.banks := rfl
@[simp] theorem setArb_sw (x : Arbiter) : (s.setArb x).sw = s.sw := rfl
@[simp] theorem setArb_lamp (x : Arbiter) : (s.setArb x).lamp = s.lamp := rfl
@[simp] theorem setArb_ports (x : Arbiter) : (s.setArb x).ports = s.ports := rfl
@[simp] theorem setArb_latches (x : Arbiter) : (s.setArb x).latches = s.latches := rfl
@[simp] theorem setArb_lastServed (x : Arbiter) : (s.setArb x).lastServed = s.lastServed := rfl
@[simp] theorem setArb_part (x : Arbiter) : (s.setArb x).part = s.part := rfl
@[simp] theorem setArb_store (x : Arbiter) : (s.setArb x).store = s.store := rfl
@[simp] theorem setArb_orders (x : Arbiter) : (s.setArb x).orders = s.orders := rfl
@[simp] theorem setArb_arb (x : Arbiter) : (s.setArb x).arb = x := rfl

/-! ### setWaitList -/

@[simp] theorem setWaitList_pending (x : List Entry) : (s.setWaitList x).pending = s.pending := rfl
@[simp] theorem setWaitList_channels (x : List Entry) : (s.setWaitList x).channels = s.channels := rfl
@[simp] theorem setWaitList_coolTimer (x : List Entry) : (s.setWaitList x).coolTimer = s.coolTimer := rfl
@[simp] theorem setWaitList_supply (x : List Entry) : (s.setWaitList x).supply = s.supply := rfl
@[simp] theorem setWaitList_flippers (x : List Entry) : (s.setWaitList x).flippers = s.flippers := rfl
@[simp] theorem setWaitList_links (x : List Entry) : (s.setWaitList x).links = s.links := rfl
@[simp] theorem setWaitList_steppers (x : List Entry) : (s.setWaitList x).steppers = s.steppers := rfl
@[simp] theorem setWaitList_banks (x : List Entry) : (s.setWaitList x).banks = s.banks := rfl
@[simp] theorem setWaitList_sw (x : List Entry) : (s.setWaitList x).sw = s.sw := rfl
@[simp] theorem setWaitList_lamp (x : List Entry) : (s.setWaitList x).lamp = s.lamp := rfl
@[simp] theorem setWaitList_ports (x : List Entry) : (s.setWaitList x).ports = s.ports := rfl
@[simp] theorem setWaitList_latches (x : List Entry) : (s.setWaitList x).latches = s.latches := rfl
@[simp] theorem setWaitList_lastServed (x : List Entry) : (s.setWaitList x).lastServed = s.lastServed := rfl
@[simp] theorem setWaitList_part (x : List Entry) : (s.setWaitList x).part = s.part := rfl
@[simp] theorem setWaitList_store (x : List Entry) : (s.setWaitList x).store = s.store := rfl
@[simp] theorem setWaitList_orders (x : List Entry) : (s.setWaitList x).orders = s.orders := rfl
@[simp] theorem setWaitList_arb (x : List Entry) : (s.setWaitList x).arb = { s.arb with waitList := x } := rfl

/-! ### setSupply -/

@[simp] theorem setSupply_pending (x : SupplyMonitor) : (s.setSupply x).pending = s.pending := rfl
@[simp] theorem setSupply_channels (x : SupplyMonitor) : (s.setSupply x).channels = s.channels := rfl
@[simp] theorem setSupply_coolTimer (x : SupplyMonitor) : (s.setSupply x).coolTimer = s.coolTimer := rfl
@[simp] theorem setSupply_arb (x : SupplyMonitor) : (s.setSupply x).arb = s.arb := rfl
@[simp] theorem setSupply_flippers (x : SupplyMonitor) : (s.setSupply x).flippers = s.flippers := rfl
@[simp] theorem setSupply_links (x : SupplyMonitor) : (s.setSupply x).links = s.links := rfl
@[simp] theorem setSupply_steppers (x : SupplyMonitor) : (s.setSupply x).steppers = s.steppers := rfl
@[simp] theorem setSupply_banks (x : SupplyMonitor) : (s.setSupply x).banks = s.banks := rfl
@[simp] theorem setSupply_sw (x : SupplyMonitor) : (s.setSupply x).sw = s.sw := rfl
@[simp] theorem setSupply_lamp (x : SupplyMonitor) : (s.setSupply x).lamp = s.lamp := rfl
@[simp] theorem setSupply_ports (x : SupplyMonitor) : (s.setSupply x).ports = s.ports := rfl
@[simp] theorem setSupply_latches (x : SupplyMonitor) : (s.setSupply x).latches = s.latches := rfl
@[simp] theorem setSupply_lastServed (x : SupplyMonitor) : (s.setSupply x).lastServed = s.lastServed := rfl
@[simp] theorem setSupply_part (x : SupplyMonitor) : (s.setSupply x).part = s.part := rfl
@[simp] theorem setSupply_store (x : SupplyMonitor) : (s.setSupply x).store = s.store := rfl
@[simp] theorem setSupply_orders (x : SupplyMonitor) : (s.setSupply x).orders = s.orders := rfl
@[simp] theorem setSupply_supply (x : SupplyMonitor) : (s.setSupply x).supply = x := rfl

/-! ### setFlip -/

@[simp] theorem setFlip_pending (f : FlipperId) (x : Flipper) : (s.setFlip f x).pending = s.pending := rfl
@[simp] theorem setFlip_channels (f : FlipperId) (x : Flipper) : (s.setFlip f x).channels = s.channels := rfl
@[simp] theorem setFlip_coolTimer (f : FlipperId) (x : Flipper) : (s.setFlip f x).coolTimer = s.coolTimer := rfl
@[simp] theorem setFlip_supply (f : FlipperId) (x : Flipper) : (s.setFlip f x).supply = s.supply := rfl
@[simp] theorem setFlip_arb (f : FlipperId) (x : Flipper) : (s.setFlip f x).arb = s.arb := rfl
@[simp] theorem setFlip_links (f : FlipperId) (x : Flipper) : (s.setFlip f x).links = s.links := rfl
@[simp] theorem setFlip_steppers (f : FlipperId) (x : Flipper) : (s.setFlip f x).steppers = s.steppers := rfl
@[simp] theorem setFlip_banks (f : FlipperId) (x : Flipper) : (s.setFlip f x).banks = s.banks := rfl
@[simp] theorem setFlip_sw (f : FlipperId) (x : Flipper) : (s.setFlip f x).sw = s.sw := rfl
@[simp] theorem setFlip_lamp (f : FlipperId) (x : Flipper) : (s.setFlip f x).lamp = s.lamp := rfl
@[simp] theorem setFlip_ports (f : FlipperId) (x : Flipper) : (s.setFlip f x).ports = s.ports := rfl
@[simp] theorem setFlip_latches (f : FlipperId) (x : Flipper) : (s.setFlip f x).latches = s.latches := rfl
@[simp] theorem setFlip_lastServed (f : FlipperId) (x : Flipper) : (s.setFlip f x).lastServed = s.lastServed := rfl
@[simp] theorem setFlip_part (f : FlipperId) (x : Flipper) : (s.setFlip f x).part = s.part := rfl
@[simp] theorem setFlip_store (f : FlipperId) (x : Flipper) : (s.setFlip f x).store = s.store := rfl
@[simp] theorem setFlip_orders (f : FlipperId) (x : Flipper) : (s.setFlip f x).orders = s.orders := rfl
@[simp] theorem setFlip_flippers (f : FlipperId) (x : Flipper) : (s.setFlip f x).flippers = s.flippers.set f x := rfl
@[simp] theorem flip_setFlip_self (f : FlipperId) (x : Flipper) : (s.setFlip f x).flip f = x := Table.get_set_self _ _ _
theorem flip_setFlip_ne (f g : FlipperId) (x : Flipper) (h : g ≠ f) : (s.setFlip f x).flip g = s.flip g :=
  Table.get_set_ne _ _ _ _ h

/-! ### setLink -/

@[simp] theorem setLink_pending (k : LinkId) (x : Link) : (s.setLink k x).pending = s.pending := rfl
@[simp] theorem setLink_channels (k : LinkId) (x : Link) : (s.setLink k x).channels = s.channels := rfl
@[simp] theorem setLink_coolTimer (k : LinkId) (x : Link) : (s.setLink k x).coolTimer = s.coolTimer := rfl
@[simp] theorem setLink_supply (k : LinkId) (x : Link) : (s.setLink k x).supply = s.supply := rfl
@[simp] theorem setLink_arb (k : LinkId) (x : Link) : (s.setLink k x).arb = s.arb := rfl
@[simp] theorem setLink_flippers (k : LinkId) (x : Link) : (s.setLink k x).flippers = s.flippers := rfl
@[simp] theorem setLink_steppers (k : LinkId) (x : Link) : (s.setLink k x).steppers = s.steppers := rfl
@[simp] theorem setLink_banks (k : LinkId) (x : Link) : (s.setLink k x).banks = s.banks := rfl
@[simp] theorem setLink_sw (k : LinkId) (x : Link) : (s.setLink k x).sw = s.sw := rfl
@[simp] theorem setLink_lamp (k : LinkId) (x : Link) : (s.setLink k x).lamp = s.lamp := rfl
@[simp] theorem setLink_ports (k : LinkId) (x : Link) : (s.setLink k x).ports = s.ports := rfl
@[simp] theorem setLink_latches (k : LinkId) (x : Link) : (s.setLink k x).latches = s.latches := rfl
@[simp] theorem setLink_lastServed (k : LinkId) (x : Link) : (s.setLink k x).lastServed = s.lastServed := rfl
@[simp] theorem setLink_part (k : LinkId) (x : Link) : (s.setLink k x).part = s.part := rfl
@[simp] theorem setLink_store (k : LinkId) (x : Link) : (s.setLink k x).store = s.store := rfl
@[simp] theorem setLink_orders (k : LinkId) (x : Link) : (s.setLink k x).orders = s.orders := rfl
@[simp] theorem setLink_links (k : LinkId) (x : Link) : (s.setLink k x).links = s.links.set k x := rfl
@[simp] theorem link_setLink_self (k : LinkId) (x : Link) : (s.setLink k x).link k = x := Table.get_set_self _ _ _
theorem link_setLink_ne (k j : LinkId) (x : Link) (h : j ≠ k) : (s.setLink k x).link j = s.link j :=
  Table.get_set_ne _ _ _ _ h

/-! ### setStepper -/

@[simp] theorem setStepper_pending (t : StepperId) (x : Stepper) : (s.setStepper t x).pending = s.pending := rfl
@[simp] theorem setStepper_channels (t : StepperId) (x : Stepper) : (s.setStepper t x).channels = s.channels := rfl
@[simp] theorem setStepper_coolTimer (t : StepperId) (x : Stepper) : (s.setStepper t x).coolTimer = s.coolTimer := rfl
@[simp] theorem setStepper_supply (t : StepperId) (x : Stepper) : (s.setStepper t x).supply = s.supply := rfl
@[simp] theorem setStepper_arb (t : StepperId) (x : Stepper) : (s.setStepper t x).arb = s.arb := rfl
@[simp] theorem setStepper_flippers (t : StepperId) (x : Stepper) : (s.setStepper t x).flippers = s.flippers := rfl
@[simp] theorem setStepper_links (t : StepperId) (x : Stepper) : (s.setStepper t x).links = s.links := rfl
@[simp] theorem setStepper_banks (t : StepperId) (x : Stepper) : (s.setStepper t x).banks = s.banks := rfl
@[simp] theorem setStepper_sw (t : StepperId) (x : Stepper) : (s.setStepper t x).sw = s.sw := rfl
@[simp] theorem setStepper_lamp (t : StepperId) (x : Stepper) : (s.setStepper t x).lamp = s.lamp := rfl
@[simp] theorem setStepper_ports (t : StepperId) (x : Stepper) : (s.setStepper t x).ports = s.ports := rfl
@[simp] theorem setStepper_latches (t : StepperId) (x : Stepper) : (s.setStepper t x).latches = s.latches := rfl
@[simp] theorem setStepper_lastServed (t : StepperId) (x : Stepper) : (s.setStepper t x).lastServed = s.lastServed := rfl
@[simp] theorem setStepper_part (t : StepperId) (x : Stepper) : (s.setStepper t x).part = s.part := rfl
@[simp] theorem setStepper_store (t : StepperId) (x : Stepper) : (s.setStepper t x).store = s.store := rfl
@[simp] theorem setStepper_orders (t : StepperId) (x : Stepper) : (s.setStepper t x).orders = s.orders := rfl
@[simp] theorem setStepper_steppers (t : StepperId) (x : Stepper) : (s.setStepper t x).steppers = s.steppers.set t x := rfl
@[simp] theorem stepper_setStepper_self (t : StepperId) (x : Stepper) : (s.setStepper t x).stepper t = x :=
  Table.get_set_self _ _ _
theorem stepper_setStepper_ne (t u : StepperId) (x : Stepper) (h : u ≠ t) : (s.setStepper t x).stepper u = s.stepper u :=
  Table.get_set_ne _ _ _ _ h

/-! ### setBank -/

@[simp] theorem setBank_pending (n : BankId) (x : List StepperId) : (s.setBank n x).pending = s.pending := rfl
@[simp] theorem setBank_channels (n : BankId) (x : List StepperId) : (s.setBank n x).channels = s.channels := rfl
@[simp] theorem setBank_coolTimer (n : BankId) (x : List StepperId) : (s.setBank n x).coolTimer = s.coolTimer := rfl
@[simp] theorem setBank_supply (n : BankId) (x : List StepperId) : (s.setBank n x).supply = s.supply := rfl
@[simp] theorem setBank_arb (n : BankId) (x : List StepperId) : (s.setBank n x).arb = s.arb := rfl
@[simp] theorem setBank_flippers (n : BankId) (x : List StepperId) : (s.setBank n x).flippers = s.flippers := rfl
@[simp] theorem setBank_links (n : BankId) (x : List StepperId) : (s.setBank n x).links = s.links := rfl
@[simp] theorem setBank_steppers (n : BankId) (x : List StepperId) : (s.setBank n x).steppers = s.steppers := rfl
@[simp] theorem setBank_sw (n : BankId) (x : List StepperId) : (s.setBank n x).sw = s.sw := rfl
@[simp] theorem setBank_lamp (n : BankId) (x : List StepperId) : (s.setBank n x).lamp = s.lamp := rfl
@[simp] theorem setBank_ports (n : BankId) (x : List StepperId) : (s.setBank n x).ports = s.ports := rfl
@[simp] theorem setBank_latches (n : BankId) (x : List StepperId) : (s.setBank n x).latches = s.latches := rfl
@[simp] theorem setBank_lastServed (n : BankId) (x : List StepperId) : (s.setBank n x).lastServed = s.lastServed := rfl
@[simp] theorem setBank_part (n : BankId) (x : List StepperId) : (s.setBank n x).part = s.part := rfl
@[simp] theorem setBank_store (n : BankId) (x : List StepperId) : (s.setBank n x).store = s.store := rfl
@[simp] theorem setBank_orders (n : BankId) (x : List StepperId) : (s.setBank n x).orders = s.orders := rfl
@[simp] theorem setBank_banks (n : BankId) (x : List StepperId) : (s.setBank n x).banks = s.banks.set n x := rfl

/-! ### setSw -/

@[simp] theorem setSw_pending (x : SwitchUnit) : (s.setSw x).pending = s.pending := rfl
@[simp] theorem setSw_channels (x : SwitchUnit) : (s.setSw x).channels = s.channels := rfl
@[simp] theorem setSw_coolTimer (x : SwitchUnit) : (s.setSw x).coolTimer = s.coolTimer := rfl
@[simp] theorem setSw_supply (x : SwitchUnit) : (s.setSw x).supply = s.supply := rfl
@[simp] theorem setSw_arb (x : SwitchUnit) : (s.setSw x).arb = s.arb := rfl
@[simp] theorem setSw_flippers (x : SwitchUnit) : (s.setSw x).flippers = s.flippers := rfl
@[simp] theorem setSw_links (x : SwitchUnit) : (s.setSw x).links = s.links := rfl
@[simp] theorem setSw_steppers (x : SwitchUnit) : (s.setSw x).steppers = s.steppers := rfl
@[simp] theorem setSw_banks (x : SwitchUnit) : (s.setSw x).banks = s.banks := rfl
@[simp] theorem setSw_lamp (x : SwitchUnit) : (s.setSw x).lamp = s.lamp := rfl
@[simp] theorem setSw_ports (x : SwitchUnit) : (s.setSw x).ports = s.ports := rfl
@[simp] theorem setSw_latches (x : SwitchUnit) : (s.setSw x).latches = s.latches := rfl
@[simp] theorem setSw_lastServed (x : SwitchUnit) : (s.setSw x).lastServed = s.lastServed := rfl
@[simp] theorem setSw_part (x : SwitchUnit) : (s.setSw x).part = s.part := rfl
@[simp] theorem setSw_store (x : SwitchUnit) : (s.setSw x).store = s.store := rfl
@[simp] theorem setSw_orders (x : SwitchUnit) : (s.setSw x).orders = s.orders := rfl
@[simp] theorem setSw_sw (x : SwitchUnit) : (s.setSw x).sw = x := rfl

/-! ### setInput -/

@[simp] theorem setInput_pending (w : SwitchId) (x : SwitchInput) : (s.setInput w x).pending = s.pending := rfl
@[simp] theorem setInput_channels (w : SwitchId) (x : SwitchInput) : (s.setInput w x).channels = s.channels := rfl
@[simp] theorem setInput_coolTimer (w : SwitchId) (x : SwitchInput) : (s.setInput w x).coolTimer = s.coolTimer := rfl
@[simp] theorem setInput_supply (w : SwitchId) (x : SwitchInput) : (s.setInput w x).supply = s.supply := rfl
@[simp] theorem setInput_arb (w : SwitchId) (x : SwitchInput) : (s.setInput w x).arb = s.arb := rfl
@[simp] theorem setInput_flippers (w : SwitchId) (x : SwitchInput) : (s.setInput w x).flippers = s.flippers := rfl
@[simp] theorem setInput_links (w : SwitchId) (x : SwitchInput) : (s.setInput w x).links = s.links := rfl
@[simp] theorem setInput_steppers (w : SwitchId) (x : SwitchInput) : (s.setInput w x).steppers = s.steppers := rfl
@[simp] theorem setInput_banks (w : SwitchId) (x : SwitchInput) : (s.setInput w x).banks = s.banks := rfl
@[simp] theorem setInput_lamp (w : SwitchId) (x : SwitchInput) : (s.setInput w x).lamp = s.lamp := rfl
@[simp] theorem setInput_ports (w : SwitchId) (x : SwitchInput) : (s.setInput w x).ports = s.ports := rfl
@[simp] theorem setInput_latches (w : SwitchId) (x : SwitchInput) : (s.setInput w x).latches = s.latches := rfl
@[simp] theorem setInput_lastServed (w : SwitchId) (x : SwitchInput) : (s.setInput w x).lastServed = s.lastServed := rfl
@[simp] theorem setInput_part (w : SwitchId) (x : SwitchInput) : (s.setInput w x).part = s.part := rfl
@[simp] theorem setInput_store (w : SwitchId) (x : SwitchInput) : (s.setInput w x).store = s.store := rfl
@[simp] theorem setInput_orders (w : SwitchId) (x : SwitchInput) : (s.setInput w x).orders = s.orders := rfl
@[simp] theorem setInput_sw (w : SwitchId) (x : SwitchInput) :
    (s.setInput w x).sw = { s.sw with inputs := s.sw.inputs.set w x } := rfl
@[simp] theorem input_setInput_self (w : SwitchId) (x : SwitchInput) : (s.setInput w x).input w = x := Table.get_set_self _ _ _

/-! ### setLamp -/

@[simp] theorem setLamp_pending (x : LampUnit) : (s.setLamp x).pending = s.pending := rfl
@[simp] theorem setLamp_channels (x : LampUnit) : (s.setLamp x).channels = s.channels := rfl
@[simp] theorem setLamp_coolTimer (x : LampUnit) : (s.setLamp x).coolTimer = s.coolTimer := rfl
@[simp] theorem setLamp_supply (x : LampUnit) : (s.setLamp x).supply = s.supply := rfl
@[simp] theorem setLamp_arb (x : LampUnit) : (s.setLamp x).arb = s.arb := rfl
@[simp] theorem setLamp_flippers (x : LampUnit) : (s.setLamp x).flippers = s.flippers := rfl
@[simp] theorem setLamp_links (x : LampUnit) : (s.setLamp x).links = s.links := rfl
@[simp] theorem setLamp_steppers (x : LampUnit) : (s.setLamp x).steppers = s.steppers := rfl
@[simp] theorem setLamp_banks (x : LampUnit) : (s.setLamp x).banks = s.banks := rfl
@[simp] theorem setLamp_sw (x : LampUnit) : (s.setLamp x).sw = s.sw := rfl
@[simp] theorem setLamp_ports (x : LampUnit) : (s.setLamp x).ports = s.ports := rfl
@[simp] theorem setLamp_latches (x : LampUnit) : (s.setLamp x).latches = s.latches := rfl
@[simp] theorem setLamp_lastServed (x : LampUnit) : (s.setLamp x).lastServed = s.lastServed := rfl
@[simp] theorem setLamp_part (x : LampUnit) : (s.setLamp x).part = s.part := rfl
@[simp] theorem setLamp_store (x : LampUnit) : (s.setLamp x).store = s.store := rfl
@[simp] theorem setLamp_orders (x : LampUnit) : (s.setLamp x).orders = s.orders := rfl
@[simp] theorem setLamp_lamp (x : LampUnit) : (s.setLamp x).lamp = x := rfl

/-! ### setPort -/

@[simp] theorem setPort_pending (p : Port) (x : PortRec) : (s.setPort p x).pending = s.pending := rfl
@[simp] theorem setPort_channels (p : Port) (x : PortRec) : (s.setPort p x).channels = s.channels := rfl
@[simp] theorem setPort_coolTimer (p : Port) (x : PortRec) : (s.setPort p x).coolTimer = s.coolTimer := rfl
@[simp] theorem setPort_supply (p : Port) (x : PortRec) : (s.setPort p x).supply = s.supply := rfl
@[simp] theorem setPort_arb (p : Port) (x : PortRec) : (s.setPort p x).arb = s.arb := rfl
@[simp] theorem setPort_flippers (p : Port) (x : PortRec) : (s.setPort p x).flippers = s.flippers := rfl
@[simp] theorem setPort_links (p : Port) (x : PortRec) : (s.setPort p x).links = s.links := rfl
@[simp] theorem setPort_steppers (p : Port) (x : PortRec) : (s.setPort p x).steppers = s.steppers := rfl
@[simp] theorem setPort_banks (p : Port) (x : PortRec) : (s.setPort p x).banks = s.banks := rfl
@[simp] theorem setPort_sw (p : Port) (x : PortRec) : (s.setPort p x).sw = s.sw := rfl
@[simp] theorem setPort_lamp (p : Port) (x : PortRec) : (s.setPort p x).lamp = s.lamp := rfl
@[simp] theorem setPort_latches (p : Port) (x : PortRec) : (s.setPort p x).latches = s.latches := rfl
@[simp] theorem setPort_lastServed (p : Port) (x : PortRec) : (s.setPort p x).lastServed = s.lastServed := rfl
@[simp] theorem setPort_part (p : Port) (x : PortRec) : (s.setPort p x).part = s.part := rfl
@[simp] theorem setPort_store (p : Port) (x : PortRec) : (s.setPort p x).store = s.store := rfl
@[simp] theorem setPort_orders (p : Port) (x : PortRec) : (s.setPort p x).orders = s.orders := rfl
@[simp] theorem setPort_ports (p : Port) (x : PortRec) : (s.setPort p x).ports = s.ports.set p x := rfl
@[simp] theorem port_setPort_self (p : Port) (x : PortRec) : (s.setPort p x).port p = x := PerPort.get_set_self _ _ _
theorem port_setPort_ne (p q : Port) (x : PortRec) (h : q ≠ p) : (s.setPort p x).port q = s.port q :=
  PerPort.get_set_ne _ _ _ _ h

/-! ### setLatch -/

@[simp] theorem setLatch_pending (p : Port) (x : Latch) : (s.setLatch p x).pending = s.pending := rfl
@[simp] theorem setLatch_channels (p : Port) (x : Latch) : (s.setLatch p x).channels = s.channels := rfl
@[simp] theorem setLatch_coolTimer (p : Port) (x : Latch) : (s.setLatch p x).coolTimer = s.coolTimer := rfl
@[simp] theorem setLatch_supply (p : Port) (x : Latch) : (s.setLatch p x).supply = s.supply := rfl
@[simp] theorem setLatch_arb (p : Port) (x : Latch) : (s.setLatch p x).arb = s.arb := rfl
@[simp] theorem setLatch_flippers (p : Port) (x : Latch) : (s.setLatch p x).flippers = s.flippers := rfl
@[simp] theorem setLatch_links (p : Port) (x : Latch) : (s.setLatch p x).links = s.links := rfl
@[simp] theorem setLatch_steppers (p : Port) (x : Latch) : (s.setLatch p x).steppers = s.steppers := rfl
@[simp] theorem setLatch_banks (p : Port) (x : Latch) : (s.setLatch p x).banks = s.banks := rfl
@[simp] theorem setLatch_sw (p : Port) (x : Latch) : (s.setLatch p x).sw = s.sw := rfl
@[simp] theorem setLatch_lamp (p : Port) (x : Latch) : (s.setLatch p x).lamp = s.lamp := rfl
@[simp] theorem setLatch_ports (p : Port) (x : Latch) : (s.setLatch p x).ports = s.ports := rfl
@[simp] theorem setLatch_lastServed (p : Port) (x : Latch) : (s.setLatch p x).lastServed = s.lastServed := rfl
@[simp] theorem setLatch_part (p : Port) (x : Latch) : (s.setLatch p x).part = s.part := rfl
@[simp] theorem setLatch_store (p : Port) (x : Latch) : (s.setLatch p x).store = s.store := rfl
@[simp] theorem setLatch_orders (p : Port) (x : Latch) : (s.setLatch p x).orders = s.orders := rfl
@[simp] theorem setLatch_latches (p : Port) (x : Latch) : (s.setLatch p x).latches = s.latches.set p x := rfl
@[simp] theorem latch_setLatch_self (p : Port) (x : Latch) : (s.setLatch p x).latch p = x := PerPort.get_set_self _ _ _
theorem latch_setLatch_ne (p q : Port) (x : Latch) (h : q ≠ p) : (s.setLatch p x).latch q = s.latch q :=
  PerPort.get_set_ne _ _ _ _ h

/-! ### setStore -/

@[simp] theorem setStore_pending (x : ProfileStore) : (s.setStore x).pending = s.pending := rfl
@[simp] theorem setStore_channels (x : ProfileStore) : (s.setStore x).channels = s.channels := rfl
@[simp] theorem setStore_coolTimer (x : ProfileStore) : (s.setStore x).coolTimer = s.coolTimer := rfl
@[simp] theorem setStore_supply (x : ProfileStore) : (s.setStore x).supply = s.supply := rfl
@[simp] theorem setStore_arb (x : ProfileStore) : (s.setStore x).arb = s.arb := rfl
@[simp] theorem setStore_flippers (x : ProfileStore) : (s.setStore x).flippers = s.flippers := rfl
@[simp] theorem setStore_links (x : ProfileStore) : (s.setStore x).links = s.links := rfl
@[simp] theorem setStore_steppers (x : ProfileStore) : (s.setStore x).steppers = s.steppers := rfl
@[simp] theorem setStore_banks (x : ProfileStore) : (s.setStore x).banks = s.banks := rfl
@[simp] theorem setStore_sw (x : ProfileStore) : (s.setStore x).sw = s.sw := rfl
@[simp] theorem setStore_lamp (x : ProfileStore) : (s.setStore x).lamp = s.lamp := rfl
@[simp] theorem setStore_ports (x : ProfileStore) : (s.setStore x).ports = s.ports := rfl
@[simp] theorem setStore_latches (x : ProfileStore) : (s.setStore x).latches = s.latches := rfl
@[simp] theorem setStore_lastServed (x : ProfileStore) : (s.setStore x).lastServed = s.lastServed := rfl
@[simp] theorem setStore_part (x : ProfileStore) : (s.setStore x).part = s.part := rfl
@[simp] theorem setStore_orders (x : ProfileStore) : (s.setStore x).orders = s.orders := rfl
@[simp] theorem setStore_store (x : ProfileStore) : (s.setStore x).store = x := rfl

end Sys2Proof.Machine.State
end

