-- ==== Sys2Proof/Laws/CoilWork.lean ====
section
/-! SUPPORT. The primitive updates that coil work is made of: each is coil work (Safety.lean), so that the lemma of a shared operation
is a composition of these. -/

namespace Sys2Proof.Machine

namespace CoilWork

theorem refl (s : State) : CoilWork s s :=
  ⟨rfl, rfl, rfl, rfl, rfl, rfl, rfl, rfl, rfl, rfl, rfl, fun _ _ => .inl, fun _ => .inl, fun _ => .inl,
    fun _ _ _ => rfl, id⟩

theorem trans {s t u : State} (h : CoilWork s t) (g : CoilWork t u) : CoilWork s u where
  pending := g.pending.trans h.pending
  coolTimer := g.coolTimer.trans h.coolTimer
  supply := g.supply.trans h.supply
  sw := g.sw.trans h.sw
  lamp := g.lamp.trans h.lamp
  ports := g.ports.trans h.ports
  lastServed := g.lastServed.trans h.lastServed
  part := g.part.trans h.part
  store := g.store.trans h.store
  orders := g.orders.trans h.orders
  profile := g.profile.trans h.profile
  claimed := fun c p x => (g.claimed c p x).elim (h.claimed c p) fun y => .inr ((congrArg (fun q => (q.get p).live) h.ports).symm.trans y)
  entered := fun p x => by
    have live : (t.port p).live = true → (s.port p).live = true := fun y => (congrArg (fun q => (q.get p).live) h.ports).symm.trans y
    rcases g.entered p x with x | ⟨c, x⟩ | x
    · exact h.entered p x
    · exact .inr ((h.claimed c p x).imp (fun y => ⟨c, y⟩) id)
    · exact .inr (.inr (live x))
  origins := fun p x => (g.origins p x).elim (h.origins p) fun y => .inr ((congrArg (fun q => (q.get p).live) h.ports).symm.trans y)
  latched := fun p n x => (g.latched p n x).trans (h.latched p n x)
  safe := fun x => g.safe (h.safe x)

/-- A fold of coil work is coil work. -/
theorem foldl {α : Type} {f : State → α → State} (h : ∀ s a, CoilWork s (f s a)) (l : List α) (s : State) :
    CoilWork s (l.foldl f s) := by
  induction l generalizing s with
  | nil => exact refl s
  | cons a l ih => exact (h s a).trans (ih _)

/-- Both branches of a test. -/
theorem ite {s t u : State} {p : Prop} [Decidable p] (h : p → CoilWork s t) (g : ¬p → CoilWork s u) :
    CoilWork s (if p then t else u) := by
  split
  · next x => exact h x
  · next x => exact g x

/-! ### Configuration records read through coil work -/

variable {s t : State}

theorem coil (h : CoilWork s t) (c : ChannelId) : (t.chan c).coil = (s.chan c).coil := by
  have := congrArg (fun p => p.coils.get c) h.profile
  simpa [workingProfile, State.chan] using this

theorem flipCfg (h : CoilWork s t) (f : FlipperId) : (t.flip f).cfg = (s.flip f).cfg := by
  have := congrArg (fun p => p.flippers.get f) h.profile
  simpa [workingProfile, State.flip] using this

theorem linkCfg (h : CoilWork s t) (k : LinkId) : (t.link k).cfg = (s.link k).cfg := by
  have := congrArg (fun p => p.links.get k) h.profile
  simpa [workingProfile, State.link] using this

theorem stepperCfg (h : CoilWork s t) (u : StepperId) : (t.stepper u).cfg = (s.stepper u).cfg := by
  have := congrArg (fun p => p.steppers.get u) h.profile
  simpa [workingProfile, State.stepper] using this

theorem banks (h : CoilWork s t) : t.banks = s.banks := congrArg (fun p => p.banks) h.profile

end CoilWork

/-! ### What a safe state gives of one channel -/

namespace Safe

variable {s : State} (h : Safe s)
include h

theorem record (c : ChannelId) : (s.chan c).coil.stored = true := by
  simpa [workingProfile, State.chan] using h.working.coils c

theorem named {f : FlipperId} {c : ChannelId} (hn : (s.flip f).cfg.names c = true) : (s.chan c).coil.cls = .flipper := by
  have := h.working.named f c
  simp only [workingProfile, Table.get_map] at this
  exact this hn

theorem reserve : s.supply.cfg.reserve ≤ s.supply.cfg.budget := h.working.reserve

theorem weights : flipperWeights s ≤ s.supply.cfg.reserve := by
  have := h.working.weights
  simpa [Profile.flipperWeights, workingProfile, flipperWeights, State.chan] using this

theorem general_le (c : ChannelId) : (s.chan c).generalLoad ≤ s.arb.general := by
  rw [h.general]; exact le_sum_finRange (fun c => (s.chan c).generalLoad) c

theorem flipper_le (c : ChannelId) : (s.chan c).flipperLoad ≤ s.arb.flipper := by
  rw [h.flipper]; exact le_sum_finRange (fun c => (s.chan c).flipperLoad) c

end Safe

/-- A channel's new record is safe beside the others: its duty, heat and claims are in range, and its general load does not rise, or
rises within the general pool. -/
structure ChanGuard (s : State) (c : ChannelId) (ch : Channel) : Prop where
  duty : 1 ≤ ch.heat.dEff ∧ ch.heat.dEff ≤ 16
  heat : ch.heat.h ≤ 65535
  claims : ch.claims.isEmpty = false → ch.coil.cls = .holdable
  pool : ch.generalLoad ≤ (s.chan c).generalLoad ∨ s.arb.general + ch.generalLoad ≤ generalPool s + (s.chan c).generalLoad

theorem generalLoads_setChan (s : State) (c : ChannelId) (ch : Channel) :
    generalLoads (s.setChan c ch) + (s.chan c).generalLoad = generalLoads s + ch.generalLoad := by
  have := sum_finRange_update (fun d => (s.chan d).generalLoad) (fun d => ((s.setChan c ch).chan d).generalLoad) c
    (fun d hd => by simp only [State.chan_setChan_ne _ _ _ _ hd])
  simpa [generalLoads, allChannels] using this

theorem flipperLoads_setChan (s : State) (c : ChannelId) (ch : Channel) :
    flipperLoads (s.setChan c ch) + (s.chan c).flipperLoad = flipperLoads s + ch.flipperLoad := by
  have := sum_finRange_update (fun d => (s.chan d).flipperLoad) (fun d => ((s.setChan c ch).chan d).flipperLoad) c
    (fun d hd => by simp only [State.chan_setChan_ne _ _ _ _ hd])
  simpa [flipperLoads, allChannels] using this

theorem chan_setChan (s : State) (c d : ChannelId) (ch : Channel) :
    (s.setChan c ch).chan d = if d = c then ch else s.chan d := Table.get_set _ _ _ _

theorem workingProfile_setChan (s : State) (c : ChannelId) (ch : Channel) (h : ch.coil = (s.chan c).coil) :
    workingProfile (s.setChan c ch) = workingProfile s := by
  have : (s.channels.set c ch).map Channel.coil = s.channels.map Channel.coil := by
    apply Table.ext_get
    intro d
    simp only [Table.get_map, Table.get_set]
    split
    · next e => rw [h, e]; rfl
    · rfl
  simp [workingProfile, this]

/-- Writing a channel's record, its coil record kept, under the guard. -/
theorem CoilWork.chan {s : State} {c : ChannelId} {ch : Channel} (hcoil : ch.coil = (s.chan c).coil)
    (hcl : ∀ p, ch.claims.has p = true → (s.chan c).claims.has p = true ∨ (s.port p).live = true)
    (hg : Safe s → ChanGuard s c ch) : CoilWork s (s.setChan c ch) where
  pending := rfl
  coolTimer := rfl
  supply := rfl
  sw := rfl
  lamp := rfl
  ports := rfl
  lastServed := rfl
  part := rfl
  store := rfl
  orders := rfl
  profile := workingProfile_setChan _ _ _ hcoil
  claimed := fun d p x => by
    rw [chan_setChan] at x
    split at x
    · next e => subst e; exact hcl p x
    · exact .inl x
  entered := fun _ => .inl
  origins := fun _ => .inl
  latched := fun _ _ _ => rfl
  safe := fun h => by
    have g := hg h
    have hgen := generalLoads_setChan s c ch
    have hfl := flipperLoads_setChan s c ch
    have h1 := h.general_le c
    have h2 := h.flipper_le c
    have h3 := h.general
    have h4 := h.flipper
    have h5 := h.pool
    have hpool : generalPool (s.setChan c ch) = generalPool s := rfl
    refine ⟨h.listFits, h.oneEach, ?_, ?_, ?_, ?_, ?_, ?_, ?_, h.stored, h.copied, h.queues⟩
    · simp only [State.setChan_arb, Arbiter.report]; omega
    · simp only [State.setChan_arb, Arbiter.report]; omega
    · have := g.pool
      simp only [State.setChan_arb, Arbiter.report, hpool]; omega
    · intro d; rw [chan_setChan]; split
      · exact g.duty
      · exact h.duty d
    · intro d; rw [chan_setChan]; split
      · exact g.heat
      · exact h.heat d
    · intro d; rw [chan_setChan]; split
      · exact g.claims
      · exact h.claims d
    · rw [workingProfile_setChan _ _ _ hcoil]; exact h.working

theorem isEmpty_of_has {x y : PortSet} (h : ∀ p, x.has p = true → y.has p = true) (e : x.isEmpty = false) : y.isEmpty = false := by
  have ha := h .a
  have hb := h .b
  cases x with
  | mk a b =>
    cases y with
    | mk c d => cases a <;> cases b <;> cases c <;> cases d <;> simp_all [PortSet.isEmpty, PortSet.has]

/-- Writing a channel's record whose general load does not rise and whose heat is the same. -/
theorem CoilWork.chanQuiet {s : State} {c : ChannelId} {ch : Channel} (hcoil : ch.coil = (s.chan c).coil)
    (hheat : ch.heat = (s.chan c).heat) (hclaims : ∀ p, ch.claims.has p = true → (s.chan c).claims.has p = true)
    (hload : ch.generalLoad ≤ (s.chan c).generalLoad) : CoilWork s (s.setChan c ch) :=
  .chan hcoil (fun p x => .inl (hclaims p x)) fun h => ⟨hheat ▸ h.duty c, hheat ▸ h.heat c,
    fun e => hcoil ▸ h.claims c (isEmpty_of_has hclaims e), .inl hload⟩

/-- Updates of State that leave channels, pools, wait list, configuration and the blocks outside coil work alone. -/
theorem CoilWork.other {s t : State} (hp : t.pending = s.pending) (hch : t.channels = s.channels) (hco : t.coolTimer = s.coolTimer)
    (hsu : t.supply = s.supply) (hw : t.arb.waitList = s.arb.waitList) (hg : t.arb.general = s.arb.general)
    (hf : t.arb.flipper = s.arb.flipper) (hsw : t.sw = s.sw) (hla : t.lamp = s.lamp) (hpo : t.ports = s.ports)
    (hls : t.lastServed = s.lastServed) (hpa : t.part = s.part) (hst : t.store = s.store) (ho : t.orders = s.orders)
    (hl : ∀ p n, coilFlag n = false → (t.latch p).get n.bit = (s.latch p).get n.bit)
    (hprof : workingProfile t = workingProfile s) (ht : ∀ p, TrainNames t p → TrainNames s p ∨ (s.port p).live = true) :
    CoilWork s t := by
  have hchan : ∀ c, t.chan c = s.chan c := fun c => by simp [State.chan, hch]
  refine ⟨hp, hco, hsu, hsw, hla, hpo, hls, hpa, hst, ho, hprof, fun c _ x => .inl (hchan c ▸ x),
    fun p x => .inl (by rw [EntryNames, hw] at x; exact x), ht, hl, fun h => ?_⟩
  have e1 : generalLoads t = generalLoads s := by simp [generalLoads, hchan]
  have e2 : flipperLoads t = flipperLoads s := by simp [flipperLoads, hchan]
  have e3 : generalPool t = generalPool s := by simp [generalPool, hsu]
  exact ⟨hw ▸ h.listFits, hw ▸ h.oneEach, by rw [hg, e1]; exact h.general, by rw [hf, e2]; exact h.flipper,
    by rw [hg, e3]; exact h.pool, fun c => hchan c ▸ h.duty c, fun c => hchan c ▸ h.heat c, fun c => hchan c ▸ h.claims c,
    hprof ▸ h.working, hst ▸ h.stored, hst ▸ h.copied, hsw ▸ h.queues⟩

theorem CoilWork.flip {s : State} {f : FlipperId} {x : Flipper} (h : x.cfg = (s.flip f).cfg) : CoilWork s (s.setFlip f x) := by
  refine .other rfl rfl rfl rfl rfl rfl rfl rfl rfl rfl rfl rfl rfl rfl (fun _ _ _ => rfl) ?_ fun _ => .inl
  have : (s.flippers.set f x).map Flipper.cfg = s.flippers.map Flipper.cfg := by
    apply Table.ext_get
    intro d
    simp only [Table.get_map, Table.get_set]
    split
    · next e => rw [h, e]; rfl
    · rfl
  simp [workingProfile, this]

theorem CoilWork.link {s : State} {k : LinkId} {x : Link} (h : x.cfg = (s.link k).cfg) : CoilWork s (s.setLink k x) := by
  refine .other rfl rfl rfl rfl rfl rfl rfl rfl rfl rfl rfl rfl rfl rfl (fun _ _ _ => rfl) ?_ fun _ => .inl
  have : (s.links.set k x).map Link.cfg = s.links.map Link.cfg := by
    apply Table.ext_get
    intro d
    simp only [Table.get_map, Table.get_set]
    split
    · next e => rw [h, e]; rfl
    · rfl
  simp [workingProfile, this]

/-- A stepper's running state changes; its trains name no other ports. -/
theorem CoilWork.stepperTo {s : State} {t : StepperId} {x : Stepper} (h : x.cfg = (s.stepper t).cfg)
    (hn : ∀ p, x.state.told.has p = true → TrainNames s p ∨ (s.port p).live = true) : CoilWork s (s.setStepper t x) := by
  have ht : ∀ p, TrainNames (s.setStepper t x) p → TrainNames s p ∨ (s.port p).live = true := by
    rintro p ⟨u, hu⟩
    by_cases e : u = t
    · subst e; rw [State.stepper_setStepper_self] at hu; exact hn p hu
    · rw [State.stepper_setStepper_ne _ _ _ _ e] at hu; exact .inl ⟨u, hu⟩
  refine .other rfl rfl rfl rfl rfl rfl rfl rfl rfl rfl rfl rfl rfl rfl (fun _ _ _ => rfl) ?_ ht
  have : (s.steppers.set t x).map Stepper.cfg = s.steppers.map Stepper.cfg := by
    apply Table.ext_get
    intro d
    simp only [Table.get_map, Table.get_set]
    split
    · next e => rw [h, e]; rfl
    · rfl
  simp [workingProfile, this]

theorem CoilWork.stepper {s : State} {t : StepperId} {x : Stepper} (h : x.cfg = (s.stepper t).cfg)
    (hs : x.state = (s.stepper t).state := by rfl) : CoilWork s (s.setStepper t x) :=
  .stepperTo h fun _ y => .inl ⟨t, hs ▸ y⟩

theorem has_union (x y : PortSet) (p : Port) : (x.union y).has p = (x.has p || y.has p) := by
  cases p <;> rfl

theorem has_empty (p : Port) : PortSet.empty.has p = false := by cases p <;> rfl

theorem told_running (train : Train) (next : Train) (p : Port) :
    (StepState.running train (some next)).told.has p = (train.origin.ports.has p || next.origin.ports.has p) := has_union _ _ _

/-- A stepper's running state changes to one that names no ports but those named before. -/
theorem CoilWork.stepperSub {s : State} {t : StepperId} {x : Stepper} (h : x.cfg = (s.stepper t).cfg)
    (hs : ∀ p, x.state.told.has p = true → (s.stepper t).state.told.has p = true) : CoilWork s (s.setStepper t x) :=
  .stepperTo h fun p y => .inl ⟨t, hs p y⟩

/-- A stepper stops or faults: its trains name no port. -/
theorem CoilWork.stepperRests {s : State} {t : StepperId} {x : Stepper} (h : x.cfg = (s.stepper t).cfg)
    (hs : x.state.told = .empty := by rfl) : CoilWork s (s.setStepper t x) :=
  .stepperSub h fun p y => absurd y (by rw [hs, has_empty]; decide)

/-- A latch whose other units' flags stay. -/
theorem CoilWork.latch {s : State} {p : Port} {x : Latch} (h : ∀ n, coilFlag n = false → x.get n.bit = (s.latch p).get n.bit) :
    CoilWork s (s.setLatch p x) := by
  refine .other rfl rfl rfl rfl rfl rfl rfl rfl rfl rfl rfl rfl rfl rfl (fun q n hn => ?_) rfl fun _ => .inl
  by_cases e : q = p
  · subst e; rw [State.latch_setLatch_self]; exact h n hn
  · rw [State.latch_setLatch_ne _ _ _ _ e]

/-- The arbiter's pointer and brought attempts. -/
theorem CoilWork.arb {s : State} {a : Arbiter} (hw : a.waitList = s.arb.waitList) (hg : a.general = s.arb.general)
    (hf : a.flipper = s.arb.flipper) : CoilWork s (s.setArb a) :=
  .other rfl rfl rfl rfl hw hg hf rfl rfl rfl rfl rfl rfl rfl (fun _ _ _ => rfl) rfl fun _ => .inl

/-- A wait list that is kept in arrival order, entries dropped or changed but for their channels. -/
theorem CoilWork.relist {s : State} {l : List Entry} (h : (l.map Entry.channel).Sublist (s.arb.waitList.map Entry.channel))
    (hn : ∀ e ∈ l, ∀ p, e.work.ports.has p = true →
      EntryNames s p ∨ (∃ c, (s.chan c).claims.has p = true) ∨ (s.port p).live = true) :
    CoilWork s (s.setWaitList l) where
  pending := rfl
  coolTimer := rfl
  supply := rfl
  sw := rfl
  lamp := rfl
  ports := rfl
  lastServed := rfl
  part := rfl
  store := rfl
  orders := rfl
  profile := rfl
  claimed := fun _ _ => .inl
  entered := fun p ⟨e, he, x⟩ => hn e he p x
  origins := fun _ => .inl
  latched := fun _ _ _ => rfl
  safe := fun x =>
    ⟨by have := h.length_le; simp only [List.length_map] at this; exact this.trans x.listFits, h.nodup x.oneEach,
      x.general, x.flipper, x.pool, x.duty, x.heat, x.claims, x.working, x.stored, x.copied, x.queues⟩

theorem CoilWork.bring (s : State) : CoilWork s (bring s) := .arb rfl rfl rfl

theorem not_mem_of_entryOf_none {s : State} {c : ChannelId} (h : entryOf s c = none) : c ∉ s.arb.waitList.map Entry.channel := by
  intro hm
  obtain ⟨e, he, rfl⟩ := List.mem_map.1 hm
  have := List.find?_eq_none.1 h e he
  simp at this

/-- A new entry at the tail of a list with room, for a channel without one. -/
theorem CoilWork.enter {s : State} {e : Entry} (hroom : listFull s = false) (hnone : entryOf s e.channel = none)
    (hn : ∀ p, e.work.ports.has p = true → (∃ c, (s.chan c).claims.has p = true) ∨ (s.port p).live = true) :
    CoilWork s (enter s e) := by
  refine .trans (t := s.setWaitList (s.arb.waitList ++ [e])) ?_ (.bring _)
  refine ⟨rfl, rfl, rfl, rfl, rfl, rfl, rfl, rfl, rfl, rfl, rfl, fun _ _ => .inl, fun p => ?_, fun _ => .inl,
    fun _ _ _ => rfl, fun x => ?_⟩
  · rintro ⟨d, hd, x⟩
    rcases List.mem_append.1 hd with hd | hd
    · exact .inl ⟨d, hd, x⟩
    · exact .inr (hn p (List.mem_singleton.1 hd ▸ x))
  have hlen : s.arb.waitList.length < 24 := Nat.lt_of_not_le (of_decide_eq_false hroom)
  refine ⟨by simp [Config.waitListSize]; omega, ?_, x.general, x.flipper, x.pool, x.duty, x.heat, x.claims, x.working, x.stored,
    x.copied, x.queues⟩
  simp only [State.setWaitList_arb, List.map_append, List.map_cons, List.map_nil]
  exact List.nodup_append.2 ⟨x.oneEach, by simp, by simpa using fun b hb e => not_mem_of_entryOf_none hnone (List.mem_map.2 ⟨b, hb, e⟩)⟩

theorem CoilWork.dropEntry (s : State) (c : ChannelId) : CoilWork s (dropEntry s c) :=
  .relist ((List.filter_sublist).map _) fun e he _ x => .inl ⟨e, (List.mem_filter.1 he).1, x⟩

theorem CoilWork.changeEntry (s : State) (c : ChannelId) (f : Entry → Entry) (h : ∀ e, (f e).channel = e.channel)
    (hn : ∀ e p, (f e).work.ports.has p = true →
      e.work.ports.has p = true ∨ EntryNames s p ∨ (∃ c, (s.chan c).claims.has p = true) ∨ (s.port p).live = true) :
    CoilWork s (changeEntry s c f) := by
  refine .relist ?_ fun e he p x => ?_
  rotate_left
  · obtain ⟨d, hd, rfl⟩ := List.mem_map.1 he
    split at x
    · exact (hn d p x).elim (fun y => .inl ⟨d, hd, y⟩) id
    · exact .inl ⟨d, hd, x⟩
  have : (s.arb.waitList.map fun e => if e.channel = c then f e else e).map Entry.channel = s.arb.waitList.map Entry.channel := by
    rw [List.map_map]
    apply List.map_congr_left
    intro e _
    simp only [Function.comp_apply]
    split
    · exact h e
    · rfl
  rw [this]

theorem FlagName.bit_injective {m n : FlagName} (h : m.bit = n.bit) : m = n := by
  cases m <;> cases n <;> first | rfl | exact absurd h (by decide)

theorem CoilWork.setFlagReason (s : State) (p : Port) (n : FlagName) (subject : Option Nat) (r : Option DropReason)
    (h : coilFlag n = true := by rfl) : CoilWork s (setFlagReason s p n subject r) := by
  refine .latch fun m hm => ?_
  rw [Table.get_modify, if_neg]
  intro e
  have := FlagName.bit_injective e
  subst this
  simp [h] at hm

theorem CoilWork.setFlagPorts (s : State) (ps : PortSet) (n : FlagName) (subject : Option Nat)
    (h : coilFlag n = true := by rfl) : CoilWork s (setFlagPorts s ps n subject) := by
  unfold Machine.setFlagPorts
  refine .trans (t := if ps.a then setFlag s .a n subject else s) ?_ ?_
  · exact .ite (fun _ => .setFlagReason _ _ _ _ _ h) (fun _ => .refl _)
  · exact .ite (fun _ => .setFlagReason _ _ _ _ _ h) (fun _ => .refl _)

theorem CoilWork.setFlagBoth (s : State) (n : FlagName) (subject : Option Nat) (h : coilFlag n = true := by rfl) :
    CoilWork s (setFlagBoth s n subject) := .setFlagPorts _ _ _ _ h

theorem CoilWork.dropPulse (s : State) (ps : PortSet) (c : ChannelId) (r : DropReason) : CoilWork s (dropPulse s ps c r) := by
  unfold Machine.dropPulse
  refine .trans (t := if ps.a then Machine.setFlagReason s .a .pulseDropped (some c.val) (some r) else s) ?_ ?_
  · exact .ite (fun _ => .setFlagReason _ _ _ _ _) (fun _ => .refl _)
  · exact .ite (fun _ => .setFlagReason _ _ _ _ _) (fun _ => .refl _)

end Sys2Proof.Machine
end

