-- ==== Sys2Proof/Laws/Heat.lean ====
section
/-! SUPPORT. The heat model's operations: bounds of the derated duty and of the checked width, and that each operation is coil work. -/

namespace Sys2Proof.Machine

/-! ### What a stored coil record gives (R2) -/

namespace CoilRecord

variable {r : CoilRecord} (h : r.stored = true)
include h

theorem warn_lt_cutoff : r.warn < r.cutoff := by simp [stored, accepted] at h; omega

theorem duty_pos : 1 ≤ r.duty := by simp [stored, accepted] at h; omega

theorem duty_le : r.duty ≤ 16 := by simp [stored, accepted] at h; omega

theorem cutoff_le : r.cutoff ≤ 65535 := by simp [stored, accepted] at h; omega

theorem resume_lt_warn : r.resume < r.warn := by simp [stored, accepted] at h; omega

theorem gap_of_flipper (hc : r.cls = .flipper) : r.gap = 0 := by simp [stored, hc] at h; exact h.2

end CoilRecord

/-! ### Derating (R65) and hold loads (R1) -/

/-- d_eff lies from 1 to d (R65). -/
theorem derate_bounds {r : CoilRecord} (h : r.stored = true) (x : Nat) : 1 ≤ derate r x ∧ derate r x ≤ r.duty := by
  have hd := CoilRecord.duty_pos h
  unfold derate
  split
  · exact ⟨hd, Nat.le_refl _⟩
  · split
    · next h1 h2 =>
      have h3 : (x - r.warn) * (r.duty - 1) / (r.cutoff - r.warn) ≤ r.duty - 1 := by
        have : 0 < r.cutoff - r.warn := by omega
        calc (x - r.warn) * (r.duty - 1) / (r.cutoff - r.warn)
            ≤ (r.cutoff - r.warn) * (r.duty - 1) / (r.cutoff - r.warn) :=
              Nat.div_le_div_right (Nat.mul_le_mul_right _ (by omega))
          _ = r.duty - 1 := Nat.mul_div_cancel_left _ this
      generalize (x - r.warn) * (r.duty - 1) / (r.cutoff - r.warn) = q at h3
      omega
    · omega

theorem derate_le {r : CoilRecord} (h : r.stored = true) (x : Nat) : derate r x ≤ 16 :=
  (derate_bounds h x).2.trans (CoilRecord.duty_le h)

theorem ceilDiv_mono {a b : Nat} (h : a ≤ b) (n : Nat) : ceilDiv a n ≤ ceilDiv b n :=
  Nat.div_le_div_right (by omega)

/-- A hold costs no more than full drive (R1). -/
theorem ceilDiv_hold_le (w : Nat) {d : Nat} (h : d ≤ 16) : ceilDiv (w * d) 16 ≤ w := by
  have : w * d ≤ w * 16 := Nat.mul_le_mul_left _ h
  unfold ceilDiv
  omega

/-- A channel's load never exceeds its weight (R38). -/
theorem load_le_weight (ch : Channel) (h : ch.heat.dEff ≤ 16) : ch.load ≤ ch.coil.weight := by
  unfold Channel.load
  split
  · exact Nat.le_refl _
  · exact ceilDiv_hold_le _ h
  all_goals exact Nat.zero_le _

theorem generalLoad_le_load (ch : Channel) : ch.generalLoad ≤ ch.load := by
  unfold Channel.generalLoad; split <;> omega

theorem generalLoad_flipper {ch : Channel} (h : ch.coil.cls = .flipper) : ch.generalLoad = 0 := by
  simp [Channel.generalLoad, h]

/-- The load depends on the coil record, the state and the duty alone. -/
theorem generalLoad_congr {x y : Channel} (hc : x.coil = y.coil) (hs : x.state = y.state) (hd : x.heat.dEff = y.heat.dEff) :
    x.generalLoad = y.generalLoad := by
  simp [Channel.generalLoad, Channel.load, hc, hs, hd]

/-! ### The operations of the heat model -/

/-- Writing a heat whose duty is the same. -/
theorem CoilWork.heat {s : State} {c : ChannelId} {x : Heat} (hd : x.dEff = (s.chan c).heat.dEff)
    (hh : Safe s → x.h ≤ 65535) : CoilWork s (s.setHeat c x) :=
  .chan rfl (fun _ => .inl) fun h => ⟨hd ▸ h.duty c, hh h, h.claims c, .inl (Nat.le_of_eq (generalLoad_congr rfl rfl hd))⟩

theorem CoilWork.setThermal (s : State) (c : ChannelId) (t : Thermal) : CoilWork s (setThermal s c t) := by
  unfold Machine.setThermal
  refine .trans (t := s.setHeat c { (s.chan c).heat with thermal := t }) (.heat rfl fun h => h.heat c) ?_
  exact .ite (fun _ => .setFlagBoth _ _ _) (fun _ => .refl _)

theorem CoilWork.noteCutoff (s : State) (c : ChannelId) : CoilWork s (noteCutoff s c) := by
  unfold Machine.noteCutoff
  refine .trans ?_ (.setFlagBoth _ _ _)
  exact .heat rfl fun h => h.heat c

theorem CoilWork.enterCutoff (s : State) (c : ChannelId) : CoilWork s (enterCutoff s c) :=
  (CoilWork.setThermal _ _ _).trans (.noteCutoff _ _)

/-- The heat check is coil work, whatever it answers (R66, R67). -/
theorem CoilWork.heatCheck (s : State) (c : ChannelId) (w : Nat) : CoilWork s (heatCheck s c w).1 := by
  unfold Machine.heatCheck
  simp only
  split
  · exact .enterCutoff _ _
  · next hc =>
    refine .trans ?_ (.setThermal _ _ _)
    refine .heat rfl fun h => ?_
    have := CoilRecord.cutoff_le (h.record c)
    simp only [Heat.charge]
    omega

theorem CoilWork.recomputeThermal (s : State) (c : ChannelId) : CoilWork s (recomputeThermal s c) := by
  unfold Machine.recomputeThermal
  refine .ite (fun _ => .refl _) fun _ => ?_
  exact .ite (fun _ => .enterCutoff _ _) (fun _ => .setThermal _ _ _)

/-- The heat check reports no load. -/
theorem report_same (a : Arbiter) (x y : Channel) (h1 : y.generalLoad = x.generalLoad) (h2 : y.flipperLoad = x.flipperLoad)
    (h3 : x.generalLoad ≤ a.general) (h4 : x.flipperLoad ≤ a.flipper) : a.report x y = a := by
  cases a
  simp only [Arbiter.report, Arbiter.mk.injEq, and_true] at *
  omega

theorem flipperLoad_congr {x y : Channel} (hc : x.coil = y.coil) (hs : x.state = y.state) (hd : x.heat.dEff = y.heat.dEff) :
    x.flipperLoad = y.flipperLoad := by
  simp [Channel.flipperLoad, Channel.load, hc, hs, hd]

/-- Writing a heat whose duty is the same leaves the arbiter as it was. -/
theorem setHeat_arb {s : State} (h : Safe s) {c : ChannelId} {x : Heat} (hd : x.dEff = (s.chan c).heat.dEff) :
    (s.setHeat c x).arb = s.arb :=
  report_same _ _ _ (generalLoad_congr rfl rfl hd) (flipperLoad_congr rfl rfl hd) (h.general_le c) (h.flipper_le c)

@[simp] theorem setFlagBoth_arb (s : State) (n : FlagName) (subject : Option Nat) : (setFlagBoth s n subject).arb = s.arb := rfl

theorem setThermal_arb {s : State} (h : Safe s) (c : ChannelId) (t : Thermal) : (setThermal s c t).arb = s.arb := by
  unfold setThermal
  simp only
  split
  · rw [setFlagBoth_arb]; exact setHeat_arb h rfl
  · exact setHeat_arb h rfl

/-- A passed heat check leaves the arbiter as it was. -/
theorem heatCheck_arb {s s' : State} {c : ChannelId} {w w' : Nat} (h : Safe s) (hq : heatCheck s c w = (s', some w')) :
    s'.arb = s.arb := by
  unfold heatCheck at hq
  simp only at hq
  split at hq
  · simp at hq
  · next hc =>
    obtain ⟨rfl, -⟩ := Prod.mk.inj hq
    have hw : CoilWork s (s.setHeat c ((s.chan c).heat.charge (s.chan c).coil w (checkedWidth (s.chan c).coil (s.chan c).heat.h w))) := by
      refine .heat rfl fun _ => ?_
      have := CoilRecord.cutoff_le (h.record c)
      simp only [Heat.charge]
      omega
    rw [setThermal_arb (hw.safe h)]
    exact setHeat_arb h rfl

/-- A channel enters HOLD from a drive, or as a FLIPPER-class winding (R7, R88). -/
theorem CoilWork.enterHold {s : State} {c : ChannelId}
    (hg : Safe s → (s.chan c).coil.cls = .flipper ∨ (s.chan c).load = (s.chan c).coil.weight) : CoilWork s (enterHold s c) := by
  refine .chan rfl (fun _ => .inl) fun h => ⟨?_, h.heat c, h.claims c, ?_⟩
  · have := derate_bounds (h.record c) (s.chan c).heat.h
    exact ⟨this.1, derate_le (h.record c) _⟩
  · rcases hg h with hf | hl
    · exact .inl (le_of_eq_of_le (generalLoad_flipper hf) (Nat.zero_le _))
    · refine .inl ?_
      have := ceilDiv_hold_le (s.chan c).coil.weight (derate_le (h.record c) (s.chan c).heat.h)
      simp only [Channel.generalLoad]
      split
      · exact Nat.le_refl _
      · rw [hl]; exact this

/-- A drive starts on a FLIPPER-class channel, or within the general pool (R6, R36). -/
theorem CoilWork.startDrive {s : State} {c : ChannelId} {kind : DriveKind} {w : Nat}
    (hg : Safe s → (s.chan c).coil.cls = .flipper ∨ s.arb.general + (s.chan c).coil.weight ≤ generalPool s) :
    CoilWork s (startDrive s c kind w) := by
  refine .chan rfl (fun _ => .inl) fun h => ⟨h.duty c, h.heat c, h.claims c, ?_⟩
  rcases hg h with hf | hl
  · exact .inl (le_of_eq_of_le (generalLoad_flipper hf) (Nat.zero_le _))
  · refine .inr ?_
    simp only [Channel.generalLoad, Channel.load]
    split <;> omega

theorem CoilWork.clearChannel (s : State) (c : ChannelId) : CoilWork s (clearChannel s c) :=
  .chan rfl (fun _ => .inl) fun h => ⟨h.duty c, h.heat c, h.claims c, .inl (Nat.le_of_eq (generalLoad_congr rfl rfl rfl))⟩

end Sys2Proof.Machine
end

