-- ==== Sys2Proof/Laws/Arbiter.lean ====
section
/-! SUPPORT. The arbiter's operations and those its walk reaches are coil work (Safety.lean): one lemma for each. -/

namespace Sys2Proof.Machine

-- One declaration at a time: the package as one text is checked under a limit of memory, and each waiting thread takes its stack of it.
set_option Elab.async false

namespace CoilWork

/-! ### Pull-ins -/

theorem owed (s : State) (c : ChannelId) (b : Bool) : CoilWork s (s.setChan c { s.chan c with owed := b }) :=
  .chanQuiet rfl rfl (fun _ => id) (Nat.le_of_eq (generalLoad_congr rfl rfl rfl))

theorem makePullIn {s : State} {c : ChannelId} (hroom : listFull s = false) (hc : pullInCondition s c = true) :
    CoilWork s (makePullIn s c) := by
  have hn : entryOf s c = none := by simp [pullInCondition] at hc; exact hc.2
  exact .trans (.owed s c false) (.enter (s := s.setChan c { s.chan c with owed := false })
    (e := ⟨c, .pullIn (s.chan c).claims, (s.chan c).coil.defWidth, s.sw.partTime, none, 0⟩) hroom hn
    fun p x => .inl ⟨c, by rw [State.chan_setChan_self]; exact x⟩)

theorem pullInTest (s : State) (c : ChannelId) : CoilWork s (pullInTest s c) := by
  unfold Machine.pullInTest
  refine .ite (fun hc => ?_) fun _ => .refl _
  refine .ite (fun _ => .owed _ _ _) fun hf => ?_
  exact .makePullIn (by simpa using hf) hc

/-! ### Trains and step timing -/

theorem endTrain (s : State) (t : StepperId) : CoilWork s (endTrain s t) := by
  unfold Machine.endTrain
  simp only
  split
  · next train next h =>
    refine .trans ?_ (.setFlagPorts _ _ _ _)
    refine .stepperSub rfl fun p x => ?_
    rw [h, told_running]
    exact Bool.or_eq_true_iff.2 (.inr x)
  · refine .trans ?_ (.setFlagPorts _ _ _ _)
    exact .stepperRests rfl
  all_goals exact .refl _

theorem clampTrain (s : State) (t : StepperId) : CoilWork s (clampTrain s t) := by
  unfold Machine.clampTrain
  simp only
  split
  · next train next h =>
    refine .trans ?_ (.endTrain _ _)
    refine .stepperSub rfl fun p x => ?_
    rw [h]
    cases next <;> exact x
  all_goals exact .refl _

theorem entryOf_of_stepReady {s : State} {t : StepperId} {c : ChannelId} (h : stepReady s t = some c) : entryOf s c = none := by
  unfold stepReady at h
  simp only at h
  split at h
  · simp at h
  · split at h
    · simp at h
    · split at h
      · next hc =>
        simp only [Option.some.injEq] at h
        subst h
        simp at hc
        exact hc.1.2
      · simp at h

theorem enterStep {s : State} {t : StepperId} {c : ChannelId} (hf : listFull s = false) (he : entryOf s c = none) :
    CoilWork s (enterStep s t c) := by
  unfold Machine.enterStep
  refine .trans (t := s.setStepper t { s.stepper t with homingEntry := (s.stepper t).state.isHoming }) (.stepper rfl) ?_
  exact .enter (e := stepEntry s t c) hf he fun p x => absurd x (by simp [stepEntry, Work.ports, has_empty])

theorem stepTestN (n : Nat) (s : State) (t : StepperId) : CoilWork s (stepTestN n s t) := by
  induction n generalizing s with
  | zero => exact .refl _
  | succ n ih =>
    unfold Machine.stepTestN
    split
    · exact .refl _
    · next c hc =>
      refine .ite (fun _ => (CoilWork.clampTrain s t).trans (ih _)) fun _ => ?_
      refine .ite (fun _ => .stepper rfl) fun hf => ?_
      exact .enterStep (by simpa using hf) (entryOf_of_stepReady hc)

theorem stepTest (s : State) (t : StepperId) : CoilWork s (stepTest s t) := .stepTestN 3 s t

theorem turnedAway (s : State) (t : StepperId) (k : Nat) (counted : Bool) :
    CoilWork s (if counted then s.setStepper t ((s.stepper t).lose k) else s) :=
  .ite (fun _ => .stepper rfl) fun _ => .refl _

/-- A train offered to a stepper, whatever the answer (R109), of an origin that trains name already or that is LIVE. -/
theorem offerTrain (s : State) (t : StepperId) (dir : Direction) (k : Nat) (origin : Origin) (counted : Bool)
    (hn : ∀ p, origin.ports.has p = true → TrainNames s p ∨ (s.port p).live = true) :
    CoilWork s (offerTrain s t dir k origin counted).1 := by
  have away := turnedAway s t k counted
  unfold Machine.offerTrain
  simp only
  split
  · exact away
  · split
    · exact away
    · exact away
    · split
      · exact away
      · refine .trans ?_ (.stepTest _ _)
        exact .stepperTo rfl hn
    · next train h =>
      split
      · exact away
      · refine .stepperTo rfl fun p x => ?_
        rw [told_running, Bool.or_eq_true] at x
        exact x.elim (fun y => .inl ⟨t, by rw [h]; exact y⟩) (hn p)
    · next train next h =>
      split
      · exact away
      · split
        · refine .stepperTo rfl fun p x => ?_
          rw [told_running, Bool.or_eq_true, has_union, Bool.or_eq_true] at x
          have named : (train.origin.ports.has p || next.origin.ports.has p) = true → TrainNames s p :=
            fun y => ⟨t, by rw [h, told_running]; exact y⟩
          rcases x with x | x | x
          · exact .inl (named (by simp [x]))
          · exact .inl (named (by simp [x]))
          · exact hn p x
        · exact away

/-! ### Freed places -/

theorem handoutChannel (s : State) (c : ChannelId) : CoilWork s (handoutChannel s c) := by
  unfold Machine.handoutChannel
  refine .ite (fun h => ?_) fun _ => .refl _
  have hroom : listFull s = false := by simp at h; exact h.1
  refine .trans (.owed s c false) ?_
  exact .ite (fun hc => .makePullIn hroom hc) fun _ => .refl _

theorem handoutStepper (s : State) (t : StepperId) : CoilWork s (handoutStepper s t) := by
  unfold Machine.handoutStepper
  refine .ite (fun _ => ?_) fun _ => .refl _
  refine .trans ?_ (.stepTest _ _)
  exact .stepper rfl

theorem handout (s : State) : CoilWork s (handout s) :=
  (CoilWork.foldl CoilWork.handoutChannel _ s).trans (.foldl CoilWork.handoutStepper _ _)

/-! ### Removals and their reports -/

theorem loseFire (s : State) (k : LinkId) : CoilWork s (loseFire s k) := .link rfl

/-- The removal of an entry without a grant (R59). -/
theorem removeEntry (s : State) (e : Entry) : CoilWork s (removeEntry s e) := by
  unfold Machine.removeEntry
  simp only
  have h1 := CoilWork.dropEntry s e.channel
  have h2 := fun u : State => CoilWork.ite (s := u) (p := e.passed = Config.blockingCount) (fun _ => .bring u) fun _ => .refl u
  have h3 := fun u : State => CoilWork.ite (s := u) (p := listFull s = true) (fun _ => .handout u) fun _ => .refl u
  have h := h1.trans ((h2 _).trans (h3 _))
  split
  · exact h
  all_goals exact h.trans (.pullInTest _ _)

theorem reportDropped (s : State) (e : Entry) (r : DropReason) : CoilWork s (reportDropped s e r) := by
  unfold Machine.reportDropped
  split
  · exact .dropPulse _ _ _ _
  · exact .ite (fun _ => .dropPulse _ _ _ _) fun _ => .refl _
  · exact .trans (.loseFire _ _) (.dropPulse _ _ _ _)
  · exact .refl _

theorem reportQuietly (s : State) (e : Entry) : CoilWork s (reportQuietly s e) := by
  unfold Machine.reportQuietly
  split
  · exact .loseFire _ _
  all_goals exact .refl _

/-! ### Grants -/

theorem grantStep (s : State) (t : StepperId) (c : ChannelId) : CoilWork s (grantStep s t c) :=
  .trans (t := s.setArb { s.arb with pointer := t + 1 }) (.arb rfl rfl rfl) (.stepper rfl)

theorem grantFire (s : State) (k : LinkId) : CoilWork s (grantFire s k) := by
  unfold Machine.grantFire
  simp only
  split
  · exact .link rfl
  · refine .trans ?_ (.ite (fun _ => .link rfl) fun _ => .refl _)
    refine .trans ?_ (.offerTrain _ _ _ _ _ _ fun p x => absurd x (by simp [has_empty]))
    exact .link rfl

theorem dropEntry_fits (s : State) (c d : ChannelId) : fits (Machine.dropEntry s c) d = fits s d := rfl

theorem fits_iff {s : State} {c : ChannelId} : fits s c = true ↔ s.arb.general + (s.chan c).coil.weight ≤ generalPool s := by
  simp [fits]

/-- The grant of an entry that fits, after coil work from a state that may be safe (R52). -/
theorem grant {r s : State} {e : Entry} {w : Nat} (hr : CoilWork r s) (hf : Safe r → fits s e.channel = true) :
    CoilWork r (grant s e w) := by
  unfold Machine.grant
  simp only
  have h0 := hr.trans (CoilWork.dropEntry s e.channel)
  have h1 : CoilWork r (Machine.startDrive (Machine.dropEntry s e.channel) e.channel e.work.kind w) := by
    refine ⟨h0.pending, h0.coolTimer, h0.supply, h0.sw, h0.lamp, h0.ports, h0.lastServed, h0.part, h0.store, h0.orders, ?_, ?_,
      h0.entered, h0.origins, h0.latched, ?_⟩
    · refine Eq.trans ?_ h0.profile
      exact workingProfile_setChan _ _ _ rfl
    · intro c p x
      refine h0.claimed c p ?_
      rw [Machine.startDrive, chan_setChan] at x
      split at x
      · next e => subst e; exact x
      · exact x
    · intro h
      have g := CoilWork.startDrive (s := Machine.dropEntry s e.channel) (c := e.channel) (kind := e.work.kind) (w := w)
        fun _ => .inr (fits_iff.1 (hf h))
      exact g.safe (h0.safe h)
  have h2 : CoilWork r (match e.work with
      | .step t => Machine.grantStep (Machine.startDrive (Machine.dropEntry s e.channel) e.channel e.work.kind w) t e.channel
      | .pulse _ => Machine.startDrive (Machine.dropEntry s e.channel) e.channel e.work.kind w
      | .pullIn _ => Machine.startDrive (Machine.dropEntry s e.channel) e.channel e.work.kind w
      | .fire _ _ => Machine.startDrive (Machine.dropEntry s e.channel) e.channel e.work.kind w) := by
    split
    · exact h1.trans (.grantStep _ _ _)
    all_goals exact h1
  have h3 := h2.trans (CoilWork.ite (p := listFull s = true) (fun _ => .handout _) fun _ => .refl _)
  split
  · exact h3.trans (.grantFire _ _)
  all_goals exact h3

theorem refuseEntry (s : State) (e : Entry) : CoilWork s (refuseEntry s e) :=
  (CoilWork.reportDropped s e .hot).trans (.removeEntry _ e)

/-! ### Attempts -/

theorem entryOf_channel {s : State} {c : ChannelId} {e : Entry} (h : entryOf s c = some e) : e.channel = c := by
  have := List.find?_some h
  simpa using this

/-- The walk of a grant attempt (R51). -/
theorem walk (l failed passed : List ChannelId) (s : State) : CoilWork s (walk l failed passed s).1 := by
  induction l generalizing failed passed s with
  | nil => exact .refl _
  | cons c rest ih =>
    unfold Machine.walk
    split
    · exact ih _ _ _
    · next e he =>
      split
      · next hf =>
        have hq := CoilWork.heatCheck s c e.width
        split
        · next s' h =>
          rw [h] at hq
          exact hq.trans ((CoilWork.refuseEntry _ _).trans (ih _ _ _))
        · next s' w h =>
          have hs := fun hs : Safe s => heatCheck_arb hs h
          rw [h] at hq
          refine (CoilWork.grant hq fun hsafe => ?_).trans (ih _ _ _)
          have hw : (s'.chan e.channel).coil = (s.chan e.channel).coil := hq.coil _
          have hp : generalPool s' = generalPool s := congrArg (fun m => m.cfg.budget - m.cfg.reserve) hq.supply
          rw [fits_iff, hs hsafe, hw, hp, entryOf_channel he]
          exact fits_iff.1 hf
      · split
        · exact .refl _
        · exact ih _ _ _

theorem raisePassed (s : State) (cs : List ChannelId) : CoilWork s (raisePassed s cs) := by
  refine .relist ?_ fun e he p x => ?_
  rotate_left
  · obtain ⟨d, hd, rfl⟩ := List.mem_map.1 he
    refine .inl ⟨d, hd, ?_⟩
    split at x <;> exact x
  rw [List.map_map]
  refine (List.map_congr_left fun e _ => ?_) ▸ List.Sublist.refl _
  simp only [Function.comp_apply]
  split <;> rfl

theorem attempt (s : State) : CoilWork s (attempt s) :=
  (CoilWork.walk (selection s) [] [] s).trans (.raisePassed _ _)

theorem settleN (n : Nat) (s : State) : CoilWork s (settleN n s) := by
  induction n generalizing s with
  | zero => exact .arb rfl rfl rfl
  | succ n ih =>
    unfold Machine.settleN
    refine .ite (fun _ => .refl _) fun _ => ?_
    refine .trans ?_ ((CoilWork.attempt _).trans (ih _))
    exact .arb rfl rfl rfl

/-- The attempts that an effect has brought (R48, R50). -/
theorem settle (s : State) : CoilWork s (settle s) := .settleN 49 s

theorem attemptNow (s : State) : CoilWork s (attemptNow s) := (CoilWork.bring s).trans (.settle _)

end CoilWork

end Sys2Proof.Machine
end

