-- ==== Sys2Proof/Laws/Parked.lean ====
section
/-! SUPPORT. What the arbiter's own work (grants, removals, freed places, attempts) leaves of a channel that it may not drive: one that
is not IDLE, or is in CUTOFF (R47), keeps everything but its pull-in owed mark. -/

namespace Sys2Proof.Machine

/-- Two writes of one channel leave the second, its load reported once. -/
theorem State.setChan_setChan (s : State) (c : ChannelId) (x y : Channel) : (s.setChan c x).setChan c y = s.setChan c y := by
  have h : (s.channels.set c x).set c y = s.channels.set c y := by
    apply Table.ext_get; intro j; simp only [Table.get_set]; split <;> rfl
  have e : ∀ a b d : Nat, a - b + d - d = a - b := fun a b d => Nat.add_sub_cancel _ _
  simp only [State.setChan, State.chan, Table.get_set_self, h, Arbiter.report, e]

/-- Two writes of one stepper leave the second. -/
theorem State.setStepper_setStepper (s : State) (t : StepperId) (x y : Stepper) :
    (s.setStepper t x).setStepper t y = s.setStepper t y := by
  simp only [State.setStepper]
  congr 1
  apply Table.ext_get; intro j; simp only [Table.get_set]; split <;> rfl

/-- Two writes of one link leave the second. -/
theorem State.setLink_setLink (s : State) (k : LinkId) (x y : Link) : (s.setLink k x).setLink k y = s.setLink k y := by
  simp only [State.setLink]
  congr 1
  apply Table.ext_get; intro j; simp only [Table.get_set]; split <;> rfl

/-- Two writes of one flipper leave the second. -/
theorem State.setFlip_setFlip (s : State) (f : FlipperId) (x y : Flipper) : (s.setFlip f x).setFlip f y = s.setFlip f y := by
  simp only [State.setFlip]
  congr 1
  apply Table.ext_get; intro j; simp only [Table.get_set]; split <;> rfl

/-- An entry found for a channel is that channel's. -/
theorem entryOf_channel {s : State} {c : ChannelId} {e : Entry} (h : entryOf s c = some e) : e.channel = c := by
  simpa using List.find?_some h

/-- The channel is one that the arbiter may not drive (R47). -/
def Barred (s : State) (c : ChannelId) : Prop := (s.chan c).state ≠ .idle ∨ (s.chan c).heat.thermal = .cutoff

/-- The channel keeps everything but its pull-in owed mark. -/
def Kept (c : ChannelId) (s t : State) : Prop := ∃ owed, t.chan c = { s.chan c with owed := owed }

namespace Kept

variable {c : ChannelId}

theorem of_same {s t : State} (h : t.channels = s.channels) : Kept c s t := ⟨(s.chan c).owed, by rw [State.chan, h]; rfl⟩

theorem of_chan {s t : State} (h : t.chan c = s.chan c) : Kept c s t := ⟨(s.chan c).owed, h⟩

theorem refl (s : State) : Kept c s s := of_same rfl

theorem trans {s t u : State} (h : Kept c s t) (k : Kept c t u) : Kept c s u := by
  obtain ⟨x, hx⟩ := h
  obtain ⟨y, hy⟩ := k
  exact ⟨y, by rw [hy, hx]⟩

theorem foldl {α : Type} {f : State → α → State} (h : ∀ s x, Kept c s (f s x)) (l : List α) (s : State) :
    Kept c s (l.foldl f s) := by
  induction l generalizing s with
  | nil => exact refl s
  | cons x l ih => exact (h s x).trans (ih _)

theorem barred {s t : State} (h : Kept c s t) (b : Barred s c) : Barred t c := by
  obtain ⟨x, hx⟩ := h
  simpa only [Barred, hx] using b

theorem setChan (s : State) {d : ChannelId} (x : Channel) (h : d ≠ c) : Kept c s (s.setChan d x) :=
  of_chan (State.chan_setChan_ne _ _ _ _ h.symm)

theorem setOwed (s : State) (d : ChannelId) (b : Bool) : Kept c s (s.setChan d { s.chan d with owed := b }) := by
  by_cases h : d = c
  · subst h; exact ⟨b, State.chan_setChan_self _ _ _⟩
  · exact setChan s _ h

end Kept

/-! ### What touches no channel -/

theorem setFlagPorts_channels (s : State) (ps : PortSet) (n : FlagName) (subject : Option Nat) :
    (setFlagPorts s ps n subject).channels = s.channels := by
  simp only [setFlagPorts]; split_ifs <;> rfl

theorem dropPulse_channels (s : State) (ps : PortSet) (c : ChannelId) (r : DropReason) :
    (dropPulse s ps c r).channels = s.channels := by
  simp only [dropPulse]; split_ifs <;> rfl

theorem endTrain_channels (s : State) (t : StepperId) : (endTrain s t).channels = s.channels := by
  simp only [endTrain]; split <;> first | rfl | exact setFlagPorts_channels _ _ _ _

theorem clampTrain_channels (s : State) (t : StepperId) : (clampTrain s t).channels = s.channels := by
  simp only [clampTrain]; split <;> first | rfl | exact endTrain_channels _ _

theorem stepTestN_channels (n : Nat) (s : State) (t : StepperId) : (stepTestN n s t).channels = s.channels := by
  induction n generalizing s with
  | zero => rfl
  | succ n ih =>
    simp only [stepTestN]
    split
    · rfl
    · split_ifs
      · rw [ih, clampTrain_channels]
      · rfl
      · rfl

theorem stepTest_channels (s : State) (t : StepperId) : (stepTest s t).channels = s.channels := stepTestN_channels _ _ _

theorem offerTrain_channels (s : State) (t : StepperId) (dir : Direction) (k : Nat) (origin : Origin) (counted : Bool) :
    (offerTrain s t dir k origin counted).1.channels = s.channels := by
  simp only [offerTrain]
  split_ifs <;> first | rfl | (split <;> (try split_ifs) <;> first | rfl | exact stepTest_channels _ _)

theorem grantFire_channels (s : State) (k : LinkId) : (grantFire s k).channels = s.channels := by
  simp only [grantFire]
  split
  · rfl
  · split_ifs <;> simp [offerTrain_channels]

theorem reportDropped_channels (s : State) (e : Entry) (r : DropReason) : (reportDropped s e r).channels = s.channels := by
  simp only [reportDropped]
  split
  · exact dropPulse_channels _ _ _ _
  · split_ifs
    · exact dropPulse_channels _ _ _ _
    · rfl
  · rw [dropPulse_channels]; rfl
  · rfl

namespace Kept

variable {c : ChannelId}

theorem makePullIn (s : State) (d : ChannelId) : Kept c s (makePullIn s d) := setOwed s d false

theorem pullInTest (s : State) (d : ChannelId) : Kept c s (pullInTest s d) := by
  unfold Machine.pullInTest
  split_ifs
  · exact setOwed s d true
  · exact makePullIn s d
  · exact refl s

theorem handoutChannel (s : State) (d : ChannelId) : Kept c s (handoutChannel s d) := by
  unfold Machine.handoutChannel
  simp only
  split_ifs
  · exact (setOwed s d false).trans (makePullIn _ d)
  · exact setOwed s d false
  · exact refl s

theorem handoutStepper (s : State) (t : StepperId) : Kept c s (handoutStepper s t) := by
  unfold Machine.handoutStepper
  split_ifs
  · exact of_same (stepTest_channels _ _)
  · exact refl s

theorem handout (s : State) : Kept c s (handout s) := (foldl handoutChannel _ s).trans (foldl handoutStepper _ _)

theorem removeEntry (s : State) (e : Entry) : Kept c s (removeEntry s e) := by
  have h : ∀ u : State, u.channels = s.channels → Kept c s (if listFull s = true then Machine.handout u else u) := by
    intro u hu
    split_ifs
    · exact (of_same hu).trans (handout u)
    · exact of_same hu
  unfold Machine.removeEntry
  simp only
  have hb : ((if e.passed = Config.blockingCount then bring (dropEntry s e.channel) else dropEntry s e.channel)).channels
      = s.channels := by split_ifs <;> rfl
  split <;> first | exact h _ hb | exact (h _ hb).trans (pullInTest _ _)

theorem refuseEntry (s : State) (e : Entry) : Kept c s (refuseEntry s e) :=
  (of_same (reportDropped_channels s e .hot)).trans (removeEntry _ _)

theorem heatCheck (s : State) {d : ChannelId} (w : Nat) (h : d ≠ c) : Kept c s (heatCheck s d w).1 := by
  refine of_chan ?_
  have hs : ∀ (u : State) (x : Heat), (u.setHeat d x).chan c = u.chan c := fun u x => State.chan_setChan_ne _ _ _ _ h.symm
  have hf : ∀ (u : State) n k, (setFlagBoth u n k).chan c = u.chan c := fun u n k => by
    simp only [State.chan, setFlagBoth, setFlagPorts_channels]
  have ht : ∀ (u : State) t, (setThermal u d t).chan c = u.chan c := fun u t => by
    simp only [setThermal]; split_ifs <;> simp only [hf, hs]
  simp only [Machine.heatCheck, enterCutoff, noteCutoff]
  split_ifs <;> simp only [hf, hs, ht]

theorem grant (s : State) {e : Entry} (w : Nat) (h : e.channel ≠ c) : Kept c s (grant s e w) := by
  have hd : ∀ kind, Kept c s (startDrive (dropEntry s e.channel) e.channel kind w) := fun kind =>
    (of_same rfl : Kept c s (dropEntry s e.channel)).trans (setChan _ _ h)
  have hx : ∀ u, Kept c s u → Kept c s (if listFull s = true then Machine.handout u else u) := by
    intro u hu; split_ifs
    · exact hu.trans (handout u)
    · exact hu
  have hf : ∀ (u : State) (k : LinkId), Kept c s u → Kept c s (grantFire u k) := fun u k hu =>
    hu.trans (of_same (grantFire_channels _ _))
  have hs : ∀ (u : State) (t : StepperId) (d : ChannelId), Kept c s u → Kept c s (grantStep u t d) := fun u t d hu =>
    hu.trans (of_same rfl)
  unfold Machine.grant
  cases e.work with
  | pulse origin => exact hx _ (hd _)
  | pullIn origin => exact hx _ (hd _)
  | fire k notified => exact hf _ _ (hx _ (hd _))
  | step t => exact hx _ (hs _ _ _ (hd _))

theorem walk (l failed passed : List ChannelId) (s : State) (h : c ∉ l) : Kept c s (walk l failed passed s).1 := by
  induction l generalizing failed passed s with
  | nil => exact refl s
  | cons d rest ih =>
    have hr : c ∉ rest := fun x => h (List.mem_cons_of_mem _ x)
    have hd : d ≠ c := fun x => h (x ▸ List.mem_cons_self)
    unfold Machine.walk
    split
    · exact ih _ _ _ hr
    · next e he =>
      have hc : e.channel ≠ c := by rw [entryOf_channel he]; exact hd
      have hk := heatCheck s e.width hd
      split_ifs
      · split
        · next u hu => rw [hu] at hk; exact (hk.trans (refuseEntry _ _)).trans (ih _ _ _ hr)
        · next u w hu => rw [hu] at hk; exact (hk.trans (grant _ _ hc)).trans (ih _ _ _ hr)
      · exact refl s
      · exact ih _ _ _ hr

/-- A barred channel is in no selection (R47). -/
theorem not_mem_selection {s : State} (b : Barred s c) : c ∉ selection s := by
  intro h
  simp only [selection, List.map_append, List.mem_append, List.mem_map] at h
  have key : ∀ e ∈ s.arb.waitList.filter (fun e => eligible s e), e.channel ≠ c := by
    intro e he hc
    have := (List.mem_filter.1 he).2
    simp only [eligible, inCutoff, hc, Bool.and_eq_true, decide_eq_true_eq, Bool.not_eq_true'] at this
    rcases b with b | b
    · exact b this.1.1
    · simp [b] at this
  rcases h with (⟨e, he, hc⟩ | ⟨e, he, hc⟩) | ⟨e, he, hc⟩
  · exact key e (List.mem_filter.1 he).1 hc
  · exact key e (List.mem_filter.1 he).1 hc
  · obtain ⟨t, _, ht⟩ := List.mem_filterMap.1 he
    exact key e (List.mem_of_find?_eq_some ht) hc

theorem attempt {s : State} (b : Barred s c) : Kept c s (attempt s) :=
  (walk _ [] [] s (not_mem_selection b)).trans (of_same rfl)

theorem settleN (n : Nat) {s : State} (b : Barred s c) : Kept c s (settleN n s) := by
  induction n generalizing s with
  | zero => exact of_same rfl
  | succ n ih =>
    unfold Machine.settleN
    split_ifs
    · exact refl s
    · have h := attempt (c := c) (s := s.setArb { s.arb with attempts := s.arb.attempts - 1 }) b
      exact ((of_same rfl).trans h).trans (ih (h.barred b))

/-- The attempts that were brought leave a barred channel as it is, but for its owed mark. -/
theorem settle {s : State} (b : Barred s c) : Kept c s (settle s) := settleN 49 b

theorem attemptNow {s : State} (b : Barred s c) : Kept c s (attemptNow s) := (of_same rfl : Kept c s (bring s)).trans (settle b)

end Kept

end Sys2Proof.Machine
end

