-- ==== Sys2Proof/Laws/Coils.lean ====
section
/-! SUPPORT. The operations of the stepper unit, the channel unit, the flipper unit and the direct-fire unit are coil work
(Safety.lean): one lemma for each. -/

namespace Sys2Proof.Machine

-- One declaration at a time: the package as one text is checked under a limit of memory, and each waiting thread takes its stack of it.
set_option Elab.async false

namespace CoilWork

/-! ### Steppers (chapter 7) -/

theorem removeStepEntry (s : State) (t : StepperId) : CoilWork s (removeStepEntry s t) := by
  unfold Machine.removeStepEntry
  split
  · exact .refl _
  · exact .removeEntry _ _

theorem faultStepper (s : State) (t : StepperId) (b : Bool) : CoilWork s (faultStepper s t b) := by
  unfold Machine.faultStepper
  refine .trans ?_ (.setFlagBoth _ _ _)
  refine .trans ?_ (.removeStepEntry _ _)
  exact .stepperRests rfl

theorem mismatch (s : State) (t : StepperId) : CoilWork s (mismatch s t) := by
  unfold Machine.mismatch
  refine .trans (t := s.setStepper t
    { s.stepper t with position := some (s.stepper t).cfg.homePos, mismatch := min 3 ((s.stepper t).mismatch + 1) }) (.stepper rfl) ?_
  exact .ite (fun _ => .faultStepper _ _ _) fun _ => .refl _

theorem verifyAgainst (s : State) (t : StepperId) (closed : Bool) : CoilWork s (verifyAgainst s t closed) := by
  unfold Machine.verifyAgainst
  simp only
  split
  · exact .stepper rfl
  · exact .ite (fun _ => .stepper rfl) fun _ => .mismatch _ _
  · exact .refl _
  · exact .ite (fun _ => .mismatch _ _) fun _ => .stepper rfl

theorem homeFound (s : State) (t : StepperId) (origin : PortSet) (steps : Nat) : CoilWork s (homeFound s t origin steps) := by
  unfold Machine.homeFound
  refine .trans ?_ (.setFlagPorts _ _ _ _)
  exact .stepperRests rfl

theorem homingTest (s : State) (t : StepperId) (closed : Bool) (origin : PortSet) (steps : Nat) :
    CoilWork s (homingTest s t closed origin steps) :=
  .ite (fun _ => .homeFound _ _ _ _) fun _ => .ite (fun _ => .refl _) fun _ => .faultStepper _ _ _

theorem lookHome (s : State) (t : StepperId) : CoilWork s (lookHome s t) := by
  unfold Machine.lookHome
  simp only
  split
  · exact .refl _
  · split
    · exact .verifyAgainst _ _ _
    · exact .verifyAgainst _ _ _
    · exact .homingTest _ _ _ _ _
    · exact .refl _

/-- A return to IDLE reported to its stepper (R11). -/
theorem stepperIdle (s : State) (t : StepperId) (b : Bool) : CoilWork s (stepperIdle s t b) :=
  .trans (.ite (fun _ => .lookHome _ _) fun _ => .refl _) (.stepTest _ _)

theorem carry (s : State) (t : StepperId) (o : Origin)
    (hn : ∀ p, o.ports.has p = true → TrainNames s p ∨ (s.port p).live = true) : CoilWork s (carry s t o) := by
  unfold Machine.carry
  split
  · exact .setFlagBoth _ _ _
  · split
    · exact .refl _
    · exact .offerTrain _ _ _ _ _ _ hn

/-- The counts of a step leave the ports that trains and homings name (R113). -/
theorem told_count (x : StepState) (mark : StepMark) : (x.count mark).told = x.told := by
  unfold StepState.count
  split
  · next next => cases next <;> rfl
  · rfl
  · rfl

/-- The origin of a carry is one that the stepper's trains name (R116). -/
theorem told_of_carryOrigin {x : StepState} {mark : StepMark} {p : Port} (h : (x.carryOrigin mark).ports.has p = true) :
    x.told.has p = true := by
  unfold StepState.carryOrigin at h
  split at h
  · next next => cases next with
    | none => exact h
    | some next => rw [told_running, h]; rfl
  · exact absurd h (by simp [has_empty])

/-- A step's drive end reported to its stepper (R113). -/
theorem stepDriveEnd (s : State) (t : StepperId) (c : ChannelId) (b : Bool) : CoilWork s (stepDriveEnd s t c b) := by
  unfold Machine.stepDriveEnd
  simp only
  split
  · exact .refl _
  · next step _ =>
    refine .ite (fun _ => ?_) fun _ => .refl _
    have h1 : CoilWork s (s.setStepper t { s.stepper t with
        inDrive := none
        state := (s.stepper t).state.count step.mark
        position := (s.stepper t).position.map ((s.stepper t).cfg.advance ((s.stepper t).cfg.dirOf c)) }) :=
      .stepperSub rfl fun p x => told_count (s.stepper t).state step.mark ▸ x
    have h2 := h1.trans (.ite (p := (s.stepper t).wraps = true)
      (fun _ => .carry _ t ((s.stepper t).state.carryOrigin step.mark) fun p x => .inl ⟨t, by
        rw [State.stepper_setStepper_self, told_count]; exact told_of_carryOrigin x⟩) fun _ => .refl _)
    refine h2.trans ?_
    refine .ite (fun _ => ?_) fun _ => .refl _
    refine .trans (.endTrain _ t) ?_
    exact .ite (fun _ => .refl _) fun _ => .stepTest _ _

theorem cutStep (s : State) (t : StepperId) : CoilWork s (cutStep s t) := .stepper rfl

theorem spacingExpiry (t : StepperId) (s : State) : CoilWork s (spacingExpiry t s) := by
  unfold Machine.spacingExpiry
  refine .ite (fun _ => ?_) fun _ => .refl _
  refine .trans ?_ (.settle _)
  refine .trans ?_ (.stepTest _ _)
  exact .stepper rfl

theorem stopStepper (s : State) (t : StepperId) : CoilWork s (stopStepper s t) := by
  unfold Machine.stopStepper
  refine .trans ?_ (.setFlagPorts _ _ _ _)
  refine .trans ?_ (.removeStepEntry _ _)
  exact .stepperRests rfl

theorem stopRunning (s : State) (t : StepperId) : CoilWork s (stopRunning s t) := by
  unfold Machine.stopRunning
  split
  · exact .stopStepper _ _
  all_goals exact .refl _

theorem has_single {p q : Port} (h : (PortSet.single p).has q = true) : q = p := by
  cases p <;> cases q <;> first | rfl | exact absurd h (by decide)

theorem beginHoming {p : Port} {s : State} (t : StepperId) (hl : (s.port p).live = true) : CoilWork s (beginHoming p s t).1 := by
  unfold Machine.beginHoming
  simp only
  split
  · exact .homeFound _ _ _ _
  · refine .trans ?_ (.stepTest _ _)
    exact .stepperTo rfl fun q x => .inr (has_single x ▸ hl)

/-- An accepted HOME (R120) of a LIVE port. -/
theorem home {p : Port} {s : State} (t : StepperId) (hl : (s.port p).live = true) : CoilWork s (home p s t).1 := by
  have h1 := CoilWork.stopRunning s t
  have h2 : CoilWork s (Machine.removeStepEntry
      ((Machine.stopRunning s t).setStepper t { (Machine.stopRunning s t).stepper t with due := false }) t) :=
    h1.trans (.trans (t := (Machine.stopRunning s t).setStepper t { (Machine.stopRunning s t).stepper t with due := false })
      (.stepper rfl) (.removeStepEntry _ _))
  refine h2.trans (.beginHoming t ?_)
  rw [State.port, h2.ports]
  exact hl

/-! ### Ends of drives and holds (chapter 1) -/

theorem rest (s : State) (c : ChannelId) (after : Option StepperId) : CoilWork s (rest s c after) := by
  refine .chanQuiet rfl rfl (fun _ => id) ?_
  simp only [Channel.generalLoad, Channel.load]
  split
  · exact Nat.zero_le _
  · by_cases hg : (s.chan c).coil.gap = 0 <;> simp [hg]

theorem reportIdle (s : State) (c : ChannelId) (after : Option StepperId) : CoilWork s (reportIdle s c after) := by
  unfold Machine.reportIdle
  simp only
  refine .trans ?_ (.settle _)
  refine .trans ?_ (.pullInTest _ _)
  refine .trans (.attemptNow s) ?_
  split
  · exact .refl _
  · exact .trans (.stepperIdle _ _ _) (.settle _)

/-- A drive or hold ends (R7, R10). -/
theorem release (s : State) (c : ChannelId) : CoilWork s (release s c) := by
  unfold Machine.release
  refine .trans (.trans (.rest s c none) (.attemptNow _)) ?_
  exact .ite (fun _ => .reportIdle _ _ _) fun _ => .refl _

theorem releaseIfOn (s : State) (c : ChannelId) : CoilWork s (releaseIfOn s c) :=
  .ite (fun _ => .release _ _) fun _ => .refl _

/-! ### Flippers (chapter 5) -/

theorem flipperTo (s : State) (f : FlipperId) (x : FlipState) : CoilWork s (flipperTo s f x) := .flip rfl

theorem flipperHolds (s : State) (f : FlipperId) : CoilWork s (flipperHolds s f) := .flip rfl

theorem setPhase (s : State) (f : FlipperId) (x : PowerPhase) : CoilWork s (setPhase s f x) := .flip rfl

theorem endFlipperDrives (s : State) (f : FlipperId) : CoilWork s (endFlipperDrives s f) := by
  unfold Machine.endFlipperDrives
  simp only
  have h1 : CoilWork s (match (s.flip f).cfg.power with
      | none => s
      | some c => Machine.releaseIfOn s c) := by
    split
    · exact .refl _
    · exact .releaseIfOn _ _
  split
  · exact h1
  · exact h1.trans (.releaseIfOn _ _)

theorem disableFlipper (s : State) (f : FlipperId) : CoilWork s (disableFlipper s f) :=
  (CoilWork.flipperTo _ _ _).trans (.endFlipperDrives _ _)

theorem flipperTest (s : State) (f : FlipperId) : CoilWork s (flipperTest s f) :=
  .ite (fun _ => .ite (fun _ => .flipperTo _ _ _) fun _ => .refl _)
    fun _ => .ite (fun _ => .refl _) fun _ => .disableFlipper _ _

theorem block (s : State) (f : FlipperId) : CoilWork s (block s f) := by
  unfold Machine.block
  refine .trans ?_ (.setFlagBoth _ _ _)
  exact .flip rfl

theorem names_of_power {r : FlipperRecord} {c : ChannelId} (h : r.power = some c) : r.names c = true := by
  simp [FlipperRecord.names, h]

theorem names_of_hold {r : FlipperRecord} {c h : ChannelId} (hn : r.names c = true) (hh : r.hold = some h) : r.names h = true := by
  simp only [FlipperRecord.names, Bool.and_eq_true] at hn ⊢
  exact ⟨hn.1, by simp [hh]⟩

theorem startPower (s : State) (f : FlipperId) : CoilWork s (startPower s f) := by
  unfold Machine.startPower
  simp only
  split
  · exact .refl _
  · next c hc =>
    refine .ite (fun _ => .refl _) fun _ => .ite (fun _ => .block _ _) fun _ => ?_
    have hq := CoilWork.heatCheck s c (min (s.flip f).cfg.maxPower (s.chan c).coil.maxWidth)
    split
    · next h => rw [h] at hq; exact hq.trans (.block _ _)
    · next s' w h =>
      rw [h] at hq
      refine hq.trans (.trans (t := s'.setFlip f { s.flip f with
          state := .power ⟨w, 0, false, false, false⟩
          flips := sat Config.top16 ((s.flip f).flips + 1) }) (.flip (hq.flipCfg f).symm) (.startDrive fun g => .inl ?_))
      refine g.named (f := f) ?_
      rw [State.flip_setFlip_self]
      exact names_of_power hc

theorem powerToReady (s : State) (f : FlipperId) : CoilWork s (powerToReady s f) :=
  (CoilWork.flipperTo _ _ _).trans (.endFlipperDrives _ _)

/-- The hand-over of a power drive on a channel that the flipper names (R88). -/
theorem handOver {s : State} {f : FlipperId} {c : ChannelId} (hn : (s.flip f).cfg.names c = true) : CoilWork s (handOver s f c) := by
  unfold Machine.handOver
  split
  · refine .trans ?_ (.attemptNow _)
    refine .trans ?_ (.flipperHolds _ _)
    exact .enterHold fun g => .inl (g.named hn)
  · next h hh =>
    have h1 := CoilWork.release s c
    refine h1.trans ?_
    refine .ite (fun _ => .flipperHolds _ _) fun _ => .ite (fun _ => .block _ _) fun _ => ?_
    refine .trans (.enterHold fun g => .inl (g.named (f := f) ?_)) (.flipperHolds _ _)
    rw [h1.flipCfg f]
    exact names_of_hold hn hh

theorem handOverEarly (s : State) (f : FlipperId) : CoilWork s (handOverEarly s f) := by
  unfold Machine.handOverEarly
  split
  · exact .refl _
  · next c hc => exact .handOver (names_of_power hc)

theorem repower (s : State) (f : FlipperId) : CoilWork s (repower s f) := by
  unfold Machine.repower
  simp only
  split
  · exact .refl _
  · next c hc =>
    refine .ite (fun _ => .refl _) fun _ => .ite (fun _ => (CoilWork.block _ _).trans (.endFlipperDrives _ _)) fun _ => ?_
    have hq := CoilWork.heatCheck s c (min (s.flip f).cfg.repowerWidth (s.chan c).coil.maxWidth)
    split
    · next h => rw [h] at hq; exact hq.trans ((CoilWork.block _ _).trans (.endFlipperDrives _ _))
    · next s' w h =>
      rw [h] at hq
      refine hq.trans (.trans (t := s'.setFlip f { s.flip f with
          state := .repower
          repowers := (s.flip f).repowers + 1
          repowerCount := sat Config.top16 ((s.flip f).repowerCount + 1) })
          (.flip (hq.flipCfg f).symm) (.startDrive fun g => .inl ?_))
      refine g.named (f := f) ?_
      rw [State.flip_setFlip_self]
      exact names_of_power hc

theorem buttonCloses (s : State) (f : FlipperId) : CoilWork s (buttonCloses s f) := by
  unfold Machine.buttonCloses
  split
  · exact .startPower _ _
  · exact .setPhase _ _ _
  all_goals exact .refl _

theorem buttonOpens (s : State) (f : FlipperId) : CoilWork s (buttonOpens s f) := by
  unfold Machine.buttonOpens
  split
  · exact .flipperTo _ _ _
  · exact .flipperTo _ _ _
  · exact .ite (fun _ => .powerToReady _ _) fun _ => .setPhase _ _ _
  · exact (CoilWork.flipperTo _ _ _).trans (.endFlipperDrives _ _)
  · exact (CoilWork.flipperTo _ _ _).trans (.endFlipperDrives _ _)
  all_goals exact .refl _

theorem eosCloses (s : State) (f : FlipperId) : CoilWork s (eosCloses s f) := by
  unfold Machine.eosCloses
  split
  · next phase _ =>
    refine .ite (fun _ => ?_) fun _ => .setPhase _ _ _
    exact (CoilWork.setPhase _ _ _).trans (.handOverEarly _ _)
  all_goals exact .refl _

theorem eosOpens (s : State) (f : FlipperId) : CoilWork s (eosOpens s f) := by
  unfold Machine.eosOpens
  split
  · exact .setPhase _ _ _
  · exact .repower _ _
  all_goals exact .refl _

/-- A debounced change that reaches a flipper (R133). -/
theorem flipperSwitch (w : SwitchId) (closed : Bool) (s : State) (f : FlipperId) : CoilWork s (flipperSwitch w closed s f) :=
  .ite (fun _ => .refl _) fun _ =>
    .ite (fun _ => .ite (fun _ => .buttonCloses _ _) fun _ => .buttonOpens _ _) fun _ =>
      .ite (fun _ => .ite (fun _ => .eosCloses _ _) fun _ => .eosOpens _ _) fun _ => .refl _

theorem flipperMinReached (f : FlipperId) (s : State) : CoilWork s (flipperMinReached f s) := by
  unfold Machine.flipperMinReached
  split
  · exact .ite (fun _ => .refl _) fun _ => .ite (fun _ => .powerToReady _ _) fun _ =>
      .ite (fun _ => .handOverEarly _ _) fun _ => .refl _
  all_goals exact .refl _

theorem countEosMissing (s : State) (f : FlipperId) : CoilWork s (countEosMissing s f) := by
  unfold Machine.countEosMissing
  refine .trans ?_ (.setFlagBoth _ _ _)
  exact .flip rfl

/-- The end of a FLIPPER drive on a channel that the flipper names (R86, R91). -/
theorem flipperDriveEnd {s : State} {f : FlipperId} {c : ChannelId} (hn : (s.flip f).cfg.names c = true) :
    CoilWork s (flipperDriveEnd s f c) := by
  unfold Machine.flipperDriveEnd
  split
  · next phase _ =>
    refine .ite (fun _ => .powerToReady _ _) fun _ => ?_
    have h1 : CoilWork s (if ((s.flip f).cfg.eos.isSome && !phase.eosSeen) = true then Machine.countEosMissing s f else s) :=
      .ite (fun _ => .countEosMissing _ _) fun _ => .refl _
    refine h1.trans (.handOver ?_)
    rw [h1.flipCfg f]
    exact hn
  · exact .handOver hn
  all_goals exact .release _ _

theorem flipperHoldCut (s : State) (f : FlipperId) : CoilWork s (flipperHoldCut s f) := by
  unfold Machine.flipperHoldCut
  split
  · exact .block _ _
  · exact (CoilWork.endFlipperDrives _ _).trans (.block _ _)
  all_goals exact .refl _

/-! ### Channels (chapter 1) -/

theorem countAbsorbed (s : State) (c : ChannelId) : CoilWork s (countAbsorbed s c) :=
  .chanQuiet rfl rfl (fun _ => id) (Nat.le_of_eq (generalLoad_congr rfl rfl rfl))

theorem absorbWaiting (s : State) (c : ChannelId) : CoilWork s (absorbWaiting s c) := by
  unfold Machine.absorbWaiting
  split
  · exact .refl _
  · split
    · exact (CoilWork.countAbsorbed _ _).trans (.removeEntry _ _)
    · exact (CoilWork.countAbsorbed _ _).trans ((CoilWork.loseFire _ _).trans (.removeEntry _ _))
    · exact .refl _
    · exact .refl _

theorem stepChannelEnd (s : State) (c : ChannelId) : CoilWork s (stepChannelEnd s c) := by
  unfold Machine.stepChannelEnd
  split
  · exact .release _ _
  · next t _ =>
    refine .trans (.trans (.trans (.rest s c (some t)) (.attemptNow _)) (.trans (.stepDriveEnd _ t c (gapless s c)) (.settle _))) ?_
    exact .ite (fun _ => .reportIdle _ _ _) fun _ => .refl _

theorem flipperOf_names {s : State} {c : ChannelId} {f : FlipperId} (h : flipperOf s c = some f) :
    (s.flip f).cfg.names c = true := List.find?_some (p := fun f => (s.flip f).cfg.names c) h

/-- The natural end of a drive (R7). -/
theorem driveEnd (c : ChannelId) (s : State) : CoilWork s (driveEnd c s) := by
  unfold Machine.driveEnd
  split
  · next hst =>
    split
    · refine .ite (fun _ => .release _ _) fun _ => ?_
      refine .trans ?_ (.attemptNow _)
      refine .trans ?_ (.absorbWaiting _ _)
      exact .enterHold fun _ => .inr (by simp [Channel.load, hst])
    · split
      · exact .release _ _
      · next f hf => exact .flipperDriveEnd (flipperOf_names hf)
    · exact .stepChannelEnd _ _
    · exact .release _ _
    · exact .release _ _
  · exact .refl _

/-- A channel's state becomes one without a load. -/
theorem chanIdle {s : State} {c : ChannelId} {x : ChanState} (h : x = .idle ∨ x = .off) :
    CoilWork s (s.setChan c { s.chan c with state := x }) := by
  refine .chanQuiet rfl rfl (fun _ => id) ?_
  rcases h with rfl | rfl <;> simp [Channel.generalLoad, Channel.load]

theorem recoveryGapExpiry (c : ChannelId) (s : State) : CoilWork s (recoveryGapExpiry c s) := by
  unfold Machine.recoveryGapExpiry
  split
  · exact .trans (.chanIdle (.inl rfl)) (.reportIdle _ _ _)
  · exact .refl _

theorem deadlineExpiry (c : ChannelId) (s : State) : CoilWork s (deadlineExpiry c s) := by
  unfold Machine.deadlineExpiry
  split
  · exact .refl _
  · exact .ite (fun _ => .trans (.trans (.reportDropped _ _ _) (.removeEntry _ _)) (.settle _)) fun _ => .refl _

theorem copyClaims (s : State) (c : ChannelId) : CoilWork s (copyClaims s c) := by
  refine .changeEntry _ _ _ (fun e => ?_) fun e p x => ?_
  · split <;> rfl
  · split at x
    · exact .inr (.inr (.inl ⟨c, x⟩))
    all_goals exact .inl x

/-- The hold of a channel without a claim ends (R10). -/
theorem endClaimedHold (s : State) (c : ChannelId) : CoilWork s (endClaimedHold s c) := by
  unfold Machine.endClaimedHold
  refine .trans (.trans (.rest s c none) (.bring _)) ?_
  exact .ite (fun _ => .bring _) fun _ => .refl _

theorem claimsEmptied (s : State) (c : ChannelId) : CoilWork s (claimsEmptied s c) := by
  unfold Machine.claimsEmptied
  refine .trans (.owed s c false) ?_
  refine .ite (fun _ => .endClaimedHold _ _) fun _ => ?_
  split
  · exact .refl _
  · split
    · exact .removeEntry _ _
    all_goals exact .refl _

theorem has_of_remove {x : PortSet} {p q : Port} (h : (x.remove p).has q = true) : x.has q = true := by
  cases p <;> cases q <;> simp_all [PortSet.remove, PortSet.has]

/-- A port leaves a claim set (R12, R14). -/
theorem withdrawClaim (s : State) (c : ChannelId) (p : Port) : CoilWork s (withdrawClaim s c p) := by
  unfold Machine.withdrawClaim
  refine .ite (fun _ => ?_) fun _ => .refl _
  refine .trans (t := s.setChan c { s.chan c with claims := (s.chan c).claims.remove p }) ?_ ?_
  · exact .chanQuiet rfl rfl (fun _ => has_of_remove) (Nat.le_of_eq (generalLoad_congr rfl rfl rfl))
  · exact .ite (fun _ => .claimsEmptied _ _) fun _ => .copyClaims _ _

/-- A LIVE port joins the claim set of a HOLDABLE channel (R13). -/
theorem addClaim {s : State} {c : ChannelId} {p : Port} (hc : (s.chan c).coil.cls = .holdable)
    (hl : (s.port p).live = true) : CoilWork s (addClaim s c p) :=
  .chan rfl (fun q x => by
    have hq : ((s.chan c).claims.add p).has q = true := x
    by_cases e : q = p
    · exact .inr (e ▸ hl)
    · refine .inl ?_
      cases p <;> cases q <;> first | exact absurd rfl e | exact hq) fun h => ⟨h.duty c, h.heat c, fun _ => hc, .inl (Nat.le_of_eq (generalLoad_congr rfl rfl rfl))⟩

theorem takeOut (s : State) (c : ChannelId) : CoilWork s (takeOut s c) := by
  unfold Machine.takeOut
  refine .trans (t := s.setChan c { s.chan c with state := .disabled, stepBefore := stepBehind s c, claims := .empty, owed := false }) ?_ ?_
  · refine .chanQuiet rfl rfl (fun p h => ?_) ?_
    · cases p <;> simp [PortSet.has, PortSet.empty] at h
    · simp [Channel.generalLoad, Channel.load]
  · exact .ite (fun _ => .attemptNow _) fun _ => .refl _

theorem removeQuietly (s : State) (c : ChannelId) : CoilWork s (removeQuietly s c) := by
  unfold Machine.removeQuietly
  split
  · exact .refl _
  · exact .trans (.trans (.reportQuietly _ _) (.removeEntry _ _)) (.settle _)

theorem faultStepperOf (s : State) (c : ChannelId) : CoilWork s (faultStepperOf s c) := by
  unfold Machine.faultStepperOf
  split
  · exact .refl _
  · exact .trans (.faultStepper _ _ _) (.settle _)

theorem testFlipperOf (s : State) (c : ChannelId) : CoilWork s (testFlipperOf s c) := by
  unfold Machine.testFlipperOf
  split
  · exact .refl _
  · exact .flipperTest _ _

/-- DISABLE CHANNEL of a channel in service (R17). -/
theorem disableChannel (s : State) (c : ChannelId) : CoilWork s (disableChannel s c) :=
  (CoilWork.takeOut s c).trans ((CoilWork.removeQuietly _ c).trans ((CoilWork.faultStepperOf _ c).trans (.testFlipperOf _ c)))

theorem putBack (s : State) (c : ChannelId) : CoilWork s (putBack s c) := by
  have back : ∀ x : ChanState, x = .idle ∨ x = .off →
      CoilWork s (s.setChan c { s.chan c with state := x, stepBefore := none }) := fun x h => by
    refine .chanQuiet rfl rfl (fun _ => id) ?_
    rcases h with rfl | rfl <;> simp [Channel.generalLoad, Channel.load]
  unfold Machine.putBack
  exact .ite (fun _ => back _ (.inr rfl)) fun _ => (back _ (.inl rfl)).trans (.reportIdle _ _ _)

/-- ENABLE CHANNEL of a DISABLED channel (R18). -/
theorem enableChannel (s : State) (c : ChannelId) : CoilWork s (enableChannel s c) :=
  (CoilWork.putBack s c).trans (.testFlipperOf _ c)

/-! ### Links (chapter 6) -/

theorem markEntry (s : State) (k : LinkId) : CoilWork s (markEntry s k) := .link rfl

theorem countLost (s : State) (k : LinkId) : CoilWork s (countLost s k) := .link rfl

/-- A FIRE offered to the arbiter (R45, R100). -/
theorem offerFire (s : State) (k : LinkId) (c : ChannelId) : CoilWork s (offerFire s k c) := by
  unfold Machine.offerFire
  simp only
  refine .ite (fun _ => .countLost _ _) fun _ => .ite (fun _ => (CoilWork.countAbsorbed _ _).trans (.countLost _ _)) fun _ => ?_
  split
  · next e he =>
    split
    · next origin hw =>
      refine .trans (.trans ?_ (.bring _)) (.markEntry _ _)
      exact .changeEntry _ _ _ (fun _ => rfl) fun _ p x => .inr (.inl ⟨e, List.mem_of_find?_eq_some he, by rw [hw]; exact x⟩)
    · refine .trans (.trans ?_ (.bring _)) (.countLost _ _)
      exact .changeEntry _ _ _ (fun _ => rfl) fun _ _ => .inl
    · exact .countLost _ _
    · exact .countLost _ _
  · next hn =>
    refine .ite (fun _ => .countLost _ _) fun hf => .trans (.enter (e := ⟨c, .fire k .empty,
      entryWidth (s.chan c).coil (s.link k).cfg.width, s.sw.partTime, newDeadline s (s.chan c).coil, 0⟩) ?_ hn ?_) (.markEntry _ _)
    · simpa using hf
    · exact fun p x => absurd x (by simp [Work.ports, has_empty])

/-- A trigger of a link (R98). -/
theorem trigger (s : State) (k : LinkId) : CoilWork s (trigger s k) := by
  unfold Machine.trigger
  simp only
  split
  · exact .refl _
  · refine .ite (fun _ => .refl _) fun _ => .ite (fun _ => .link rfl) fun _ => .ite (fun _ => .countLost _ _) fun _ => ?_
    refine .trans ?_ (.settle _)
    refine .trans ?_ (.offerFire _ _ _)
    exact .link rfl

theorem linkSwitch (w : SwitchId) (closed : Bool) (s : State) (k : LinkId) : CoilWork s (linkSwitch w closed s k) :=
  .ite (fun _ => .trigger _ _) fun _ => .refl _

theorem lockoutExpiry (k : LinkId) (s : State) : CoilWork s (lockoutExpiry k s) :=
  .ite (fun _ => .link rfl) fun _ => .refl _

end CoilWork

end Sys2Proof.Machine
end

