-- ==== Sys2Proof/Laws/Cooling.lean ====
section
/-! SUPPORT. The cooling interval of a channel and a supply loss at a channel are coil work (Safety.lean); the bounds of the decay and
of the duty that fits the room (R37, R62). -/

namespace Sys2Proof.Machine

theorem decayed_le (h d : Nat) : decayed h d ≤ h := by
  unfold decayed; split <;> omega

/-- The duty that R37 applies is the old one, or one whose hold load fits the room. -/
theorem largestDuty_spec (weight room old asked : Nat) :
    largestDuty weight room old asked = old ∨
      (old ≤ largestDuty weight room old asked ∧ largestDuty weight room old asked ≤ asked ∧
        holdLoad weight (largestDuty weight room old asked) ≤ room) := by
  unfold largestDuty
  have key : ∀ (l : List Nat) (best : Nat), (∀ d ∈ l, d ≤ asked) →
      (best = old ∨ (old ≤ best ∧ best ≤ asked ∧ holdLoad weight best ≤ room)) →
      let x := l.foldl (fun best d => if (old ≤ d && holdLoad weight d ≤ room) = true then max best d else best) best
      x = old ∨ (old ≤ x ∧ x ≤ asked ∧ holdLoad weight x ≤ room) := by
    intro l
    induction l with
    | nil => intro best _ hb; exact hb
    | cons d l ih =>
      intro best hl hb
      simp only [List.foldl_cons]
      apply ih
      · exact fun e he => hl e (List.mem_cons_of_mem _ he)
      · split
        · next hd =>
          simp only [Bool.and_eq_true, decide_eq_true_eq] at hd
          have hda := hl d (List.mem_cons_self ..)
          rcases Nat.le_total best d with hbd | hbd
          · rw [Nat.max_eq_right hbd]; exact .inr ⟨hd.1, hda, hd.2⟩
          · rw [Nat.max_eq_left hbd]; exact hb
        · exact hb
  exact key _ _ (fun d hd => by simp at hd; omega) (.inl rfl)

/-- The duty applied to a held channel is in range and its load fits the general pool (R37, R63, R65). -/
theorem appliedDuty_guard {s : State} (h : Safe s) {c : ChannelId} (hh : (s.chan c).state = .hold) :
    ChanGuard s c { s.chan c with
      heat := { (s.chan c).heat with dEff := appliedDuty s c (derate (s.chan c).coil (s.chan c).heat.h) } } := by
  have hr := h.record c
  have hd := h.duty c
  have hx := derate_bounds hr (s.chan c).heat.h
  have hx' := derate_le hr (s.chan c).heat.h
  have hpool := h.pool
  have hload : (s.chan c).load = holdLoad (s.chan c).coil.weight (s.chan c).heat.dEff := by simp [Channel.load, hh, holdLoad]
  have hspec := largestDuty_spec (s.chan c).coil.weight ((s.chan c).load + (generalPool s - s.arb.general)) (s.chan c).heat.dEff
    (derate (s.chan c).coil (s.chan c).heat.h)
  have key : ∀ d, 1 ≤ d → d ≤ 16 → ((s.chan c).coil.cls = .flipper ∨ holdLoad (s.chan c).coil.weight d ≤ (s.chan c).load ∨
      holdLoad (s.chan c).coil.weight d ≤ (s.chan c).load + (generalPool s - s.arb.general)) →
      ChanGuard s c { s.chan c with heat := { (s.chan c).heat with dEff := d } } := by
    intro d h1 h2 h3
    refine ⟨⟨h1, h2⟩, h.heat c, h.claims c, ?_⟩
    by_cases hf : (s.chan c).coil.cls = .flipper
    · exact .inl (by simp [Channel.generalLoad, hf])
    · simp only [Channel.generalLoad, if_neg hf]
      have hl : (Channel.load { s.chan c with heat := { (s.chan c).heat with dEff := d } }) = holdLoad (s.chan c).coil.weight d := by
        simp [Channel.load, hh, holdLoad]
      rw [hl]
      rcases h3 with h3 | h3 | h3
      · exact absurd h3 hf
      · exact .inl h3
      · exact .inr (by omega)
  unfold appliedDuty
  simp only
  split
  · next ht =>
    simp only [Bool.or_eq_true, decide_eq_true_eq] at ht
    exact key _ hx.1 hx' (by tauto)
  · rcases hspec with e | ⟨e1, e2, e3⟩
    · rw [e]; exact key _ hd.1 hd.2 (.inr (.inl (Nat.le_of_eq hload.symm)))
    · exact key _ (hd.1.trans e1) (e2.trans hx') (.inr (.inr e3))

namespace CoilWork

theorem holdFigures {s : State} {c : ChannelId} (hh : (s.chan c).state = .hold) : CoilWork s (holdFigures s c) := by
  unfold Machine.holdFigures
  simp only
  have h1 : CoilWork s (s.setHeat c
      { (s.chan c).heat with dEff := appliedDuty s c (derate (s.chan c).coil (s.chan c).heat.h) }) :=
    .chan rfl (fun _ => .inl) fun h => appliedDuty_guard h hh
  generalize (s.setHeat c
      { (s.chan c).heat with dEff := appliedDuty s c (derate (s.chan c).coil (s.chan c).heat.h) }) = u at h1 ⊢
  have h2 := h1.trans (CoilWork.ite (p := (u.chan c).load < (s.chan c).load) (fun _ => .attemptNow u) fun _ => .refl u)
  refine h2.trans (.heat rfl fun _ => ?_)
  exact Nat.min_le_left _ _

theorem recordInterval (s : State) (c : ChannelId) : CoilWork s (recordInterval s c) := by
  unfold Machine.recordInterval
  refine .trans (.setThermal s c (cooledThermal (s.chan c).coil (s.chan c).heat)) (.heat rfl fun h => h.heat c)

theorem cutHold (s : State) (c : ChannelId) : CoilWork s (cutHold s c) := by
  unfold Machine.cutHold
  have h1 := (CoilWork.noteCutoff s c).trans (.release _ c)
  simp only
  split
  · exact h1
  · exact h1.trans (.flipperHoldCut _ _)

theorem leaveCutoff (s : State) (c : ChannelId) : CoilWork s (leaveCutoff s c) := by
  unfold Machine.leaveCutoff
  have h1 := ((CoilWork.setFlagBoth s .heatResume (some c.val)).trans (.attemptNow _)).trans ((CoilWork.pullInTest _ c).trans (.settle _))
  simp only
  split
  · exact h1
  · exact h1.trans (.trans (.stepTest _ _) (.settle _))

/-- The cooling interval at one channel (R62 to R64). -/
theorem coolChannel (s : State) (c : ChannelId) : CoilWork s (coolChannel s c) := by
  unfold Machine.coolChannel
  simp only
  have h1 : CoilWork s (s.setHeat c { (s.chan c).heat with h := decayed (s.chan c).heat.h (s.chan c).coil.decay }) :=
    .heat rfl fun h => (decayed_le _ _).trans (h.heat c)
  have hs : ((s.setHeat c { (s.chan c).heat with h := decayed (s.chan c).heat.h (s.chan c).coil.decay }).chan c).state =
      (s.chan c).state := by rw [State.setHeat_eq, State.chan_setChan_self]
  generalize (s.setHeat c { (s.chan c).heat with h := decayed (s.chan c).heat.h (s.chan c).coil.decay }) = u at h1 hs ⊢
  have h2 : CoilWork s (if (s.chan c).state = .hold then Machine.holdFigures u c else u) :=
    h1.trans (.ite (fun hh => .holdFigures (hs.trans hh)) fun _ => .refl _)
  generalize (if (s.chan c).state = .hold then Machine.holdFigures u c else u) = v at h2
  have h3 := h2.trans (.recordInterval v c)
  refine h3.trans ?_
  exact .ite (fun _ => .cutHold _ _) fun _ => .ite (fun _ => .leaveCutoff _ _) fun _ => .refl _

theorem coolAll (l : List ChannelId) (s : State) : CoilWork s (coolAll l s) := .foldl CoilWork.coolChannel l s

/-! ### Supply loss and supply up (R25, R26) -/

theorem cutFlipper (s : State) (c : ChannelId) : CoilWork s (cutFlipper s c) := by
  unfold Machine.cutFlipper
  split
  · exact .refl _
  · exact .ite (fun _ => .refl _) fun _ => .disableFlipper _ _

theorem cutStepChannel (s : State) (c : ChannelId) : CoilWork s (cutStepChannel s c) := by
  unfold Machine.cutStepChannel
  split
  · exact .rest _ _ _
  · next t _ =>
    refine .trans (.trans (.rest s c (some t)) (.cutStep _ t)) ?_
    exact .ite (fun _ => .stepperIdle _ _ _) fun _ => .refl _

/-- The supply loss at one channel (R26). -/
theorem loseSupplyAt (s : State) (c : ChannelId) : CoilWork s (loseSupplyAt s c) := by
  unfold Machine.loseSupplyAt
  refine .trans (.owed s c false) ?_
  simp only
  split
  · split
    · exact .cutStepChannel _ _
    · exact .trans (.rest _ _ _) (.cutFlipper _ _)
    all_goals exact .rest _ _ _
  · exact .trans (.rest _ _ _) (.cutFlipper _ _)
  all_goals exact .refl _

theorem endUnclaimedHold (s : State) (c : ChannelId) : CoilWork s (endUnclaimedHold s c) :=
  .ite (fun _ => .endClaimedHold _ _) fun _ => .refl _

/-- Every stepper's record kept, its running state changed. -/
theorem steppersMap {s : State} {g : Stepper → Stepper} (h : ∀ x, (g x).cfg = x.cfg)
    (hs : ∀ x p, (g x).state.told.has p = true → x.state.told.has p = true) :
    CoilWork s { s with steppers := s.steppers.map g } := by
  refine .other rfl rfl rfl rfl rfl rfl rfl rfl rfl rfl rfl rfl rfl rfl (fun _ _ _ => rfl) ?_
    fun p ⟨t, x⟩ => .inl ⟨t, hs _ p (by rw [State.stepper, Table.get_map] at x; exact x)⟩
  have : (s.steppers.map g).map Stepper.cfg = s.steppers.map Stepper.cfg := by
    apply Table.ext_get
    intro d
    simp [h]
  simp [workingProfile, this]

theorem emptyWaitList (s : State) (l : List Entry) : CoilWork s (emptyWaitList s l) := by
  unfold Machine.emptyWaitList
  refine .trans (.trans (.foldl (fun s e => CoilWork.reportDropped s e .supply) l s) (.relist (l := []) (List.nil_sublist _)
    fun e he => absurd he (by simp))) ?_
  exact .steppersMap (fun _ => rfl) fun _ _ => id

theorem forgetClaim (s : State) (c : ChannelId) (p : Port) : CoilWork s (s.setChan c ((s.chan c).forget p)) := by
  refine .chanQuiet rfl rfl ?_ (Nat.le_of_eq (generalLoad_congr rfl rfl rfl))
  exact fun q => has_of_remove (x := (s.chan c).claims) (p := p) (q := q)

/-- A lapsed port is in no origin of an entry (R57). -/
theorem ports_forget (e : Entry) (p : Port) : (e.forget p).work.ports = e.work.ports.remove p := by
  have empty : PortSet.empty.remove p = .empty := by cases p <;> rfl
  unfold Entry.forget
  cases h : e.work <;> simp [Work.ports, empty]

/-- A lapsed port is in no origin of a stepper (R125). -/
theorem told_forget (x : Stepper) (p : Port) : (x.forget p).state.told = x.state.told.remove p := by
  have empty : PortSet.empty.remove p = .empty := by cases p <;> rfl
  have union : ∀ a b : PortSet, (a.remove p).union (b.remove p) = (a.union b).remove p := by
    rintro ⟨a, b⟩ ⟨c, d⟩; cases p <;> simp [PortSet.remove, PortSet.union]
  unfold Stepper.forget
  cases h : x.state with
  | running train next => cases next <;> simp [StepState.told, Train.forget, union]
  | _ => simp [StepState.told, empty]

theorem lapseCoilWork (s : State) (p : Port) : CoilWork s (lapseCoilWork s p) := by
  unfold Machine.lapseCoilWork
  have h1 : CoilWork s (allChannels.foldl (fun s c => s.setChan c ((s.chan c).forget p)) s) :=
    .foldl (fun s c => .forgetClaim s c p) _ _
  generalize allChannels.foldl (fun s c => s.setChan c ((s.chan c).forget p)) s = u at h1 ⊢
  have h2 : CoilWork u (u.setWaitList (u.arb.waitList.map fun e => e.forget p)) := by
    refine .relist ?_ fun e he q x => ?_
    · rw [List.map_map]
      exact List.Sublist.refl _
    · obtain ⟨d, hd, rfl⟩ := List.mem_map.1 he
      rw [ports_forget] at x
      exact .inl ⟨d, hd, has_of_remove x⟩
  exact h1.trans (h2.trans ((CoilWork.foldl CoilWork.endUnclaimedHold _ _).trans (.foldl CoilWork.removeEntry _ _)))

end CoilWork

end Sys2Proof.Machine
end

