-- ==== Sys2Proof/Laws/Requests.lean ====
section
/-! SUPPORT. What the requests of the coils do: each request's own rules are coil work (Safety.lean), whatever they answer; and a request
that only reads leaves the state as it is. -/

namespace Sys2Proof.Machine

namespace CoilWork

theorem has_add {x : PortSet} {p q : Port} (h : (x.add p).has q = true) : x.has q = true ∨ q = p := by
  cases p <;> cases q <;> first | exact .inr rfl | exact .inl h

theorem changeMerge {s : State} (c : ChannelId) {p : Port} (w : Nat) (hl : (s.port p).live = true) :
    CoilWork s (Machine.changeEntry s c fun e => e.mergePulse p w) := by
  refine .changeEntry _ _ _ (fun _ => rfl) fun e q x => ?_
  have mergedHas {y : PortSet} (x : (y.add p).has q = true) : y.has q = true ∨ EntryNames s q ∨
      (∃ c, (s.chan c).claims.has q = true) ∨ (s.port q).live = true := by
    rcases has_add x with x | rfl
    · exact .inl x
    · exact .inr (.inr (.inr hl))
  cases hw : e.work with
  | pulse origin =>
    rw [Entry.mergePulse, hw] at x
    exact mergedHas x
  | fire k notified =>
    rw [Entry.mergePulse, hw] at x
    exact mergedHas x
  | pullIn origin => rw [Entry.mergePulse, hw] at x; exact .inl x
  | step t => rw [Entry.mergePulse, hw] at x; exact .inl x

/-- PULSE (R42) of a LIVE port; the engine's service makes the sender LIVE (R159). -/
theorem pulseRequest {p : Port} (body : List Byte) {s : State} (hl : (s.port p).live = true) : CoilWork s (pulseRequest p body s).state := by
  unfold Machine.pulseRequest
  split
  · exact .refl _
  · next c _ =>
    simp only
    repeat' split
    all_goals first | exact .refl _ | skip
    · exact .countAbsorbed _ _
    · exact .trans (.trans (.changeMerge _ _ hl) (.bring _)) (.settle _)
    · next hn hf =>
      exact .trans (.enter (e := ⟨c, .pulse (.single p), entryWidth (s.chan c).coil (u8 body 1), s.sw.partTime,
        newDeadline s (s.chan c).coil, 0⟩) (by simpa using hf) hn fun q x => .inr (has_single x ▸ hl)) (.settle _)

theorem holdOnRequest {p : Port} (c : ChannelId) {s : State} (hl : (s.port p).live = true) : CoilWork s (holdOnRequest p c s).state := by
  unfold Machine.holdOnRequest
  simp only
  split
  · exact .refl _
  · next hc =>
    have ha : CoilWork s (Machine.addClaim s c p) := .addClaim (by simpa using hc) hl
    repeat' split
    all_goals first | exact .refl _ | skip
    · exact ha.trans (.trans (.pullInTest _ _) (.settle _))
    · exact ha.trans (.copyClaims _ _)

theorem holdOffRequest (p : Port) (c : ChannelId) (s : State) : CoilWork s (holdOffRequest p c s).state := by
  unfold Machine.holdOffRequest
  split
  · exact .refl _
  · exact .trans (.withdrawClaim _ _ _) (.settle _)

/-- HOLD from a LIVE port (R13, R14); the engine's service makes the sender LIVE (R159). -/
theorem holdRequest {p : Port} (body : List Byte) {s : State} (hl : (s.port p).live = true) : CoilWork s (holdRequest p body s).state := by
  unfold Machine.holdRequest
  repeat' split
  all_goals first | exact .refl _ | exact .holdOnRequest _ hl | exact .holdOffRequest _ _ _

/-- DISABLE CHANNEL (R17). -/
theorem disableChannelRequest (body : List Byte) (s : State) : CoilWork s (disableChannelRequest body s).state := by
  unfold Machine.disableChannelRequest
  repeat' split
  all_goals first | exact .refl _ | exact .disableChannel _ _

/-- ENABLE CHANNEL (R18). -/
theorem enableChannelRequest (body : List Byte) (s : State) : CoilWork s (enableChannelRequest body s).state := by
  unfold Machine.enableChannelRequest
  repeat' split
  all_goals first | exact .refl _ | exact .enableChannel _ _

/-- CLEAR STATS (R77). -/
theorem clearStatsRequest (body : List Byte) (s : State) : CoilWork s (clearStatsRequest body s).state := by
  unfold Machine.clearStatsRequest
  repeat' split
  · exact .foldl CoilWork.clearChannel _ _
  · exact .refl _
  · exact .clearChannel _ _

/-- STEP (R110). -/
theorem stepRequest {p : Port} (body : List Byte) {s : State} (hl : (s.port p).live = true) : CoilWork s (stepRequest p body s).state := by
  unfold Machine.stepRequest
  split
  · next t dir _ _ =>
    split
    · exact .refl _
    · have h := CoilWork.offerTrain s t dir (min (u16 body 2) Config.trainMax) ⟨.single p, false⟩ false
        fun q x => .inr (has_single x ▸ hl)
      unfold Machine.offerAnswer
      split
      · exact .refl _
      · exact .refl _
      · exact h.trans (.settle _)
  · exact .refl _

/-- STOP STEPPER (R119). -/
theorem stopStepperRequest (body : List Byte) (s : State) : CoilWork s (stopStepperRequest body s).state := by
  unfold Machine.stopStepperRequest
  repeat' split
  all_goals first | exact .refl _ | exact .trans (.stopStepper _ _) (.settle _)

/-- HOME (R120). -/
theorem homeRequest {p : Port} (body : List Byte) {s : State} (hl : (s.port p).live = true) : CoilWork s (homeRequest p body s).state := by
  unfold Machine.homeRequest
  split
  · exact .refl _
  · next t _ =>
    split
    · exact .refl _
    · split
      · exact .refl _
      · split
        · exact .refl _
        · exact .trans (.home t hl) (.settle _)

/-- SET POSITION (R122). -/
theorem setPositionRequest (body : List Byte) (s : State) : CoilWork s (setPositionRequest body s).state := by
  unfold Machine.setPositionRequest
  simp only
  repeat' split
  all_goals first | exact .refl _ | exact .stepper rfl

theorem addDigits {p : Port} (reels : List StepperId) (v : Nat) {s : State} (hl : (s.port p).live = true) : CoilWork s (addDigits p reels v s).1 := by
  induction reels generalizing v s with
  | nil => exact .refl _
  | cons t rest ih =>
    unfold Machine.addDigits
    split
    · exact ih _ hl
    · have h := (CoilWork.offerTrain s t .up (v % 10) ⟨.single p, false⟩ false fun q x => .inr (has_single x ▸ hl)).trans (.settle _)
      exact h.trans (ih _ (by rw [State.port, h.ports]; exact hl))

/-- ADD SCORE (R127). -/
theorem addScoreRequest {p : Port} (body : List Byte) {s : State} (hl : (s.port p).live = true) : CoilWork s (addScoreRequest p body s).state := by
  unfold Machine.addScoreRequest
  simp only
  repeat' split
  all_goals first | exact .refl _ | exact .addDigits _ _ hl

end CoilWork

/-! ### Requests that only read -/

theorem readHeatRequest_state (body : List Byte) (s : State) : (readHeatRequest body s).state = s := by
  unfold readHeatRequest; split <;> rfl

theorem readFlipperRequest_state (body : List Byte) (s : State) : (readFlipperRequest body s).state = s := by
  unfold readFlipperRequest; split <;> rfl

theorem readLinkRequest_state (body : List Byte) (s : State) : (readLinkRequest body s).state = s := by
  unfold readLinkRequest; split <;> rfl

theorem readStepperRequest_state (body : List Byte) (s : State) : (readStepperRequest body s).state = s := by
  unfold readStepperRequest; split <;> rfl

theorem readBankRequest_state (body : List Byte) (s : State) : (readBankRequest body s).state = s := by
  unfold readBankRequest; split <;> rfl

theorem readSwitchesRequest_state (s : State) : (readSwitchesRequest s).state = s := rfl

theorem readLampsRequest_state (s : State) : (readLampsRequest s).state = s := rfl

theorem readConfigRequest_state (body : List Byte) (s : State) : (readConfigRequest body s).state = s := by
  unfold readConfigRequest; split <;> rfl

theorem pingRequest_state (p : Port) (s : State) : (pingRequest p s).state = s := rfl

theorem resetPartRequest_state (s : State) : (resetPartRequest s).state = s := rfl

end Sys2Proof.Machine
end

