-- ==== Sys2Proof/Laws/Safe.lean ====
section
/-! SUPPORT. The operations outside coil work keep a safe state safe (Safety.lean): receivers and engine, supply and groups, switches and
queues, lamps, ports, the store, the resets and the load, the tick. -/

namespace Sys2Proof.Machine

/-! ### States that agree in what safety speaks of -/

/-- The guarantees among records depend on the coil, flipper and supply records alone. -/
theorem Profile.Sound.congr {p q : Profile} (h : p.Sound) (hc : q.coils = p.coils) (hf : q.flippers = p.flippers)
    (hs : q.supply = p.supply) : q.Sound where
  coils := hc ▸ h.coils
  named := hc ▸ hf ▸ h.named
  reserve := hs ▸ h.reserve
  weights := by
    have := h.weights
    simp only [Profile.flipperWeights, hc, hs] at this ⊢
    exact this

/-- A change that keeps the channels, the flipper and supply records, the arbiter's list and pools, and sound stores and queues. -/
theorem Safe.of_parts {s t : State} (h : Safe s) (hc : t.channels = s.channels) (hl : t.arb.waitList = s.arb.waitList)
    (hg : t.arb.general = s.arb.general) (hf : t.arb.flipper = s.arb.flipper) (hs : t.supply.cfg = s.supply.cfg)
    (hcfg : t.flippers.map Flipper.cfg = s.flippers.map Flipper.cfg) (hr : t.store.records.Sound)
    (hk : ∀ save, t.store.save = some save → save.copy.Sound)
    (hq : ∀ p, (t.sw.queues.get p).entries.length ≤ Config.queueSize) : Safe t := by
  have hchan : ∀ c, t.chan c = s.chan c := fun c => by simp [State.chan, hc]
  have e1 : generalLoads t = generalLoads s := by simp [generalLoads, hchan]
  have e2 : flipperLoads t = flipperLoads s := by simp [flipperLoads, hchan]
  have e3 : generalPool t = generalPool s := by simp [generalPool, hs]
  exact ⟨hl ▸ h.listFits, hl ▸ h.oneEach, by rw [hg, e1]; exact h.general, by rw [hf, e2]; exact h.flipper,
    by rw [hg, e3]; exact h.pool, fun c => hchan c ▸ h.duty c, fun c => hchan c ▸ h.heat c, fun c => hchan c ▸ h.claims c,
    h.working.congr (by simp [workingProfile, hc]) (by simp [workingProfile, hcfg]) (by simp [workingProfile, hs]), hr, hk, hq⟩

/-- The same, the store and the queues kept too. -/
theorem Safe.of_same {s t : State} (h : Safe s) (hc : t.channels = s.channels) (ha : t.arb = s.arb) (hs : t.supply.cfg = s.supply.cfg)
    (hcfg : t.flippers.map Flipper.cfg = s.flippers.map Flipper.cfg) (ht : t.store = s.store) (hq : t.sw.queues = s.sw.queues) : Safe t :=
  h.of_parts hc (ha ▸ rfl) (ha ▸ rfl) (ha ▸ rfl) hs hcfg (ht ▸ h.stored) (ht ▸ h.copied) (hq ▸ h.queues)

namespace Safe

variable {s : State}

theorem setPort (h : Safe s) (p : Port) (x : PortRec) : Safe (s.setPort p x) := h.of_same rfl rfl rfl rfl rfl rfl

theorem setLamp (h : Safe s) (x : LampUnit) : Safe (s.setLamp x) := h.of_same rfl rfl rfl rfl rfl rfl

theorem setSupply (h : Safe s) {m : SupplyMonitor} (hm : m.cfg = s.supply.cfg) : Safe (s.setSupply m) :=
  h.of_same rfl rfl hm rfl rfl rfl

theorem setSw (h : Safe s) {u : SwitchUnit} (hu : u.queues = s.sw.queues) : Safe (s.setSw u) := h.of_same rfl rfl rfl rfl rfl hu

theorem setInput (h : Safe s) (w : SwitchId) (x : SwitchInput) : Safe (s.setInput w x) := h.setSw rfl

theorem setStepper (h : Safe s) (t : StepperId) (x : Stepper) : Safe (s.setStepper t x) := h.of_same rfl rfl rfl rfl rfl rfl

theorem setLink (h : Safe s) (k : LinkId) (x : Link) : Safe (s.setLink k x) := h.of_same rfl rfl rfl rfl rfl rfl

theorem setBank (h : Safe s) (n : BankId) (x : List StepperId) : Safe (s.setBank n x) := h.of_same rfl rfl rfl rfl rfl rfl

theorem setLatch (h : Safe s) (p : Port) (x : Latch) : Safe (s.setLatch p x) := h.of_same rfl rfl rfl rfl rfl rfl

theorem setFlagBoth (h : Safe s) (n : FlagName) (subject : Option Nat) : Safe (setFlagBoth s n subject) :=
  h.of_same rfl rfl rfl rfl rfl rfl

theorem setOrders (h : Safe s) (n : Nat) : Safe { s with orders := n } := h.of_same rfl rfl rfl rfl rfl rfl

theorem setPending (h : Safe s) (l : List Instr) : Safe { s with pending := l } := h.of_same rfl rfl rfl rfl rfl rfl

theorem setQueue (h : Safe s) (p : Port) {q : EventQueue} (hq : q.entries.length ≤ Config.queueSize) : Safe (setQueue s p q) := by
  refine h.of_parts rfl rfl rfl rfl rfl rfl h.stored h.copied fun r => ?_
  by_cases e : r = p
  · subst e; simpa [Machine.setQueue] using hq
  · have := h.queues r
    simpa [Machine.setQueue, PerPort.get_set_ne _ _ _ _ e] using this

/-! ### Receivers and engine (R156, R157) -/

theorem countLinkError (h : Safe s) (p : Port) : Safe (countLinkError s p) := h.setPort _ _

theorem clearAssembly (h : Safe s) (p : Port) : Safe (clearAssembly s p) := h.setPort _ _

theorem abandonFrame (h : Safe s) (p : Port) : Safe (abandonFrame s p) := (h.clearAssembly p).countLinkError p

theorem completeFrame (h : Safe s) (p : Port) (asm : List Byte) (check : Byte) : Safe (completeFrame s p asm check) := by
  unfold Machine.completeFrame
  have hc := h.clearAssembly p
  simp only
  split
  · exact hc.countLinkError p
  · split
    · exact hc.countLinkError p
    · exact hc.setPort _ _

theorem receiveByte (h : Safe s) (p : Port) (b : Byte) (stop : Bool) : Safe (receiveByte s p b stop) := by
  unfold Machine.receiveByte
  simp only
  repeat' split
  all_goals first | exact h | exact h.setPort _ _ | exact h.abandonFrame _ | exact h.completeFrame _ _ _

theorem receiveFrame (h : Safe s) (p : Port) (kind : Byte) (body : List Byte) : Safe (receiveFrame s p kind body) := by
  unfold Machine.receiveFrame
  generalize requestFrame kind body = l
  induction l generalizing s with
  | nil => exact h
  | cons b l ih => exact ih (h.receiveByte p b true)

theorem presented (h : Safe s) (p : Port) (kind : Byte) (body : List Byte) : Safe (presented p kind body s) := by
  unfold Machine.presented
  split
  · exact h
  · exact h.receiveFrame _ _ _

theorem take (h : Safe s) (p : Port) : Safe (take s p) := h.of_same rfl rfl rfl rfl rfl rfl

/-- The service of a request makes its sender LIVE (R159). -/
theorem take_live (s : State) (p : Port) : ((Machine.take s p).port p).live = true := by
  simp [Machine.take, State.port, State.setPort]

/-- A request row keeps a safe state safe where the request's own rules do (R157). -/
theorem request (h : Safe s) (p : Port) (kind : Byte) (body : List Byte) {answer : State → Answer}
    (ha : ∀ u, Safe u → (u.port p).live = true → Safe (answer u).state) : Safe (request p kind body answer s) := by
  unfold Machine.request
  simp only
  split
  · exact (ha _ ((h.presented p kind body).take p) (take_live _ p)).setPort _ _
  · exact h.presented p kind body

theorem catalogued (h : Safe s) (p : Port) (kind : Byte) (n : Nat) (body : List Byte) {carry : State → Answer}
    (ha : ∀ u, Safe u → (u.port p).live = true → Safe (carry u).state) : Safe (catalogued p kind n body carry s) := by
  refine h.request p kind body fun u hu hl => ?_
  unfold decideRequest
  repeat' split
  all_goals first | exact hu | exact ha u hu hl

/-! ### Supply and groups (chapter 2) -/

theorem recomputeGroups (h : Safe s) : Safe (recomputeGroups s) := by
  unfold Machine.recomputeGroups
  simp only
  have hs : Safe (s.setSupply { s.supply with
      flipOn := s.isUp && !s.supply.flipClaims.isEmpty
      directOn := s.isUp && !s.supply.directClaims.isEmpty }) := h.setSupply rfl
  split
  · exact hs
  · exact (CoilWork.foldl CoilWork.flipperTest _ _).safe hs

theorem claim_cfg (m : SupplyMonitor) (g : Group) (p : Port) (on : Bool) : (m.claim g p on).cfg = m.cfg := by cases g <;> rfl

theorem enableGroupRequest (h : Safe s) (p : Port) (body : List Byte) : Safe (enableGroupRequest p body s).state := by
  unfold Machine.enableGroupRequest
  split
  · exact (h.setSupply (claim_cfg _ _ _ _)).recomputeGroups
  · exact h

theorem enterUp (h : Safe s) : Safe (enterUp s) := by
  unfold Machine.enterUp
  simp only
  refine Safe.recomputeGroups ?_
  refine (CoilWork.foldl (fun s t => (CoilWork.stepTest s t).trans (.settle _)) _ _).safe ?_
  refine (CoilWork.foldl (fun s c => (CoilWork.pullInTest s c).trans (.settle _)) _ _).safe ?_
  refine (CoilWork.attemptNow _).safe (Safe.setFlagBoth ?_ _ _)
  exact h.setSupply rfl

theorem loseSupply (h : Safe s) (channels : List ChannelId) (order : List Entry → List Entry) :
    Safe (loseSupply channels order s) := by
  unfold Machine.loseSupply
  simp only
  refine (CoilWork.settle _).safe (Safe.recomputeGroups ?_)
  refine (CoilWork.emptyWaitList _ _).safe ?_
  refine (CoilWork.foldl CoilWork.loseSupplyAt _ _).safe (Safe.setFlagBoth ?_ _ _)
  exact h.setSupply rfl

theorem supplyLoss (h : Safe s) : Safe (supplyLoss s) := (h.setOrders _).loseSupply _ _

theorem ilkRawChange (h : Safe s) (closed : Bool) : Safe (ilkRawChange closed s) := by
  unfold Machine.ilkRawChange
  simp only
  split
  · exact h
  · exact h.setSupply rfl

theorem ilkDebouncedClose (h : Safe s) : Safe (ilkDebouncedClose s) := by
  unfold Machine.ilkDebouncedClose
  simp only
  repeat' split
  · exact Safe.enterUp (h.setSupply rfl)
  · exact h.setSupply rfl
  · exact h

theorem ilkDebouncedOpen (h : Safe s) : Safe (ilkDebouncedOpen s) := by
  unfold Machine.ilkDebouncedOpen
  simp only
  have hs : Safe (s.setSupply { s.supply with ilkClosed := false, ilkTimer := none }) := h.setSupply rfl
  repeat' split
  · exact hs.supplyLoss
  · refine Safe.setFlagBoth ?_ _ _
    exact hs.setSupply rfl
  · exact hs
  · exact h

theorem settleExpiry (h : Safe s) : Safe (settleExpiry s) := by
  unfold Machine.settleExpiry
  split
  · exact h.enterUp
  · exact h

theorem configureSupplyRequest (h : Safe s) (body : List Byte) : Safe (configureSupplyRequest body s).state := by
  unfold Machine.configureSupplyRequest
  simp only
  repeat' split
  all_goals first | exact h | skip
  all_goals
    rename_i h1 h2 h3 h4 _
    have hs : Safe (s.setSupply { s.supply with cfg := supplyRecordOf body }) := by
      have hw := h.working
      refine ⟨h.listFits, h.oneEach, h.general, h.flipper, ?_, h.duty, h.heat, h.claims, ?_, h.stored, h.copied, h.queues⟩
      · simp only [generalPool, State.setSupply_arb, State.setSupply_supply]; omega
      · refine ⟨hw.coils, hw.named, ?_, ?_⟩
        · simp only [workingProfile, State.setSupply_supply]; omega
        · have e : (workingProfile (s.setSupply { s.supply with cfg := supplyRecordOf body })).flipperWeights =
              flipperWeights s := by
            simp [Profile.flipperWeights, workingProfile, flipperWeights, State.chan]
          rw [e]
          simp only [workingProfile, State.setSupply_supply]; omega
    first | exact (CoilWork.attemptNow _).safe hs | exact hs

/-! ### Switches and queues (chapter 8) -/

theorem appendEvent (h : Safe s) (p : Port) (w : SwitchId) (closed : Bool) : Safe (appendEvent s p w closed) := by
  unfold Machine.appendEvent
  simp only
  split
  · next hq =>
    have h1 : Safe (Machine.setQueue s p { s.sw.queues.get p with
        entries := (s.sw.queues.get p).entries ++ [⟨w, closed, s.sw.partTime, (s.sw.queues.get p).gapMark⟩], gapMark := false }) := by
      refine h.setQueue p ?_
      simpa using hq
    split
    · exact h1.setLatch _ _
    · exact h1
  · refine Safe.setLatch (h.setQueue p ?_) _ _
    exact h.queues p

theorem reportEvent (h : Safe s) (w : SwitchId) (closed : Bool) (p : Port) : Safe (reportEvent w closed s p) := by
  unfold Machine.reportEvent
  split
  · exact h.appendEvent _ _ _
  · exact h

theorem deliverIn (h : Safe s) (fs : List FlipperId) (w : SwitchId) (closed : Bool) : Safe (deliverIn fs w closed s) := by
  unfold Machine.deliverIn
  simp only [List.foldl_cons, List.foldl_nil]
  refine Safe.reportEvent (Safe.reportEvent ?_ _ _ _) _ _ _
  exact (CoilWork.foldl (CoilWork.linkSwitch w closed) _ _).safe ((CoilWork.foldl (CoilWork.flipperSwitch w closed) _ _).safe h)

theorem deliver (h : Safe s) (w : SwitchId) (closed : Bool) : Safe (deliver w closed s) := (h.setOrders _).deliverIn _ _ _

theorem switchRawChange (h : Safe s) (w : SwitchId) (low : Bool) : Safe (switchRawChange w low s) := by
  unfold Machine.switchRawChange
  simp only
  split
  · exact h
  · exact h.setInput _ _

theorem switchDebounceExpiry (h : Safe s) (w : SwitchId) : Safe (switchDebounceExpiry w s) := by
  unfold Machine.switchDebounceExpiry
  simp only
  split
  · exact (h.setInput _ _).deliver _ _
  · exact h

theorem configureSwitchRequest (h : Safe s) (body : List Byte) : Safe (configureSwitchRequest body s).state := by
  unfold Machine.configureSwitchRequest
  split
  · split
    · exact h
    · simp only [Answer.done, Answer.okWith, configureSwitch]
      repeat' split
      · exact h.setInput _ _
      · exact h.setInput _ _
      · exact (h.setInput _ _).deliver _ _
  · exact h

theorem readEventsRequest (h : Safe s) (p : Port) : Safe (readEventsRequest p s).state := by
  refine h.setQueue p ?_
  have := h.queues p
  simp only [List.length_drop]
  omega

theorem syncRawChange (h : Safe s) (high : Bool) : Safe (syncRawChange high s) := by
  unfold Machine.syncRawChange
  simp only
  split
  · exact h
  · exact h.setSw rfl

theorem syncDebouncedFall (h : Safe s) : Safe (syncDebouncedFall s) := by
  unfold Machine.syncDebouncedFall
  split
  · exact h.setSw rfl
  · exact h

/-! ### Lamps (chapter 9) -/

theorem syncRisingEdge (h : Safe s) : Safe (syncRisingEdge s) := by
  unfold Machine.syncRisingEdge
  split
  · refine Safe.setLamp ?_ _
    exact h.setSw rfl
  · exact h

theorem lampFrame (h : Safe s) : Safe (lampFrame s) := by
  unfold Machine.lampFrame
  split
  · exact h.setLamp _
  · exact h

theorem lampsRequest (h : Safe s) (p : Port) (body : List Byte) : Safe (lampsRequest p body s).state := by
  unfold Machine.lampsRequest
  simp only
  repeat' split
  all_goals first | exact h | exact h.setLamp _

theorem lampCommitRequest (h : Safe s) (p : Port) (body : List Byte) : Safe (lampCommitRequest p body s).state := by
  unfold Machine.lampCommitRequest
  simp only
  repeat' split
  all_goals first | exact h | exact h.setLamp _

theorem configureLampRequest (h : Safe s) (body : List Byte) : Safe (configureLampRequest body s).state := by
  unfold Machine.configureLampRequest
  repeat' split
  all_goals first | exact h | exact h.setLamp _

/-! ### Configuration of coils, flippers, links, steppers, banks -/

theorem workingProfile_of_setFlip (s : State) (f : FlipperId) (x : Flipper) (g : FlipperId) :
    (workingProfile (s.setFlip f x)).flippers.get g = if g = f then x.cfg else (s.flip g).cfg := by
  simp only [workingProfile, State.setFlip, Table.get_map, Table.get_set]
  split <;> rfl

theorem configureFlipperRequest (h : Safe s) (body : List Byte) : Safe (configureFlipperRequest body s).state := by
  unfold Machine.configureFlipperRequest
  split
  · next f r _ _ =>
    repeat' split
    all_goals first | exact h | skip
    next hb _ hfit =>
    simp only [Answer.done, Answer.okWith]
    refine (CoilWork.flipperTest _ _).safe ?_
    have hw := h.working
    refine ⟨h.listFits, h.oneEach, h.general, h.flipper, h.pool, h.duty, h.heat, h.claims, ?_, h.stored, h.copied, h.queues⟩
    refine ⟨hw.coils, fun g c hn => ?_, hw.reserve, hw.weights⟩
    rw [workingProfile_of_setFlip] at hn
    split at hn
    · have hfit' : flipperNamesFit s f r = true := by simpa using hfit
      have hcoil : (workingProfile (s.setFlip f { Flipper.reset with cfg := r })).coils.get c = (s.chan c).coil := by
        simp [workingProfile, State.chan]
      rw [hcoil]
      simp only [FlipperRecord.names, Bool.and_eq_true, Bool.or_eq_true, decide_eq_true_eq] at hn
      simp only [flipperNamesFit, Bool.or_eq_true, Bool.and_eq_true, Option.isNone_iff_eq_none] at hfit'
      obtain ⟨hp, hn⟩ := hn
      rcases hfit' with e | ⟨⟨_, e1⟩, e2⟩
      · simp [e] at hp
      · rcases hn with e | e
        · rw [e] at e1; simp [channelForFlipper] at e1; exact e1.1
        · rw [e] at e2; simp [channelForFlipper] at e2; exact e2.1
    · have := h.named hn
      simpa [workingProfile, State.chan] using this
  · exact h

theorem configureLinkRequest (h : Safe s) (body : List Byte) : Safe (configureLinkRequest body s).state := by
  unfold Machine.configureLinkRequest
  repeat' split
  all_goals first | exact h | exact h.setLink _ _

theorem configureStepperRequest (h : Safe s) (body : List Byte) : Safe (configureStepperRequest body s).state := by
  unfold Machine.configureStepperRequest
  simp only
  repeat' split
  all_goals first | exact h | exact h.setStepper _ _

theorem setCarries (h : Safe s) (l : List StepperId) : Safe (l.foldl (fun s t => setCarry s t none) s) := by
  induction l generalizing s with
  | nil => exact h
  | cons t l ih =>
    refine ih ?_
    exact h.setStepper _ _

theorem joinReels (h : Safe s) (l : List StepperId) : Safe (joinReels l s) := by
  induction l generalizing s with
  | nil => exact h
  | cons t l ih =>
    cases l with
    | nil => exact h.setStepper _ _
    | cons u l =>
      refine ih ?_
      exact h.setStepper _ _

theorem configureBankRequest (h : Safe s) (body : List Byte) : Safe (configureBankRequest body s).state := by
  unfold Machine.configureBankRequest
  repeat' split
  all_goals first | exact h | exact ((h.setCarries _).joinReels _).setBank _ _

end Safe

end Sys2Proof.Machine
end

