-- ==== Sys2Proof/Laws/SafeParts.lean ====
section
/-! SUPPORT. The part-wide operations keep a safe state safe (Safety.lean): CONFIGURE COIL, the cooling interval, the resets, the load,
the save, the lapse, the tick. -/

namespace Sys2Proof.Machine

theorem u8_lt (b : List Byte) (i : Nat) : u8 b i < 256 := (b.getD i 0#8).isLt

theorem u16_lt (b : List Byte) (i : Nat) : u16 b i < 65536 := by
  have h1 := u8_lt b i
  have h2 := u8_lt b (i + 1)
  unfold u16
  omega

/-- An accepted coil record is one that can be stored (R2, R19). -/
theorem coilRecordOf_stored {b : List Byte} {r : CoilRecord} (h : coilRecordOf b = some r) : r.stored = true := by
  unfold coilRecordOf at h
  split at h
  · simp at h
  · next cls _ =>
    split at h
    · next ha =>
      simp only [Option.some.injEq] at h
      subst h
      have h1 := u16_lt b 14
      simp only [CoilRecord.stored, ha, Bool.true_and, Bool.and_eq_true, Bool.or_eq_true, decide_eq_true_eq]
      refine ⟨⟨Nat.min_le_right _ _, by simp only [coilFields]; omega⟩, ?_⟩
      by_cases hf : cls = .flipper
      · exact .inr (by simp [coilFields, hf])
      · exact .inl (by simpa [coilFields] using hf)
    · simp at h

theorem generalLoad_of_configurable {ch : Channel} (h : ch.state.configurable = true) : ch.generalLoad = 0 ∧ ch.flipperLoad = 0 := by
  cases hs : ch.state <;> simp [hs, ChanState.configurable] at h <;>
    simp [Channel.generalLoad, Channel.flipperLoad, Channel.load, hs]

theorem underClass_configurable (x : ChanState) (cls : CoilClass) : (x.underClass cls).configurable = true := by
  unfold ChanState.underClass
  split
  · rfl
  · split <;> rfl

theorem workingProfile_coil (s : State) (c : ChannelId) : (workingProfile s).coils.get c = (s.chan c).coil := by
  simp [workingProfile, State.chan]

theorem workingProfile_flipper (s : State) (f : FlipperId) : (workingProfile s).flippers.get f = (s.flip f).cfg := by
  simp [workingProfile, State.flip]

theorem flipperOf_isSome {s : State} {f : FlipperId} {c : ChannelId} (h : (s.flip f).cfg.names c = true) :
    (flipperOf s c).isSome = true := by
  simp only [flipperOf, List.find?_isSome]
  exact ⟨f, List.mem_finRange f, h⟩

theorem Profile.sound_unconfigured : Profile.unconfigured.Sound where
  coils := fun c => by simp only [Profile.unconfigured, Table.get_replicate]; decide
  named := fun f c h => by
    simp only [Profile.unconfigured, Table.get_replicate] at h
    simp [FlipperRecord.names, FlipperRecord.unconfigured] at h
  reserve := by decide
  weights := by decide

namespace Safe

variable {s : State}

/-! ### CONFIGURE COIL (R19, R20) -/

theorem reconfigure (h : Safe s) {c : ChannelId} {r : CoilRecord} (hr : r.stored = true)
    (hcls : r.cls = (s.chan c).coil.cls ∨ classFits s c r.cls = true) (hw : flipperWeightsWith s c r ≤ s.supply.cfg.reserve)
    (hcfg : (s.chan c).state.configurable = true) : Safe (s.setChan c ((s.chan c).reconfigured r)) := by
  have old := generalLoad_of_configurable hcfg
  have new := generalLoad_of_configurable (ch := (s.chan c).reconfigured r) (underClass_configurable _ _)
  have e1 := generalLoads_setChan s c ((s.chan c).reconfigured r)
  have e2 := flipperLoads_setChan s c ((s.chan c).reconfigured r)
  have e3 : (s.setChan c ((s.chan c).reconfigured r)).arb = s.arb :=
    report_same _ _ _ (new.1.trans old.1.symm) (new.2.trans old.2.symm) (h.general_le c) (h.flipper_le c)
  have hg := h.general
  have hf := h.flipper
  refine ⟨e3 ▸ h.listFits, e3 ▸ h.oneEach, ?_, ?_, by rw [e3]; exact h.pool, ?_, ?_, ?_, ?_, h.stored, h.copied, h.queues⟩
  · rw [e3]; omega
  · rw [e3]; omega
  · intro d; rw [chan_setChan]; split
    · exact h.duty c
    · exact h.duty d
  · intro d; rw [chan_setChan]; split
    · exact h.heat c
    · exact h.heat d
  · intro d; rw [chan_setChan]; split
    · intro hne
      by_contra hcl
      have hcl' : r.cls ≠ .holdable := hcl
      simp only [Channel.reconfigured, if_neg hcl'] at hne
      simp [PortSet.isEmpty, PortSet.empty] at hne
    · exact h.claims d
  · have hworking := h.working
    refine ⟨fun d => ?_, fun f d hn => ?_, hworking.reserve, ?_⟩
    · rw [workingProfile_coil, chan_setChan]; split
      · exact hr
      · exact h.record d
    · have hn' : (s.flip f).cfg.names d = true := workingProfile_flipper s f ▸ hn
      have hd := h.named hn'
      rw [workingProfile_coil, chan_setChan]; split
      · next e =>
        subst e
        rcases hcls with e | e
        · exact e.trans hd
        · simp only [classFits, Bool.and_eq_true, Bool.or_eq_true, decide_eq_true_eq] at e
          rcases e.1.1 with e | e
          · have := flipperOf_isSome hn'
            cases hfl : flipperOf s d <;> simp_all
          · exact e
      · exact hd
    · have e : (workingProfile (s.setChan c ((s.chan c).reconfigured r))).flipperWeights = flipperWeightsWith s c r := by
        simp only [Profile.flipperWeights, flipperWeightsWith]
        congr 1
        apply List.map_congr_left
        intro d _
        rw [workingProfile_coil, chan_setChan]
        split <;> rfl
      rw [e]
      exact hw

theorem configureCoilRequest (h : Safe s) (body : List Byte) : Safe (configureCoilRequest body s).state := by
  unfold Machine.configureCoilRequest
  split
  · next c r _ hrec =>
    simp only
    split
    · exact h
    · split
      · exact h
      · next hb =>
        split
        · exact h
        · next hc =>
          split
          · exact h
          · next hw =>
            simp only [Bool.or_eq_true, Bool.not_eq_true', not_or, Bool.not_eq_false] at hb
            have h1 := h.reconfigure (c := c) (coilRecordOf_stored hrec) (by
              by_cases e : r.cls = (s.chan c).coil.cls
              · exact .inl e
              · right
                simpa [e] using hc) (by omega) hb.1
            unfold configureCoil
            simp only [Answer.done, Answer.okWith]
            have h2 := (CoilWork.recomputeThermal _ c).safe h1
            split
            · exact ((CoilWork.pullInTest _ c).trans (.settle _)).safe h2
            · exact h2
  · exact h

/-! ### The cooling interval (R62) -/

theorem coolingInterval (h : Safe s) : Safe (coolingInterval s) := by
  unfold Machine.coolingInterval
  split
  · refine (CoilWork.coolAll _ _).safe ?_
    exact h.of_same rfl rfl rfl rfl rfl rfl
  · exact h

/-! ### Resets and the load (R168) -/

theorem resetWith (h : Safe s) {heats : Table Heat 48} (hd : ∀ c, 1 ≤ (heats.get c).dEff ∧ (heats.get c).dEff ≤ 16)
    (hh : ∀ c, (heats.get c).h ≤ 65535) : Safe (resetWith heats s) := by
  have hc : ∀ c, (Machine.resetWith heats s).chan c = { Channel.reset with heat := heats.get c } := fun c => by
    simp [Machine.resetWith, State.chan]
  have hgl : ∀ c, ((Machine.resetWith heats s).chan c).generalLoad = 0 := fun c => by rw [hc]; rfl
  have hfl : ∀ c, ((Machine.resetWith heats s).chan c).flipperLoad = 0 := fun c => by rw [hc]; rfl
  refine ⟨Nat.zero_le _, List.nodup_nil, ?_, ?_, Nat.zero_le _, ?_, ?_, ?_, ?_, h.stored, ?_, ?_⟩
  · simp [generalLoads, hgl]; rfl
  · simp [flipperLoads, hfl]; rfl
  · intro c; rw [hc]; exact hd c
  · intro c; rw [hc]; exact hh c
  · intro c; rw [hc]; intro e; simp [Channel.reset, PortSet.isEmpty, PortSet.empty] at e
  · refine Profile.sound_unconfigured.congr ?_ ?_ rfl
    · apply Table.ext_get; intro c
      rw [workingProfile_coil, hc]; simp [Profile.unconfigured, Channel.reset]
    · apply Table.ext_get; intro f
      simp [workingProfile, Machine.resetWith, State.reset, Profile.unconfigured, Flipper.reset]
  · intro save e; simp [Machine.resetWith, ProfileStore.abandonSave] at e
  · intro p; cases p <;> exact Nat.zero_le _

theorem powerOnReset (h : Safe s) : Safe (powerOnReset s) :=
  h.resetWith (fun c => by rw [Table.get_replicate]; decide) fun c => by rw [Table.get_replicate]; decide

theorem warmReset (h : Safe s) : Safe (warmReset s) :=
  h.resetWith (fun c => by rw [Table.get_map]; exact h.duty c) fun c => by rw [Table.get_map]; exact h.heat c

theorem loaded (h : Safe s) : s.store.loaded.Sound := by
  unfold ProfileStore.loaded
  split
  · exact h.stored
  · exact Profile.sound_unconfigured

theorem loadRecords (h : Safe s) {r : Profile} (hr : r.Sound) : Safe (loadRecords s r) := by
  have hc : ∀ c, (Machine.loadRecords s r).chan c = { Channel.reset with
      coil := r.coils.get c
      state := if (r.coils.get c).cls = .off then .off else .idle
      heat := { (s.chan c).heat with dEff := derate (r.coils.get c) (s.chan c).heat.h } } := fun c => by
    simp [Machine.loadRecords, State.chan]
  have hload : ∀ c, ((Machine.loadRecords s r).chan c).load = 0 := fun c => by
    rw [hc]; unfold Channel.load; by_cases e : (r.coils.get c).cls = .off <;> simp [e]
  have hgl : ∀ c, ((Machine.loadRecords s r).chan c).generalLoad = 0 := fun c => by simp [Channel.generalLoad, hload]
  have hfl : ∀ c, ((Machine.loadRecords s r).chan c).flipperLoad = 0 := fun c => by simp [Channel.flipperLoad, hload]
  refine ⟨h.listFits, h.oneEach, ?_, ?_, Nat.zero_le _, ?_, ?_, ?_, ?_, h.stored, h.copied, ?_⟩
  · simp [generalLoads, hgl]; rfl
  · simp [flipperLoads, hfl]; rfl
  · intro c; rw [hc]; exact ⟨(derate_bounds (hr.coils c) _).1, derate_le (hr.coils c) _⟩
  · intro c; rw [hc]; exact h.heat c
  · intro c; rw [hc]; intro e; simp [Channel.reset, PortSet.isEmpty, PortSet.empty] at e
  · refine hr.congr ?_ ?_ rfl
    · apply Table.ext_get; intro c
      rw [workingProfile_coil, hc]
    · apply Table.ext_get; intro f
      simp [workingProfile, Machine.loadRecords]
  · exact h.queues

theorem endLoad (h : Safe s) (l : List ChannelId) : Safe (endLoad l s) := by
  unfold Machine.endLoad
  simp only
  refine Safe.setLamp ?_ _
  refine Safe.setSw ?_ rfl
  refine Safe.setSupply ?_ rfl
  refine (CoilWork.foldl (fun s c => ?_) _ _).safe ?_
  · exact .ite (fun _ => .setFlagBoth _ _ _) fun _ => .recomputeThermal _ _
  · have h1 : Safe (reportProfile (Machine.loadRecords s s.store.loaded)) := by
      unfold reportProfile
      split
      · exact h.loadRecords h.loaded
      · exact (h.loadRecords h.loaded).setFlagBoth _ _
    exact h1.of_same rfl rfl rfl rfl rfl rfl

theorem profileLoadEnd (h : Safe s) : Safe (profileLoadEnd s) := by
  unfold Machine.profileLoadEnd
  split
  · exact (h.setOrders _).endLoad _
  · exact h

/-! ### The save (R169, R170) -/

theorem saveProfileRequest (h : Safe s) (p : Port) : Safe (saveProfileRequest p s).state := by
  unfold Machine.saveProfileRequest
  split
  · exact h
  · refine h.of_parts rfl rfl rfl rfl rfl rfl h.stored (fun save e => ?_) h.queues
    simp only [State.setStore, Answer.done, Answer.okWith, Option.some.injEq] at e
    subst e
    exact h.working

theorem saveComplete (h : Safe s) : Safe (saveComplete s) := by
  unfold Machine.saveComplete
  split
  · exact h
  · next save hs =>
    split
    · refine Safe.setLatch ?_ _ _
      refine h.of_parts rfl rfl rfl rfl rfl rfl (h.copied _ hs) (fun save e => ?_) h.queues
      simp [State.setStore] at e
    · exact h

/-! ### Ports (R157 to R162) -/

theorem interByteGapTimeout (h : Safe s) (p : Port) : Safe (interByteGapTimeout p s) := by
  unfold Machine.interByteGapTimeout
  split
  · exact h.abandonFrame p
  · exact h

theorem replySent (h : Safe s) (p : Port) : Safe (replySent p s) := by
  unfold Machine.replySent
  split
  · exact h
  · split
    · exact h.warmReset
    · exact h.setPort _ _

theorem lapseQueue (h : Safe s) (p : Port) : Safe (lapseQueue s p) := h.setQueue p (Nat.zero_le _)

theorem lapseGroups (h : Safe s) (p : Port) : Safe (lapseGroups s p) := by
  unfold Machine.lapseGroups
  refine Safe.recomputeGroups ?_
  exact h.setSupply rfl

theorem lapse (h : Safe s) (p : Port) : Safe (lapse p s) := by
  unfold Machine.lapse
  simp only
  refine (CoilWork.settle _).safe (Safe.setLatch (Safe.lapseGroups (Safe.lapseQueue (Safe.setLamp ?_ _) p) p) _ _)
  have h1 : Safe (s.setPort p { s.port p with live := false, liveness := none }) := h.setPort _ _
  have h2 := (CoilWork.lapseCoilWork _ p).safe h1
  generalize lapseCoilWork (s.setPort p { s.port p with live := false, liveness := none }) p = u at h2 ⊢
  exact (CoilWork.steppersMap (g := fun x => x.forget p) (fun _ => rfl) fun x q h =>
    CoilWork.has_of_remove (CoilWork.told_forget x p ▸ h)).safe h2

theorem livenessExpiry (h : Safe s) (p : Port) : Safe (livenessExpiry p s) := by
  unfold Machine.livenessExpiry
  split
  · exact h.lapse p
  · exact h

theorem configurePortRequest (h : Safe s) (p : Port) (body : List Byte) : Safe (configurePortRequest p body s).state := by
  unfold Machine.configurePortRequest
  split
  · exact h
  · exact h.setPort _ _

theorem setMaskRequest (h : Safe s) (p : Port) (body : List Byte) : Safe (setMaskRequest p body s).state := h.setPort _ _

theorem readFlagsRequest (h : Safe s) (p : Port) : Safe (readFlagsRequest p s).state := h.setLatch _ _

theorem unknownKindRequest (h : Safe s) (p : Port) (kind : Byte) (body : List Byte) : Safe (unknownKindRequest p kind body s) := by
  unfold Machine.unknownKindRequest
  split
  · exact h
  · exact h.request p kind body fun _ hu _ => hu

/-! ### The tick (R132) -/

theorem tick_load (ch : Channel) : Channel.load { ch with state := ch.state.tick } = ch.load := by
  cases hs : ch.state <;> simp [Channel.load, hs, ChanState.tick]

theorem partTimeTick (h : Safe s) : Safe (partTimeTick s) := by
  have hc : ∀ c, (Machine.partTimeTick s).chan c = { s.chan c with state := (s.chan c).state.tick } := fun c => by
    simp [Machine.partTimeTick, State.chan]
  have hgl : ∀ c, ((Machine.partTimeTick s).chan c).generalLoad = (s.chan c).generalLoad := fun c => by
    rw [hc]; simp only [Channel.generalLoad, tick_load]
  have hfl : ∀ c, ((Machine.partTimeTick s).chan c).flipperLoad = (s.chan c).flipperLoad := fun c => by
    rw [hc]; simp only [Channel.flipperLoad, tick_load]
  have hl : (Machine.partTimeTick s).arb.waitList.map Entry.channel = s.arb.waitList.map Entry.channel := by
    simp only [Machine.partTimeTick, List.map_map]
    rfl
  have hlen : (Machine.partTimeTick s).arb.waitList.length = s.arb.waitList.length := by
    have := congrArg List.length hl
    simpa using this
  refine ⟨hlen ▸ h.listFits, hl ▸ h.oneEach, ?_, ?_, h.pool, ?_, ?_, ?_, ?_, ?_, ?_, h.queues⟩
  · simp only [generalLoads, hgl]; exact h.general
  · simp only [flipperLoads, hfl]; exact h.flipper
  · intro c; rw [hc]; exact h.duty c
  · intro c; rw [hc]; exact h.heat c
  · intro c; rw [hc]; exact h.claims c
  · refine h.working.congr ?_ ?_ rfl
    · apply Table.ext_get; intro c
      rw [workingProfile_coil, workingProfile_coil, hc]
    · apply Table.ext_get; intro f
      simp [workingProfile, Machine.partTimeTick]
  · exact h.stored
  · intro save e
    simp only [Machine.partTimeTick, ProfileStore.tick, Option.map_eq_some_iff] at e
    obtain ⟨x, hx, rfl⟩ := e
    exact h.copied x hx

end Safe

end Sys2Proof.Machine
end

