-- ==== Sys2Proof/Laws/Places.lean ====
section
/-! SUPPORT. What the places freed in a full list do (R46), and what the removal of an entry leaves (R57); the release of a drive by its
channel's gap (R11, R88); the consumption of a train at an end stop (R112, R115). -/

namespace Sys2Proof.Machine

theorem listFull_iff (s : State) : listFull s = true ↔ 24 ≤ s.arb.waitList.length := decide_eq_true_iff

theorem listFull_false_iff (s : State) : listFull s = false ↔ s.arb.waitList.length < 24 := by
  rw [← Bool.not_eq_true, listFull_iff]; omega

@[simp] theorem setFlagPorts_stepper (s : State) (ps : PortSet) (n : FlagName) (k : Option Nat) (t : StepperId) :
    (setFlagPorts s ps n k).stepper t = s.stepper t := by simp only [setFlagPorts]; split_ifs <;> rfl

@[simp] theorem setFlagPorts_arb (s : State) (ps : PortSet) (n : FlagName) (k : Option Nat) :
    (setFlagPorts s ps n k).arb = s.arb := by simp only [setFlagPorts]; split_ifs <;> rfl

theorem setFlagPorts_dropped (s : State) (ps : PortSet) {n : FlagName} (k : Option Nat) (q : Port) (h : n ≠ .pulseDropped) :
    ((setFlagPorts s ps n k).latch q).get FlagName.pulseDropped.bit = (s.latch q).get FlagName.pulseDropped.bit := by
  have hb : FlagName.pulseDropped.bit ≠ n.bit := fun e => h (FlagName.bit_injective e).symm
  cases q <;> simp only [setFlagPorts] <;> split_ifs <;>
    simp [setFlag, setFlagReason, State.latch, State.setLatch, PerPort.get, PerPort.set, Table.get_modify, hb]

/-! ### What places given out leave -/

/-- Places are given out: the list grows within its 24, no owed or due mark comes on while it has room, PULSE_DROPPED stays, every channel
keeps everything but its owed mark, only one that the arbiter may drive gains an entry, and a stepper whose due mark is off, but for the one
named, is left as it is. -/
structure Placed (but : Option StepperId) (s t : State) : Prop where
  grows : s.arb.waitList.length ≤ t.arb.waitList.length
  cap : s.arb.waitList.length ≤ 24 → t.arb.waitList.length ≤ 24
  owed : ∀ c, (s.chan c).owed = false → (t.chan c).owed = false
  due : t.arb.waitList.length < 24 → ∀ u, (s.stepper u).due = false → (t.stepper u).due = false
  dropped : ∀ q, (t.latch q).get FlagName.pulseDropped.bit = (s.latch q).get FlagName.pulseDropped.bit
  kept : ∀ c, Kept c s t
  entries : ∀ c, Barred s c → entryOf s c = none → entryOf t c = none
  steppers : ∀ u, some u ≠ but → (s.stepper u).due = false → t.stepper u = s.stepper u

namespace Placed

variable {but : Option StepperId}

theorem refl (s : State) : Placed but s s :=
  ⟨le_refl _, id, fun _ => id, fun _ _ => id, fun _ => rfl, fun _ => .refl s, fun _ _ => id, fun _ _ _ => rfl⟩

theorem barred {s t : State} (a : Placed but s t) {c : ChannelId} (h : Barred s c) : Barred t c := (a.kept c).barred h

theorem trans {s t u : State} (a : Placed but s t) (b : Placed but t u) : Placed but s u where
  grows := a.grows.trans b.grows
  cap h := b.cap (a.cap h)
  owed c h := b.owed c (a.owed c h)
  due h x y := b.due h x (a.due (lt_of_le_of_lt b.grows h) x y)
  dropped q := (b.dropped q).trans (a.dropped q)
  kept c := (a.kept c).trans (b.kept c)
  entries c h k := b.entries c (a.barred h) (a.entries c h k)
  steppers x h k := by
    have e := a.steppers x h k
    rw [b.steppers x h (by rw [e]; exact k), e]

theorem foldl {α : Type} {f : State → α → State} (h : ∀ s x, Placed but s (f s x)) (l : List α) (s : State) :
    Placed but s (l.foldl f s) := by
  induction l generalizing s with
  | nil => exact refl s
  | cons x l ih => exact (h s x).trans (ih _)

/-- A stepper is written, with no due mark that comes on while the list has room. -/
theorem setStepper {s : State} {t : StepperId} {x : Stepper}
    (h : s.arb.waitList.length < 24 → (s.stepper t).due = false → x.due = false) : Placed (some t) s (s.setStepper t x) := by
  refine ⟨le_refl _, id, fun _ h => h, fun hl u hu => ?_, fun _ => rfl, fun _ => .of_same rfl, fun _ _ h => h,
    fun u hu _ => ?_⟩
  · by_cases e : u = t
    · subst e; simpa using h hl hu
    · rw [State.stepper_setStepper_ne _ _ _ _ e]; exact hu
  · exact State.stepper_setStepper_ne _ _ _ _ fun e => hu (by rw [e])

theorem setFlagPorts (s : State) (ps : PortSet) {n : FlagName} (k : Option Nat) (h : n ≠ .pulseDropped) :
    Placed but s (setFlagPorts s ps n k) := by
  refine ⟨by rw [setFlagPorts_arb], by rw [setFlagPorts_arb]; exact id, fun c h => ?_, fun _ u h => ?_,
    fun q => setFlagPorts_dropped s ps k q h, fun c => .of_same (setFlagPorts_channels _ _ _ _), fun c _ h => ?_, fun u _ _ => setFlagPorts_stepper _ _ _ _ _⟩
  · rw [State.chan, setFlagPorts_channels]; exact h
  · rw [setFlagPorts_stepper]; exact h
  · simpa only [entryOf, setFlagPorts_arb] using h

theorem endTrain (s : State) (t : StepperId) : Placed (some t) s (endTrain s t) := by
  simp only [Machine.endTrain]
  split
  · refine trans (setStepper ?_) (setFlagPorts _ _ _ (by decide))
    exact fun _ h => h
  · refine trans (setStepper ?_) (setFlagPorts _ _ _ (by decide))
    exact fun _ h => h
  all_goals exact refl s

theorem clampTrain (s : State) (t : StepperId) : Placed (some t) s (clampTrain s t) := by
  simp only [Machine.clampTrain]
  split
  · refine trans (setStepper ?_) (endTrain _ t)
    exact fun _ h => h
  all_goals exact refl s

/-- An entry of a channel that may be driven enters a list with room. -/
theorem enter {s : State} {e : Entry} (h : ¬Barred s e.channel) (room : s.arb.waitList.length < 24) :
    Placed but s (enter s e) := by
  refine ⟨by simp [Machine.enter, bring], fun _ => by simp [Machine.enter, bring]; omega, fun _ h => h, fun _ _ h => h, fun _ => rfl,
    fun _ => .of_same rfl, fun c hc hn => ?_, fun _ _ _ => rfl⟩
  have : e.channel ≠ c := fun x => h (x ▸ hc)
  simpa [entryOf, Machine.enter, bring, this] using hn

/-- A ready step's channel may be driven (R111). -/
theorem not_barred_of_stepReady {s : State} {t : StepperId} {c : ChannelId} (h : stepReady s t = some c) : ¬Barred s c := by
  simp only [stepReady] at h
  split at h
  · cases h
  · split at h
    · cases h
    · split_ifs at h with hh
      cases h
      simp [inCutoff] at hh
      simp only [Barred]; tauto

/-- A STEP entry of a channel that may be driven enters a list with room. -/
theorem enterStep {s : State} {t : StepperId} {c : ChannelId} (h : ¬Barred s c) (room : s.arb.waitList.length < 24) :
    Placed (some t) s (enterStep s t c) :=
  (setStepper (x := { s.stepper t with homingEntry := (s.stepper t).state.isHoming }) fun _ h => h).trans
    (enter (e := stepEntry s t c) h room)

theorem stepTestN (n : Nat) (s : State) (t : StepperId) : Placed (some t) s (stepTestN n s t) := by
  induction n generalizing s with
  | zero => exact refl s
  | succ n ih =>
    simp only [Machine.stepTestN]
    split
    · exact refl s
    · next c hc =>
      split_ifs with _ hf
      · exact (clampTrain s t).trans (ih _)
      · rw [listFull_iff] at hf; exact setStepper fun hl => absurd hl (by omega)
      · exact enterStep (not_barred_of_stepReady hc) ((listFull_false_iff s).1 (by simpa using hf))

/-- An owed mark is written, not on where it was off. -/
theorem setOwed (s : State) (c : ChannelId) : Placed but s (s.setChan c { s.chan c with owed := false }) := by
  have key : ∀ d, (s.setChan c { s.chan c with owed := false }).chan d =
      if d = c then { s.chan c with owed := false } else s.chan d := fun d => by
    by_cases e : d = c
    · subst e; simp
    · rw [State.chan_setChan_ne _ _ _ _ e, if_neg e]
  refine ⟨le_refl _, id, fun d h => ?_, fun _ _ h => h, fun _ => rfl, fun _ => .setOwed s c false, fun _ _ h => h, fun _ _ _ => rfl⟩
  rw [key]; split_ifs <;> first | rfl | exact h

theorem not_barred_of_pullInCondition {s : State} {c : ChannelId} (h : pullInCondition s c = true) : ¬Barred s c := by
  simp [pullInCondition, inCutoff] at h
  simp only [Barred]; tauto

theorem makePullIn {s : State} {c : ChannelId} (h : pullInCondition s c = true) (room : s.arb.waitList.length < 24) :
    Placed but s (makePullIn s c) :=
  (setOwed s c).trans (enter (by simpa [Barred] using not_barred_of_pullInCondition h) room)

theorem handoutChannel (s : State) (c : ChannelId) : Placed but s (handoutChannel s c) := by
  unfold Machine.handoutChannel
  simp only
  split_ifs with h1 h2
  · have room : s.arb.waitList.length < 24 := (listFull_false_iff s).1 (by simp at h1; exact h1.1)
    exact (setOwed s c).trans (makePullIn h2 room)
  · exact setOwed s c
  · exact refl s

theorem handoutStepper (s : State) (t : StepperId) : Placed none s (handoutStepper s t) := by
  unfold Machine.handoutStepper
  split_ifs with h
  · have hd : (s.stepper t).due = true := by simp at h; exact h.2
    have p : Placed (some t) s (stepTest (s.setStepper t { s.stepper t with due := false }) t) :=
      (setStepper fun _ _ => rfl).trans (stepTestN 3 _ t)
    refine { p with steppers := fun u _ hu => p.steppers u (fun e => ?_) hu }
    have e : u = t := Option.some.inj e
    subst e; rw [hu] at hd; cases hd
  · exact refl s

theorem handout (s : State) : Placed none s (handout s) := (foldl handoutChannel _ s).trans (foldl handoutStepper _ _)

/-- The fold of a step that clears a mark of each record it meets leaves every mark off, if the list then has room. -/
theorem foldl_clears {α : Type} {f : State → α → State} {P : State → α → Prop} (hf : ∀ s x, Placed none s (f s x))
    (clears : ∀ s x, (f s x).arb.waitList.length < 24 → P (f s x) x)
    (keeps : ∀ s t x, Placed none s t → t.arb.waitList.length < 24 → P s x → P t x) (l : List α) (s : State)
    (room : (l.foldl f s).arb.waitList.length < 24) : ∀ x ∈ l, P (l.foldl f s) x := by
  induction l generalizing s with
  | nil => simp
  | cons a l ih =>
    intro x hx
    simp only [List.foldl_cons] at room ⊢
    have g := foldl hf l (f s a)
    rcases List.mem_cons.1 hx with rfl | hx
    · exact keeps _ _ _ g room (clears s x (lt_of_le_of_lt g.grows room))
    · exact ih _ room x hx

end Placed

/-! ### What a removal leaves -/

/-- What holds once an entry has left the list, whether or not it was blocking, holds after its place was given out. -/
theorem afterDrop {s : State} (e : Entry) {P : State → Prop} (left : P (dropEntry s e.channel))
    (brought : P (bring (dropEntry s e.channel))) (placed : ∀ u, P u → P (handout u)) :
    let u := if e.passed = Config.blockingCount then bring (dropEntry s e.channel) else dropEntry s e.channel
    P (if listFull s = true then handout u else u) := by
  intro u
  have hu : P u := by
    simp only [u]
    split
    · exact brought
    · exact left
  split
  · exact placed u hu
  · exact hu

/-- PULSE_DROPPED is the reports' part: a removal does not touch it (R56). -/
theorem removeEntry_dropped (s : State) (e : Entry) (q : Port) :
    ((removeEntry s e).latch q).get FlagName.pulseDropped.bit = (s.latch q).get FlagName.pulseDropped.bit := by
  have h := afterDrop (s := s) e
    (P := fun u => (u.latch q).get FlagName.pulseDropped.bit = (s.latch q).get FlagName.pulseDropped.bit) rfl rfl
    fun u hu => ((Placed.handout u).dropped q).trans hu
  have hp : ∀ (u : State) (c : ChannelId), (pullInTest u c).latches = u.latches := fun u c => by
    unfold pullInTest; split_ifs <;> rfl
  unfold removeEntry
  simp only
  cases e.work <;> first | exact h | (rw [State.latch, hp]; exact h)

/-- No pull-in is made for a channel that may not be driven (R15). -/
theorem pullInTest_barred {s : State} {c : ChannelId} (h : Barred s c) : pullInTest s c = s := by
  unfold pullInTest
  rw [if_neg fun x => Placed.not_barred_of_pullInCondition x h]

/-- A channel that may not be driven has no entry once its entry is removed: no pull-in is made for it (R15). -/
theorem removeEntry_entryOf {s : State} {e : Entry} (h : Barred s e.channel) : entryOf (removeEntry s e) e.channel = none := by
  have d : entryOf (dropEntry s e.channel) e.channel = none := by simp [entryOf, dropEntry, List.find?_eq_none]
  have k := afterDrop (s := s) e (P := fun u => Barred u e.channel ∧ entryOf u e.channel = none) ⟨h, d⟩ ⟨h, d⟩
    fun u hu => ⟨(Placed.handout u).barred hu.1, (Placed.handout u).entries _ hu.1 hu.2⟩
  unfold removeEntry
  simp only
  cases e.work <;> first | exact k.2 | (rw [pullInTest_barred k.1]; exact k.2)

/-- A stepper whose due mark is off keeps everything through the removal of a STEP entry. -/
theorem removeStepEntry_stepper {s : State} {t : StepperId} (h : (s.stepper t).due = false) :
    (removeStepEntry s t).stepper t = s.stepper t := by
  unfold removeStepEntry
  split
  · rfl
  · next e he =>
    have hw : e.work = .step t := by simpa using List.find?_some he
    have k := afterDrop (s := s) e (P := fun u => u.stepper t = s.stepper t) rfl rfl
      fun u hu => ((Placed.handout u).steppers t (by simp) (by rw [hu]; exact h)).trans hu
    unfold removeEntry
    simp only [hw]
    exact k

/-! ### A release by the channel's gap -/

theorem attemptNow_coil (s : State) (c : ChannelId) : ((attemptNow s).chan c).coil = (s.chan c).coil := by
  have := congrArg (fun p => p.coils.get c) (CoilWork.attemptNow s).profile
  simpa [workingProfile_coil] using this

theorem release_gapless {s : State} {c : ChannelId} (h : (s.chan c).coil.gap = 0) :
    release s c = reportIdle (attemptNow (s.setChan c { s.chan c with state := .idle })) c none := by
  have hr : rest s c none = s.setChan c { s.chan c with state := .idle } := by simp [rest, h]
  have : gapless (attemptNow (s.setChan c { s.chan c with state := .idle })) c = true := by simp [gapless, attemptNow_coil, h]
  simp only [release, hr, this, if_true]

theorem release_gap {s : State} {c : ChannelId} (h : (s.chan c).coil.gap ≠ 0) :
    release s c = attemptNow (s.setChan c { s.chan c with state := .recover (s.chan c).coil.gap none }) := by
  have hr : rest s c none = s.setChan c { s.chan c with state := .recover (s.chan c).coil.gap none } := by simp [rest, h]
  have : gapless (attemptNow (s.setChan c { s.chan c with state := .recover (s.chan c).coil.gap none })) c = false := by
    simp [gapless, attemptNow_coil, h]
  simp only [release, hr, this, Bool.false_eq_true, if_false]

/-! ### A train consumed at an end stop -/

/-- An IDLE stepper's test does nothing. -/
theorem stepTestN_idle (n : Nat) {s : State} {t : StepperId} (h : (s.stepper t).state = .idle) : stepTestN n s t = s := by
  have : stepReady s t = none := by simp [stepReady, Stepper.nextDir, h]
  cases n <;> simp [stepTestN, this]

theorem clampTrain_last {s : State} {t : StepperId} {train : Train} (h : (s.stepper t).state = .running train none) :
    clampTrain s t = setFlagPorts (s.setStepper t { s.stepper t with
      state := .idle
      clamped := min 65535 ((s.stepper t).clamped + train.remaining)
      last := some ⟨train.delivered, .done⟩ }) train.origin.ports .trainDone (some t.val) := by
  simp [clampTrain, h, endTrain, State.setStepper_setStepper, sat, Config.top16]

theorem clampTrain_reload {s : State} {t : StepperId} {train next : Train}
    (h : (s.stepper t).state = .running train (some next)) :
    clampTrain s t = setFlagPorts (s.setStepper t { s.stepper t with
      state := .running { next with delivered := 0 } none
      clamped := min 65535 ((s.stepper t).clamped + train.remaining)
      last := some ⟨train.delivered, .done⟩ }) train.origin.ports .trainReload (some t.val) := by
  simp [clampTrain, h, endTrain, State.setStepper_setStepper, sat, Config.top16]

end Sys2Proof.Machine
end

