-- ==== Sys2Proof/Laws/Attempts.lean ====
section
/-! SUPPORT. Grant attempts made one after another until none is left (R48, R50): an attempt either finds nothing to do, and then none
after it does, or takes a channel out of those that may be driven, so that the bound of `settle` is never met (log 21). -/

namespace Sys2Proof.Machine

/-- The state with this many attempts brought. -/
abbrev State.brought (s : State) (n : Nat) : State := s.setArb { s.arb with attempts := n }

/-! ### A channel that may not be driven gains no entry -/

/-- A channel that may not be driven keeps everything but its owed mark and, without an entry, gains none. -/
structure Shut (c : ChannelId) (s t : State) : Prop where
  kept : Barred s c → Kept c s t
  entry : Barred s c → entryOf s c = none → entryOf t c = none

namespace Shut

variable {c : ChannelId}

theorem barred {s t : State} (a : Shut c s t) (h : Barred s c) : Barred t c := (a.kept h).barred h

theorem refl (s : State) : Shut c s s := ⟨fun _ => .refl s, fun _ => id⟩

theorem trans {s t u : State} (a : Shut c s t) (b : Shut c t u) : Shut c s u :=
  ⟨fun h => (a.kept h).trans (b.kept (a.barred h)), fun h k => b.entry (a.barred h) (a.entry h k)⟩

theorem of_placed {but : Option StepperId} {s t : State} (h : Placed but s t) : Shut c s t := ⟨fun _ => h.kept c, h.entries c⟩

theorem of_kept {s t : State} (h : Kept c s t) (k : t.arb.waitList = s.arb.waitList) : Shut c s t :=
  ⟨fun _ => h, fun _ e => by simpa only [entryOf, k] using e⟩

theorem of_same {s t : State} (h : t.channels = s.channels) (k : t.arb.waitList = s.arb.waitList) : Shut c s t :=
  of_kept (.of_same h) k

theorem dropEntry (s : State) (d : ChannelId) : Shut c s (dropEntry s d) := by
  refine ⟨fun _ => .of_same rfl, fun _ h => ?_⟩
  simp only [entryOf, Machine.dropEntry, List.find?_eq_none] at h ⊢
  exact fun e he => h e (List.mem_filter.1 he).1

theorem pullInTest (s : State) (d : ChannelId) : Shut c s (pullInTest s d) := by
  unfold Machine.pullInTest
  split_ifs with h f
  · exact of_kept (.setOwed s d true) rfl
  · exact of_placed (but := none) (.makePullIn h ((listFull_false_iff s).1 (by simpa using f)))
  · exact refl s

theorem handout (s : State) : Shut c s (handout s) := of_placed (.handout s)

theorem handoutIf (s u : State) : Shut c u (if listFull s = true then Machine.handout u else u) := by
  split_ifs
  · exact handout u
  · exact refl u

theorem removeEntry (s : State) (e : Entry) : Shut c s (removeEntry s e) := by
  have h := afterDrop (s := s) e (P := Shut c s) (dropEntry s e.channel) ((dropEntry s e.channel).trans (of_same rfl rfl))
    fun u hu => hu.trans (handout u)
  unfold Machine.removeEntry
  simp only
  cases e.work <;> first | exact h | exact h.trans (pullInTest _ _)

theorem dropPulse_arb (s : State) (ps : PortSet) (d : ChannelId) (r : DropReason) : (dropPulse s ps d r).arb = s.arb := by
  simp only [dropPulse]; split_ifs <;> rfl

theorem reportDropped_waitList (s : State) (e : Entry) (r : DropReason) :
    (reportDropped s e r).arb.waitList = s.arb.waitList := by
  simp only [reportDropped]
  split
  · rw [dropPulse_arb]
  · split_ifs
    · rw [dropPulse_arb]
    · rfl
  · rw [dropPulse_arb]; rfl
  · rfl

theorem refuseEntry (s : State) (e : Entry) : Shut c s (refuseEntry s e) :=
  (of_same (reportDropped_channels s e .hot) (reportDropped_waitList s e .hot)).trans (removeEntry _ e)

theorem heatCheck_waitList (s : State) (d : ChannelId) (w : Nat) : (heatCheck s d w).1.arb.waitList = s.arb.waitList := by
  have hf : ∀ (u : State) n k, (setFlagBoth u n k).arb = u.arb := fun u n k => setFlagPorts_arb _ _ _ _
  have ht : ∀ (u : State) t, (setThermal u d t).arb.waitList = u.arb.waitList := fun u t => by
    simp only [setThermal]; split_ifs <;> rfl
  unfold Machine.heatCheck
  simp only [enterCutoff, noteCutoff]
  split_ifs
  · rw [hf]; exact ht _ _
  · rw [ht]; rfl

theorem heatCheck (s : State) {d : ChannelId} (w : Nat) (h : d ≠ c) : Shut c s (heatCheck s d w).1 :=
  of_kept (.heatCheck s w h) (heatCheck_waitList s d w)

theorem turnedAway (s : State) (t : StepperId) (k : Nat) (counted : Bool) :
    Shut c s (if counted = true then s.setStepper t ((s.stepper t).lose k) else s) := by
  split_ifs
  · exact of_same rfl rfl
  · exact refl s

theorem offerTrain (s : State) (t : StepperId) (dir : Direction) (k : Nat) (origin : Origin) (counted : Bool) :
    Shut c s (offerTrain s t dir k origin counted).1 := by
  have a := turnedAway (c := c) s t k counted
  have w : ∀ x : Stepper, Shut c s (s.setStepper t x) := fun x => of_same rfl rfl
  unfold Machine.offerTrain
  simp only
  split
  · exact a
  · split
    · exact a
    · exact a
    · split
      · exact a
      · exact (w _).trans (of_placed (.stepTestN 3 _ t))
    · split
      · exact a
      · exact w _
    · split
      · exact a
      · split
        · exact w _
        · exact a

theorem grantFire (s : State) (k : LinkId) : Shut c s (grantFire s k) := by
  have w : ∀ (u : State) (x : Link), Shut c u (u.setLink k x) := fun u x => of_same rfl rfl
  unfold Machine.grantFire
  simp only
  split
  · exact w _ _
  · split_ifs
    · exact ((w s _).trans (offerTrain _ _ _ _ _ _)).trans (w _ _)
    · exact (w s _).trans (offerTrain _ _ _ _ _ _)

/-- What a grant does once its drive has started. -/
theorem afterDrive (s : State) (e : Entry) (w : Nat) :
    Shut c (startDrive (Machine.dropEntry s e.channel) e.channel e.work.kind w) (grant s e w) := by
  unfold grant
  simp only
  cases e.work with
  | pulse origin => exact handoutIf s _
  | pullIn origin => exact handoutIf s _
  | fire k notified => exact (handoutIf s _).trans (grantFire _ k)
  | step t =>
    refine .trans ?_ (handoutIf s _)
    exact of_same rfl rfl

theorem grant {s : State} {e : Entry} (w : Nat) (h : e.channel ≠ c) : Shut c s (grant s e w) :=
  ((dropEntry s e.channel).trans (of_kept (.setChan _ _ h) rfl)).trans (afterDrive s e w)

end Shut

/-- A channel that an attempt has driven or refused: it may not be driven, and has no entry. -/
def Done (s : State) (c : ChannelId) : Prop := Barred s c ∧ entryOf s c = none

theorem Done.shut {s t : State} {c : ChannelId} (h : Done s c) (k : Shut c s t) : Done t c := ⟨k.barred h.1, k.entry h.1 h.2⟩

/-- A grant takes its channel out of IDLE. -/
theorem grant_done (s : State) (e : Entry) (w : Nat) : Done (grant s e w) e.channel := by
  refine Done.shut ⟨.inl ?_, ?_⟩ (Shut.afterDrive s e w)
  · simp [startDrive]
  · change entryOf (dropEntry s e.channel) e.channel = none
    simp [entryOf, dropEntry, List.find?_eq_none]

/-- Whatever flag is set with it, the thermal state is written. -/
theorem setThermal_thermal (s : State) (c : ChannelId) (t : Thermal) : ((setThermal s c t).chan c).heat.thermal = t := by
  simp only [setThermal]
  split_ifs <;> simp [State.setHeat, setFlagBoth, State.chan, setFlagPorts_channels, State.setChan]

theorem enterCutoff_thermal (s : State) (c : ChannelId) : ((enterCutoff s c).chan c).heat.thermal = .cutoff := by
  have h : ∀ u : State, ((noteCutoff u c).chan c).heat.thermal = (u.chan c).heat.thermal := fun u => by
    simp [noteCutoff, setFlagBoth, State.chan, setFlagPorts_channels, State.setHeat, State.setChan]
  rw [enterCutoff, h, setThermal_thermal]

/-- A refusal takes its channel into CUTOFF. -/
theorem refuse_done {s u : State} {c : ChannelId} {e : Entry} {w : Nat} (he : e.channel = c) (h : heatCheck s c w = (u, none)) :
    Done (refuseEntry u e) c := by
  have b : Barred u e.channel := by
    refine .inr ?_
    simp only [heatCheck] at h
    split_ifs at h
    · rw [← (Prod.mk.inj h).1, he]
      exact enterCutoff_thermal s c
    · cases (Prod.mk.inj h).2
  have k : Barred (reportDropped u e .hot) e.channel :=
    (Shut.of_same (reportDropped_channels u e .hot) (Shut.reportDropped_waitList u e .hot)).barred b
  exact ⟨(Shut.refuseEntry u e).barred (he ▸ b), he ▸ removeEntry_entryOf k⟩

/-- The walk leaves a channel that is done so, also where its number stands in the order again. -/
theorem walk_done {c : ChannelId} (l failed passed : List ChannelId) {s : State} (h : Done s c) :
    Done (walk l failed passed s).1 c := by
  induction l generalizing failed passed s with
  | nil => exact h
  | cons d rest ih =>
    unfold walk
    split
    · exact ih _ _ h
    · next e he =>
      have hd : d ≠ c := by rintro rfl; rw [h.2] at he; cases he
      have hc : e.channel ≠ c := by rw [entryOf_channel he]; exact hd
      have hk := Shut.heatCheck s e.width hd
      split_ifs
      · split
        · next u hu => rw [hu] at hk; exact ih _ _ (h.shut (hk.trans (.refuseEntry _ _)))
        · next u w hu => rw [hu] at hk; exact ih _ _ (h.shut (hk.trans (.grant _ hc)))
      · exact h
      · exact ih _ _ h

/-- A walk either finds nothing to grant or refuse, however many attempts are brought, or is done with a channel of its order. -/
theorem walk_idle_or_done (l failed : List ChannelId) (s : State) :
    (∀ n, walk l failed [] (s.brought n) = (s.brought n, [])) ∨ ∃ c ∈ l, ∀ n, Done (walk l failed [] (s.brought n)).1 c := by
  induction l generalizing failed with
  | nil => exact .inl fun _ => rfl
  | cons c rest ih =>
    have next : ∀ f, (∀ n, walk (c :: rest) failed [] (s.brought n) = walk rest f [] (s.brought n)) →
        (∀ n, walk (c :: rest) failed [] (s.brought n) = (s.brought n, [])) ∨
          ∃ d ∈ c :: rest, ∀ n, Done (walk (c :: rest) failed [] (s.brought n)).1 d := by
      intro f hf
      rcases ih f with k | ⟨d, hd, k⟩
      · exact .inl fun n => by rw [hf, k]
      · exact .inr ⟨d, List.mem_cons_of_mem _ hd, fun n => by rw [hf]; exact k n⟩
    cases he : entryOf s c with
    | none =>
      refine next failed fun n => ?_
      rw [walk, show entryOf (s.brought n) c = none from he]
    | some e =>
      have hn : ∀ n, entryOf (s.brought n) c = some e := fun _ => he
      by_cases hf : fits s c = true
      · refine .inr ⟨c, List.mem_cons_self, fun n => ?_⟩
        rw [walk, hn n]
        simp only
        rw [if_pos (show fits (s.brought n) c = true from hf)]
        split
        · next u hu => exact walk_done _ _ _ (refuse_done (entryOf_channel he) hu)
        · next u w hu => exact walk_done _ _ _ (entryOf_channel he ▸ grant_done u e w)
      · by_cases hp : e.passed = Config.blockingCount
        · refine .inl fun n => ?_
          rw [walk, hn n]
          simp only
          rw [if_neg (show ¬fits (s.brought n) c = true from hf), if_pos hp]
        · refine next (failed ++ [c]) fun n => ?_
          rw [walk, hn n]
          simp only
          rw [if_neg (show ¬fits (s.brought n) c = true from hf), if_neg hp]

/-- An attempt either changes nothing, however many attempts are brought, or bars a channel that might have been driven. -/
theorem attempt_idle_or_bars (s : State) :
    (∀ n, attempt (s.brought n) = s.brought n) ∨ ∃ c, ¬Barred s c ∧ ∀ n, Barred (attempt (s.brought n)) c := by
  have hs : ∀ n, selection (s.brought n) = selection s := fun _ => rfl
  rcases walk_idle_or_done (selection s) [] s with h | ⟨c, hc, h⟩
  · refine .inl fun n => ?_
    simp only [attempt, hs, h, raisePassed, List.not_mem_nil, if_false, List.map_id']
    rfl
  · refine .inr ⟨c, fun b => Kept.not_mem_selection b hc, fun n => ?_⟩
    exact (h n).1

/-- An attempt leaves a channel that is done so. -/
theorem attempt_done {s : State} {c : ChannelId} (h : Done s c) : Done (attempt s) c := by
  have k := walk_done (selection s) [] [] h
  refine ⟨k.1, ?_⟩
  have := k.2
  simp only [entryOf, attempt, raisePassed, List.find?_eq_none, State.setWaitList] at this ⊢
  intro x hx
  obtain ⟨e, he, rfl⟩ := List.mem_map.1 hx
  split_ifs <;> exact this e he

/-- How many channels may be driven. -/
noncomputable def State.drivable (s : State) : Nat := {c : ChannelId | ¬Barred s c}.ncard

theorem State.drivable_le (s : State) : s.drivable ≤ 48 := by
  have h := Set.ncard_le_ncard (Set.subset_univ {c : ChannelId | ¬Barred s c})
  simpa [State.drivable, Set.ncard_univ] using h

/-- An attempt that bars a channel leaves fewer that may be driven. -/
theorem drivable_attempt {s : State} {c : ChannelId} {n : Nat} (h : ¬Barred s c) (k : Barred (attempt (s.brought n)) c) :
    (attempt (s.brought n)).drivable < s.drivable := by
  refine Set.ncard_lt_ncard (Set.ssubset_iff_subset_ne.2 ⟨fun d hd b => hd ?_, fun e => ?_⟩)
  · exact (Kept.attempt (c := d) (s := s.brought n) b).barred b
  · have : c ∈ {d : ChannelId | ¬Barred (attempt (s.brought n)) d} := by rw [e]; exact h
    exact this k

/-- Where an attempt finds nothing to do, all that were brought do nothing. -/
theorem settleN_idle (n : Nat) {s : State} (h : ∀ m, attempt (s.brought m) = s.brought m) : settleN n s = s.brought 0 := by
  induction n generalizing s with
  | zero => rfl
  | succ n ih =>
    unfold settleN
    split_ifs with e
    · rw [State.brought, ← e]; rfl
    · exact (congrArg (settleN n) (h _)).trans (ih h)

/-- One more attempt than there are channels that may be driven is enough. -/
theorem settleN_enough (n : Nat) {s : State} (h : s.drivable < n) : settleN n s = settleN (n + 1) s := by
  induction n generalizing s with
  | zero => omega
  | succ n ih =>
    rcases attempt_idle_or_bars s with k | ⟨c, hc, k⟩
    · rw [settleN_idle _ k, settleN_idle _ k]
    · unfold settleN
      split_ifs
      · rfl
      · exact ih (Nat.lt_of_lt_of_le (drivable_attempt hc (k (s.arb.attempts - 1))) (Nat.lt_succ_iff.1 h))

/-- An attempt that was brought is made, and then those that are left, with those that it brought (R48). -/
theorem settle_next {s : State} {n : Nat} (h : s.arb.attempts = n + 1) : settle s = settle (attempt (s.brought n)) := by
  have e : settle s = settleN 48 (attempt (s.brought n)) := by
    unfold settle settleN
    rw [if_neg (by omega), h]; rfl
  rw [e]
  rcases attempt_idle_or_bars s with k | ⟨c, hc, k⟩
  · have i : ∀ m, attempt ((attempt (s.brought n)).brought m) = (attempt (s.brought n)).brought m := fun m => by rw [k n]; exact k m
    rw [settle, settleN_idle _ i, settleN_idle _ i]
  · have := drivable_attempt hc (k n)
    exact settleN_enough 48 (by have := s.drivable_le; omega)

/-- With no attempt brought there is nothing to make. -/
theorem settle_none {s : State} (h : s.arb.attempts = 0) : settle s = s := by simp [settle, settleN, h]

/-- All the attempts that were brought are made. -/
theorem settle_attempts (s : State) : (settle s).arb.attempts = 0 := by
  have : ∀ n (s : State), (settleN n s).arb.attempts = 0 := by
    intro n
    induction n with
    | zero => intro s; rfl
    | succ n ih => intro s; unfold settleN; split_ifs with h <;> [exact h; exact ih _]
  exact this 49 s

/-! ### What a channel out of service keeps (R17) -/

namespace Shut

variable {c : ChannelId}

theorem attempt (s : State) : Shut c s (attempt s) := ⟨Kept.attempt, fun h e => (attempt_done ⟨h, e⟩).2⟩

theorem settle (s : State) : Shut c s (settle s) := by
  have h : ∀ n (s : State), Shut c s (settleN n s) := by
    intro n
    induction n with
    | zero => exact fun s => of_same rfl rfl
    | succ n ih =>
      intro s
      unfold settleN
      split_ifs
      · exact refl s
      · refine .trans ?_ ((attempt _).trans (ih _))
        exact of_same rfl rfl
  exact h 49 s

theorem attemptNow (s : State) : Shut c s (attemptNow s) := by
  refine .trans ?_ (settle (bring s))
  exact of_same rfl rfl

theorem setStepper (s : State) (t : StepperId) (x : Stepper) : Shut c s (s.setStepper t x) := of_same rfl rfl

theorem setFlagPorts (s : State) (ps : PortSet) (n : FlagName) (k : Option Nat) : Shut c s (setFlagPorts s ps n k) :=
  of_same (setFlagPorts_channels s ps n k) (by rw [setFlagPorts_arb])

theorem removeStepEntry (s : State) (t : StepperId) : Shut c s (removeStepEntry s t) := by
  unfold Machine.removeStepEntry
  split
  · exact refl s
  · exact removeEntry s _

theorem faultStepper (s : State) (t : StepperId) (unknown : Bool) : Shut c s (faultStepper s t unknown) :=
  ((setStepper s t _).trans (removeStepEntry _ t)).trans (setFlagPorts _ ⟨true, true⟩ .stepperFault (some t.val))

theorem lookHome (s : State) (t : StepperId) : Shut c s (lookHome s t) := by
  have m : Shut c s (mismatch s t) := by
    unfold mismatch
    simp only
    split_ifs
    · exact (setStepper s t _).trans (faultStepper _ t false)
    · exact setStepper s t _
  have v : ∀ closed, Shut c s (verifyAgainst s t closed) := by
    intro closed
    unfold verifyAgainst
    simp only
    split <;> (try split_ifs) <;> first | exact refl s | exact m | exact setStepper s t _
  unfold Machine.lookHome
  simp only
  split
  · exact refl s
  · split
    · exact v _
    · exact v _
    · unfold homingTest homeFound
      split_ifs
      · exact (setStepper s t _).trans (setFlagPorts _ _ _ _)
      · exact refl s
      · exact faultStepper s t true
    · exact refl s

theorem stepperIdle (s : State) (t : StepperId) (afterStep : Bool) : Shut c s (stepperIdle s t afterStep) := by
  unfold Machine.stepperIdle
  refine .trans ?_ (of_placed (.stepTestN 3 _ t))
  split_ifs
  · exact lookHome s t
  · exact refl s

theorem reportIdle (s : State) (d : ChannelId) (after : Option StepperId) : Shut c s (reportIdle s d after) := by
  unfold Machine.reportIdle
  simp only
  split
  · exact (attemptNow s).trans ((pullInTest _ d).trans (settle _))
  · exact (attemptNow s).trans (((stepperIdle _ _ _).trans (settle _)).trans ((pullInTest _ d).trans (settle _)))

theorem release (s : State) {d : ChannelId} (h : d ≠ c) : Shut c s (release s d) := by
  have r : Shut c s (rest s d none) := of_kept (.setChan s _ h) rfl
  unfold Machine.release
  simp only
  split_ifs
  · exact (r.trans (attemptNow _)).trans (reportIdle _ d none)
  · exact r.trans (attemptNow _)

end Shut

/-- The channel is DISABLED after a step of this stepper, or of none, and has no entry. -/
structure Out (c : ChannelId) (before : Option StepperId) (s : State) : Prop where
  state : (s.chan c).state = .disabled
  stepBefore : (s.chan c).stepBefore = before
  entry : entryOf s c = none

/-- A channel that keeps everything but its owed mark stays DISABLED after the same step. -/
theorem Kept.disabled {c : ChannelId} {s t : State} (h : Kept c s t) :
    (t.chan c).state = (s.chan c).state ∧ (t.chan c).stepBefore = (s.chan c).stepBefore := by
  obtain ⟨o, ho⟩ := h
  rw [ho]
  exact ⟨rfl, rfl⟩

namespace Out

variable {c : ChannelId} {before : Option StepperId} {s t : State}

theorem shut (h : Out c before s) (k : Shut c s t) : Out c before t := by
  have b : Barred s c := .inl (by rw [h.state]; decide)
  have d := (k.kept b).disabled
  exact ⟨d.1.trans h.state, d.2.trans h.stepBefore, k.entry b h.entry⟩

theorem releaseIfOn (h : Out c before s) (d : ChannelId) : Out c before (releaseIfOn s d) := by
  unfold Machine.releaseIfOn
  split_ifs with e
  · refine h.shut (.release s fun x => ?_)
    rw [x, energised, h.1] at e
    cases e
  · exact h

theorem flipperTest (h : Out c before s) (f : FlipperId) : Out c before (flipperTest s f) := by
  have w : ∀ x, Out c before (flipperTo s f x) := fun x => h.shut (.of_same rfl rfl)
  have o : ∀ (o : Option ChannelId) (u : State), Out c before u → Out c before (match o with | none => u | some d => Machine.releaseIfOn u d) := by
    intro o u hu
    cases o
    · exact hu
    · exact hu.releaseIfOn _
  unfold Machine.flipperTest
  split_ifs
  · exact w _
  · exact w _
  · exact h
  · exact h
  · exact o ((flipperTo s f .disabled).flip f).cfg.hold _ (o ((flipperTo s f .disabled).flip f).cfg.power _ (w .disabled))

end Out

/-- DISABLE CHANNEL leaves the channel DISABLED without an entry, after the step that it cut or whose gap it abandoned (R17, R117). -/
theorem disableChannel_out (s : State) (c : ChannelId) : Out c (stepBehind s c) (disableChannel s c) := by
  have t : ((takeOut s c).chan c).state = .disabled ∧ ((takeOut s c).chan c).stepBefore = stepBehind s c := by
    have o : ∀ u, u = s.setChan c { s.chan c with state := .disabled, stepBefore := stepBehind s c, claims := .empty, owed := false } →
        (u.chan c).state = .disabled ∧ (u.chan c).stepBefore = stepBehind s c := by
      rintro _ rfl; simp
    unfold takeOut
    simp only
    split_ifs
    · have d := ((Shut.attemptNow (c := c) _).kept (.inl (by rw [(o _ rfl).1]; decide))).disabled
      exact ⟨d.1.trans (o _ rfl).1, d.2.trans (o _ rfl).2⟩
    · exact o _ rfl
  have b : Barred (takeOut s c) c := .inl (by rw [t.1]; decide)
  have q : Out c (stepBehind s c) (removeQuietly (takeOut s c) c) := by
    unfold removeQuietly
    split
    · next e => exact ⟨t.1, t.2, e⟩
    · next e he =>
      have hc := entryOf_channel he
      have r : Shut c (takeOut s c) (reportQuietly (takeOut s c) e) := by
        unfold reportQuietly
        split <;> exact .of_same rfl rfl
      have d := ((r.trans (.removeEntry _ e)).kept b).disabled
      have i : Out c (stepBehind s c) (removeEntry (reportQuietly (takeOut s c) e) e) :=
        ⟨d.1.trans t.1, d.2.trans t.2, hc ▸ removeEntry_entryOf (hc ▸ r.barred b)⟩
      exact i.shut (.settle _)
  have f : Out c (stepBehind s c) (faultStepperOf (removeQuietly (takeOut s c) c) c) := by
    unfold faultStepperOf
    split
    · exact q
    · exact q.shut ((Shut.faultStepper _ _ true).trans (.settle _))
  unfold disableChannel testFlipperOf
  split
  · exact f
  · exact f.flipperTest _

end Sys2Proof.Machine
end

