-- ==== Sys2Proof/Laws/Serve.lean ====
section
/-! SUPPORT. How a request row is served: a held request that the engine takes is answered by its own rules, one that it may not take
waits; and how the fields of a body read back. -/

namespace Sys2Proof.Machine

theorem presented_held {p : Port} {kind : Byte} {body : List Byte} {s : State} (h : (s.port p).hold = some ⟨kind, body⟩) :
    presented p kind body s = s := if_pos h

/-- A held request that the engine takes is served (R157). -/
theorem request_taken {p : Port} {kind : Byte} {body : List Byte} {s : State} (answer : State → Answer)
    (h : (s.port p).hold = some ⟨kind, body⟩) (ht : taken s p = true) :
    request p kind body answer s = reply p kind (answer (take s p)) := by
  simp [request, presented_held h, h, ht]

/-- A held request that the engine may not take waits (R157). -/
theorem request_waits {p : Port} {kind : Byte} {body : List Byte} {s : State} (answer : State → Answer)
    (h : (s.port p).hold = some ⟨kind, body⟩) (ht : taken s p = false) : request p kind body answer s = s := by
  simp [request, presented_held h, ht]

theorem take_inRun (s : State) (p : Port) : (take s p).inRun = s.inRun := rfl

theorem take_port_self (s : State) (p : Port) : (take s p).port p = { s.port p with hold := none, live := true } :=
  PerPort.get_set_self _ _ _

theorem take_port_other (s : State) (p : Port) : (take s p).port (otherPort p) = s.port (otherPort p) := by cases p <;> rfl

/-- A ready request of the right length is answered by its own rules (R157). -/
theorem catalogued_ready {p : Port} {kind : Byte} {n : Nat} {body : List Byte} {s : State} (answer : State → Answer)
    (h : Ready p kind body s) (hn : body.length = n) :
    catalogued p kind n body answer s = reply p kind (answer (take s p)) := by
  simp [catalogued, request_taken _ h.held h.turn, decideRequest, hn, take_inRun, h.run]

/-- The reply to a request of a port that has no field of its port record changed is in that record alone. -/
theorem reply_port_self (p : Port) (kind : Byte) (a : Answer) :
    ((reply p kind a).port p).sending =
      some ⟨replyFrame kind a.status (if a.status = .ok then a.body else []), a.resets⟩ := by
  simp [reply]

theorem toNat_byte {k : Nat} (h : k < 256) : (byte k).toNat = k := by
  simp only [byte, BitVec.toNat_ofNat]; omega

theorem index_val {n : Nat} (i : Fin n) : index n i.val = some i := dif_pos i.isLt

theorem index_none {n k : Nat} (h : n ≤ k) : index n k = none := dif_neg (Nat.not_lt.2 h)

theorem index_some {n k : Nat} {i : Fin n} (h : index n k = some i) : k = i.val := by
  unfold index at h
  split at h
  · cases h; rfl
  · cases h

theorem u8_zero (x : Byte) (l : List Byte) : u8 (x :: l) 0 = x.toNat := rfl

theorem u8_succ (x : Byte) (l : List Byte) (i : Nat) : u8 (x :: l) (i + 1) = u8 l i := rfl

/-- A record's number read back from its byte. -/
theorem index_byte {n : Nat} (h : n ≤ 256) (i : Fin n) : index n (byte i.val).toNat = some i := by
  rw [toNat_byte (Nat.lt_of_lt_of_le i.isLt h), index_val]

end Sys2Proof.Machine
end

