-- ==== Sys2Proof/Laws/Unpowered.lean ====
section
/-! SUPPORT. While the supply is not UP no attempt grants anything and nobody enters work (R15, R47, R111): what a loss does at the
channels (R26) leaves the links, PULSE_DROPPED and every wait entry but STEP entries as they were. -/

namespace Sys2Proof.Machine

/-- The entry is not a STEP entry. -/
def Entry.lasting (e : Entry) : Bool :=
  match e.work with
  | .step _ => false
  | .pulse _ => true
  | .pullIn _ => true
  | .fire _ _ => true

/-- The links, PULSE_DROPPED and the lasting entries stay, and so does the supply's state. -/
structure Undropped (s t : State) : Prop where
  supply : t.supply.state = s.supply.state
  links : t.links = s.links
  dropped : ∀ q, (t.latch q).get FlagName.pulseDropped.bit = (s.latch q).get FlagName.pulseDropped.bit
  list : t.arb.waitList.filter Entry.lasting = s.arb.waitList.filter Entry.lasting

/-- From a safe state without supply: nothing is dropped, and the state stays safe. -/
def Unpowered (s t : State) : Prop := Safe s → s.supply.state ≠ .up → Undropped s t ∧ Safe t

/-- Without supply no step is ready (R111). -/
theorem stepReady_unpowered {s : State} (h : s.supply.state ≠ .up) (t : StepperId) : stepReady s t = none := by
  unfold stepReady
  simp only
  split
  · rfl
  · split
    · rfl
    · simp [State.isUp, h]

/-- Without supply no pull-in condition holds (R15). -/
theorem pullInCondition_unpowered {s : State} (h : s.supply.state ≠ .up) (c : ChannelId) : pullInCondition s c = false := by
  simp [pullInCondition, State.isUp, h]

/-- Without supply nothing is eligible (R47). -/
theorem selection_unpowered {s : State} (h : s.supply.state ≠ .up) : selection s = [] := by
  have hd : ∀ e, eligible s e = false := fun e => by simp [eligible, State.isUp, h]
  simp [selection, hd]

/-- Without supply the attempts that were brought change nothing but their own count (R47). -/
theorem settleN_unpowered (n : Nat) {s : State} (h : s.supply.state ≠ .up) :
    ∃ a, settleN n s = s.setArb { s.arb with attempts := a } := by
  induction n generalizing s with
  | zero => exact ⟨0, rfl⟩
  | succ n ih =>
    simp only [settleN]
    split
    · exact ⟨s.arb.attempts, rfl⟩
    · have e : attempt (s.setArb { s.arb with attempts := s.arb.attempts - 1 }) =
          s.setArb { s.arb with attempts := s.arb.attempts - 1 } := by
        have hp : selection (s.setArb { s.arb with attempts := s.arb.attempts - 1 }) = [] := selection_unpowered h
        simp only [attempt, hp, walk, raisePassed, List.not_mem_nil, if_false, List.map_id']
        rfl
      rw [e]
      exact ih (s := s.setArb { s.arb with attempts := s.arb.attempts - 1 }) h

namespace Unpowered

theorem refl (s : State) : Unpowered s s := fun h _ => ⟨⟨rfl, rfl, fun _ => rfl, rfl⟩, h⟩

theorem trans {s t u : State} (a : Unpowered s t) (b : Unpowered t u) : Unpowered s u := fun h hu => by
  obtain ⟨x, hx⟩ := a h hu
  obtain ⟨y, hy⟩ := b hx (by rw [x.supply]; exact hu)
  exact ⟨⟨y.supply.trans x.supply, y.links.trans x.links, fun q => (y.dropped q).trans (x.dropped q), y.list.trans x.list⟩, hy⟩

theorem foldl {α : Type} {f : State → α → State} (h : ∀ s x, Unpowered s (f s x)) (l : List α) (s : State) :
    Unpowered s (l.foldl f s) := by
  induction l generalizing s with
  | nil => exact refl s
  | cons x l ih => exact (h s x).trans (ih _)

theorem ite {s t u : State} {p : Prop} [Decidable p] (h : p → Unpowered s t) (g : ¬p → Unpowered s u) :
    Unpowered s (if p then t else u) := by
  split
  · next x => exact h x
  · next x => exact g x

theorem of_same {s t : State} (w : CoilWork s t) (h1 : t.links = s.links) (h2 : t.latches = s.latches)
    (h3 : t.arb.waitList = s.arb.waitList) : Unpowered s t := fun h _ =>
  ⟨⟨by rw [w.supply], h1, fun q => by rw [State.latch, h2]; rfl, by rw [h3]⟩, w.safe h⟩

theorem setFlagPorts (s : State) (ps : PortSet) (n : FlagName) (k : Option Nat) (hc : coilFlag n = true)
    (hn : n ≠ .pulseDropped) : Unpowered s (setFlagPorts s ps n k) := fun h _ => by
  have hb : FlagName.pulseDropped.bit ≠ n.bit := fun e => hn (FlagName.bit_injective e).symm
  refine ⟨⟨?_, ?_, fun q => ?_, ?_⟩, (CoilWork.setFlagPorts s ps n k hc).safe h⟩
  · simp only [Machine.setFlagPorts]; split_ifs <;> rfl
  · simp only [Machine.setFlagPorts]; split_ifs <;> rfl
  · cases q <;> simp only [Machine.setFlagPorts] <;> split_ifs <;>
      simp [setFlag, setFlagReason, State.latch, State.setLatch, PerPort.get, PerPort.set, Table.get_modify, hb]
  · simp only [Machine.setFlagPorts]; split_ifs <;> rfl

theorem pullInTest (s : State) (c : ChannelId) : Unpowered s (pullInTest s c) := fun h hu => by
  have e : Machine.pullInTest s c = s := by simp [Machine.pullInTest, pullInCondition_unpowered hu]
  rw [e]
  exact refl s h hu

theorem stepTest (s : State) (t : StepperId) : Unpowered s (stepTest s t) := fun h hu => by
  have e : Machine.stepTest s t = s := by simp [Machine.stepTest, stepTestN, stepReady_unpowered hu]
  rw [e]
  exact refl s h hu

theorem settle (s : State) : Unpowered s (settle s) := fun h hu => by
  obtain ⟨a, ha⟩ := settleN_unpowered 49 hu
  have w := CoilWork.settle s
  unfold Machine.settle at *
  rw [ha] at w ⊢
  exact of_same w rfl rfl rfl h hu

theorem attemptNow (s : State) : Unpowered s (attemptNow s) := (of_same (.bring s) rfl rfl rfl).trans (settle _)

theorem handoutChannel (s : State) (c : ChannelId) : Unpowered s (handoutChannel s c) := fun h hu => by
  have w := CoilWork.handoutChannel s c
  have hp : ∀ x, pullInCondition (s.setChan c x) c = false := fun x =>
    pullInCondition_unpowered (s := s.setChan c x) hu c
  unfold Machine.handoutChannel at *
  simp only [hp, Bool.false_eq_true, if_false] at w ⊢
  refine of_same w ?_ ?_ ?_ h hu <;> split_ifs <;> rfl

theorem handoutStepper (s : State) (t : StepperId) : Unpowered s (handoutStepper s t) :=
  ite (fun _ => .trans (t := s.setStepper t { s.stepper t with due := false }) (of_same (.stepper rfl) rfl rfl rfl) (stepTest _ t))
    fun _ => refl s

theorem handout (s : State) : Unpowered s (handout s) := (foldl handoutChannel _ s).trans (foldl handoutStepper _ _)

/-- A STEP entry may leave. -/
theorem removeEntry {s : State} {e : Entry} {t : StepperId} (he : e ∈ s.arb.waitList) (hw : e.work = .step t) :
    Unpowered s (removeEntry s e) := by
  have hd : Unpowered s (dropEntry s e.channel) := fun h hu => by
    refine ⟨⟨rfl, rfl, fun _ => rfl, ?_⟩, (CoilWork.dropEntry s e.channel).safe h⟩
    show (s.arb.waitList.filter fun x => x.channel ≠ e.channel).filter Entry.lasting = _
    rw [List.filter_filter]
    apply List.filter_congr
    intro x hx
    by_cases hc : x.channel = e.channel
    · have : x = e := List.inj_on_of_nodup_map h.oneEach hx he hc
      subst this
      simp [Entry.lasting, hw]
    · simp [hc]
  have hb : Unpowered s
      (if e.passed = Config.blockingCount then bring (dropEntry s e.channel) else dropEntry s e.channel) :=
    ite (fun _ => hd.trans (of_same (.bring _) rfl rfl rfl)) fun _ => hd
  have hf : ∀ u : State, Unpowered s u → Unpowered s (if listFull s = true then Machine.handout u else u) :=
    fun u hu => ite (fun _ => hu.trans (handout u)) fun _ => hu
  unfold Machine.removeEntry
  simp only [hw]
  exact hf _ hb

theorem removeStepEntry (s : State) (t : StepperId) : Unpowered s (removeStepEntry s t) := by
  unfold Machine.removeStepEntry
  split
  · exact refl s
  · next e he => exact removeEntry (List.mem_of_find?_eq_some he) (by simpa using List.find?_some he)

/-- A stepper's own state changes, and its trains with it only so that they name no new port. -/
theorem stepper {s : State} {t : StepperId} {x : Stepper} (w : CoilWork s (s.setStepper t x)) : Unpowered s (s.setStepper t x) :=
  of_same w rfl rfl rfl

theorem faultStepper (s : State) (t : StepperId) (unknown : Bool) : Unpowered s (faultStepper s t unknown) := by
  unfold Machine.faultStepper
  refine .trans ?_ (setFlagPorts _ _ .stepperFault _ rfl (by decide))
  refine .trans ?_ (removeStepEntry _ t)
  exact stepper (.stepperRests rfl)

theorem mismatch (s : State) (t : StepperId) : Unpowered s (mismatch s t) := by
  unfold Machine.mismatch
  refine .trans (t := s.setStepper t
    { s.stepper t with position := some (s.stepper t).cfg.homePos, mismatch := min 3 ((s.stepper t).mismatch + 1) })
    (stepper (.stepper rfl)) ?_
  exact ite (fun _ => faultStepper _ _ _) fun _ => refl _

theorem verifyAgainst (s : State) (t : StepperId) (closed : Bool) : Unpowered s (verifyAgainst s t closed) := by
  unfold Machine.verifyAgainst
  simp only
  split
  · exact stepper (.stepper rfl)
  · exact ite (fun _ => stepper (.stepper rfl)) fun _ => mismatch s t
  · exact refl s
  · exact ite (fun _ => mismatch s t) fun _ => stepper (.stepper rfl)

theorem homingTest (s : State) (t : StepperId) (closed : Bool) (origin : PortSet) (steps : Nat) :
    Unpowered s (homingTest s t closed origin steps) := by
  unfold Machine.homingTest homeFound
  refine ite (fun _ => ?_) fun _ => ite (fun _ => refl s) fun _ => faultStepper s t true
  refine .trans ?_ (setFlagPorts _ _ .trainDone _ rfl (by decide))
  exact stepper (.stepperRests rfl)

theorem lookHome (s : State) (t : StepperId) : Unpowered s (lookHome s t) := by
  unfold Machine.lookHome
  simp only
  split
  · exact refl s
  · split
    · exact verifyAgainst _ _ _
    · exact verifyAgainst _ _ _
    · exact homingTest _ _ _ _ _
    · exact refl s

theorem stepperIdle (s : State) (t : StepperId) (after : Bool) : Unpowered s (stepperIdle s t after) :=
  (ite (fun _ => lookHome s t) fun _ => refl s).trans (stepTest _ t)

theorem reportIdle (s : State) (c : ChannelId) (after : Option StepperId) : Unpowered s (reportIdle s c after) := by
  unfold Machine.reportIdle
  refine (attemptNow s).trans ?_
  simp only
  split
  · exact (pullInTest _ _).trans (settle _)
  · exact ((stepperIdle _ _ _).trans (settle _)).trans ((pullInTest _ _).trans (settle _))

theorem rest (s : State) (c : ChannelId) (after : Option StepperId) : Unpowered s (rest s c after) :=
  of_same (.rest s c after) rfl rfl rfl

theorem release (s : State) (c : ChannelId) : Unpowered s (release s c) := by
  unfold Machine.release
  exact ((rest s c none).trans (attemptNow _)).trans (ite (fun _ => reportIdle _ _ _) fun _ => refl _)

theorem releaseIfOn (s : State) (c : ChannelId) : Unpowered s (releaseIfOn s c) :=
  ite (fun _ => release s c) fun _ => refl s

theorem endFlipperDrives (s : State) (f : FlipperId) : Unpowered s (endFlipperDrives s f) := by
  have h : ∀ (o : Option ChannelId) (u : State), Unpowered s u →
      Unpowered s (match o with | none => u | some c => Machine.releaseIfOn u c) := by
    intro o u hu
    cases o
    · exact hu
    · exact hu.trans (releaseIfOn _ _)
  exact h (s.flip f).cfg.hold _ (h (s.flip f).cfg.power s (refl s))

theorem disableFlipper (s : State) (f : FlipperId) : Unpowered s (disableFlipper s f) := by
  unfold Machine.disableFlipper
  exact (of_same (.flipperTo s f .disabled) rfl rfl rfl).trans (endFlipperDrives _ f)

theorem flipperTest (s : State) (f : FlipperId) : Unpowered s (flipperTest s f) := by
  unfold Machine.flipperTest
  refine ite (fun _ => ite (fun _ => ?_) fun _ => refl s) fun _ => ite (fun _ => refl s) fun _ => disableFlipper s f
  exact of_same (.flipperTo s f _) rfl rfl rfl

theorem cutFlipper (s : State) (c : ChannelId) : Unpowered s (cutFlipper s c) := by
  unfold Machine.cutFlipper
  split
  · exact refl s
  · exact ite (fun _ => refl s) fun _ => disableFlipper _ _

theorem cutStepChannel (s : State) (c : ChannelId) : Unpowered s (cutStepChannel s c) := by
  unfold Machine.cutStepChannel
  split
  · exact rest _ _ _
  · next t _ =>
    refine ((rest s c (some t)).trans (of_same (.cutStep _ t) rfl rfl rfl)).trans ?_
    exact ite (fun _ => stepperIdle _ _ _) fun _ => refl _

/-- The loss at one channel (R26) drops nothing: that is the emptied list's part (R27). -/
theorem loseSupplyAt (s : State) (c : ChannelId) : Unpowered s (loseSupplyAt s c) := by
  unfold Machine.loseSupplyAt
  refine (of_same (.owed s c false) rfl rfl rfl).trans ?_
  simp only
  split
  · split
    · exact cutStepChannel _ _
    · exact (rest _ _ _).trans (cutFlipper _ _)
    all_goals exact rest _ _ _
  · exact (rest _ _ _).trans (cutFlipper _ _)
  all_goals exact refl _

end Unpowered

end Sys2Proof.Machine
end

