-- ==== Sys2Proof/Tests/Slice0.lean ====
section
/-! SUPPORT. Tests: the ill-formed terms, worked examples of the spec, and for every statement with hypotheses a concrete state and
operands that meet them, clause by clause (witness_<statement>). -/

namespace Sys2Proof.Tests

-- One declaration at a time: the package as one text is checked under a limit of memory, and each waiting thread takes its stack of it.
set_option Elab.async false

open Sys2Proof Sys2Proof.Machine

/-! ### WellFormed -/

def zeros (n : Nat) : List Byte := List.replicate n 0#8

/-- Every request row, from port A with the same body. -/
def rowsWith (body : List Byte) : List Instr :=
  [.ping .a body, .pulse .a body, .holdOn .a body, .disableChannel .a body, .enableChannel .a body, .configureCoil .a body,
    .enableGroup .a body, .configureSupply .a body, .readHeat .a body, .clearStats .a body, .configureFlipper .a body,
    .readFlipper .a body, .configureLink .a body, .readLink .a body, .step .a body, .stopStepper .a body, .home .a body,
    .setPosition .a body] ++
  [.readStepper .a body, .configureStepper .a body, .configureBank .a body, .addScore .a body, .readBank .a body,
    .configureSwitch .a body, .readSwitches .a body, .readEvents .a body, .lamps .a body, .lampCommit .a body,
    .configureLamp .a body, .readLamps .a body, .readFlags .a body, .setMask .a body, .configurePort .a body,
    .resetPart .a body, .saveProfile .a body, .readConfig .a body, .unknownKindRequest .a 0x25#8 body]

theorem test_bodyOf57BytesIsIllFormed : (rowsWith (zeros 57)).all (fun c => !c.wellFormed) = true := by decide
theorem test_bodyOf56BytesIsWellFormed : (rowsWith (zeros 56)).all (fun c => c.wellFormed) = true := by decide
theorem test_holdOffBodyMustFit : (Instr.holdOff .a (zeros 57)).wellFormed = false := by decide
theorem test_holdOnWithSettingOffIsIllFormed : (Instr.holdOn .a [5#8, 0#8]).wellFormed = false := by decide
theorem test_holdOffWithSettingOnIsIllFormed : (Instr.holdOff .a [5#8, 1#8]).wellFormed = false := by decide
theorem test_unknownKindInTheCatalogueIsIllFormed :
    ([0x01#8, 0x24#8].map fun kind => (Instr.unknownKindRequest .a kind []).wellFormed) = [false, false] := by decide

/-- The table gives no row any bits (log 30). -/
theorem test_noWordSpellsACommand : decodeTableWord 8 0 = none := rfl

/-! ### Small states -/

/-- In RUN, and nothing else: every record unconfigured. -/
def running : State := { State.reset with part := ⟨.run, none⟩ }

/-- The class of a channel of `playing`. -/
def classOf (c : ChannelId) : CoilClass :=
  if c = 0 then .pulse else if c = 1 then .holdable else if c = 2 ∨ c = 4 ∨ c = 5 then .stepper else if c = 3 then .flipper
  else .off

/-- A table in play: C0 PULSE, C1 HOLDABLE, C2 the up channel of T0, C3 the coil of F0, C4 and C5 those of the STOP unit T1; link K0
from S2 to C0; T0 the one reel of bank 0; supply UP and both groups effective for port A. -/
def playing : State :=
  { running with
    channels := .ofFn fun c =>
      { Channel.reset with
        coil := { CoilRecord.unconfigured with cls := classOf c, gap := if c = 3 then 0 else 50 }
        state := if classOf c = .off then .off else .idle }
    supply := { SupplyMonitor.reset with
      state := .up, ilkRaw := true, ilkClosed := true, flipClaims := .single .a, directClaims := .single .a
      flipOn := true, directOn := true }
    flippers := (Table.replicate 6 Flipper.reset).set 0 { Flipper.reset with
      cfg := { FlipperRecord.unconfigured with power := some 3 }, state := .ready }
    links := (Table.replicate 16 Link.reset).set 0 { Link.reset with
      cfg := { LinkRecord.unconfigured with trigger := 2, channel := some 0, lockout := 30 } }
    steppers := ((Table.replicate 16 Stepper.reset).set 0 { Stepper.reset with
      cfg := { StepperRecord.unconfigured with up := some 2, home := some 1 } }).set 1 { Stepper.reset with
      cfg := { StepperRecord.unconfigured with kind := .stop, up := some 4, down := some 5 } }
    banks := (Table.replicate 4 []).set 0 [0] }

def withChan (s : State) (c : ChannelId) (f : Channel → Channel) : State := { s with channels := s.channels.modify c f }

def withStepper (s : State) (t : StepperId) (f : Stepper → Stepper) : State := { s with steppers := s.steppers.modify t f }

def withFlipper (s : State) (f : FlipperId) (g : Flipper → Flipper) : State := { s with flippers := s.flippers.modify f g }

def withLink (s : State) (k : LinkId) (f : Link → Link) : State := { s with links := s.links.modify k f }

def withInput (s : State) (w : SwitchId) (f : SwitchInput → SwitchInput) : State :=
  { s with sw := { s.sw with inputs := s.sw.inputs.modify w f } }

def withList (s : State) (l : List Entry) : State := { s with arb := { s.arb with waitList := l } }

def withSave (s : State) (left : Nat) : State :=
  { s with store := { s.store with save := some ⟨Profile.unconfigured, .a, left⟩ } }

/-- A STEP entry of T0 on C2. -/
def stepEntry0 : Entry := ⟨2, .step 0, 30, 0, none, 0⟩

/-- A train of `n` steps for port A. -/
def train (n : Nat) : Train := ⟨.up, n, 0, ⟨.single .a, false⟩⟩

/-- The port's request stands in its hold. -/
def asking (p : Port) (kind : Byte) (body : List Byte) (s : State) : State :=
  s.setPort p { s.port p with hold := some ⟨kind, body⟩ }

/-- A request in the hold of a port of a part in RUN whose ports are otherwise at rest is ready. -/
theorem ready_asking {p : Port} {kind : Byte} {body : List Byte} {s : State} (hr : s.part.state = .run)
    (hs : (s.port p).sending = none) (ho : (s.port (otherPort p)).hold = none) : Ready p kind body (asking p kind body s) where
  held := by simp [asking]
  turn := by
    have h1 : (asking p kind body s).port p = { s.port p with hold := some ⟨kind, body⟩ } := by simp [asking]
    have h2 : (asking p kind body s).port (otherPort p) = s.port (otherPort p) := by cases p <;> rfl
    simp only [taken, canTake, h1, h2, ho, hs]
    simp
  run := by simp [State.inRun, asking, hr]

/-- Every request from either port is ready in `playing`. -/
theorem ready_playing (p : Port) (kind : Byte) (body : List Byte) : Ready p kind body (asking p kind body playing) :=
  ready_asking rfl (by cases p <;> rfl) (by cases p <;> rfl)

/-- The state after a command. -/
def after (c : Instr) (s : State) : State :=
  match exec c s with
  | .next t => t
  | .fault _ => s
  | .refused _ => s

/-- The bytes that port A is sending. -/
def sent (s : State) : List Byte := ((s.port .a).sending.map Sending.bytes).getD []

/-! ### Worked examples -/

/-- The check of a PING frame is that of 00h 01h. -/
theorem test_pingFrame : requestFrame 0x01#8 [] = [0xC3#8, 0x00#8, 0x01#8, 0x07#8] := by decide +kernel

/-- PING from port A in `playing`: RUN, UP, both ports LIVE, no link errors, part time 0. -/
theorem test_pingReply : sent (after (.ping .a []) playing) =
    replyFrame 0x01#8 .ok [1#8, 2#8, 0#8, 0#8, 0#8, 0#8, 0#8, 0#8] := by decide +kernel

/-- A PULSE of C0 at its default width is granted at once: 30 ms of gain 10, 300 hu, weight 10. -/
theorem test_pulseDrives : let t := after (.pulse .a [0#8, 0#8]) playing
    (t.chan 0).state = .drive .pulse 30 30 ∧ (t.chan 0).heat.h = 300 ∧ t.arb.general = 10 ∧
      sent t = replyFrame 0x02#8 .ok [2#8, 30#8] := by decide +kernel

/-- A HOLD of C1 pulls in, and its drive end holds at duty 4: ceil (10 × 4 / 16) = 3 lu. -/
theorem test_pullInHolds : let t := after (.driveEnd 1) (withChan (after (.holdOn .a [1#8, 1#8]) playing) 1 fun ch =>
      { ch with state := .drive .pullIn 30 0 })
    (t.chan 1).state = .hold ∧ t.arb.general = 3 ∧ coilOutput t 1 = .chopped 4 := by decide +kernel

/-- The derated duty of the unconfigured record: W = 3000, C = 5000, d = 4. -/
theorem test_derate : [2999, 3000, 4000, 4999, 5000].map (derate CoilRecord.unconfigured) = [4, 4, 3, 2, 1] := by decide

/-- A step of T0 that wraps from position 9 sets ROLLOVER, T0 being the top reel of bank 0. -/
theorem test_wrapSetsRollover : let s := withStepper playing 0 fun x =>
      { x with state := .running (train 2) none, position := some 9, inDrive := some ⟨2, .train⟩ }
    let t := stepDriveEnd s 0 2 false
    (t.stepper 0).position = some 0 ∧ ((t.latch .a).get FlagName.rollover.bit).isSome = true := by decide +kernel

/-- A STEP entry made for a homing is marked homing at its grant, also beside a train that runs by then (R113). -/
theorem test_homingEntryStaysHoming : (((grant (withStepper playing 0 fun x => { x with
    state := .running (train 2) none, homingEntry := true }) stepEntry0 30).stepper 0).inDrive) = some ⟨2, .homing⟩ := by decide +kernel

/-- A closed trigger fires C0 through link K0 and starts its lockout. -/
theorem test_linkFires : let t := trigger playing 0
    (t.chan 0).state = .drive .fire 30 30 ∧ (t.link 0).lockout = some 30 ∧ (t.link 0).fired = 1 := by decide +kernel

/-- A supply loss, whatever the orders: here ascending. -/
theorem test_supplyLoss : let t := loseSupply [0, 1, 2] id (after (.pulse .a [0#8, 0#8]) playing)
    (t.chan 0).state = .recover 50 none ∧ t.arb.general = 0 ∧ t.supply.flipOn = false ∧ (t.flip 0).state = .disabled := by
  decide +kernel

/-- A lamp written by port A rises by its ramp step of 4 in a frame. -/
theorem test_lampFrame : let s := after (.lamps .a [7#8, 1#8, 1#8, 15#8]) playing
    let t := after .lampFrame { s with lamp := { s.lamp with frame := some 0 } }
    (t.lamp.lamps.get 7).target = 15 ∧ (t.lamp.lamps.get 7).applied = 4 ∧ t.lamp.sum = 4 := by decide +kernel

/-! ### Witnesses: states and operands that meet the hypotheses of each statement -/

/-- The state after reset with a tick waiting. -/
def ticking : State := { State.reset with pending := [.partTimeTick] }

theorem step_ticking : step ticking = .next (after .partTimeTick State.reset) := rfl

theorem witness_StepServesTheFrontCommand : ticking.pending = [.partTimeTick] ∧ State.reset.pending = [] := ⟨rfl, rfl⟩

theorem ticking_safe : Safe ticking := by
  refine ⟨by decide, by decide, by decide, by decide, by decide, ?_, ?_, ?_, ?_, Profile.sound_unconfigured, ?_, ?_⟩
  · intro c; simp only [State.chan, ticking, State.reset, Table.get_replicate]; decide
  · intro c; simp only [State.chan, ticking, State.reset, Table.get_replicate]; decide
  · intro c; simp only [State.chan, ticking, State.reset, Table.get_replicate]; decide
  · exact Profile.sound_unconfigured.congr (by decide) (by decide) rfl
  · intro save e; simp [ticking, State.reset, ProfileStore.neverSaved] at e
  · intro p; cases p <;> decide

theorem witness_EveryStepKeepsTheStateSafe : Safe ticking ∧ step ticking = .next (after .partTimeTick State.reset) :=
  ⟨ticking_safe, step_ticking⟩

theorem witness_SafeLoadsStayWithinTheBudget : Safe ticking := ticking_safe

theorem joined_unconfigured : Profile.unconfigured.Joined := by
  constructor <;> simp [Profile.unconfigured, FlipperRecord.names, FlipperRecord.unconfigured, StepperRecord.names,
    StepperRecord.unconfigured, LinkRecord.unconfigured]

theorem witness_EveryStepKeepsTheRecordsJoined :
    RecordsJoined ticking ∧ step ticking = .next (after .partTimeTick State.reset) := by
  refine ⟨⟨?_, joined_unconfigured, ?_⟩, step_ticking⟩
  · have : workingProfile ticking = Profile.unconfigured := by decide +kernel
    rw [this]; exact joined_unconfigured
  · intro save e; simp [ticking, State.reset, ProfileStore.neverSaved] at e

theorem witness_EveryStepKeepsLapsedPortsWithdrawn :
    LapsedWithdrawn ticking ∧ step ticking = .next (after .partTimeTick State.reset) := by
  refine ⟨⟨?_, ?_, ?_, ?_⟩, step_ticking⟩
  · intro c p h; simp only [State.chan, ticking, State.reset, Table.get_replicate] at h; cases p <;> cases h
  · intro p h; cases p <;> rfl
  · intro p h; cases p <;> rfl
  · intro p h; cases p <;> cases h

theorem witness_OnlyConfigurationWritesTheRecords :
    writesRecords .partTimeTick = false ∧ exec .partTimeTick playing = .next (after .partTimeTick playing) := ⟨rfl, rfl⟩

theorem witness_ReadsPortsAndCoilsKeepToTheirOwnState :
    (portOnly (.readHeat .a [0#8]) = some .a ∧ exec (.readHeat .a [0#8]) playing = .next (after (.readHeat .a [0#8]) playing)) ∧
    (coilRequest (.pulse .b [0#8, 0#8]) = some .b ∧
      exec (.pulse .b [0#8, 0#8]) playing = .next (after (.pulse .b [0#8, 0#8]) playing)) ∧
    (coilEvent (.driveEnd 0) = true ∧ exec (.driveEnd 0) playing = .next (after (.driveEnd 0) playing)) :=
  ⟨⟨rfl, rfl⟩, ⟨rfl, rfl⟩, rfl, rfl⟩

theorem witness_LampQueueLatchAndStoreFrames :
    ∀ c ∈ [Instr.lamps .a [0#8, 0#8, 1#8], .lampCommit .a [0#8], .configureLamp .a [0x20#8, 1#8, 2#8, 0#8, 0#8], .readEvents .a [],
      .readFlags .a [], .saveProfile .a [], .saveComplete, .lampFrame, .syncRisingEdge, .syncDebouncedFall,
      .syncRawChange false, .switchRawChange 0 true, .ilkRawChange false], exec c playing = .next (after c playing) := by
  simp only [List.mem_cons, List.not_mem_nil, or_false]
  rintro c (rfl | rfl | rfl | rfl | rfl | rfl | rfl | rfl | rfl | rfl | rfl | rfl | rfl) <;> rfl

/-- Port A's receiver has assembled these bytes, with this gap time left. -/
def assembling (bytes : List Byte) (gap : Timer) : State :=
  playing.setPort .a { playing.port .a with assembly := bytes, gap := gap }

theorem witness_ReceiverHoldsOrAbandonsAFrame :
    ((zeros 56).length ≤ 56 ∧ (playing.port .a).assembly = [] ∧ (playing.port .a).hold = none) ∧ 0xC2#8 ≠ 0xC3#8 ∧
    ((assembling [0xC3#8] (some 2)).port .a).assembly ≠ [] ∧
    (((assembling [0xC3#8] (some 2)).port .a).assembly = [0xC3#8] ∧ 56 < (57#8).toNat) ∧
    (((assembling [0xC3#8, 0#8, 1#8] (some 2)).port .a).assembly = [0xC3#8, 0#8, 1#8] ∧ ([] : List Byte).length = (0#8).toNat) ∧
    ((assembling [0xC3#8] (some 0)).port .a).gap = some 0 ∧ ((assembling [0xC3#8] (some 1)).port .a).gap ≠ some 0 := by
  decide +kernel

theorem witness_MalformedAndUnknownComeBeforeBusy :
    (let s := asking .a 0x01#8 [0#8] playing
     requestLine (.ping .a [0#8]) = some (.a, 0x01#8, 0, [0#8]) ∧ (s.port .a).hold = some ⟨0x01#8, [0#8]⟩ ∧ taken s .a = true ∧
      [0#8].length ≠ 0) ∧
    (let s := asking .a 0x02#8 [0#8, 0#8] State.reset
     requestLine (.pulse .a [0#8, 0#8]) = some (.a, 0x02#8, 2, [0#8, 0#8]) ∧ (s.port .a).hold = some ⟨0x02#8, [0#8, 0#8]⟩ ∧
      taken s .a = true ∧ [0#8, 0#8].length = 2 ∧ s.inRun = false ∧ 0x02#8 ≠ 0x01#8) ∧
    (∀ kind ∈ [0x00#8, 0x25#8], let s := asking .b kind [] State.reset
      (s.port .b).hold = some ⟨kind, []⟩ ∧ taken s .b = true ∧ kindInCatalogue kind = false) := by
  decide +kernel

theorem witness_RequestIsTakenInItsTurnAndAnswered :
    (let s := asking .a 0x01#8 [] (playing.setPort .a { playing.port .a with sending := some ⟨[], false⟩ })
     requestLine (.ping .a []) = some (.a, 0x01#8, 0, []) ∧ (s.port .a).hold = some ⟨0x01#8, []⟩ ∧ taken s .a = false) ∧
    Status.busy ≠ Status.ok := by decide +kernel

theorem witness_SettingAFlagKeepsTheFirstSubjectAndCounts :
    (playing.latch .a).get FlagName.switch.bit = none ∧
    ((setFlag playing .a .switch (some 3)).latch .a).get FlagName.switch.bit = some ⟨some 3, none, 1⟩ ∧
    FlagName.switch ≠ FlagName.profile := by decide +kernel

theorem witness_SetMaskAndReadFlags (hi lo : Byte) :
    Ready .a 0x20#8 [hi, lo] (asking .a 0x20#8 [hi, lo] playing) ∧ Ready .b 0x1F#8 [] (asking .b 0x1F#8 [] playing) :=
  ⟨ready_playing _ _ _, ready_playing _ _ _⟩

/-- Port B sends a reply after which the part resets, or not. -/
def replying (resets : Bool) : State := playing.setPort .b { playing.port .b with sending := some ⟨[], resets⟩ }

theorem witness_PortUnitAfterEveryReset : ((replying true).port .b).sending = some ⟨[], true⟩ ∧
    (State.reset.part.state = .starting ∧ exec .partTimeTick State.reset = .next (after .partTimeTick State.reset)) ∧
    { State.reset with part := ⟨.starting, some 0⟩ }.part.load = some 0 ∧
    (playing.part.state = .run ∧ exec .partTimeTick playing = .next (after .partTimeTick playing)) :=
  ⟨rfl, ⟨rfl, rfl⟩, rfl, rfl, rfl⟩

theorem witness_HeatThroughTheResets : ((replying true).port .b).sending = some ⟨[], true⟩ := rfl

theorem asleep_reset : Asleep State.reset := by
  constructor <;> decide +kernel

theorem witness_BlocksAfterEveryReset : ((replying true).port .b).sending = some ⟨[], true⟩ ∧ Asleep State.reset ∧
    exec .partTimeTick State.reset = .next (after .partTimeTick State.reset) ∧
    (after .partTimeTick State.reset).part.state = .starting := ⟨rfl, asleep_reset, rfl, rfl⟩

/-- STARTING with so much of the load left, over this mark and checksum. -/
def loading (left : Nat) (mark : Bool) (sum : Word) : State :=
  { State.reset with part := ⟨.starting, some left⟩, store := ⟨Profile.unconfigured, mark, sum, none⟩ }

theorem witness_LoadEndPutsTheProfileToWork :
    (loading 1 false 0).part.load ≠ some 0 ∧ ((loading 0 false 0).part.load = some 0 ∧ (loading 0 false 0).store.mark = false) ∧
    (let s := loading 0 true (Config.checksum Profile.unconfigured + 1)
     s.part.load = some 0 ∧ s.store.mark = true ∧ s.store.checksum ≠ Config.checksum s.store.records) ∧
    (let s := loading 0 true (Config.checksum Profile.unconfigured)
     s.part.load = some 0 ∧ s.store.valid = true) := by
  refine ⟨by decide, ⟨rfl, rfl⟩, ⟨rfl, rfl, ?_⟩, rfl, ?_⟩
  · simp [loading]
  · simp [loading, ProfileStore.valid]

theorem witness_SaveProfileCopiesAndCompletes : Ready .a 0x23#8 [] (asking .a 0x23#8 [] playing) ∧
    (withSave playing 0).store.save = some ⟨Profile.unconfigured, .a, 0⟩ ∧
    (withSave playing 1).store.save = some ⟨Profile.unconfigured, .a, 1⟩ ∧ playing.store.save = none :=
  ⟨ready_playing _ _ _, rfl, rfl, rfl⟩

theorem witness_PingReportsTheState :
    let s := asking .a 0x01#8 [] State.reset
    (s.port .a).hold = some ⟨0x01#8, []⟩ ∧ taken s .a = true := by decide +kernel

theorem witness_ConfigurePortAndResetPart (x : Byte) : Ready .a 0x21#8 [x] (asking .a 0x21#8 [x] playing) ∧
    Ready .b 0x22#8 [] (asking .b 0x22#8 [] playing) ∧ ((replying false).port .b).sending = some ⟨[], false⟩ ∧
    (playing.port .b).sending = none := ⟨ready_playing _ _ _, ready_playing _ _ _, rfl, rfl⟩

theorem witness_LapseWithdrawsThePortsWork :
    (let s := playing.setPort .a { playing.port .a with interval := 5, liveness := some 0 }
     (s.port .a).live = true ∧ (s.port .a).liveness = some 0) ∧
    (let s := playing.setPort .a { playing.port .a with live := false, liveness := some 0 }
     (s.port .a).live = false) ∧ (playing.port .a).liveness ≠ some 0 := by decide +kernel

/-- C1 held for port A, a PULSE of port A waiting on C0 and one of both ports on C7. -/
def lapsing : State := withList (withChan playing 1 fun ch => { ch with state := .hold, claims := .single .a })
  [⟨0, .pulse (.single .a), 30, 0, none, 0⟩, ⟨7, .pulse ⟨true, true⟩, 30, 0, none, 2⟩]

/-- Of the same statement: a wait list that names no channel twice, a hold that a lapse ends and one that it leaves. -/
theorem witness_LapseWithdrawsThePortsWork_entries : (lapsing.arb.waitList.map Entry.channel).Nodup ∧
    (let ch := lapsing.chan 1
     ch.coil.cls = .holdable ∧ ch.state = .hold ∧ ch.claims.remove .a = .empty ∧ ch.claims.remove .b ≠ .empty) := by decide +kernel

/-- Of the same statement: the states of a stepper that a lapse takes a port out of. -/
theorem witness_LapseWithdrawsThePortsWork_trains :
    (∀ next ∈ [none, some (train 3)], ({ Stepper.reset with state := .running (train 2) next }).state = .running (train 2) next) ∧
    ({ Stepper.reset with state := .homing (.single .a) 3 }).state = .homing (.single .a) 3 ∧ Stepper.reset.state = .idle := by decide

/-- A lapse of port A drops its PULSE on C0, keeps the one on C7 for port B, and ends the hold of C1. -/
theorem test_lapseDropsTheOrphan : let t := lapseCoilWork lapsing .a
    t.arb.waitList = [⟨7, .pulse (.single .b), 30, 0, none, 2⟩] ∧ (t.chan 1).state = .recover 50 none := by decide +kernel

theorem witness_PulseIsAnsweredByItsTable : Ready .a 0x02#8 [byte (47 : ChannelId).val, 0#8] (asking .a 0x02#8 [47#8, 0#8] playing) ∧
    (47 < (48#8).toNat ∧ Ready .a 0x02#8 [48#8, 0#8] (asking .a 0x02#8 [48#8, 0#8] playing)) :=
  ⟨ready_playing _ _ _, by decide, ready_playing _ _ _⟩

theorem witness_PulseOnAnIdleCoilDrivesAtOnce : Ready .a 0x02#8 [byte (0 : ChannelId).val, 0#8] (asking .a 0x02#8 [0#8, 0#8] playing) ∧
    let s := asking .a 0x02#8 [0#8, 0#8] playing
    let ch := s.chan 0
    (ch.coil.cls = .pulse ∨ ch.coil.cls = .holdable) ∧ ch.state = .idle ∧ s.supply.state = .up ∧ ch.heat.thermal ≠ .cutoff ∧
    s.arb.waitList = [] ∧ s.arb.attempts = 0 ∧ s.arb.general + ch.coil.weight ≤ s.supply.cfg.budget - s.supply.cfg.reserve ∧
    ch.heat.h + 30 * ch.coil.gain ≤ ch.coil.limit ∧ ch.heat.h + 30 * ch.coil.gain < ch.coil.cutoff :=
  ⟨ready_playing _ _ _, by decide +kernel⟩

theorem witness_HoldOnIsAnsweredByItsTable : Ready .a 0x03#8 [byte (1 : ChannelId).val, 1#8] (asking .a 0x03#8 [1#8, 1#8] playing) ∧
    (47 < (48#8).toNat ∧ Ready .a 0x03#8 [48#8, 1#8] (asking .a 0x03#8 [48#8, 1#8] playing)) ∧
    (1 < (2#8).toNat ∧ Ready .a 0x03#8 [1#8, 2#8] (asking .a 0x03#8 [1#8, 2#8] playing)) :=
  ⟨ready_playing _ _ _, ⟨by decide, ready_playing _ _ _⟩, by decide, ready_playing _ _ _⟩

theorem witness_HoldOffWithdrawsTheClaim : Ready .a 0x03#8 [byte (1 : ChannelId).val, 0#8] (asking .a 0x03#8 [1#8, 0#8] playing) ∧
    ((withChan playing 1 fun ch => { ch with state := .hold }).chan 1).state = .hold ∧
    (47 < (48#8).toNat ∧ Ready .a 0x03#8 [48#8, 0#8] (asking .a 0x03#8 [48#8, 0#8] playing)) :=
  ⟨ready_playing _ _ _, by decide +kernel, by decide, ready_playing _ _ _⟩

/-- Of the same statement: a waiting PULL_IN of a channel left without a claim, and a channel without one. -/
theorem witness_HoldOffWithdrawsTheClaim_waiting :
    (let s := withList playing [⟨1, .pullIn (.single .a), 30, 0, none, 0⟩]
     (s.chan 1).state ≠ .hold ∧ entryOf s 1 = some ⟨1, .pullIn (.single .a), 30, 0, none, 0⟩ ∧ (s.chan 1).claims = .empty ∧
      stepperOf s 1 = none) ∧
    (playing.chan 1).state ≠ .hold ∧ entryOf playing 1 = none := by decide +kernel

/-- `playing` with a channel DISABLED and, for a channel of class OFF, likewise. -/
def disabled (c : ChannelId) : State := withChan playing c fun ch => { ch with state := .disabled }

theorem witness_DisableAndEnableAChannel : Ready .a 0x04#8 [byte (0 : ChannelId).val] (asking .a 0x04#8 [0#8] playing) ∧
    Ready .a 0x05#8 [byte (0 : ChannelId).val] (asking .a 0x05#8 [0#8] (disabled 0)) ∧
    Ready .a 0x05#8 [byte (3 : ChannelId).val] (asking .a 0x05#8 [3#8] (disabled 3)) ∧
    Ready .a 0x05#8 [byte (47 : ChannelId).val] (asking .a 0x05#8 [47#8] (disabled 47)) ∧
    ((playing.chan 0).state ≠ .disabled ∧ ((disabled 0).chan 0).state = .disabled) ∧
    (((disabled 47).chan 47).state = .disabled ∧ ((disabled 47).chan 47).coil.cls = .off) ∧
    (((disabled 0).chan 0).coil.cls ≠ .off ∧ flipperOf (disabled 0) 0 = none) ∧
    (((disabled 3).chan 3).state = .disabled ∧ ((disabled 3).chan 3).coil.cls = .flipper ∧ stepperOf (disabled 3) 3 = none ∧
      entryOf (disabled 3) 3 = none) ∧ 47 < (48#8).toNat :=
  ⟨ready_playing _ _ _, ready_asking rfl rfl rfl, ready_asking rfl rfl rfl, ready_asking rfl rfl rfl, by decide +kernel⟩

/-- Of the same statement: a channel in a step, one in a drive that is none, one in the gap after a step, and one DISABLED during a step. -/
theorem witness_DisableAndEnableAChannel_remembered :
    (∀ x ∈ [ChanState.drive .step 30 5, .drive .pulse 30 5, .recover 20 (some 0), .hold],
      let s := withChan playing 2 fun ch => { ch with state := x }
      Ready .a 0x04#8 [byte (2 : ChannelId).val] (asking .a 0x04#8 [2#8] s) ∧ (s.chan 2).state = x ∧ x ≠ .disabled ∧
        stepperOf s 2 = some 0) ∧
    (let s := withChan (disabled 2) 2 fun ch => { ch with stepBefore := some 0 }
     Ready .a 0x05#8 [byte (2 : ChannelId).val] (asking .a 0x05#8 [2#8] s) ∧ (s.chan 2).state = .disabled ∧
       (s.chan 2).coil.cls ≠ .off ∧ (s.chan 2).stepBefore = some 0) :=
  ⟨fun x hx => ⟨ready_asking rfl rfl rfl, by revert x; decide +kernel⟩, ready_asking rfl rfl rfl, by decide +kernel⟩

/-- A DISABLE that cuts a step remembers its stepper, one that cuts another drive remembers none (R17, R117). -/
theorem test_disableRemembersTheStep :
    ((takeOut (withChan playing 2 fun ch => { ch with state := .drive .step 30 5 }) 2).chan 2).stepBefore = some 0 ∧
    ((takeOut (withChan playing 2 fun ch => { ch with state := .drive .pulse 30 5 }) 2).chan 2).stepBefore = none := by
  decide +kernel

/-- T1 in HOMING by its down channel C5, its home switch S1 closed, its up channel C4 DISABLED, after a step of this stepper or none. -/
def homingPastDisabled (before : Option StepperId) : State :=
  let unit := withStepper playing 1 fun y =>
    { y with cfg := { y.cfg with home := some 1 }, state := .homing (.single .a) 3, position := none }
  withChan (withInput unit 1 fun w => { w with closed := true }) 4 fun ch => { ch with state := .disabled, stepBefore := before }

/-- An ENABLE of the channel whose step a DISABLE cut makes the homing test, which finds home (R18, R121); without such a step it makes none. -/
theorem test_enableAfterAStepMakesTheHomingTest :
    (let t := enableChannel (homingPastDisabled (some 1)) 4
     (t.stepper 1).state = .idle ∧ (t.stepper 1).position = some (t.stepper 1).cfg.homePos ∧ (t.chan 4).stepBefore = none) ∧
    ((enableChannel (homingPastDisabled none) 4).stepper 1).position = none := by decide +kernel

/-- A CONFIGURE COIL body for this channel: the unconfigured record with class PULSE. -/
def coilBody (c : Byte) : List Byte := c :: { CoilRecord.unconfigured with cls := .pulse }.bytes

theorem witness_ConfigureCoilChecksAndReplaces : Ready .a 0x06#8 (coilBody 47#8) (asking .a 0x06#8 (coilBody 47#8) playing) ∧
    Ready .a 0x06#8 (coilBody 48#8) (asking .a 0x06#8 (coilBody 48#8) playing) ∧ (coilBody 48#8).length = 19 ∧
    index 48 (u8 (coilBody 48#8) 0) = none ∧ index 48 (u8 (coilBody 47#8) 0) = some 47 ∧
    coilRecordOf (coilBody 47#8) = some { CoilRecord.unconfigured with cls := .pulse } ∧ coilRecordOf (0#8 :: zeros 18) = none :=
  ⟨ready_playing _ _ _, ready_playing _ _ _, by decide +kernel⟩

/-- `playing` with a drive of this kind on a channel, `left` ms from its end. -/
def driven (c : ChannelId) (kind : DriveKind) (left : Nat) : State :=
  withChan playing c fun ch => { ch with state := .drive kind 30 left }

/-- A claimed pull-in on C1 at its end. -/
def pullingIn : State := withChan (driven 1 .pullIn 0) 1 fun ch => { ch with claims := .single .a }

/-- A drive on C0 at its end, without a gap to follow. -/
def gapless0 : State := withChan (driven 0 .pulse 0) 0 fun ch => { ch with coil := { ch.coil with gap := 0 } }

/-- An entry with this work on this channel. -/
def entryOn (c : ChannelId) (work : Work) (passed : Nat) : Entry := ⟨c, work, 30, 0, none, passed⟩

theorem witness_DriveEndLeadsToRecoverOrHold :
    ((driven 0 .pulse 1).chan 0).state = .drive .pulse 30 1 ∧
    (((driven 0 .pulse 0).chan 0).state = .drive .pulse 30 0 ∧ ((driven 0 .pulse 0).chan 0).coil.gap ≠ 0) ∧
    ((driven 0 .fire 0).chan 0).state = .drive .fire 30 0 ∧
    (((driven 1 .pullIn 0).chan 1).state = .drive .pullIn 30 0 ∧ ((driven 1 .pullIn 0).chan 1).claims = .empty) ∧
    ((gapless0.chan 0).state = .drive .pulse 30 0 ∧ (gapless0.chan 0).coil.gap = 0) ∧
    ((pullingIn.chan 1).state = .drive .pullIn 30 0 ∧ (pullingIn.chan 1).claims ≠ .empty ∧ entryOf pullingIn 1 = none) ∧
    (((driven 2 .step 0).chan 2).state = .drive .step 30 0 ∧ stepperOf (driven 2 .step 0) 2 = some 0) ∧
    (((driven 3 .flipper 0).chan 3).state = .drive .flipper 30 0 ∧ flipperOf (driven 3 .flipper 0) 3 = some 0) := by
  decide +kernel

/-- Of the same statement: a claimed pull-in with an entry waiting, a drive that no record owns, a hold whose entry is removed. -/
theorem witness_DriveEndLeadsToRecoverOrHold_absorbing :
    (∀ work ∈ [Work.pulse (.single .b), Work.fire 0 .empty],
      let s := withList pullingIn [entryOn 1 work 0]
      (s.chan 1).state = .drive .pullIn 30 0 ∧ (s.chan 1).claims ≠ .empty ∧ entryOf s 1 = some (entryOn 1 work 0)) ∧
    (((driven 0 .step 0).chan 0).state = .drive .step 30 0 ∧ stepperOf (driven 0 .step 0) 0 = none) ∧
    (((driven 0 .flipper 0).chan 0).state = .drive .flipper 30 0 ∧ flipperOf (driven 0 .flipper 0) 0 = none) ∧
    ((withChan playing 1 fun ch => { ch with state := .hold }).chan (entryOn 1 (.pulse (.single .b)) 0).channel).state = .hold := by
  decide +kernel

theorem witness_RecoveryGapExpiryReturnsToIdle :
    ((withChan playing 0 fun ch => { ch with state := .recover 0 none }).chan 0).state = .recover 0 none ∧
    ∀ u, (playing.chan 0).state ≠ .recover 0 u := by
  refine ⟨by decide +kernel, fun u h => ?_⟩
  have : (playing.chan 0).state = .idle := by decide +kernel
  rw [this] at h
  cases h

/-- An entry on C0 with this work and a deadline `left` ms away. -/
def waiting (work : Work) (left : Nat) : Entry := ⟨0, work, 30, 0, some ⟨100, left⟩, 0⟩

theorem witness_DeadlineExpiryRemovesTheEntry :
    (∀ work ∈ [Work.pulse (.single .a), Work.fire 0 .empty],
      entryOf (withList playing [waiting work 0]) 0 = some (waiting work 0) ∧ (waiting work 0).deadline = some ⟨100, 0⟩) ∧
    entryOf (withList playing [waiting (.pulse (.single .a)) 1]) 0 = some (waiting (.pulse (.single .a)) 1) ∧
    entryOf playing 0 = none := by decide +kernel

theorem witness_GrantsNeedTheSupplyAndStartTheDrive :
    State.reset.supply.state ≠ .up ∧
    (let s := withList (disabled 0) [waiting (.pulse (.single .a)) 1]
     ∀ e ∈ s.arb.waitList, (s.chan e.channel).state ≠ .idle) ∧
    (let s := withList playing [stepEntry0]
     s.arb.waitList.length < 24 ∧ (s.chan stepEntry0.channel).state = .idle ∧ (s.chan stepEntry0.channel).coil.cls ≠ .flipper ∧
      stepEntry0.work = .step 0) ∧
    (let e := waiting (.pulse (.single .a)) 1
     let s := withList playing [e]
     (s.chan e.channel).state = .idle ∧ (s.chan e.channel).coil.cls ≠ .flipper ∧ ∀ u, e.work ≠ .step u) := by decide +kernel

/-- Of the same statement: freed places and the four outcomes of an entry in a walk. -/
theorem witness_GrantsNeedTheSupplyAndStartTheDrive_walking :
    (playing.arb.waitList.length ≤ 24 ∧ (handout playing).arb.waitList.length < 24) ∧
    (∀ passed ∈ [3, 4],
      let e := entryOn 0 (.pulse (.single .a)) passed
      let s := { withList playing [e] with arb := { (withList playing [e]).arb with general := 255 } }
      entryOf s 0 = some e ∧ ¬s.arb.general + (s.chan 0).coil.weight ≤ s.supply.cfg.budget - s.supply.cfg.reserve ∧
        (e.passed = 4 ↔ passed = 4)) ∧
    (∀ h ∈ [0, 4960],
      let e := entryOn 0 (.pulse (.single .a)) 0
      let s := withChan (withList playing [e]) 0 fun ch => { ch with heat := { ch.heat with h := h } }
      entryOf s 0 = some e ∧ s.arb.general + (s.chan 0).coil.weight ≤ s.supply.cfg.budget - s.supply.cfg.reserve ∧
        (heatCheck s 0 e.width).2 = if h = 0 then some 30 else none) ∧
    entryOf playing 0 = none ∧
    playing.arb.attempts = 0 ∧ (bring playing).arb.attempts = 0 + 1 := by decide +kernel

theorem witness_DeratedDutyAndHeatCheck :
    (let r := CoilRecord.unconfigured
     r.stored = true ∧ 2999 < r.warn ∧ (r.warn ≤ 3000 ∧ 3000 < r.cutoff) ∧ r.cutoff ≤ 5000) ∧
    (let r := (playing.chan 0).coil
     let h := (playing.chan 0).heat.h
     h + 30 * r.gain ≤ r.limit ∧ h + 30 * r.gain < r.cutoff) ∧
    (let s := withChan playing 0 fun ch => { ch with heat := { ch.heat with h := 4960 } }
     let r := (s.chan 0).coil
     ¬(s.chan 0).heat.h + 30 * r.gain ≤ r.limit ∧ ¬(s.chan 0).heat.h < r.limit ∧
      r.cutoff ≤ (s.chan 0).heat.h + min 30 r.wmin * r.gain) := by decide +kernel

/-- `playing` with its cooling timer due. -/
def cooling : State := { playing with coolTimer := some 0 }

/-- F0 in this state. -/
def flipping (x : FlipState) : State := withFlipper playing 0 fun y => { y with state := x }

/-- `playing` with a channel in CUTOFF. -/
def cut (c : ChannelId) : State := withChan playing c fun ch => { ch with heat := { ch.heat with thermal := .cutoff } }

theorem witness_CoolingIntervalDecaysAndClearStatsClears :
    cooling.coolTimer = some 0 ∧ playing.coolTimer ≠ some 0 ∧
    (∀ c, (cooling.chan c).state ≠ .hold ∧ (cooling.chan c).heat.thermal ≠ .cutoff ∧
      (cooling.chan c).heat.h < (cooling.chan c).coil.cutoff) ∧
    (0 < 1 ∧ 255 ≤ 255) ∧ ((47#8).toNat ≤ 47 ∧ 47 < (48#8).toNat ∧ 48#8 ≠ 0xFF#8) ∧
    ∀ x : Byte, Ready .a 0x0A#8 [x] (asking .a 0x0A#8 [x] playing) :=
  ⟨rfl, by decide, by decide +kernel, by decide, by decide, fun _ => ready_playing _ _ _⟩

/-- The state after reset with C1 held for port A at this heat. -/
def holding (h : Nat) : State :=
  { State.reset with
    channels := (Table.replicate 48 Channel.reset).set 1 { Channel.reset with
      coil := { CoilRecord.unconfigured with cls := .holdable }
      state := .hold
      claims := .single .a
      heat := { Channel.reset.heat with h := h } }
    arb := { State.reset.arb with general := 3 } }

theorem holding_safe : ∀ h ∈ [0, 65535], Safe (holding h) := by
  simp only [List.mem_cons, List.not_mem_nil, or_false]
  rintro h (rfl | rfl) <;>
  exact ⟨by decide, by decide, by decide +kernel, by decide +kernel, by decide, by decide +kernel, by decide +kernel, by decide +kernel,
    ⟨by decide +kernel, by decide +kernel, by decide, by decide +kernel⟩, Profile.sound_unconfigured,
    fun save e => by simp [holding, State.reset, ProfileStore.neverSaved] at e, fun p => by cases p <;> decide⟩

/-- Of the same statement: held channels of a safe state that stay held and that end in CUTOFF, the exit from CUTOFF, a hold without room
for the load of the duty asked. -/
theorem witness_CoolingIntervalDecaysAndClearStatsClears_held :
    (∀ h ∈ [0, 65535], Safe (holding h)) ∧
    (∀ h ∈ [0, 65535], ((holding h).chan 1).state = .hold ∧ ((holding h).chan 1).heat.thermal ≠ .cutoff) ∧
    (let s := holding 0
     let r := (s.chan 1).coil
     min 65535 (0 + 10 * r.gain * appliedDuty s 1 (derate r 0) / 16) < r.cutoff) ∧
    (let s := holding 65535
     let r := (s.chan 1).coil
     let h := 65535 - max 1 (65535 * r.decay / 1024)
     let held := min 65535 (h + 10 * r.gain * appliedDuty s 1 (derate r h) / 16)
     r.warn ≤ held ∧ r.limit ≤ held ∧ r.cutoff ≤ held) ∧
    (((cut 0).chan 0).state ≠ .hold ∧ ((cut 0).chan 0).heat.thermal = .cutoff ∧
      ((cut 0).chan 0).heat.h ≤ ((cut 0).chan 0).coil.resume) ∧
    (let s := { holding 0 with arb := { (holding 0).arb with general := 255 } }
     (s.chan 1).state = .hold ∧ (s.chan 1).coil.cls ≠ .flipper ∧ 3 + (s.supply.cfg.budget - s.supply.cfg.reserve - s.arb.general) <
      ((s.chan 1).coil.weight * 16 + 15) / 16) ∧
    ∀ x ∈ [FlipState.hold, .repower], ((flipping x).flip 0).state = x :=
  ⟨holding_safe, by decide +kernel, by decide +kernel, by decide +kernel, by decide +kernel,
    by decide +kernel, by decide +kernel⟩

theorem witness_ReadRequestsAnswerTheRecords (p : Port) (kind : Byte) (body : List Byte) :
    Ready p kind body (asking p kind body playing) := ready_playing _ _ _

theorem witness_EnableGroupRecordsTheClaim (x y : Byte) : Ready .b 0x07#8 [x, y] (asking .b 0x07#8 [x, y] playing) ∧
    1 < (2#8).toNat ∧ (1#8).toNat ≤ 1 := ⟨ready_playing _ _ _, by decide⟩

theorem witness_ConfigureSupplyChecksAndReplaces :
    (∀ b f hi lo : Byte, Ready .b 0x08#8 [b, f, hi, lo] (asking .b 0x08#8 [b, f, hi, lo] playing)) ∧ playing.store.save = none ∧
    ∀ b ∈ [100#8, 255#8], b.toNat ≠ 0 ∧ (40#8).toNat ≤ b.toNat ∧ flipperWeights playing ≤ (40#8).toNat ∧
      playing.arb.general ≤ b.toNat - (40#8).toNat ∧
      (b.toNat - (40#8).toNat ≤ playing.supply.cfg.budget - playing.supply.cfg.reserve ↔ b = 100#8) :=
  ⟨fun _ _ _ _ => ready_playing _ _ _, rfl, by decide +kernel⟩

/-- `playing` with another supply monitor. -/
def withSupply (f : SupplyMonitor → SupplyMonitor) : State := { playing with supply := f playing.supply }

theorem witness_InterlockLeadsThroughSettlingToUp :
    (let m := (withSupply fun m => { m with ilkTimer := some 0, ilkClosed := false }).supply
     m.ilkTimer = some 0 ∧ m.ilkClosed = false ∧ m.cfg.settle ≠ 0) ∧
    (let m := (withSupply fun m => { m with ilkTimer := some 0, ilkClosed := false, cfg := { m.cfg with settle := 0 } }).supply
     m.ilkTimer = some 0 ∧ m.ilkClosed = false ∧ m.cfg.settle = 0) ∧
    (let m := (withSupply fun m => { m with countdown := some 0, state := .settling }).supply
     m.countdown = some 0 ∧ m.state = .settling) ∧
    (let m := (withSupply fun m => { m with ilkTimer := some 0, state := .settling }).supply
     m.ilkTimer = some 0 ∧ m.ilkClosed = true ∧ m.state = .settling) := by decide +kernel

/-- The state after reset with the supply UP and its loss due. -/
def losing : State := { State.reset with supply := { SupplyMonitor.reset with
  state := .up, ilkClosed := true, ilkTimer := some 0, flipClaims := .single .a, flipOn := true } }

theorem witness_SupplyLossReleasesEveryCoil :
    Safe losing ∧ losing.supply.ilkTimer = some 0 ∧ losing.supply.ilkClosed = true ∧ losing.supply.state = .up ∧
      losing.supply.flipOn = true :=
  ⟨(ticking_safe.setPending []).setSupply (m := losing.supply) rfl, rfl, rfl, rfl, rfl⟩

/-- Of the same statement: a PULSE entry of port A on C0 that the loss drops, with PULSE_DROPPED of port A clear and set. -/
theorem witness_SupplyLossReleasesEveryCoil_dropping :
    let s := withList losing [entryOn 0 (.pulse (.single .a)) 0]
    Safe s ∧ (s.latch .a).get FlagName.pulseDropped.bit = none ∧
      Safe (setFlag s .a .pulseDropped (some 1)) ∧
      ((setFlag s .a .pulseDropped (some 1)).latch .a).get FlagName.pulseDropped.bit ≠ none := by
  have h : Safe (withList losing [entryOn 0 (.pulse (.single .a)) 0]) := by
    have h := (ticking_safe.setPending []).setSupply (m := losing.supply) rfl
    exact ⟨by decide, by decide, h.general, h.flipper, h.pool, h.duty, h.heat, h.claims, h.working, h.stored, h.copied, h.queues⟩
  exact ⟨h, by decide +kernel, h.setLatch _ _, by decide +kernel⟩

/-- The state after reset with its loss due and a STEP drive of T0 on C2, whose gap is this, in the middle of a train of 2 steps. -/
def losingAStep (gap : Nat) : State :=
  { losing with
    channels := (Table.replicate 48 Channel.reset).set 2 { Channel.reset with
      coil := { CoilRecord.unconfigured with cls := .stepper, gap := gap }
      state := .drive .step 30 5 }
    arb := { State.reset.arb with general := 10 }
    steppers := (Table.replicate 16 Stepper.reset).set 0 { Stepper.reset with
      cfg := { StepperRecord.unconfigured with up := some 2, home := some 1 }
      state := .running (train 2) none
      position := some 4
      inDrive := some ⟨2, .train⟩ } }

/-- Stepper 0, with C2 of class STEPPER as its up channel, is the one record that names a channel. -/
theorem recordsJoined_losingAStep (gap : Nat) (h : gap = 0 ∨ gap = 50) : RecordsJoined (losingAStep gap) := by
  refine ⟨?_, joined_unconfigured, fun save e => by simp [losingAStep, losing, State.reset, ProfileStore.neverSaved] at e⟩
  have one : ∀ t c, ((workingProfile (losingAStep gap)).steppers.get t).names c = true → t = 0 ∧ c = 2 := by
    rcases h with rfl | rfl <;> decide +kernel
  refine ⟨?_, ?_, fun t u c a b => (one t c a).1.trans (one u c b).1.symm, ?_, ?_, ?_, ?_⟩
  · simp [workingProfile, losingAStep, losing, State.reset, FlipperRecord.names, Flipper.reset, FlipperRecord.unconfigured]
  · intro t c e
    obtain ⟨rfl, rfl⟩ := one t c e
    rfl
  · rcases h with rfl | rfl <;> decide +kernel
  · simp [workingProfile, losingAStep, losing, State.reset]
  · simp [workingProfile, losingAStep, losing, State.reset]
  · rcases h with rfl | rfl <;> decide +kernel

/-- Of the same statement: a cut STEP drive, the one of its stepper, with and without a gap, and a stepper that has none. -/
theorem witness_SupplyLossReleasesEveryCoil_step : ∀ gap ∈ [0, 50],
    Safe (losingAStep gap) ∧ RecordsJoined (losingAStep gap) ∧ (losingAStep gap).supply.ilkTimer = some 0 ∧ (losingAStep gap).supply.ilkClosed = true ∧
      (losingAStep gap).supply.state = .up ∧
    (let s := losingAStep gap
     let cut : ChannelId → Prop := fun c => stepperOf s c = some 0 ∧ (s.chan c).state = .drive .step 30 5
     cut 2 ∧ (∀ d, d ≠ 2 → stepperOf s d = none) ∧ (s.chan 2).coil.gap = gap ∧ (s.input 1).closed = false ∧
      stepperOf s 2 ≠ some 1) := by
  simp only [List.mem_cons, List.not_mem_nil, or_false]
  rintro gap (rfl | rfl) <;>
  exact ⟨⟨by decide, by decide, by decide +kernel, by decide +kernel, by decide, by decide +kernel, by decide +kernel,
    by decide +kernel, ⟨by decide +kernel, by decide +kernel, by decide, by decide +kernel⟩, Profile.sound_unconfigured,
    fun save e => by simp [losingAStep, losing, State.reset, ProfileStore.neverSaved] at e, fun p => by cases p <;> decide⟩,
    recordsJoined_losingAStep _ (by decide), rfl, rfl, rfl, by decide +kernel⟩

/-- A loss in the middle of a step: the train is kept, the position is UNKNOWN, and C2 rests (R114). -/
theorem test_supplyLossKeepsTheTrain : ∀ gap ∈ [0, 50],
    let t := loseSupply [2, 0, 1] id (losingAStep gap)
    (t.stepper 0).state = .running (train 2) none ∧ (t.stepper 0).position = none ∧ (t.stepper 0).inDrive = none ∧
      (t.chan 2).state = if gap = 0 then .idle else .recover 50 (some 0) := by decide +kernel

/-- A flipper body with no hold channel and no EOS switch reads as the record that it spells (R94). -/
theorem test_flipperBody : flipperRecordOf (0#8 :: [5#8, 3#8, 255#8, 255#8, 40#8, 20#8, 15#8, 3#8]) =
    some ⟨5, some 3, none, none, 40, 20, 15, 3⟩ := by decide

theorem witness_ConfigureFlipperAndLink : Ready .a 0x0B#8 (zeros 9) (asking .a 0x0B#8 (zeros 9) playing) ∧ (zeros 9).length = 9 ∧
    Ready .a 0x0D#8 (zeros 8) (asking .a 0x0D#8 (zeros 8) playing) ∧ (zeros 8).length = 8 :=
  ⟨ready_playing _ _ _, rfl, ready_playing _ _ _, rfl⟩

/-- F0 dual-wound, its hold winding on C7. -/
def dualWound (s : State) : State := withFlipper s 0 fun x => { x with cfg := { x.cfg with hold := some 7 } }

/-- F0 in POWER. -/
def stroke (elapsed : Nat) (eosNote released : Bool) : State :=
  withFlipper playing 0 fun x => { x with state := .power ⟨30, elapsed, eosNote, eosNote, released⟩ }

theorem witness_FlipperPressStartsThePowerDrive :
    ((playing.flip 0).cfg.power = some 3 ∧ (playing.flip 0).state = .ready ∧ (playing.chan 3).state = .idle) ∧
    ((cut 3).chan 3).heat.thermal = .cutoff ∧
    (((dualWound (cut 7)).flip 0).cfg.hold = some 7 ∧ ((dualWound (cut 7)).chan 7).heat.thermal = .cutoff) ∧
    ((playing.chan 3).heat.thermal ≠ .cutoff ∧ (playing.flip 0).cfg.hold = none ∧ (heatCheck playing 3 30).2 = some 30) ∧
    (let s := withChan playing 3 fun ch => { ch with heat := { ch.heat with h := 4960 } }
     (s.chan 3).heat.thermal ≠ .cutoff ∧ (heatCheck s 3 30).2 = none) := by decide +kernel

/-- Of the same statement: the button in every other state, the opening in POWER before and after the effective minimum, and a channel
that is on with and without a gap, or off. -/
theorem witness_FlipperPressStartsThePowerDrive_otherStates :
    (∀ x ∈ [FlipState.disabled, .ready, .waitOpen, .hold, .repower, .blocked], ((flipping x).flip 0).state = x) ∧
    (∀ elapsed ∈ [19, 20], ((stroke elapsed false false).flip 0).state = .power ⟨30, elapsed, false, false, false⟩ ∧
      (min ((stroke elapsed false false).flip 0).cfg.minPower 30 ≤ elapsed ↔ elapsed = 20)) ∧
    (((driven 3 .flipper 5).chan 3).state = .drive .flipper 30 5 ∧ ((driven 3 .flipper 5).chan 3).coil.gap = 0) ∧
    (((driven 0 .pulse 5).chan 0).state = .drive .pulse 30 5 ∧ ((driven 0 .pulse 5).chan 0).coil.gap ≠ 0) ∧
    (playing.chan 0).state = .idle := by decide +kernel

theorem witness_PowerStrokeEndsInReadyOrHold :
    (((stroke 19 false false).flip 0).state = .power ⟨30, 19, false, false, false⟩ ∧ 19 < min ((stroke 19 false false).flip 0).cfg.minPower 30) ∧
    (((stroke 20 false true).flip 0).state = .power ⟨30, 20, false, false, true⟩ ∧ min ((stroke 20 false true).flip 0).cfg.minPower 30 ≤ 20) ∧
    (((stroke 20 true false).flip 0).state = .power ⟨30, 20, true, true, false⟩ ∧ ((stroke 20 true false).flip 0).cfg.power = some 3) ∧
    ((stroke 20 false false).flip 0).state = .power ⟨30, 20, false, false, false⟩ ∧ ((stroke 20 true false).flip 0).cfg.hold = none := by
  decide +kernel

/-- F0 in HOLD after so many of its 3 repowers, its coil at this heat and thermal state. -/
def repowering (repowers h : Nat) (thermal : Thermal) : State :=
  withChan (withFlipper playing 0 fun x => { x with state := .hold, repowers := repowers, cfg := { x.cfg with repowerLimit := 3 } }) 3
    fun ch => { ch with heat := { ch.heat with h := h, thermal := thermal } }

/-- Of the same statement: the states outside POWER, the four cases of a repower, the hand-over of a dual-wound flipper, both gaps. -/
theorem witness_PowerStrokeEndsInReadyOrHold_repower :
    (∀ x ∈ [FlipState.disabled, .ready, .waitOpen, .hold, .repower, .blocked], ((flipping x).flip 0).state = x) ∧
    (let s := repowering 3 0 .normal
     (s.flip 0).state = .hold ∧ (s.flip 0).cfg.power = some 3 ∧ (s.flip 0).cfg.repowerLimit ≤ (s.flip 0).repowers) ∧
    (let s := repowering 2 0 .cutoff
     (s.flip 0).state = .hold ∧ (s.flip 0).repowers < (s.flip 0).cfg.repowerLimit ∧ (s.chan 3).heat.thermal = .cutoff) ∧
    (∀ h ∈ [0, 4999], let s := repowering 2 h .normal
      let width := min (s.flip 0).cfg.repowerWidth (s.chan 3).coil.maxWidth
      (s.flip 0).state = .hold ∧ (s.flip 0).cfg.power = some 3 ∧ (s.flip 0).repowers < (s.flip 0).cfg.repowerLimit ∧
        (s.chan 3).heat.thermal ≠ .cutoff ∧ (heatCheck s 3 width).2 = if h = 0 then some width else none) ∧
    ((dualWound playing).flip 0).cfg.hold = some 7 ∧ (playing.chan 3).coil.gap = 0 ∧ (playing.chan 0).coil.gap ≠ 0 := by
  decide +kernel

/-- 24 entries on other channels. -/
def fullList : List Entry := (List.range 24).map fun i => ⟨Fin.ofNat 48 (20 + i), .pulse (.single .a), 30, 0, none, 0⟩

theorem witness_LinkTriggerAndLockout : (playing.link 1).cfg.channel = none ∧ (playing.link 0).cfg.channel = some 0 ∧
    ((withLink playing 0 fun x => { x with lockout := some 0 }).link 0).lockout = some 0 ∧
    (playing.link 0).lockout ≠ some 0 := by decide +kernel

/-- Of the same statement: the cases of an offered FIRE, a link with and without an award, and a target that turns every step away. -/
theorem witness_LinkTriggerAndLockout_offers :
    ((cut 0).chan 0).heat.thermal = .cutoff ∧ (playing.chan 0).heat.thermal ≠ .cutoff ∧ (playing.chan 0).state ≠ .hold ∧
    ((withChan playing 0 fun ch => { ch with state := .hold }).chan 0).state = .hold ∧
    (∀ work ∈ [Work.pullIn (.single .a), .pulse (.single .a), .fire 1 .empty],
      entryOf (withList playing [entryOn 0 work 0]) 0 = some (entryOn 0 work 0)) ∧
    (entryOf (withList playing fullList) 0 = none ∧ 24 ≤ (withList playing fullList).arb.waitList.length) ∧
    (entryOf playing 0 = none ∧ playing.arb.waitList.length < 24) ∧
    (playing.link 0).cfg.award = none ∧
    ((withLink playing 0 fun x => { x with cfg := { x.cfg with award := some ⟨0, 3⟩ } }).link 0).cfg.award = some ⟨0, 3⟩ ∧
    (playing.stepper 2).cfg.up = none ∧
    ∀ x ∈ [StepState.faulted, .homing (.single .a) 0, .running (train 2) (some { train 3 with dir := .down })],
      ((withStepper playing 0 fun y => { y with state := x }).stepper 0).state = x := by decide +kernel

/-- T0 in this state. -/
def stepping (x : StepState) : State := withStepper playing 0 fun y => { y with state := x }

/-- Of the same statement: a target that takes an award's steps, in each of its three states. -/
theorem witness_LinkTriggerAndLockout_taken :
    (∀ x ∈ [StepState.idle, .running (train 2) none, .running (train 2) (some (train 997))],
      ((stepping x).stepper 0).cfg.up ≠ none ∧ ((stepping x).stepper 0).state = x) ∧ (train 997).dir = .up := by decide +kernel

/-- A pending train takes an award up to 999 steps, and the rest is lost (R108, R109). -/
theorem test_awardJoinsThePendingTrain :
    let o := offerTrain (stepping (.running (train 2) (some (train 997)))) 0 .up 9 ⟨.empty, true⟩ true
    o.2 = .taken .added 2 7 ∧ (o.1.stepper 0).lost = 7 ∧
      (o.1.stepper 0).state = .running (train 2) (some { train 999 with origin := ⟨(train 997).origin.ports, true⟩ }) := by
  decide +kernel

theorem witness_StepOffersATrain :
    (∀ x d hi lo : Byte, Ready .a 0x0F#8 [x, d, hi, lo] (asking .a 0x0F#8 [x, d, hi, lo] playing)) ∧ 15 < (16#8).toNat ∧
    (1 < (2#8).toNat ∧ (0#8).toNat * 256 + (0#8).toNat = 0 ∧ (1#8).toNat ≤ 1 ∧ (3#8).toNat * 256 + (231#8).toNat = 999) ∧
    ((playing.stepper 0).cfg.up ≠ none ∧ (playing.stepper 0).state = .idle ∧ (playing.stepper 2).cfg.up = none) ∧
    (∀ x ∈ [StepState.faulted, .homing (.single .a) 0, .running (train 2) none, .running (train 2) (some (train 3))],
      ((stepping x).stepper 0).state = x ∧ ((stepping x).stepper 0).cfg.up ≠ none) ∧
    ∀ x, Ready .a 0x0F#8 [byte (0 : StepperId).val, 0#8, 0#8, 5#8] (asking .a 0x0F#8 [0#8, 0#8, 0#8, 5#8] (stepping x)) :=
  ⟨fun _ _ _ _ => ready_playing _ _ _, by decide, by decide, by decide +kernel, by decide +kernel, fun _ => ready_asking rfl rfl rfl⟩

theorem witness_StopStepperAndSetPosition :
    (∀ x, Ready .a 0x10#8 [byte (0 : StepperId).val] (asking .a 0x10#8 [0#8] (stepping x))) ∧
    (playing.stepper 0).state = .idle ∧ ((stepping (.running (train 2) none)).stepper 0).state.delivered = some 0 ∧
    ((stepping (.running (train 2) none)).stepper 0).state = .running (train 2) none ∧
    ((stepping (.homing (.single .a) 4)).stepper 0).state = .homing (.single .a) 4 ∧ 15 < (16#8).toNat ∧
    (∀ x : Byte, Ready .a 0x10#8 [x] (asking .a 0x10#8 [x] playing)) ∧
    ∀ x y : Byte, Ready .a 0x12#8 [x, y] (asking .a 0x12#8 [x, y] playing) :=
  ⟨fun _ => ready_asking rfl rfl rfl, by decide +kernel, by decide +kernel, by decide +kernel, by decide +kernel, by decide,
    fun _ => ready_playing _ _ _, fun _ _ => ready_playing _ _ _⟩

/-- Of the same statement: a train whose one STEP entry waits. -/
theorem witness_StopStepperAndSetPosition_waiting :
    let s := withList (stepping (.running (train 2) none)) [stepEntry0]
    (s.stepper 0).state.delivered = some 0 ∧ stepEntry0 ∈ s.arb.waitList ∧ stepEntry0.work = .step 0 ∧
      ∀ e ∈ s.arb.waitList, ∀ f ∈ s.arb.waitList, e.work = .step 0 → f.work = .step 0 → e.channel = f.channel := by decide +kernel

/-- `playing` with T0's home switch S1 closed. -/
def atHome0 : State := withInput playing 1 fun x => { x with closed := true }

theorem witness_HomeFindsOrBeginsHoming :
    (∀ x : Byte, Ready .a 0x11#8 [x] (asking .a 0x11#8 [x] playing)) ∧ 15 < (16#8).toNat ∧
    (playing.stepper 2).cfg.up = none ∧
    ((playing.stepper 0).cfg.up ≠ none ∧ (playing.stepper 0).cfg.home = some 1 ∧ (playing.stepper 0).cfg.kind = .wrap ∧
      (playing.stepper 0).cfg.up = some 2) ∧
    ((disabled 2).chan 2).state = .disabled ∧ (playing.chan 2).state ≠ .disabled ∧
    ((stepping (.homing (.single .a) 0)).stepper 0).state.isHoming = true ∧
    ((stepping (.running (train 2) none)).stepper 0).state.isRunning = true ∧
    ((atHome0.stepper 0).state = .idle ∧ hasStepEntry atHome0 0 = false ∧
      drivingOrRecovering atHome0 (atHome0.stepper 0).cfg.up = false ∧
      drivingOrRecovering atHome0 (atHome0.stepper 0).cfg.down = false ∧ (atHome0.input 1).closed = true) ∧
    ((playing.stepper 0).state = .idle ∧ hasStepEntry playing 0 = false ∧ (playing.input 1).closed = false) ∧
    (∀ x, Ready .a 0x11#8 [byte (0 : StepperId).val] (asking .a 0x11#8 [0#8] (stepping x))) ∧
    Ready .a 0x11#8 [byte (0 : StepperId).val] (asking .a 0x11#8 [0#8] atHome0) ∧
    Ready .a 0x11#8 [byte (0 : StepperId).val] (asking .a 0x11#8 [0#8] (disabled 2)) :=
  ⟨fun _ => ready_playing _ _ _, by decide, by decide +kernel, by decide +kernel, by decide +kernel, by decide +kernel,
    by decide +kernel, by decide +kernel, by decide +kernel, by decide +kernel, fun _ => ready_asking rfl rfl rfl,
    ready_asking rfl rfl rfl, ready_asking rfl rfl rfl⟩

/-- Of the same statement: a blocking STEP entry that a HOME of its stepper removes, and a channel in DRIVE, in RECOVER and in neither. -/
theorem witness_HomeFindsOrBeginsHoming_waiting :
    (let s := asking .a 0x11#8 [0#8] (withList playing [entryOn 2 (.step 0) 4])
     Ready .a 0x11#8 [byte (0 : StepperId).val] s ∧ (s.chan 2).state ≠ .disabled ∧ (s.stepper 0).state = .idle ∧
      hasStepEntry s 0 = true ∧ (s.stepper 0).cfg.home = some 1) ∧
    ∀ x ∈ [ChanState.drive .step 30 5, .recover 50 none, .idle],
      ((withChan playing 2 fun ch => { ch with state := x }).chan 2).state = x :=
  ⟨⟨ready_asking rfl rfl rfl, by decide +kernel⟩, by decide +kernel⟩

theorem witness_ConfigureStepperAndBank : Ready .a 0x14#8 (zeros 10) (asking .a 0x14#8 (zeros 10) playing) ∧ (zeros 10).length = 10 ∧
    Ready .a 0x17#8 (zeros 7) (asking .a 0x17#8 (zeros 7) playing) ∧ (zeros 7).length = 7 ∧ ascending [0, 1, 15] = true :=
  ⟨ready_playing _ _ _, rfl, ready_playing _ _ _, rfl, by decide⟩

theorem witness_AddScoreGivesEachReelItsDigit (x a b c : Byte) :
    Ready .a 0x15#8 [x, a, b, c] (asking .a 0x15#8 [x, a, b, c] playing) ∧ 3 < (4#8).toNat :=
  ⟨ready_playing _ _ _, by decide⟩

theorem witness_SpacingExpiryTestsTheNextStep :
    ((withStepper playing 0 fun x => { x with spacing := some 0 }).stepper 0).spacing = some 0 ∧
    (playing.stepper 0).spacing ≠ some 0 ∧ stepReady playing 0 = none ∧
    (let s := stepping (.running (train 2) none)
     stepReady s 0 = some 2 ∧ (s.stepper 0).atEndStop = false ∧ s.arb.waitList.length < 24) ∧
    (let s := withList (stepping (.running (train 2) none)) fullList
     stepReady s 0 = some 2 ∧ (s.stepper 0).atEndStop = false ∧ 24 ≤ s.arb.waitList.length) := by decide +kernel

/-- The STOP unit T1 in this state at this position. -/
def stopUnit (x : StepState) (position : Nat) : State :=
  withStepper playing 1 fun y => { y with state := x, position := some position }

/-- Of the same statement: a train at either end stop, with and without a pending one, and a homing whose step is ready. -/
theorem witness_SpacingExpiryTestsTheNextStep_atTheEnds :
    (∀ next ∈ [none, some (train 3)], let s := stopUnit (.running (train 2) next) 9
      stepReady s 1 = some 4 ∧ (s.stepper 1).atEndStop = true ∧ (s.stepper 1).state = .running (train 2) next) ∧
    (let s := stopUnit (.running { train 2 with dir := .down } none) 0
     stepReady s 1 = some 5 ∧ (s.stepper 1).atEndStop = true) ∧
    (let s := stepping (.homing (.single .a) 0)
     stepReady s 0 = some 2 ∧ (s.stepper 0).atEndStop = false) := by decide +kernel

/-- T0 with a step of this mark in drive, in this state and at this position. -/
def stepDriven (x : StepState) (mark : StepMark) (position : Nat) : State :=
  withStepper playing 0 fun y => { y with state := x, inDrive := some ⟨2, mark⟩, position := some position }

theorem witness_StepDriveEndMovesAndCounts :
    (let x := (stepDriven (.running (train 2) none) .train 8).stepper 0
     x.inDrive = some ⟨2, .train⟩ ∧ x.wraps = false ∧ x.state = .running (train 2) none ∧ 1 < (train 2).remaining) ∧
    ((stepDriven (.running (train 1) none) .train 9).stepper 0).wraps = true ∧
    (let x := (stepDriven (.running (train 1) none) .train 8).stepper 0
     x.wraps = false ∧ x.state = .running (train 1) none ∧ (train 1).remaining = 1) ∧
    (let x := (stepDriven (.homing (.single .a) 0) .homing 0).stepper 0
     x.wraps = false ∧ x.state = .homing (.single .a) 0) ∧
    (let x := (stepDriven .idle .cleared 0).stepper 0
     x.wraps = false ∧ x.state = .idle) := by decide +kernel

/-- Of the same statement: a train that its last step ends beside a pending one, a cleared step beside a running train, cleared and in a
homing, and one that wraps. -/
theorem witness_StepDriveEndMovesAndCounts_reloadAndCleared :
    (let x := (stepDriven (.running (train 1) (some (train 3))) .train 8).stepper 0
     x.inDrive = some ⟨2, .train⟩ ∧ x.wraps = false ∧ x.state = .running (train 1) (some (train 3)) ∧ (train 1).remaining = 1) ∧
    (let x := (stepDriven (.running (train 2) none) .cleared 8).stepper 0
     x.inDrive = some ⟨2, .cleared⟩ ∧ x.wraps = false ∧ x.state = .running (train 2) none ∧ 1 ≤ (train 2).remaining) ∧
    (let x := (stepDriven (.running (train 2) none) .homing 8).stepper 0
     x.inDrive = some ⟨2, .homing⟩ ∧ x.wraps = false ∧ x.state = .running (train 2) none ∧ 1 ≤ (train 2).remaining) ∧
    (let x := (stepDriven (.homing (.single .a) 0) .cleared 8).stepper 0
     x.inDrive = some ⟨2, .cleared⟩ ∧ x.wraps = false ∧ x.state.isHoming = true) ∧
    (let x := (stepDriven .idle .cleared 9).stepper 0
     x.inDrive = some ⟨2, .cleared⟩ ∧ x.wraps = true) ∧
    (topReelOf playing 0 = some 0 ∧ topReelOf playing 1 = none) := by decide +kernel

theorem witness_SwitchRequestsConfigureAndDrain (x b d i r : Byte) :
    Ready .a 0x18#8 [x, b, d, i, r] (asking .a 0x18#8 [x, b, d, i, r] playing) ∧ Ready .b 0x1A#8 [] (asking .b 0x1A#8 [] playing) ∧
    (1 < (2#8).toNat ∧ 3 < (4#8).toNat ∧ (1#8).toNat ≤ 1 ∧ (3#8).toNat ≤ 3 ∧ 31 < (32#8).toNat) :=
  ⟨ready_playing _ _ _, ready_playing _ _ _, by decide⟩

/-- S0 reports to port A, whose queue holds `n` entries. -/
def reporting (n : Nat) : State :=
  let s := withInput playing 0 fun x => { x with cfg := { x.cfg with reportTo := .single .a }, timer := some 0 }
  setQueue s .a ⟨List.replicate n ⟨0, true, 0, false⟩, 0, false⟩

theorem witness_SwitchDebounceDeliversTheChange :
    (playing.input 0).timer ≠ some 0 ∧ ((reporting 31).input 0).timer = some 0 ∧
    (playing.input 0).cfg.reportTo.has .a = false ∧
    (((reporting 31).input 0).cfg.reportTo.has .a = true ∧ ((reporting 31).port .a).live = true ∧
      ((reporting 31).sw.queues.get .a).entries.length < 32) ∧
    32 ≤ ((reporting 32).sw.queues.get .a).entries.length := by decide +kernel

/-- `playing` with the SYNC debounce due. -/
def syncing (high : Bool) : State := { playing with sw := { playing.sw with syncHigh := high, syncTimer := some 0 } }

theorem witness_SyncDebounceCommitsArmedLayers :
    ((syncing false).sw.syncTimer = some 0 ∧ (syncing false).sw.syncHigh = false) ∧
    ((syncing true).sw.syncTimer = some 0 ∧ (syncing true).sw.syncHigh = true) ∧ playing.sw.syncTimer ≠ some 0 := by
  decide +kernel

theorem witness_TickAdvancesPartTimeAndTimers :
    ((driven 0 .pulse 5).chan 0).state = .drive .pulse 30 5 ∧
    ((withChan playing 0 fun ch => { ch with state := .recover 5 none }).chan 0).state = .recover 5 none ∧
    ((stroke 19 false false).flip 0).state = .power ⟨30, 19, false, false, false⟩ := by decide +kernel

/-- Port A's layer armed for the next frame. -/
def armed : State :=
  setLayer playing .a { playing.lamp.layers.get .a with commit := .armedFrame }

theorem witness_LampsWriteTheOpenBuffer :
    Ready .a 0x1B#8 [31#8, 1#8, 1#8, 15#8] (asking .a 0x1B#8 [31#8, 1#8, 1#8, 15#8] playing) ∧
    Ready .a 0x1B#8 [32#8, 0#8, 0#8] (asking .a 0x1B#8 [32#8, 0#8, 0#8] playing) ∧
    Ready .a 0x1B#8 [31#8, 0#8, 0#8] (asking .a 0x1B#8 [31#8, 0#8, 0#8] armed) ∧
    Ready .a 0x1C#8 [1#8] (asking .a 0x1C#8 [1#8] playing) ∧
    ([15#8].length = (1#8).toNat ∧ (31#8).toNat ≤ 31 ∧ (31#8).toNat + (1#8).toNat ≤ 32 ∧ (1#8).toNat ≤ 1 ∧ 31 < (32#8).toNat) ∧
    (playing.lamp.layers.get .a).commit = .idle ∧ (armed.lamp.layers.get .a).commit ≠ .idle :=
  ⟨ready_playing _ _ _, ready_playing _ _ _, ready_asking rfl rfl rfl, ready_playing _ _ _, by decide, by decide +kernel,
    by decide +kernel⟩

theorem witness_CommitSwapsAndCopiesTheBuffers :
    exec (.lamps .a [0#8, 0#8, 1#8]) playing = .next (after (.lamps .a [0#8, 0#8, 1#8]) playing) ∧
    exec .syncRisingEdge playing = .next (after .syncRisingEdge playing) ∧
    Ready .a 0x1B#8 [0#8, 0#8, 1#8] (asking .a 0x1B#8 [0#8, 0#8, 1#8] playing) ∧ (playing.lamp.layers.get .a).commit = .idle :=
  ⟨rfl, rfl, ready_playing _ _ _, by decide +kernel⟩

theorem witness_ConfigureLampReplacesRecords (sel pr step hi lo : Byte) :
    Ready .a 0x1D#8 [sel, pr, step, hi, lo] (asking .a 0x1D#8 [sel, pr, step, hi, lo] playing) ∧
    Ready .a 0x1D#8 [sel, pr, step, hi, lo] (asking .a 0x1D#8 [sel, pr, step, hi, lo] (withSave playing 5)) ∧
    (33 < (34#8).toNat ∧ (32#8).toNat ≤ 32 ∧ (33#8).toNat = 33 ∧ 1 < (2#8).toNat ∧ (0#8).toNat = 0 ∧ 15 < (16#8).toNat ∧
      (1#8).toNat ≤ 1 ∧ 1 ≤ (1#8).toNat ∧ (15#8).toNat ≤ 15) ∧
    ((0#8).toNat * 256 + (15#8).toNat < 16 ∧ 16 ≤ (0#8).toNat * 256 + (16#8).toNat ∧ (1#8).toNat * 256 + (224#8).toNat ≤ 480 ∧
      480 < (1#8).toNat * 256 + (225#8).toNat) ∧ playing.store.save = none ∧ (withSave playing 5).store.save.isSome = true :=
  ⟨ready_playing _ _ _, ready_asking rfl rfl rfl, by decide, by decide, rfl, rfl⟩

theorem witness_LampFrameStaysWithinTheBudget : playing.lamp.frame ≠ some 0 ∧
    ({ playing with lamp := { playing.lamp with frame := some 0 } } : State).lamp.frame = some 0 := by decide +kernel

/-- T0, whose home switch S1 is closed or not, in this state at this position with this mismatch count. -/
def homeLook (closed : Bool) (x : StepState) (position : Option Nat) (mismatch : Nat) : State :=
  withInput (withStepper playing 0 fun y => { y with state := x, position := position, mismatch := mismatch }) 1
    fun w => { w with closed := closed }

theorem witness_HomeVerificationHomingAndFaults :
    (∀ c ∈ [(0 : ChannelId), 2], Ready .a 0x04#8 [byte c.val] (asking .a 0x04#8 [byte c.val] playing) ∧
      (playing.chan c).state ≠ .disabled) ∧
    ((playing.stepper 1).cfg.home = none ∧ (playing.stepper 0).cfg.home = some 1 ∧ (playing.stepper 0).cfg.homePos ≠ 5) ∧
    (∀ x ∈ [StepState.idle, .running (train 2) none, .homing (.single .a) 3, .faulted], ∀ closed,
      ((homeLook closed x none 0).stepper 0).state = x ∧ ((homeLook closed x none 0).input 1).closed = closed) ∧
    (∀ position ∈ [none, some (playing.stepper 0).cfg.homePos, some 5],
      ((homeLook true .idle position 0).stepper 0).position = position) ∧
    (∀ mismatch ∈ [0, 1, 2, 3], ((homeLook true .idle (some 5) mismatch).stepper 0).mismatch = mismatch) ∧
    (3 < (playing.stepper 0).cfg.positions + 2 ∧
      (let s := homeLook false (.homing (.single .a) 12) none 0
       (s.stepper 0).state = .homing (.single .a) 12 ∧ (s.stepper 0).cfg.positions + 2 ≤ 12)) ∧
    (stepEntry0 ∈ (withList playing [stepEntry0]).arb.waitList ∧ stepEntry0.work = .step 0) ∧
    (∀ e ∈ playing.arb.waitList, e.work ≠ .step 0) ∧
    stepperOf playing 0 = none ∧ stepperOf playing 2 = some 0 :=
  ⟨fun c hc => ⟨ready_playing _ _ _, by revert c; decide +kernel⟩, by decide +kernel⟩

/-- Of the same statement: a channel in DRIVE, in HOLD and in neither, each kind of entry that a disable removes, and a list without one. -/
theorem witness_HomeVerificationHomingAndFaults_takenOut :
    (∀ x ∈ [ChanState.drive .pulse 30 5, .hold, .idle, .disabled],
      ((withChan playing 0 fun ch => { ch with state := x }).chan 0).state = x) ∧
    entryOf playing 0 = none ∧
    (∀ work ∈ [Work.pulse (.single .a), .pullIn (.single .a), .fire 1 .empty, .step 0],
      let s := withList (disabled 0) [entryOn 0 work 0, entryOn 1 (.pulse (.single .b)) 0]
      entryOf s 0 = some (entryOn 0 work 0) ∧ (s.chan 0).state = .disabled ∧
        entryOf s 1 = some (entryOn 1 (.pulse (.single .b)) 0)) := by decide +kernel

/-- A disable removes a waiting FIRE, which its link counts lost, and tells no port (R17, R59). -/
theorem test_disableRemovesTheEntry :
    let s := withList playing [entryOn 0 (.fire 1 (.single .a)) 0]
    let t := removeQuietly (takeOut s 0) 0
    t.arb.waitList = [] ∧ (t.link 1).lost = 1 ∧ t.latches = s.latches := by decide +kernel

end Sys2Proof.Tests
end

section
/-! CONFIGURE SUPPLY (R31, R32): what its acceptance leaves of the part, and what every reply leaves as its request left it. -/

namespace Sys2Proof.Machine

/-! ### An OK reply is in the port's record alone (R157) -/

@[simp] theorem okTo_channels (p : Port) (kind : Byte) (u : State) (bytes : List Byte) :
    (okTo p kind u bytes).channels = u.channels := rfl
@[simp] theorem okTo_arb (p : Port) (kind : Byte) (u : State) (bytes : List Byte) : (okTo p kind u bytes).arb = u.arb := rfl
@[simp] theorem okTo_supply (p : Port) (kind : Byte) (u : State) (bytes : List Byte) :
    (okTo p kind u bytes).supply = u.supply := rfl

theorem okTo_sending (p : Port) (kind : Byte) (u : State) (bytes : List Byte) :
    ((okTo p kind u bytes).port p).sending = some ⟨replyFrame kind .ok bytes, false⟩ := reply_port_self _ _ _

/-! ### Taking a request leaves the coils and the supply alone (R157) -/

@[simp] theorem take_channels (s : State) (p : Port) : (take s p).channels = s.channels := rfl
@[simp] theorem take_arb (s : State) (p : Port) : (take s p).arb = s.arb := rfl
@[simp] theorem take_supply (s : State) (p : Port) : (take s p).supply = s.supply := rfl

/-! ### The supply record in a profile and in READ CONFIG (R32) -/

theorem workingProfile_supply (s : State) : (workingProfile s).supply = s.supply.cfg := rfl

theorem configRecord_supply (s : State) : configRecord s 1 0 = some s.supply.cfg.bytes := rfl

theorem byte_toNat (x : Byte) : byte x.toNat = x := by simp [byte]

/-! ### The supply record replaced whole (R32) -/

/-- The state once an accepted CONFIGURE SUPPLY has replaced the record: an attempt is made where B − F has risen (R32). -/
def replaceSupply (s : State) (r : SupplyRecord) : State :=
  let v := s.setSupply { s.supply with cfg := r }
  if s.supply.cfg.budget - s.supply.cfg.reserve < r.budget - r.reserve then attemptNow v else v

/-- Beyond the record, an accepted CONFIGURE SUPPLY does coil work only. -/
theorem coilWork_replaceSupply (s : State) (r : SupplyRecord) :
    CoilWork (s.setSupply { s.supply with cfg := r }) (replaceSupply s r) :=
  .ite (fun _ => .attemptNow _) (fun _ => .refl _)

theorem replaceSupply_supply (s : State) (r : SupplyRecord) : (replaceSupply s r).supply = { s.supply with cfg := r } :=
  (coilWork_replaceSupply s r).supply

/-- Where the general pool has not risen, the record is all that changes. -/
theorem replaceSupply_of_le {s : State} {r : SupplyRecord}
    (h : r.budget - r.reserve ≤ s.supply.cfg.budget - s.supply.cfg.reserve) :
    replaceSupply s r = s.setSupply { s.supply with cfg := r } := if_neg (Nat.not_lt.2 h)

/-! ### The request (R31) -/

theorem supplyRecordOf_eq (b f hi lo : Byte) :
    supplyRecordOf [b, f, hi, lo] = ⟨b.toNat, f.toNat, min 255 ((hi.toNat * 256 + lo.toNat) / 10)⟩ := rfl

theorem exec_configureSupply (p : Port) (body : List Byte) (s : State) :
    exec (.configureSupply p body) s = .next (catalogued p 0x08#8 4 body (configureSupplyRequest body) s) := rfl

/-- The answer of CONFIGURE SUPPLY, its checks in the order of R31. -/
theorem configureSupplyRequest_eq (body : List Byte) (s : State) :
    configureSupplyRequest body s =
      let r := supplyRecordOf body
      if r.budget = 0 then .refuse s .range
      else if s.store.save.isSome then .refuse s .busy
      else if r.budget < r.reserve then .refuse s .refused
      else if r.reserve < flipperWeights s then .refuse s .refused
      else if r.budget - r.reserve < s.arb.general then .refuse s .busy
      else .done (replaceSupply s r) := rfl

/-- A ready CONFIGURE SUPPLY is served by the checks of R31 in their order, made on the state that the engine found. -/
theorem exec_configureSupply_ready {p : Port} {b f hi lo : Byte} {s : State} (h : Ready p 0x08#8 [b, f, hi, lo] s) :
    exec (.configureSupply p [b, f, hi, lo]) s = .next (
      if b.toNat = 0 then refusedTo p 0x08#8 (take s p) .range
      else if s.store.save.isSome then refusedTo p 0x08#8 (take s p) .busy
      else if b.toNat < f.toNat then refusedTo p 0x08#8 (take s p) .refused
      else if f.toNat < flipperWeights s then refusedTo p 0x08#8 (take s p) .refused
      else if b.toNat - f.toNat < s.arb.general then refusedTo p 0x08#8 (take s p) .busy
      else okTo p 0x08#8 (replaceSupply (take s p) (supplyRecordOf [b, f, hi, lo])) []) := by
  rw [exec_configureSupply, catalogued_ready (n := 4) _ h rfl, configureSupplyRequest_eq, supplyRecordOf_eq]
  simp only [apply_ite (reply p 0x08#8)]
  rfl

/-- A ready CONFIGURE SUPPLY that passes every check of R31 replaces the record and is answered OK (R32). -/
theorem exec_configureSupply_accepted {p : Port} {b f hi lo : Byte} {s : State} (h : Ready p 0x08#8 [b, f, hi, lo] s)
    (hb : b.toNat ≠ 0) (hsave : s.store.save = none) (hf : f.toNat ≤ b.toNat) (hw : flipperWeights s ≤ f.toNat)
    (hload : s.arb.general ≤ b.toNat - f.toNat) :
    exec (.configureSupply p [b, f, hi, lo]) s =
      .next (okTo p 0x08#8 (replaceSupply (take s p) (supplyRecordOf [b, f, hi, lo])) []) := by
  have hfree : ¬s.store.save.isSome := by simp [hsave]
  rw [exec_configureSupply_ready h, if_neg hb, if_neg hfree, if_neg (Nat.not_lt.2 hf), if_neg (Nat.not_lt.2 hw),
    if_neg (Nat.not_lt.2 hload)]

/-- Settles O38: the checks are those of the request's own rules, and past them the record is replaced and only coil work follows,
which leaves the supply monitor and the records alone. -/
theorem configureSupplyChecksAndReplaces : Obligations.ConfigureSupplyChecksAndReplaces := by
  intro p b f hi lo s h u new v
  refine ⟨exec_configureSupply_ready h, fun hb hsave hf hw hload => ?accepted⟩
  have hexec : exec (.configureSupply p [b, f, hi, lo]) s = .next (okTo p 0x08#8 (replaceSupply u new) []) :=
    exec_configureSupply_accepted h hb hsave hf hw hload
  have hsupply : (okTo p 0x08#8 (replaceSupply u new) []).supply = { s.supply with cfg := new } := by
    rw [okTo_supply, replaceSupply_supply, take_supply]
  refine ⟨_, hexec, okTo_sending _ _ _ _, hsupply, ?profile, ?readConfig, fun hpool => ?unrisen⟩
  case profile => rw [workingProfile_supply, hsupply]
  case readConfig => rw [configRecord_supply, hsupply, SupplyRecord.bytes, byte_toNat, byte_toNat]
  case unrisen =>
    have hv : replaceSupply u new = v := replaceSupply_of_le hpool
    simp [hv, u, v]

end Sys2Proof.Machine
end

section
/-! PULSE (R42 to R44): what each check of Table 3-2 asks of the state, the answer at the wait list, and the answer of the whole table. -/

namespace Sys2Proof.Machine

/-! ### What the checks of Table 3-2 ask -/

/-- The classes that the second row of Table 3-2 refuses (R3). -/
theorem CoilClass.not_pulsed_iff (k : CoilClass) : (!k.pulsed) = true ↔ k ≠ .pulse ∧ k ≠ .holdable := by
  cases k <;> decide

theorem inCutoff_iff (s : State) (c : ChannelId) : inCutoff s c = true ↔ (s.chan c).heat.thermal = .cutoff := decide_eq_true_iff

theorem heldOrPulling_iff (s : State) (c : ChannelId) :
    heldOrPulling s c = true ↔ (s.chan c).state = .hold ∨ hasPullIn s c = true := by
  rw [heldOrPulling, Bool.or_eq_true, decide_eq_true_iff]

/-- Taking a request leaves the wait list's entries alone (R157). -/
@[simp] theorem entryOf_take (s : State) (p : Port) (c : ChannelId) : entryOf (take s p) c = entryOf s c := rfl

/-! ### The answer at the wait list (R42, R44) -/

/-- A merge adds the sender to the origin of a PULSE entry and to the notified ports of a FIRE entry, and keeps any other work (R44). -/
theorem Entry.mergePulse_eq (e : Entry) (p : Port) (w : Nat) :
    e.mergePulse p w = { e with
      width := max e.width w
      work := match e.work with
        | .pulse origin => .pulse (origin.add p)
        | .fire k notified => .fire k (notified.add p)
        | work => work } := by
  rw [Entry.mergePulse]
  cases e.work <;> rfl

/-- The last three rows of Table 3-2: a PULSE of this clamped width merges into the channel's entry, finds the list full, or is entered. -/
def pulseAtList (p : Port) (c : ChannelId) (width : Nat) (s : State) : Answer :=
  match entryOf s c with
  | some e => .okWith (settle (bring (changeEntry s c fun x => x.mergePulse p width))) [1#8, byte (max e.width width)]
  | none =>
    if listFull s then .refuse s .full
    else .okWith (settle (enter s ⟨c, .pulse (.single p), width, s.sw.partTime, newDeadline s (s.chan c).coil, 0⟩)) [2#8, byte width]

theorem pulseAtList_of_entry {p : Port} {c : ChannelId} {width : Nat} {s : State} {e : Entry} (h : entryOf s c = some e) :
    pulseAtList p c width s =
      .okWith (settle (bring (changeEntry s c fun x => x.mergePulse p width))) [1#8, byte (max e.width width)] := by
  rw [pulseAtList, h]

theorem pulseAtList_of_none {p : Port} {c : ChannelId} {width : Nat} {s : State} (h : entryOf s c = none) :
    pulseAtList p c width s =
      if listFull s then .refuse s .full
      else .okWith (settle (enter s ⟨c, .pulse (.single p), width, s.sw.partTime, newDeadline s (s.chan c).coil, 0⟩))
        [2#8, byte width] := by
  rw [pulseAtList, h]

/-! ### The request (R42) -/

theorem exec_pulse (p : Port) (body : List Byte) (s : State) :
    exec (.pulse p body) s = .next (catalogued p 0x02#8 2 body (pulseRequest p body) s) := rfl

theorem pulseRequest_of_range {p : Port} {x w : Byte} {s : State} (h : 47 < x.toNat) :
    pulseRequest p [x, w] s = .refuse s .range := by
  rw [pulseRequest, u8_zero, index_none h]

/-- The answer for a channel that the part has, its checks in the order of Table 3-2. -/
theorem pulseRequest_channel (p : Port) (c : ChannelId) (w : Byte) (s : State) :
    pulseRequest p [byte c.val, w] s =
      let width := entryWidth (s.chan c).coil w.toNat
      if !(s.chan c).coil.cls.pulsed then .refuse s .refused
      else if (s.chan c).state = .disabled then .refuse s .refused
      else if s.supply.state = .down then .refuse s .noSupply
      else if inCutoff s c then .refuse s .hot
      else if heldOrPulling s c then .okWith (countAbsorbed s c) [0#8, byte width]
      else pulseAtList p c width s := by
  rw [pulseRequest, u8_zero, index_byte (by decide)]
  rfl

/-- A ready PULSE for a channel that the part has is answered by its own rules on the state that the engine's take leaves. -/
theorem exec_pulse_ready {p : Port} {x w : Byte} {s : State} (h : Ready p 0x02#8 [x, w] s) :
    exec (.pulse p [x, w]) s = .next (reply p 0x02#8 (pulseRequest p [x, w] (take s p))) := by
  rw [exec_pulse, catalogued_ready (n := 2) _ h rfl]

/-- Settles O24: both sides are the chain of Table 3-2, compared row by row; past its checks the channel's entry decides. -/
theorem pulseIsAnsweredByItsTable : Obligations.PulseIsAnsweredByItsTable := by
  refine fun p w s => ⟨fun c h => ?channel, fun x hx h => ?range⟩
  case range => rw [exec_pulse_ready h, pulseRequest_of_range hx, refusedTo]
  case channel =>
    intro u ch width
    rw [exec_pulse_ready h, pulseRequest_channel]
    simp only [apply_ite (reply p 0x02#8)]
    refine congrArg Host.Outcome.next <|
      if_congr (CoilClass.not_pulsed_iff _) rfl <|
      if_congr Iff.rfl rfl <|
      if_congr Iff.rfl rfl <|
      if_congr (inCutoff_iff _ _) rfl <|
      if_congr (heldOrPulling_iff _ _) rfl ?atList
    cases hentry : entryOf s c with
    | some e =>
      rw [pulseAtList_of_entry ((entryOf_take s p c).trans hentry), funext fun x => Entry.mergePulse_eq x p _]
      rfl
    | none =>
      rw [pulseAtList_of_none ((entryOf_take s p c).trans hentry), apply_ite (reply p 0x02#8)]
      exact if_congr (listFull_iff _) rfl rfl

end Sys2Proof.Machine
end

section
/-! The heat model through the resets (R78, R168): what every reset leaves of a channel, and which heats each kind of reset hands on. -/

namespace Sys2Proof.Machine

/-! ### A channel after a reset (R21, R78) -/

/-- Every channel is as at power-on but for its heat record, which is the one that the reset hands on. -/
@[simp] theorem resetWith_chan (heats : Table Heat 48) (s : State) (c : ChannelId) :
    (resetWith heats s).chan c = { Channel.reset with heat := heats.get c } := by
  simp only [resetWith, State.chan, Table.get_map]

@[simp] theorem powerOnReset_chan (s : State) (c : ChannelId) : (powerOnReset s).chan c = Channel.reset := by
  rw [powerOnReset, resetWith_chan, Table.get_replicate]
  rfl

@[simp] theorem warmReset_chan (s : State) (c : ChannelId) :
    (warmReset s).chan c = { Channel.reset with heat := (s.chan c).heat } := by
  rw [warmReset, resetWith_chan, Table.get_map]
  rfl

theorem coilOutput_of_off {s : State} {c : ChannelId} (h : (s.chan c).state = .off) : coilOutput s c = .off := by
  rw [coilOutput, h]

/-! ### The soft reset (R164) -/

theorem replySent_of_resets {s : State} {p : Port} {r : Sending} (hr : (s.port p).sending = some r)
    (hresets : r.resets = true) : replySent p s = warmReset s := by
  simp only [replySent, hr, hresets, if_true]

/-- Pin reset and soft reset are one and the same reset (R168). -/
theorem exec_warm {c : Instr} {s : State}
    (h : c = .pinReset ∨ ∃ p r, c = .replySent p ∧ (s.port p).sending = some r ∧ r.resets = true) :
    exec c s = .next (warmReset s) := by
  obtain rfl | ⟨p, r, rfl, hr, hresets⟩ := h
  · rfl
  · exact congrArg Host.Outcome.next (replySent_of_resets hr hresets)

/-! ### R78 -/

/-- Settles O17: the statement is read off the channels that the power-on reset and the warm reset leave. -/
theorem heatThroughTheResets : Obligations.HeatThroughTheResets := by
  refine ⟨fun s => ⟨powerOnReset s, rfl, fun c => ?powerOn⟩, fun c s h => ⟨warmReset s, exec_warm h, fun d => ?warm⟩⟩
  case powerOn =>
    rw [powerOnReset_chan]
    exact ⟨rfl, rfl, rfl, rfl⟩
  case warm =>
    have hoff : ((warmReset s).chan d).state = .off := congrArg Channel.state (warmReset_chan s d)
    rw [warmReset_chan]
    exact ⟨rfl, rfl, rfl, coilOutput_of_off hoff⟩

end Sys2Proof.Machine
end

section
/-! The commit of a layer (R146): what it leaves of the two buffers, and that the commands which commit leave the latches alone. -/

namespace Sys2Proof.Machine

/-! ### The two buffers of a layer (R143) -/

theorem BufferName.eq_other_of_ne {m n : BufferName} (h : m ≠ n) : m = n.other := by
  cases m <;> cases n <;> first | rfl | exact absurd rfl h

namespace Layer

@[simp] theorem buffer_setBuffer_self (x : Layer) (n : BufferName) (b : Table (Option Nat) 32) :
    (x.setBuffer n b).buffer n = b := by cases n <;> rfl

theorem buffer_setBuffer_other (x : Layer) (n : BufferName) (b : Table (Option Nat) 32) :
    (x.setBuffer n b).buffer n.other = x.buffer n.other := by cases n <;> rfl

@[simp] theorem setBuffer_buffer_self (x : Layer) (n : BufferName) : x.setBuffer n (x.buffer n) = x := by cases n <;> rfl

/-! ### The commit (R146) -/

@[simp] theorem commitNow_shown (x : Layer) : x.commitNow.shown = x.shown.other := rfl

@[simp] theorem commitNow_commit (x : Layer) : x.commitNow.commit = .idle := rfl

/-- The buffers are not moved: a commit writes the one that was shown, and names the other as shown. -/
theorem commitNow_buffer_eq_setBuffer (x : Layer) (n : BufferName) :
    x.commitNow.buffer n = (x.setBuffer x.shown (x.buffer x.shown.other)).buffer n := by cases n <;> rfl

/-- The buffer that was shown holds the copy; the one that was open is not written. -/
theorem commitNow_buffer (x : Layer) (n : BufferName) : x.commitNow.buffer n = x.buffer x.shown.other := by
  rw [commitNow_buffer_eq_setBuffer]
  by_cases h : n = x.shown
  · rw [h, buffer_setBuffer_self]
  · rw [BufferName.eq_other_of_ne h, buffer_setBuffer_other]

end Layer

/-! ### LAMPS that commits and writes no value (R144) -/

theorem writeValues_nil (start : Nat) (b : Table (Option Nat) 32) : writeValues start [] b = b :=
  Table.ext_get fun l => by simp [writeValues]

theorem Layer.written_nil_commit (x : Layer) (start : Nat) : x.written start [] true = x.commitNow := by
  simp [Layer.written, writeValues_nil]

/-- Where the commit state is IDLE, a LAMPS of no values with its flag set is a commit alone. -/
theorem lampsRequest_commit {p : Port} {s : State} (h : (s.lamp.layers.get p).commit = .idle) :
    lampsRequest p [0#8, 0#8, 1#8] s = .okWith (setLayer s p (s.lamp.layers.get p).commitNow) [0#8, 0#8, 1#8] := by
  rw [← Layer.written_nil_commit _ 0]
  exact if_neg (not_not_intro h)

@[simp] theorem setLayer_layer_self (s : State) (p : Port) (x : Layer) : (setLayer s p x).lamp.layers.get p = x :=
  PerPort.get_set_self _ _ _

theorem setLayer_lamps (s : State) (p : Port) (x : Layer) : (setLayer s p x).lamp.lamps = s.lamp.lamps := rfl

theorem setLayer_latches (s : State) (p : Port) (x : Layer) : (setLayer s p x).latches = s.latches := rfl

@[simp] theorem okTo_lamp (p : Port) (kind : Byte) (u : State) (bytes : List Byte) : (okTo p kind u bytes).lamp = u.lamp := rfl

@[simp] theorem take_lamp (s : State) (p : Port) : (take s p).lamp = s.lamp := rfl

theorem exec_lamps (p : Port) (body : List Byte) (s : State) :
    exec (.lamps p body) s = .next (catalogued p 0x1B#8 (3 + u8 body 1) body (lampsRequest p body) s) := rfl

/-- A ready LAMPS of no values with its flag set commits the layer that the engine found. -/
theorem exec_lamps_commit {p : Port} {s : State} (h : Ready p 0x1B#8 [0#8, 0#8, 1#8] s)
    (hidle : (s.lamp.layers.get p).commit = .idle) :
    exec (.lamps p [0#8, 0#8, 1#8]) s =
      .next (okTo p 0x1B#8 (setLayer (take s p) p (s.lamp.layers.get p).commitNow) [0#8, 0#8, 1#8]) := by
  rw [exec_lamps, catalogued_ready (n := 3 + u8 _ 1) _ h rfl, lampsRequest_commit (s := take s p) hidle, take_lamp, okTo]

/-! ### The receivers write their own port's record alone (R156) -/

theorem State.setPort_setPort (s : State) (p : Port) (x y : PortRec) : (s.setPort p x).setPort p y = s.setPort p y := by
  cases p <;> rfl

theorem State.setPort_port (s : State) (p : Port) : s.setPort p (s.port p) = s := by cases p <;> rfl

theorem abandonFrame_eq_setPort (s : State) (p : Port) : ∃ x, abandonFrame s p = s.setPort p x :=
  ⟨_, State.setPort_setPort _ _ _ _⟩

theorem completeFrame_eq_setPort (s : State) (p : Port) (asm : List Byte) (check : Byte) :
    ∃ x, completeFrame s p asm check = s.setPort p x := by
  simp only [completeFrame]
  split_ifs <;> exact ⟨_, State.setPort_setPort _ _ _ _⟩

theorem receiveByte_eq_setPort (s : State) (p : Port) (b : Byte) (stop : Bool) : ∃ x, receiveByte s p b stop = s.setPort p x := by
  have unchanged : ∃ x, s = s.setPort p x := ⟨_, (State.setPort_port s p).symm⟩
  have abandoned := abandonFrame_eq_setPort s p
  simp only [receiveByte]
  split_ifs
  · exact unchanged
  · exact ⟨_, rfl⟩
  · exact ⟨_, rfl⟩
  · exact unchanged
  · exact abandoned
  · exact abandoned
  · exact ⟨_, rfl⟩
  · exact ⟨_, rfl⟩
  · exact completeFrame_eq_setPort _ _ _ _

theorem receiveFrame_eq_setPort (s : State) (p : Port) (kind : Byte) (body : List Byte) :
    ∃ x, receiveFrame s p kind body = s.setPort p x := by
  rw [receiveFrame]
  induction requestFrame kind body generalizing s with
  | nil => exact ⟨_, (State.setPort_port s p).symm⟩
  | cons b rest ih =>
    obtain ⟨x, hx⟩ := receiveByte_eq_setPort s p b true
    obtain ⟨y, hy⟩ := ih (s.setPort p x)
    exact ⟨y, by rw [List.foldl_cons, hx, hy, State.setPort_setPort]⟩

theorem presented_eq_setPort (p : Port) (kind : Byte) (body : List Byte) (s : State) :
    ∃ x, presented p kind body s = s.setPort p x := by
  rw [presented]
  split
  · exact ⟨_, (State.setPort_port s p).symm⟩
  · exact receiveFrame_eq_setPort _ _ _ _

/-! ### The latches through a request row (R157) -/

theorem presented_latches (p : Port) (kind : Byte) (body : List Byte) (s : State) :
    (presented p kind body s).latches = s.latches := by
  obtain ⟨x, hx⟩ := presented_eq_setPort p kind body s
  rw [hx, State.setPort_latches]

theorem take_latches (s : State) (p : Port) : (take s p).latches = s.latches := rfl

theorem reply_latches (p : Port) (kind : Byte) (a : Answer) : (reply p kind a).latches = a.state.latches := rfl

/-- A request row changes no latch where the request's own rules change none. -/
theorem request_latches {p : Port} {kind : Byte} {body : List Byte} {answer : State → Answer}
    (h : ∀ u, (answer u).state.latches = u.latches) (s : State) : (request p kind body answer s).latches = s.latches := by
  simp only [request]
  split
  · rw [reply_latches, h, take_latches, presented_latches]
  · exact presented_latches _ _ _ _

theorem decideRequest_latches {kind : Byte} {lengthOk : Bool} {carry : State → Answer}
    (h : ∀ u, (carry u).state.latches = u.latches) (s : State) :
    (decideRequest kind lengthOk carry s).state.latches = s.latches := by
  rw [decideRequest]
  split_ifs
  · rfl
  · rfl
  · exact h s

theorem catalogued_latches {p : Port} {kind : Byte} {n : Nat} {body : List Byte} {carry : State → Answer}
    (h : ∀ u, (carry u).state.latches = u.latches) (s : State) : (catalogued p kind n body carry s).latches = s.latches :=
  request_latches (decideRequest_latches h) s

/-! ### The commands that commit set no flag (R146) -/

/-- LAMPS is refused or writes a layer (R144). -/
theorem lampsRequest_latches (p : Port) (body : List Byte) (s : State) : (lampsRequest p body s).state.latches = s.latches := by
  simp only [lampsRequest]
  cases yesNo (u8 body 2) with
  | none => rfl
  | some commit =>
    dsimp only
    split_ifs
    · rfl
    · rfl
    · exact setLayer_latches _ _ _

/-- Served or not, a LAMPS of any body changes no latch. -/
theorem exec_lamps_latches {p : Port} {body : List Byte} {s t : State} (h : exec (.lamps p body) s = .next t) :
    t.latches = s.latches := by
  obtain rfl := Host.Outcome.next.inj ((exec_lamps p body s).symm.trans h)
  exact catalogued_latches (lampsRequest_latches p body) s

theorem syncRisingEdge_latches (s : State) : (syncRisingEdge s).latches = s.latches := by
  rw [syncRisingEdge]; split <;> rfl

theorem lampFrame_latches (s : State) : (lampFrame s).latches = s.latches := by
  rw [lampFrame]; split <;> rfl

/-- Settles O57: a commit is read off buffer by buffer, the latches are followed through each command that commits, and a LAMPS of no
values is a commit alone. -/
theorem commitSwapsAndCopiesTheBuffers : Obligations.CommitSwapsAndCopiesTheBuffers := by
  refine ⟨fun x => ⟨x.commitNow_shown, x.commitNow_commit, x.commitNow_buffer⟩, fun p s t h => exec_lamps_latches h,
    fun s t h => ?edgeOrFrame, fun p s h hidle => ⟨_, exec_lamps_commit h hidle, ?layer, ?levels⟩⟩
  case edgeOrFrame =>
    obtain h | h := h
    · obtain rfl := Host.Outcome.next.inj h
      exact syncRisingEdge_latches s
    · obtain rfl := Host.Outcome.next.inj h
      exact lampFrame_latches s
  case layer => rw [okTo_lamp, setLayer_layer_self]
  case levels => rw [okTo_lamp, setLayer_lamps, take_lamp]

end Sys2Proof.Machine
end

section
/-! The event latches (R160 to R162): what one setting of a flag writes, which flags and bytes a latch reads back as, and the two
requests that write a latch and a mask whole. -/

namespace Sys2Proof.Machine

theorem otherPort_ne (p : Port) : otherPort p ≠ p := by cases p <;> exact Port.noConfusion

/-! ### One setting of a flag (R160) -/

theorem raiseFlag_clear (subject : Option Nat) (reason : Option DropReason) :
    raiseFlag none subject reason = some ⟨subject, reason, 1⟩ := rfl

theorem raiseFlag_set (r : FlagRec) (subject : Option Nat) (reason : Option DropReason) :
    raiseFlag (some r) subject reason = some { r with count := min 255 (r.count + 1) } := rfl

theorem setFlagReason_latch_self (s : State) (p : Port) (n : FlagName) (subject : Option Nat) (reason : Option DropReason) :
    (setFlagReason s p n subject reason).latch p = (s.latch p).modify n.bit fun old => raiseFlag old subject reason :=
  State.latch_setLatch_self _ _ _

theorem setFlagReason_latch_ne (s : State) {p q : Port} (n : FlagName) (subject : Option Nat) (reason : Option DropReason)
    (h : q ≠ p) : (setFlagReason s p n subject reason).latch q = s.latch q :=
  State.latch_setLatch_ne _ _ _ _ h

theorem setFlagReason_port (s : State) (p q : Port) (n : FlagName) (subject : Option Nat) (reason : Option DropReason) :
    (setFlagReason s p n subject reason).port q = s.port q := rfl

/-- The flag that is set. -/
theorem setFlagReason_get_self (s : State) (p : Port) (n : FlagName) (subject : Option Nat) (reason : Option DropReason) :
    ((setFlagReason s p n subject reason).latch p).get n.bit = raiseFlag ((s.latch p).get n.bit) subject reason := by
  rw [setFlagReason_latch_self, Table.get_modify, if_pos rfl]

/-- Any other flag of the same latch. -/
theorem setFlagReason_get_ne (s : State) (p : Port) {m n : FlagName} (subject : Option Nat) (reason : Option DropReason)
    (h : m ≠ n) : ((setFlagReason s p n subject reason).latch p).get m.bit = (s.latch p).get m.bit := by
  rw [setFlagReason_latch_self, Table.get_modify, if_neg (mt FlagName.bit_injective h)]

/-- What a setting leaves of a latch depends on that latch alone. -/
theorem setFlag_latch_congr {s t : State} {p : Port} (n : FlagName) (subject : Option Nat) (h : t.latch p = s.latch p) :
    (setFlag t p n subject).latch p = (setFlag s p n subject).latch p := by
  rw [setFlag, setFlag, setFlagReason_latch_self, setFlagReason_latch_self, h]

theorem setFlagBoth_eq (s : State) (n : FlagName) (subject : Option Nat) :
    setFlagBoth s n subject = setFlag (setFlag s .a n subject) .b n subject := rfl

/-- The two latches are set independently: each as if the flag were for its port alone. -/
theorem setFlagBoth_latch (s : State) (n : FlagName) (subject : Option Nat) (p : Port) :
    (setFlagBoth s n subject).latch p = (setFlag s p n subject).latch p := by
  rw [setFlagBoth_eq]
  cases p with
  | a => exact setFlagReason_latch_ne _ _ _ _ (otherPort_ne .b)
  | b => exact setFlag_latch_congr _ _ (setFlagReason_latch_ne _ _ _ _ (otherPort_ne .a))

/-- Settles O14: the flag that is set is raised once, whether it was clear or set; the rest is the frame of that one write. -/
theorem settingAFlagKeepsTheFirstSubjectAndCounts : Obligations.SettingAFlagKeepsTheFirstSubjectAndCounts := by
  intro p n m subject reason s t
  have hflag : (t.latch p).get n.bit = raiseFlag ((s.latch p).get n.bit) subject reason := setFlagReason_get_self _ _ _ _ _
  refine ⟨fun hclear => ?clear, fun r hset => ?set, setFlagReason_get_ne _ _ _ _, setFlagReason_latch_ne _ _ _ _ (otherPort_ne p),
    fun q => setFlagReason_port _ _ q _ _ _, setFlagBoth_latch _ _ _ _⟩
  case clear => rw [hflag, hclear, raiseFlag_clear]
  case set => rw [hflag, hset, raiseFlag_set]

/-! ### ATTN (R161) -/

theorem attnLow_iff (s : State) (p : Port) :
    attnLow s p = true ↔ ∃ i : Fin 16, ((s.latch p).get i).isSome = true ∧ (s.port p).mask.getLsbD i.val = false := by
  simp [attnLow]

/-- An empty latch has no flag to pull the line low. -/
theorem attnLow_of_latch_reset {s : State} {p : Port} (h : s.latch p = Latch.reset) : attnLow s p = false := by
  refine Bool.eq_false_iff.2 fun hlow => ?_
  obtain ⟨i, hset, -⟩ := (attnLow_iff s p).1 hlow
  rw [h, Latch.reset, Table.get_replicate] at hset
  exact absurd hset (by decide)

/-! ### The body of READ FLAGS (R162, Table 10-5) -/

/-- A sum of the values that a test picks, taken from the left. -/
theorem foldl_ite_add {α : Type} (b : α → Bool) (f : α → Nat) (l : List α) (k : Nat) :
    l.foldl (fun n i => if b i then n + f i else n) k = k + (l.map fun i => if b i then f i else 0).sum := by
  induction l generalizing k with
  | nil => rfl
  | cons i l ih =>
    rw [List.foldl_cons, ih, List.map_cons, List.sum_cons]
    split <;> omega

/-- The bitmap has the weight of each flag that is set. -/
theorem Latch.bitmap_eq_sum (x : Latch) :
    x.bitmap = ((List.finRange 16).map fun i => if (x.get i).isSome then 2 ^ i.val else 0).sum :=
  (foldl_ite_add _ _ _ _).trans (Nat.zero_add _)

theorem Latch.reset_get (i : Fin 16) : Latch.reset.get i = none := Table.get_replicate _ _

/-- An empty latch is an empty bitmap and no flag bytes. -/
theorem latchBytes_reset : latchBytes Latch.reset = [0#8, 0#8] := by
  have hbitmap : Latch.reset.bitmap = 0 := by simp [Latch.bitmap_eq_sum, Latch.reset_get]
  simp [latchBytes, hbitmap, Latch.reset_get, flagBytes, be16, byte]

/-- The reason byte of PULSE_DROPPED: EXPIRED 0, HOT 1, SUPPLY 2 (Table 10-3); FFh where the flag has none. -/
def reasonByte : Option DropReason → Byte
  | none => 0xFF#8
  | some .expired => 0#8
  | some .hot => 1#8
  | some .supply => 2#8

theorem flagBytes_clear (i : Fin 16) : flagBytes i none = [] := rfl

theorem flagBytes_set (i : Fin 16) (r : FlagRec) :
    flagBytes i (some r) =
      [natByte r.subject, byte r.count] ++ if i = FlagName.pulseDropped.bit then [reasonByte r.reason] else [] := by
  obtain ⟨subject, reason, count⟩ := r
  cases reason with
  | none => rfl
  | some d => cases d <;> rfl

/-! ### The value of SET MASK (R161): a two-byte field, high byte first (R155) -/

theorem u16_zero (hi lo : Byte) : u16 [hi, lo] 0 = hi.toNat * 256 + lo.toNat := rfl

theorem u16_zero_toNat (hi lo : Byte) : u16 [hi, lo] 0 = (hi ++ lo).toNat := by
  rw [u16_zero, BitVec.toNat_append, ← Nat.shiftLeft_add_eq_or_of_lt lo.isLt, Nat.shiftLeft_eq]

theorem ofNat_u16_zero (hi lo : Byte) : BitVec.ofNat 16 (u16 [hi, lo] 0) = hi ++ lo := by
  rw [u16_zero_toNat, BitVec.ofNat_toNat, BitVec.setWidth_eq]

/-- A two-byte field is written back as it was read. -/
theorem be16_u16_zero (hi lo : Byte) : be16 (u16 [hi, lo] 0) = [hi, lo] := by
  have hhigh : (hi.toNat * 256 + lo.toNat) / 256 = hi.toNat := by omega
  have hlow : byte (hi.toNat * 256 + lo.toNat) = lo := BitVec.eq_of_toNat_eq (by simp [byte]; omega)
  rw [u16_zero, be16, hhigh, hlow, byte_toNat]

/-! ### The two requests -/

theorem exec_setMask (p : Port) (body : List Byte) (s : State) :
    exec (.setMask p body) s = .next (catalogued p 0x20#8 2 body (setMaskRequest p body) s) := rfl

theorem setMaskRequest_eq (p : Port) (hi lo : Byte) (s : State) :
    setMaskRequest p [hi, lo] s = .okWith (s.setPort p { s.port p with mask := hi ++ lo }) [hi, lo] := by
  rw [setMaskRequest, ofNat_u16_zero, be16_u16_zero]

/-- A ready SET MASK has no check to pass (R161). -/
theorem exec_setMask_ready {p : Port} {hi lo : Byte} {s : State} (h : Ready p 0x20#8 [hi, lo] s) :
    exec (.setMask p [hi, lo]) s =
      .next (okTo p 0x20#8 ((take s p).setPort p { (take s p).port p with mask := hi ++ lo }) [hi, lo]) := by
  rw [exec_setMask, catalogued_ready (n := 2) _ h rfl, setMaskRequest_eq, okTo]

theorem exec_readFlags (p : Port) (body : List Byte) (s : State) :
    exec (.readFlags p body) s = .next (catalogued p 0x1F#8 0 body (readFlagsRequest p) s) := rfl

theorem take_latch (s : State) (p q : Port) : (take s p).latch q = s.latch q := rfl

/-- A ready READ FLAGS answers with the latch that the engine found, and empties it (R162). -/
theorem exec_readFlags_ready {p : Port} {s : State} (h : Ready p 0x1F#8 [] s) :
    exec (.readFlags p []) s = .next (okTo p 0x1F#8 ((take s p).setLatch p Latch.reset) (latchBytes (s.latch p))) := by
  rw [exec_readFlags, catalogued_ready (n := 0) _ h rfl, readFlagsRequest, take_latch, okTo]

/-- Settles O15: each clause is the law of its own operation; the reply body is compared flag by flag. -/
theorem setMaskAndReadFlags : Obligations.SetMaskAndReadFlags := by
  refine ⟨rfl, fun p hi lo s h => exec_setMask_ready h,
    fun p s h => ⟨exec_readFlags_ready h, State.latch_setLatch_ne _ _ _ _ (otherPort_ne p)⟩,
    fun p s => attnLow_iff s p, fun p s => attnLow_of_latch_reset (State.latch_setLatch_self _ _ _),
    Latch.reset_get, latchBytes_reset, fun x => ?body, fun n => rfl⟩
  case body =>
    rw [latchBytes, Latch.bitmap_eq_sum]
    congr 1
    refine List.flatMap_congr fun i _ => ?_
    cases x.get i with
    | none => exact flagBytes_clear i
    | some r =>
      rw [flagBytes_set]
      obtain ⟨subject, reason, count⟩ := r
      cases subject <;> rfl

end Sys2Proof.Machine
end

section
/-! Every command leads to a next state (logs 27, 31), and every step from a safe state leaves a safe state: the law of each command's
operation, collected over the rows of the table. -/

namespace Sys2Proof.Machine

/-- The command leads from `s` to a next state of which `P` holds. -/
def Leads (c : Instr) (s : State) (P : State → Prop) : Prop := ∃ t, exec c s = .next t ∧ P t

/-- A command has one next state, so what it leads to holds of that one. -/
theorem Leads.elim {c : Instr} {s t : State} {P : State → Prop} (h : Leads c s P) (ht : exec c s = .next t) : P t := by
  obtain ⟨u, hu, hP⟩ := h
  obtain rfl := Host.Outcome.next.inj (hu.symm.trans ht)
  exact hP

theorem Leads.mono {c : Instr} {s : State} {P Q : State → Prop} (h : Leads c s P) (hPQ : ∀ t, P t → Q t) : Leads c s Q := by
  obtain ⟨t, ht, hP⟩ := h
  exact ⟨t, ht, hPQ t hP⟩

/-! ### The step (log 3) -/

theorem step_of_cons {c : Instr} {rest : List Instr} {s : State} (h : s.pending = c :: rest) :
    step s = exec c { s with pending := rest } := by
  rw [step, h]

theorem step_of_nil {s : State} (h : s.pending = []) : step s = .next s := by rw [step, h]

/-- An invariant that no command breaks and that does not speak of the queue of commands is kept by every step. -/
theorem step_keeps {P : State → Prop} (hpending : ∀ s l, P s → P { s with pending := l }) (hexec : ∀ c s, P s → Leads c s P)
    {s t : State} (h : P s) (ht : step s = .next t) : P t := by
  cases hq : s.pending with
  | nil =>
    obtain rfl := Host.Outcome.next.inj ((step_of_nil hq).symm.trans ht)
    exact h
  | cons c rest => exact (hexec c _ (hpending s rest h)).elim ((step_of_cons hq).symm.trans ht)

/-! ### Safety (O4) -/

/-- Every command keeps a safe state safe: coil work by its own law, every other operation by that of `Safe`. -/
theorem leads_safe (c : Instr) {s : State} (h : Safe s) : Leads c s Safe :=
  match c with
  | .powerOnReset => ⟨_, rfl, h.powerOnReset⟩
  | .pinReset => ⟨_, rfl, h.warmReset⟩
  | .profileLoadEnd => ⟨_, rfl, h.profileLoadEnd⟩
  | .saveComplete => ⟨_, rfl, h.saveComplete⟩
  | .frameReceived p check stop => ⟨_, rfl, h.receiveByte p check stop⟩
  | .interByteGapTimeout p => ⟨_, rfl, h.interByteGapTimeout p⟩
  | .replySent p => ⟨_, rfl, h.replySent p⟩
  | .unknownKindRequest p kind body => ⟨_, rfl, h.unknownKindRequest p kind body⟩
  | .ping p body => ⟨_, rfl, h.catalogued p _ _ body fun _ hu _ => hu⟩
  | .pulse p body => ⟨_, rfl, h.catalogued p _ _ body fun _ hu hl => (CoilWork.pulseRequest body hl).safe hu⟩
  | .holdOn p body => ⟨_, rfl, h.catalogued p _ _ body fun _ hu hl => (CoilWork.holdRequest body hl).safe hu⟩
  | .holdOff p body => ⟨_, rfl, h.catalogued p _ _ body fun _ hu hl => (CoilWork.holdRequest body hl).safe hu⟩
  | .disableChannel p body => ⟨_, rfl, h.catalogued p _ _ body fun u hu _ => (CoilWork.disableChannelRequest body u).safe hu⟩
  | .enableChannel p body => ⟨_, rfl, h.catalogued p _ _ body fun u hu _ => (CoilWork.enableChannelRequest body u).safe hu⟩
  | .configureCoil p body => ⟨_, rfl, h.catalogued p _ _ body fun _ hu _ => hu.configureCoilRequest body⟩
  | .enableGroup p body => ⟨_, rfl, h.catalogued p _ _ body fun _ hu _ => hu.enableGroupRequest p body⟩
  | .configureSupply p body => ⟨_, rfl, h.catalogued p _ _ body fun _ hu _ => hu.configureSupplyRequest body⟩
  | .readHeat p body => ⟨_, rfl, h.catalogued p _ _ body fun u hu _ => (readHeatRequest_state body u).symm ▸ hu⟩
  | .clearStats p body => ⟨_, rfl, h.catalogued p _ _ body fun u hu _ => (CoilWork.clearStatsRequest body u).safe hu⟩
  | .configureFlipper p body => ⟨_, rfl, h.catalogued p _ _ body fun _ hu _ => hu.configureFlipperRequest body⟩
  | .readFlipper p body => ⟨_, rfl, h.catalogued p _ _ body fun u hu _ => (readFlipperRequest_state body u).symm ▸ hu⟩
  | .configureLink p body => ⟨_, rfl, h.catalogued p _ _ body fun _ hu _ => hu.configureLinkRequest body⟩
  | .readLink p body => ⟨_, rfl, h.catalogued p _ _ body fun u hu _ => (readLinkRequest_state body u).symm ▸ hu⟩
  | .step p body => ⟨_, rfl, h.catalogued p _ _ body fun _ hu hl => (CoilWork.stepRequest body hl).safe hu⟩
  | .stopStepper p body => ⟨_, rfl, h.catalogued p _ _ body fun u hu _ => (CoilWork.stopStepperRequest body u).safe hu⟩
  | .home p body => ⟨_, rfl, h.catalogued p _ _ body fun _ hu hl => (CoilWork.homeRequest body hl).safe hu⟩
  | .setPosition p body => ⟨_, rfl, h.catalogued p _ _ body fun u hu _ => (CoilWork.setPositionRequest body u).safe hu⟩
  | .readStepper p body => ⟨_, rfl, h.catalogued p _ _ body fun u hu _ => (readStepperRequest_state body u).symm ▸ hu⟩
  | .configureStepper p body => ⟨_, rfl, h.catalogued p _ _ body fun _ hu _ => hu.configureStepperRequest body⟩
  | .configureBank p body => ⟨_, rfl, h.catalogued p _ _ body fun _ hu _ => hu.configureBankRequest body⟩
  | .addScore p body => ⟨_, rfl, h.catalogued p _ _ body fun _ hu hl => (CoilWork.addScoreRequest body hl).safe hu⟩
  | .readBank p body => ⟨_, rfl, h.catalogued p _ _ body fun u hu _ => (readBankRequest_state body u).symm ▸ hu⟩
  | .configureSwitch p body => ⟨_, rfl, h.catalogued p _ _ body fun _ hu _ => hu.configureSwitchRequest body⟩
  | .readSwitches p body => ⟨_, rfl, h.catalogued p _ _ body fun _ hu _ => hu⟩
  | .readEvents p body => ⟨_, rfl, h.catalogued p _ _ body fun _ hu _ => hu.readEventsRequest p⟩
  | .lamps p body => ⟨_, rfl, h.catalogued p _ _ body fun _ hu _ => hu.lampsRequest p body⟩
  | .lampCommit p body => ⟨_, rfl, h.catalogued p _ _ body fun _ hu _ => hu.lampCommitRequest p body⟩
  | .configureLamp p body => ⟨_, rfl, h.catalogued p _ _ body fun _ hu _ => hu.configureLampRequest body⟩
  | .readLamps p body => ⟨_, rfl, h.catalogued p _ _ body fun _ hu _ => hu⟩
  | .readFlags p body => ⟨_, rfl, h.catalogued p _ _ body fun _ hu _ => hu.readFlagsRequest p⟩
  | .setMask p body => ⟨_, rfl, h.catalogued p _ _ body fun _ hu _ => hu.setMaskRequest p body⟩
  | .configurePort p body => ⟨_, rfl, h.catalogued p _ _ body fun _ hu _ => hu.configurePortRequest p body⟩
  | .resetPart p body => ⟨_, rfl, h.catalogued p _ _ body fun _ hu _ => hu⟩
  | .saveProfile p body => ⟨_, rfl, h.catalogued p _ _ body fun _ hu _ => hu.saveProfileRequest p⟩
  | .readConfig p body => ⟨_, rfl, h.catalogued p _ _ body fun u hu _ => (readConfigRequest_state body u).symm ▸ hu⟩
  | .livenessExpiry p => ⟨_, rfl, h.livenessExpiry p⟩
  | .ilkRawChange closed => ⟨_, rfl, h.ilkRawChange closed⟩
  | .ilkDebouncedClose => ⟨_, rfl, h.ilkDebouncedClose⟩
  | .ilkDebouncedOpen => ⟨_, rfl, h.ilkDebouncedOpen⟩
  | .settleExpiry => ⟨_, rfl, h.settleExpiry⟩
  | .partTimeTick => ⟨_, rfl, h.partTimeTick⟩
  | .switchRawChange sw low => ⟨_, rfl, h.switchRawChange sw low⟩
  | .switchDebounceExpiry sw => ⟨_, rfl, h.switchDebounceExpiry sw⟩
  | .flipperEffectiveMinReached f => ⟨_, rfl, (CoilWork.flipperMinReached f s).safe h⟩
  | .lockoutExpiry k => ⟨_, rfl, (CoilWork.lockoutExpiry k s).safe h⟩
  | .syncRawChange high => ⟨_, rfl, h.syncRawChange high⟩
  | .syncRisingEdge => ⟨_, rfl, h.syncRisingEdge⟩
  | .lampFrame => ⟨_, rfl, h.lampFrame⟩
  | .coolingInterval => ⟨_, rfl, h.coolingInterval⟩
  | .driveEnd c => ⟨_, rfl, (CoilWork.driveEnd c s).safe h⟩
  | .recoveryGapExpiry c => ⟨_, rfl, (CoilWork.recoveryGapExpiry c s).safe h⟩
  | .spacingExpiry t => ⟨_, rfl, (CoilWork.spacingExpiry t s).safe h⟩
  | .deadlineExpiry c => ⟨_, rfl, (CoilWork.deadlineExpiry c s).safe h⟩
  | .byteReceived p byte stop => ⟨_, rfl, h.receiveByte p byte stop⟩
  | .syncDebouncedFall => ⟨_, rfl, h.syncDebouncedFall⟩

/-- Settles O4: no command breaks safety, and safety does not speak of the queue of commands. -/
theorem everyStepKeepsTheStateSafe : Obligations.EveryStepKeepsTheStateSafe :=
  fun _ _ => step_keeps (fun _ l h => h.setPending l) fun c _ => leads_safe c

/-- Settles O1: the step is read off its definition at the front of the queue. -/
theorem stepServesTheFrontCommand : Obligations.StepServesTheFrontCommand :=
  ⟨fun _ _ _ => step_of_cons, fun _ => step_of_nil⟩

/-- Settles O5: the general load stands within its pool, and every flipper load is at most its channel's weight, whose sum over the
FLIPPER-class channels is within F. -/
theorem safeLoadsStayWithinTheBudget : Obligations.SafeLoadsStayWithinTheBudget := by
  intro s h
  have hgeneral : s.arb.general ≤ s.supply.cfg.budget - s.supply.cfg.reserve := h.pool
  have hflipper : s.arb.flipper ≤ s.supply.cfg.reserve := by
    refine Nat.le_trans ?_ h.weights
    rw [h.flipper, flipperLoads, flipperWeights]
    refine List.sum_le_sum fun c _ => ?_
    have hload := load_le_weight (s.chan c) (h.duty c).2
    rw [Channel.flipperLoad, CoilRecord.flipperWeight]
    split
    · exact hload
    · exact Nat.le_refl 0
  refine ⟨hgeneral, hflipper, ?_⟩
  rw [← h.general, ← h.flipper]
  have hreserve := h.reserve
  omega

end Sys2Proof.Machine
end

section
/-! What a command does without writing a configuration record and without giving anything to a LAPSED port: the operations outside
coil work, each by a law of its own, and the rows of the table that are made of them. -/

namespace Sys2Proof.Machine

/-- The queue of commands and the part's state stay as they are, and so do which ports are LIVE and the groups' claims; claims are
added for LIVE ports alone, and the queue and the layer of a port that is not LIVE stay as they are (a layer while it is not armed). -/
structure Accounts (s t : State) : Prop where
  pending : t.pending = s.pending
  part : t.part.state = s.part.state
  live : ∀ p, (t.port p).live = (s.port p).live
  claimed : ∀ c p, (t.chan c).claims.has p = true → (s.chan c).claims.has p = true ∨ (s.port p).live = true
  flipClaims : t.supply.flipClaims = s.supply.flipClaims
  directClaims : t.supply.directClaims = s.supply.directClaims
  queues : ∀ p, (s.port p).live = false → t.sw.queues.get p = s.sw.queues.get p
  layers : ∀ p, (s.port p).live = false → (s.lamp.layers.get p).commit = .idle → t.lamp.layers.get p = s.lamp.layers.get p

/-- Beyond that, no configuration record is written and the store stays as it is. -/
structure Quiet (s t : State) : Prop where
  accounts : Accounts s t
  profile : workingProfile t = workingProfile s
  store : t.store = s.store

namespace Accounts

variable {s : State}

theorem trans {s t u : State} (h : Accounts s t) (g : Accounts t u) : Accounts s u where
  pending := g.pending.trans h.pending
  part := g.part.trans h.part
  live p := (g.live p).trans (h.live p)
  claimed c p hc := by
    obtain hc | hl := g.claimed c p hc
    · exact h.claimed c p hc
    · exact .inr ((h.live p).symm.trans hl)
  flipClaims := g.flipClaims.trans h.flipClaims
  directClaims := g.directClaims.trans h.directClaims
  queues p hp := (g.queues p ((h.live p).trans hp)).trans (h.queues p hp)
  layers p hp hidle := by
    have hst := h.layers p hp hidle
    exact (g.layers p ((h.live p).trans hp) ((congrArg Layer.commit hst).trans hidle)).trans hst

/-- Claims removed at most, and of the rest what the hypotheses say. -/
theorem of_same {s t : State} (hpending : t.pending = s.pending := by rfl) (hpart : t.part.state = s.part.state := by rfl)
    (hlive : ∀ p, (t.port p).live = (s.port p).live := by exact fun _ => rfl)
    (hclaims : ∀ c p, (t.chan c).claims.has p = true → (s.chan c).claims.has p = true := by exact fun _ _ h => h)
    (hflip : t.supply.flipClaims = s.supply.flipClaims := by rfl)
    (hdirect : t.supply.directClaims = s.supply.directClaims := by rfl)
    (hqueues : ∀ p, (s.port p).live = false → t.sw.queues.get p = s.sw.queues.get p := by exact fun _ _ => rfl)
    (hlayers : ∀ p, (s.port p).live = false → (s.lamp.layers.get p).commit = .idle →
      t.lamp.layers.get p = s.lamp.layers.get p := by exact fun _ _ _ => rfl) : Accounts s t :=
  ⟨hpending, hpart, hlive, fun c p hc => .inl (hclaims c p hc), hflip, hdirect, hqueues, hlayers⟩

theorem refl (s : State) : Accounts s s := of_same

theorem foldl {α : Type} {f : State → α → State} (h : ∀ s a, Accounts s (f s a)) (l : List α) (s : State) :
    Accounts s (l.foldl f s) := by
  induction l generalizing s with
  | nil => exact refl s
  | cons a l ih => exact (h s a).trans (ih (f s a))

end Accounts

/-- Coil work writes no record and gives a claim to a LIVE port alone. -/
theorem CoilWork.quiet {s t : State} (h : CoilWork s t) : Quiet s t where
  accounts := {
    pending := h.pending
    part := congrArg Part.state h.part
    live := fun p => congrArg PortRec.live (congrArg (PerPort.get · p) h.ports)
    claimed := h.claimed
    flipClaims := congrArg SupplyMonitor.flipClaims h.supply
    directClaims := congrArg SupplyMonitor.directClaims h.supply
    queues := fun p _ => congrArg (fun u : SwitchUnit => u.queues.get p) h.sw
    layers := fun p _ _ => congrArg (fun u : LampUnit => u.layers.get p) h.lamp }
  profile := h.profile
  store := h.store

namespace Quiet

variable {s : State}

theorem refl (s : State) : Quiet s s := (CoilWork.refl s).quiet

theorem trans {s t u : State} (h : Quiet s t) (g : Quiet t u) : Quiet s u :=
  ⟨h.accounts.trans g.accounts, g.profile.trans h.profile, g.store.trans h.store⟩

theorem of_eq {s t : State} (h : t = s) : Quiet s t := h ▸ refl s

theorem foldl {α : Type} {f : State → α → State} (h : ∀ s a, Quiet s (f s a)) (l : List α) (s : State) : Quiet s (l.foldl f s) := by
  induction l generalizing s with
  | nil => exact refl s
  | cons a l ih => exact (h s a).trans (ih (f s a))

/-- The accounts kept, no record written and the store as it was. -/
theorem of_same {s t : State} (h : Accounts s t := by exact Accounts.of_same)
    (hprofile : workingProfile t = workingProfile s := by rfl) (hstore : t.store = s.store := by rfl) : Quiet s t :=
  ⟨h, hprofile, hstore⟩

/-! ### One record of the state replaced -/

theorem setPort {p : Port} {x : PortRec} (h : x.live = (s.port p).live) : Quiet s (s.setPort p x) :=
  of_same (.of_same (hlive := fun q => by
    by_cases e : q = p
    · subst e; rw [State.port_setPort_self, h]
    · rw [State.port_setPort_ne _ _ _ _ e]))

theorem setSupply {m : SupplyMonitor} (hcfg : m.cfg = s.supply.cfg) (hflip : m.flipClaims = s.supply.flipClaims)
    (hdirect : m.directClaims = s.supply.directClaims) : Quiet s (s.setSupply m) :=
  of_same (.of_same (hflip := hflip) (hdirect := hdirect)) (by simp only [workingProfile, State.setSupply_supply, hcfg]; rfl)

theorem setLatch (p : Port) (x : Latch) : Quiet s (s.setLatch p x) := of_same

theorem setOrders (n : Nat) : Quiet s { s with orders := n } := of_same

theorem setSw {u : SwitchUnit} (hinputs : u.inputs.map SwitchInput.cfg = s.sw.inputs.map SwitchInput.cfg)
    (hqueues : ∀ p, (s.port p).live = false → u.queues.get p = s.sw.queues.get p) : Quiet s (s.setSw u) :=
  of_same (.of_same (hqueues := hqueues)) (by simp only [workingProfile, State.setSw_sw, hinputs]; rfl)

theorem setInput {w : SwitchId} {x : SwitchInput} (h : x.cfg = (s.input w).cfg) : Quiet s (s.setInput w x) := by
  refine setSw (Table.ext_get fun i => ?_) fun _ _ => rfl
  rw [Table.get_map, Table.get_map, Table.get_set]
  split
  · rename_i e; rw [e, h]; rfl
  · rfl

/-- The queue of a LIVE port is replaced. -/
theorem setQueue {p : Port} (h : (s.port p).live = true) (q : EventQueue) : Quiet s (setQueue s p q) :=
  setSw rfl fun r hr => PerPort.get_set_ne _ _ _ _ fun e => by subst e; rw [h] at hr; cases hr

theorem setLamp {u : LampUnit} (hlamps : u.lamps.map Lamp.cfg = s.lamp.lamps.map Lamp.cfg) (hbudget : u.budget = s.lamp.budget)
    (hlayers : ∀ p, (s.port p).live = false → (s.lamp.layers.get p).commit = .idle → u.layers.get p = s.lamp.layers.get p) :
    Quiet s (s.setLamp u) :=
  of_same (.of_same (hlayers := hlayers)) (by simp only [workingProfile, State.setLamp_lamp, hlamps, hbudget]; rfl)

/-- The layer of a LIVE port is replaced. -/
theorem setLayer {p : Port} (h : (s.port p).live = true) (x : Layer) : Quiet s (setLayer s p x) :=
  setLamp rfl rfl fun r hr _ => PerPort.get_set_ne _ _ _ _ fun e => by subst e; rw [h] at hr; cases hr

theorem setFlagPorts (s : State) (ps : PortSet) (n : FlagName) (subject : Option Nat) : Quiet s (setFlagPorts s ps n subject) := by
  unfold Machine.setFlagPorts
  dsimp only
  split_ifs
  · exact (setLatch _ _).trans (setLatch _ _)
  · exact setLatch _ _
  · exact setLatch _ _
  · exact refl s

theorem setFlagBoth (s : State) (n : FlagName) (subject : Option Nat) : Quiet s (setFlagBoth s n subject) := setFlagPorts _ _ _ _

/-! ### Receivers (R156) -/

theorem countLinkError (s : State) (p : Port) : Quiet s (countLinkError s p) := setPort rfl

theorem clearAssembly (s : State) (p : Port) : Quiet s (clearAssembly s p) := setPort rfl

theorem assemble (s : State) (p : Port) (bytes : List Byte) : Quiet s (assemble s p bytes) := setPort rfl

theorem abandonFrame (s : State) (p : Port) : Quiet s (abandonFrame s p) := (clearAssembly s p).trans (countLinkError _ p)

theorem completeFrame (s : State) (p : Port) (asm : List Byte) (check : Byte) : Quiet s (completeFrame s p asm check) := by
  unfold Machine.completeFrame
  dsimp only
  refine (clearAssembly s p).trans ?_
  split_ifs
  · exact countLinkError _ p
  · exact countLinkError _ p
  · exact setPort rfl

theorem receiveByte (s : State) (p : Port) (b : Byte) (stop : Bool) : Quiet s (receiveByte s p b stop) := by
  unfold Machine.receiveByte
  dsimp only
  split_ifs
  · exact refl s
  · exact assemble s p _
  · exact countLinkError s p
  · exact refl s
  · exact abandonFrame s p
  · exact abandonFrame s p
  · exact assemble s p _
  · exact assemble s p _
  · exact completeFrame s p _ _

theorem presented (p : Port) (kind : Byte) (body : List Byte) (s : State) : Quiet s (presented p kind body s) := by
  unfold Machine.presented
  split
  · exact refl s
  · exact foldl (fun s b => receiveByte s p b true) _ s

theorem interByteGapTimeout (p : Port) (s : State) : Quiet s (interByteGapTimeout p s) := by
  unfold Machine.interByteGapTimeout
  split
  · exact abandonFrame s p
  · exact refl s

/-! ### Supply and groups (chapter 2) -/

theorem recomputeGroups (s : State) : Quiet s (recomputeGroups s) := by
  unfold Machine.recomputeGroups
  dsimp only
  split
  · exact setSupply rfl rfl rfl
  · refine .trans ?_ (CoilWork.foldl CoilWork.flipperTest _ _).quiet
    exact setSupply rfl rfl rfl

theorem enterUp (s : State) : Quiet s (enterUp s) := by
  unfold Machine.enterUp
  dsimp only
  refine .trans ?_ (recomputeGroups _)
  refine .trans ?_ (CoilWork.foldl (fun s t => (CoilWork.stepTest s t).trans (.settle _)) _ _).quiet
  refine .trans ?_ (CoilWork.foldl (fun s c => (CoilWork.pullInTest s c).trans (.settle _)) _ _).quiet
  refine .trans ?_ (CoilWork.attemptNow _).quiet
  refine .trans ?_ (setFlagBoth _ _ _)
  exact setSupply rfl rfl rfl

theorem loseSupply (channels : List ChannelId) (order : List Entry → List Entry) (s : State) :
    Quiet s (loseSupply channels order s) := by
  unfold Machine.loseSupply
  dsimp only
  refine .trans ?_ (CoilWork.settle _).quiet
  refine .trans ?_ (recomputeGroups _)
  refine .trans ?_ (CoilWork.emptyWaitList _ _).quiet
  refine .trans ?_ (CoilWork.foldl CoilWork.loseSupplyAt _ _).quiet
  refine .trans ?_ (setFlagBoth _ _ _)
  exact setSupply rfl rfl rfl

theorem supplyLoss (s : State) : Quiet s (supplyLoss s) := (setOrders _).trans (loseSupply _ _ _)

theorem ilkRawChange (closed : Bool) (s : State) : Quiet s (ilkRawChange closed s) := by
  unfold Machine.ilkRawChange
  dsimp only
  split
  · exact refl s
  · exact setSupply rfl rfl rfl

theorem ilkDebouncedClose (s : State) : Quiet s (ilkDebouncedClose s) := by
  unfold Machine.ilkDebouncedClose
  dsimp only
  split_ifs
  · refine .trans ?_ (enterUp _)
    exact setSupply rfl rfl rfl
  · exact setSupply rfl rfl rfl
  · exact refl s

theorem ilkDebouncedOpen (s : State) : Quiet s (ilkDebouncedOpen s) := by
  unfold Machine.ilkDebouncedOpen
  dsimp only
  have opened : Quiet s (s.setSupply { s.supply with ilkClosed := false, ilkTimer := none }) := setSupply rfl rfl rfl
  split
  · refine opened.trans ?_
    split
    · exact supplyLoss _
    · refine .trans ?_ (setFlagBoth _ _ _)
      exact setSupply rfl rfl rfl
    · exact refl _
  · exact refl s

theorem settleExpiry (s : State) : Quiet s (settleExpiry s) := by
  unfold Machine.settleExpiry
  split
  · exact enterUp s
  · exact refl s

/-! ### Switches, queues and SYNC (chapter 8) -/

theorem appendEvent {p : Port} (h : (s.port p).live = true) (w : SwitchId) (closed : Bool) : Quiet s (appendEvent s p w closed) := by
  unfold Machine.appendEvent
  dsimp only
  split_ifs
  · exact (setQueue h _).trans (setLatch _ _)
  · exact setQueue h _
  · exact (setQueue h _).trans (setLatch _ _)

theorem reportEvent (w : SwitchId) (closed : Bool) (s : State) (p : Port) : Quiet s (reportEvent w closed s p) := by
  unfold Machine.reportEvent
  split
  · rename_i h
    exact appendEvent (Bool.and_eq_true_iff.1 h).2 w closed
  · exact refl s

theorem deliver (w : SwitchId) (closed : Bool) (s : State) : Quiet s (deliver w closed s) := by
  unfold Machine.deliver deliverIn
  dsimp only
  refine .trans ?_ (foldl (reportEvent w closed) _ _)
  refine .trans ?_ (CoilWork.foldl (CoilWork.linkSwitch w closed) _ _).quiet
  exact (setOrders _).trans (CoilWork.foldl (CoilWork.flipperSwitch w closed) _ _).quiet

theorem switchRawChange (w : SwitchId) (low : Bool) (s : State) : Quiet s (switchRawChange w low s) := by
  unfold Machine.switchRawChange
  dsimp only
  split
  · exact refl s
  · exact setInput rfl

theorem switchDebounceExpiry (w : SwitchId) (s : State) : Quiet s (switchDebounceExpiry w s) := by
  unfold Machine.switchDebounceExpiry
  dsimp only
  split
  · refine .trans ?_ (deliver _ _ _)
    exact setInput rfl
  · exact refl s

theorem syncRawChange (high : Bool) (s : State) : Quiet s (syncRawChange high s) := by
  unfold Machine.syncRawChange
  dsimp only
  split
  · exact refl s
  · exact setSw rfl fun _ _ => rfl

theorem syncDebouncedFall (s : State) : Quiet s (syncDebouncedFall s) := by
  unfold Machine.syncDebouncedFall
  split
  · exact setSw rfl fun _ _ => rfl
  · exact refl s

/-! ### Lamps (chapter 9) -/

/-- A layer that is not armed is not committed. -/
theorem commitIf_of_idle {x : Layer} {armed : CommitState} (h : x.commit = .idle) (ha : armed ≠ .idle) : x.commitIf armed = x :=
  if_neg fun e => ha (e.symm.trans h)

theorem syncRisingEdge (s : State) : Quiet s (syncRisingEdge s) := by
  unfold Machine.syncRisingEdge
  split
  · refine (setSw (u := { s.sw with syncHigh := true, syncTimer := none }) rfl fun _ _ => rfl).trans (setLamp rfl rfl fun p _ hidle => ?_)
    rw [PerPort.get_map]
    exact commitIf_of_idle hidle (by decide)
  · exact refl s

theorem image_cfgs (u : LampUnit) : u.image.lamps.map Lamp.cfg = u.lamps.map Lamp.cfg :=
  Table.ext_get fun l => by simp [LampUnit.image, rampedLamps]

theorem image_layers (u : LampUnit) (p : Port) : u.image.layers.get p = (u.layers.get p).commitIf .armedFrame := by
  cases p <;> rfl

theorem lampFrame (s : State) : Quiet s (lampFrame s) := by
  unfold Machine.lampFrame
  split
  · refine setLamp (image_cfgs s.lamp) rfl fun p _ hidle => ?_
    exact (image_layers s.lamp p).trans (commitIf_of_idle hidle (by decide))
  · exact refl s

/-! ### The cooling interval (R62) -/

theorem coolingInterval (s : State) : Quiet s (coolingInterval s) := by
  unfold Machine.coolingInterval
  split
  · have restarted : Quiet s { s with coolTimer := some Config.coolingInterval, orders := s.orders + 1 } := of_same
    exact restarted.trans (CoilWork.coolAll _ _).quiet
  · exact refl s

/-! ### Requests of the sender's own port, layer and queue -/

theorem lampsRequest {p : Port} (body : List Byte) (h : (s.port p).live = true) : Quiet s (lampsRequest p body s).state := by
  unfold Machine.lampsRequest
  dsimp only
  split
  · exact refl s
  · split_ifs
    · exact refl s
    · exact refl s
    · exact setLayer h _

theorem lampCommitRequest {p : Port} (body : List Byte) (h : (s.port p).live = true) : Quiet s (lampCommitRequest p body s).state := by
  unfold Machine.lampCommitRequest
  dsimp only
  split
  · exact refl s
  · split_ifs
    · exact refl s
    · exact setLayer h _

theorem readEventsRequest {p : Port} (h : (s.port p).live = true) : Quiet s (readEventsRequest p s).state := setQueue h _

theorem configurePortRequest (p : Port) (body : List Byte) (s : State) : Quiet s (configurePortRequest p body s).state := by
  unfold Machine.configurePortRequest
  split
  · exact refl s
  · exact setPort rfl

end Quiet

end Sys2Proof.Machine
end

section
/-! The rows of the table: what each request's own rules are, which commands are quiet, and the invariants that quiet commands and the
engine's take keep. -/

namespace Sys2Proof.Machine

/-- What a request row of Table 10-2 answers by its own rules; a command of another row has none. -/
def ownRules : Instr → State → Answer
  | .ping p _ => pingRequest p
  | .pulse p b => pulseRequest p b
  | .holdOn p b => holdRequest p b
  | .holdOff p b => holdRequest p b
  | .disableChannel _ b => disableChannelRequest b
  | .enableChannel _ b => enableChannelRequest b
  | .configureCoil _ b => configureCoilRequest b
  | .enableGroup p b => enableGroupRequest p b
  | .configureSupply _ b => configureSupplyRequest b
  | .readHeat _ b => readHeatRequest b
  | .clearStats _ b => clearStatsRequest b
  | .configureFlipper _ b => configureFlipperRequest b
  | .readFlipper _ b => readFlipperRequest b
  | .configureLink _ b => configureLinkRequest b
  | .readLink _ b => readLinkRequest b
  | .step p b => stepRequest p b
  | .stopStepper _ b => stopStepperRequest b
  | .home p b => homeRequest p b
  | .setPosition _ b => setPositionRequest b
  | .readStepper _ b => readStepperRequest b
  | .configureStepper _ b => configureStepperRequest b
  | .configureBank _ b => configureBankRequest b
  | .addScore p b => addScoreRequest p b
  | .readBank _ b => readBankRequest b
  | .configureSwitch _ b => configureSwitchRequest b
  | .readSwitches _ _ => readSwitchesRequest
  | .readEvents p _ => readEventsRequest p
  | .lamps p b => lampsRequest p b
  | .lampCommit p b => lampCommitRequest p b
  | .configureLamp _ b => configureLampRequest b
  | .readLamps _ _ => readLampsRequest
  | .readFlags p _ => readFlagsRequest p
  | .setMask p b => setMaskRequest p b
  | .configurePort p b => configurePortRequest p b
  | .resetPart _ _ => resetPartRequest
  | .saveProfile p _ => saveProfileRequest p
  | .readConfig _ b => readConfigRequest b
  | _ => fun s => .refuse s .malformed

/-- A request row is served by the engine with its own rules. -/
theorem exec_requestLine {c : Instr} {p : Port} {kind : Byte} {n : Nat} {body : List Byte}
    (h : requestLine c = some (p, kind, n, body)) (s : State) :
    exec c s = .next (catalogued p kind n body (ownRules c) s) := by
  cases c <;> cases h <;> rfl

/-- The rows that write no record, leave the store and every group's claims as they are, and take no port's liveness. -/
def quietCommand : Instr → Bool
  | .enableGroup _ _ => false
  | .saveProfile _ _ => false
  | .saveComplete => false
  | .partTimeTick => false
  | .livenessExpiry _ => false
  | c => !writesRecords c

/-- The own rules of a quiet request are quiet, once the take has made its sender LIVE. -/
theorem ownRules_quiet {c : Instr} {p : Port} {kind : Byte} {n : Nat} {body : List Byte} {s : State}
    (hline : requestLine c = some (p, kind, n, body)) (hq : quietCommand c = true) (hl : (s.port p).live = true) :
    Quiet s (ownRules c s).state := by
  cases c <;> cases hline <;> try cases hq
  case ping => exact .refl s
  case pulse => exact (CoilWork.pulseRequest _ hl).quiet
  case holdOn => exact (CoilWork.holdRequest _ hl).quiet
  case holdOff => exact (CoilWork.holdRequest _ hl).quiet
  case disableChannel => exact (CoilWork.disableChannelRequest _ s).quiet
  case enableChannel => exact (CoilWork.enableChannelRequest _ s).quiet
  case readHeat => exact .of_eq (readHeatRequest_state _ s)
  case clearStats => exact (CoilWork.clearStatsRequest _ s).quiet
  case readFlipper => exact .of_eq (readFlipperRequest_state _ s)
  case readLink => exact .of_eq (readLinkRequest_state _ s)
  case step => exact (CoilWork.stepRequest _ hl).quiet
  case stopStepper => exact (CoilWork.stopStepperRequest _ s).quiet
  case home => exact (CoilWork.homeRequest _ hl).quiet
  case setPosition => exact (CoilWork.setPositionRequest _ s).quiet
  case readStepper => exact .of_eq (readStepperRequest_state _ s)
  case addScore => exact (CoilWork.addScoreRequest _ hl).quiet
  case readBank => exact .of_eq (readBankRequest_state _ s)
  case readSwitches => exact .refl s
  case readEvents => exact .readEventsRequest hl
  case lamps => exact .lampsRequest _ hl
  case lampCommit => exact .lampCommitRequest _ hl
  case readLamps => exact .refl s
  case readFlags => exact .setLatch _ _
  case setMask => exact .setPort rfl
  case configurePort => exact .configurePortRequest _ _ s
  case resetPart => exact .refl s
  case readConfig => exact .of_eq (readConfigRequest_state _ s)

/-! ### What quiet work and the engine's take keep -/

/-- A property that no quiet work breaks, nor the engine's take. -/
structure Lasting (P : State → Prop) : Prop where
  quiet : ∀ {s t}, Quiet s t → P s → P t
  take : ∀ {s} (p : Port), P s → P (take s p)

namespace Lasting

variable {P : State → Prop} {s : State}

/-- The reply is written in the sender's port record. -/
theorem quiet_reply (p : Port) (kind : Byte) (a : Answer) : Quiet a.state (reply p kind a) := .setPort rfl

theorem request (hP : Lasting P) (p : Port) (kind : Byte) (body : List Byte) {answer : State → Answer}
    (ha : ∀ u, P u → (u.port p).live = true → P (answer u).state) (h : P s) : P (request p kind body answer s) := by
  have hpresented := hP.quiet (.presented p kind body s) h
  unfold Machine.request
  dsimp only
  split
  · exact hP.quiet (quiet_reply p kind _) (ha _ (hP.take p hpresented) (Safe.take_live _ p))
  · exact hpresented

theorem catalogued (hP : Lasting P) (p : Port) (kind : Byte) (n : Nat) (body : List Byte) {carry : State → Answer}
    (ha : ∀ u, P u → (u.port p).live = true → P (carry u).state) (h : P s) : P (catalogued p kind n body carry s) := by
  refine hP.request p kind body (fun u hu hl => ?_) h
  unfold decideRequest
  split_ifs
  · exact hu
  · exact hu
  · exact ha u hu hl

theorem unknownKindRequest (hP : Lasting P) (p : Port) (kind : Byte) (body : List Byte) (h : P s) :
    P (unknownKindRequest p kind body s) := by
  unfold Machine.unknownKindRequest
  split
  · exact h
  · exact hP.request p kind body (fun u hu _ => hu) h

/-- Every request row whose own rules keep the property keeps it. -/
theorem leads_request (hP : Lasting P) {c : Instr} {p : Port} {kind : Byte} {n : Nat} {body : List Byte}
    (hline : requestLine c = some (p, kind, n, body)) (ha : ∀ u, P u → (u.port p).live = true → P (ownRules c u).state) (h : P s) :
    Leads c s P :=
  ⟨_, exec_requestLine hline s, hP.catalogued p kind n body ha h⟩

/-- Every quiet event keeps the property. -/
theorem leads_event (hP : Lasting P) (c : Instr) (hline : requestLine c = none) (hq : quietCommand c = true) (h : P s) :
    Leads c s P := by
  cases c <;> try cases hline
  all_goals try cases hq
  case frameReceived p check stop => exact ⟨_, rfl, hP.quiet (.receiveByte s p check stop) h⟩
  case interByteGapTimeout p => exact ⟨_, rfl, hP.quiet (.interByteGapTimeout p s) h⟩
  case unknownKindRequest p kind body => exact ⟨_, rfl, hP.unknownKindRequest p kind body h⟩
  case ilkRawChange closed => exact ⟨_, rfl, hP.quiet (.ilkRawChange closed s) h⟩
  case ilkDebouncedClose => exact ⟨_, rfl, hP.quiet (.ilkDebouncedClose s) h⟩
  case ilkDebouncedOpen => exact ⟨_, rfl, hP.quiet (.ilkDebouncedOpen s) h⟩
  case settleExpiry => exact ⟨_, rfl, hP.quiet (.settleExpiry s) h⟩
  case switchRawChange w low => exact ⟨_, rfl, hP.quiet (.switchRawChange w low s) h⟩
  case switchDebounceExpiry w => exact ⟨_, rfl, hP.quiet (.switchDebounceExpiry w s) h⟩
  case flipperEffectiveMinReached f => exact ⟨_, rfl, hP.quiet (CoilWork.flipperMinReached f s).quiet h⟩
  case lockoutExpiry k => exact ⟨_, rfl, hP.quiet (CoilWork.lockoutExpiry k s).quiet h⟩
  case syncRawChange high => exact ⟨_, rfl, hP.quiet (.syncRawChange high s) h⟩
  case syncRisingEdge => exact ⟨_, rfl, hP.quiet (.syncRisingEdge s) h⟩
  case lampFrame => exact ⟨_, rfl, hP.quiet (.lampFrame s) h⟩
  case coolingInterval => exact ⟨_, rfl, hP.quiet (.coolingInterval s) h⟩
  case driveEnd c => exact ⟨_, rfl, hP.quiet (CoilWork.driveEnd c s).quiet h⟩
  case recoveryGapExpiry c => exact ⟨_, rfl, hP.quiet (CoilWork.recoveryGapExpiry c s).quiet h⟩
  case spacingExpiry t => exact ⟨_, rfl, hP.quiet (CoilWork.spacingExpiry t s).quiet h⟩
  case deadlineExpiry c => exact ⟨_, rfl, hP.quiet (CoilWork.deadlineExpiry c s).quiet h⟩
  case byteReceived p b stop => exact ⟨_, rfl, hP.quiet (.receiveByte s p b stop) h⟩
  case syncDebouncedFall => exact ⟨_, rfl, hP.quiet (.syncDebouncedFall s) h⟩

/-- Every quiet command keeps the property. -/
theorem leads (hP : Lasting P) (c : Instr) (hq : quietCommand c = true) (h : P s) : Leads c s P := by
  cases hline : requestLine c with
  | none => exact hP.leads_event c hline hq h
  | some line =>
    obtain ⟨p, kind, n, body⟩ := line
    exact hP.leads_request hline (fun u hu hl => hP.quiet (ownRules_quiet hline hq hl) hu) h

end Lasting

end Sys2Proof.Machine
end

section
/-! The commands that are not quiet, each by what it leaves alone: the queue of commands (every one), the working records (all but
configuration, resets and the load's end), and what a LAPSED port has (every one). -/

namespace Sys2Proof.Machine

/-- The queue of commands, the part's state and the working records stay as they are. -/
structure Ongoing (s t : State) : Prop where
  pending : t.pending = s.pending
  part : t.part.state = s.part.state
  profile : workingProfile t = workingProfile s

theorem Ongoing.trans {s t u : State} (h : Ongoing s t) (g : Ongoing t u) : Ongoing s u :=
  ⟨g.pending.trans h.pending, g.part.trans h.part, g.profile.trans h.profile⟩

theorem Ongoing.refl (s : State) : Ongoing s s := ⟨rfl, rfl, rfl⟩

theorem Quiet.ongoing {s t : State} (h : Quiet s t) : Ongoing s t := ⟨h.accounts.pending, h.accounts.part, h.profile⟩

/-! ### Enable groups and the save (R28, R169, R170) -/

theorem claim_record_ongoing (s : State) {m : SupplyMonitor} (h : m.cfg = s.supply.cfg) : Ongoing s (s.setSupply m) :=
  ⟨rfl, rfl, by simp only [workingProfile, State.setSupply_supply, h]; rfl⟩

theorem enableGroupRequest_ongoing (p : Port) (body : List Byte) (s : State) : Ongoing s (enableGroupRequest p body s).state := by
  unfold enableGroupRequest
  split
  · exact (claim_record_ongoing s (Safe.claim_cfg _ _ _ _)).trans (Quiet.recomputeGroups _).ongoing
  · exact .refl s

theorem saveProfileRequest_accounts (p : Port) (s : State) : Accounts s (saveProfileRequest p s).state := by
  unfold saveProfileRequest
  split
  · exact .refl s
  · exact .of_same

theorem saveProfileRequest_profile (p : Port) (s : State) : workingProfile (saveProfileRequest p s).state = workingProfile s := by
  unfold saveProfileRequest
  split <;> rfl

theorem saveComplete_accounts (s : State) : Accounts s (saveComplete s) := by
  unfold saveComplete
  split
  · exact .refl s
  · split
    · exact .of_same
    · exact .refl s

theorem saveComplete_profile (s : State) : workingProfile (saveComplete s) = workingProfile s := by
  unfold saveComplete
  split
  · rfl
  · split <;> rfl

/-! ### The tick (R132) -/

theorem partTimeTick_chan (s : State) (c : ChannelId) :
    (partTimeTick s).chan c = { s.chan c with state := (s.chan c).state.tick } := by
  simp only [partTimeTick, State.chan, Table.get_map]

theorem partTimeTick_port (s : State) (p : Port) : (partTimeTick s).port p = (s.port p).tick := by
  simp only [partTimeTick, State.port, PerPort.get_map]

theorem partTimeTick_accounts (s : State) : Accounts s (partTimeTick s) :=
  .of_same (hlive := fun p => by rw [partTimeTick_port]; rfl) (hclaims := fun c p h => by rwa [partTimeTick_chan] at h)

theorem Table.map_map {α β γ : Type} {n : Nat} (f : α → β) (g : β → γ) (t : Table α n) :
    (t.map f).map g = t.map fun x => g (f x) := Table.ext_get fun i => by simp only [Table.get_map]

theorem partTimeTick_profile (s : State) : workingProfile (partTimeTick s) = workingProfile s := by
  simp only [workingProfile, partTimeTick, SwitchUnit.tick, Table.map_map]

/-! ### The lapse (R159) -/

/-- Every stepper forgets the port (R125). -/
def forgetOrigins (s : State) (p : Port) : State := { s with steppers := s.steppers.map fun x => x.forget p }

theorem forgetOrigins_chan (s : State) (p : Port) (c : ChannelId) : (forgetOrigins s p).chan c = s.chan c := rfl

theorem forgetOrigins_coilWork (s : State) (p : Port) : CoilWork s (forgetOrigins s p) :=
  .steppersMap (fun _ => rfl) fun x _ h => CoilWork.has_of_remove (CoilWork.told_forget x p ▸ h)

/-- The port is LAPSED, its liveness timer stopped (R159). -/
def portLapsed (s : State) (p : Port) : State := s.setPort p { s.port p with live := false, liveness := none }

/-- The part of the lapse that comes before the groups: the port goes, and its coil work, origins, layer and queue are withdrawn. -/
def lapseOwnWork (p : Port) (s : State) : State :=
  lapseQueue (lapseLayer (forgetOrigins (lapseCoilWork (portLapsed s p) p) p) p) p

theorem lapse_eq (p : Port) (s : State) : lapse p s = settle (setFlag (lapseGroups (lapseOwnWork p s) p) p .lapsed none) := rfl

/-- What the port's own work leaves of every channel, entry and train is coil work of the port that is no longer LIVE. -/
theorem lapseOwnWork_coilWork (p : Port) (s : State) :
    ∃ v, CoilWork (portLapsed s p) v ∧ (∀ c, v.chan c = (lapseCoilWork (portLapsed s p) p).chan c) ∧
      lapseOwnWork p s = lapseQueue (lapseLayer v p) p :=
  ⟨_, (CoilWork.lapseCoilWork _ p).trans (forgetOrigins_coilWork _ p), forgetOrigins_chan _ p, rfl⟩

theorem lapseOwnWork_ongoing (p : Port) (s : State) : Ongoing s (lapseOwnWork p s) := by
  obtain ⟨v, hv, _, he⟩ := lapseOwnWork_coilWork p s
  rw [he]
  have withdrawn : Ongoing v (lapseQueue (lapseLayer v p) p) := ⟨rfl, rfl, rfl⟩
  have lapsed : Ongoing s (portLapsed s p) := ⟨rfl, rfl, rfl⟩
  exact (lapsed.trans hv.quiet.ongoing).trans withdrawn

/-- Both groups lose the port's claim (R29). -/
def withoutGroupClaims (s : State) (p : Port) : State :=
  s.setSupply { s.supply with flipClaims := s.supply.flipClaims.remove p, directClaims := s.supply.directClaims.remove p }

theorem lapseGroups_eq (s : State) (p : Port) : lapseGroups s p = recomputeGroups (withoutGroupClaims s p) := rfl

/-- After the port's own work and its claims on the groups are withdrawn, the lapse is quiet. -/
theorem lapse_quiet (p : Port) (s : State) : Quiet (withoutGroupClaims (lapseOwnWork p s) p) (lapse p s) := by
  rw [lapse_eq, lapseGroups_eq]
  refine .trans ?_ (CoilWork.settle _).quiet
  exact (Quiet.recomputeGroups _).trans (.setLatch _ _)

theorem withoutGroupClaims_ongoing (s : State) (p : Port) : Ongoing s (withoutGroupClaims s p) := claim_record_ongoing s rfl

theorem lapse_ongoing (p : Port) (s : State) : Ongoing s (lapse p s) :=
  ((lapseOwnWork_ongoing p s).trans (withoutGroupClaims_ongoing _ p)).trans (lapse_quiet p s).ongoing

theorem livenessExpiry_ongoing (p : Port) (s : State) : Ongoing s (livenessExpiry p s) := by
  unfold livenessExpiry
  split
  · exact lapse_ongoing p s
  · exact .refl s

/-! ### Commands that write no configuration record -/

theorem lasting_ongoing (s : State) : Lasting (Ongoing s) where
  quiet h g := g.trans h.ongoing
  take _ g := g.trans ⟨rfl, rfl, rfl⟩

/-- The five that are neither quiet nor write a record. -/
theorem leads_ongoing_of_loud (c : Instr) (s : State) (hq : quietCommand c = false) (hw : writesRecords c = false) :
    Leads c s (Ongoing s) := by
  have hs := lasting_ongoing s
  cases c <;> try cases hq
  all_goals try cases hw
  case enableGroup p body =>
    exact hs.leads_request rfl (fun u hu _ => hu.trans (enableGroupRequest_ongoing p body u)) (.refl s)
  case saveProfile p body =>
    have saved (u : State) : Ongoing u (saveProfileRequest p u).state :=
      ⟨(saveProfileRequest_accounts p u).pending, (saveProfileRequest_accounts p u).part, saveProfileRequest_profile p u⟩
    exact hs.leads_request rfl (fun u hu _ => hu.trans (saved u)) (.refl s)
  case saveComplete =>
    exact ⟨_, rfl, (saveComplete_accounts s).pending, (saveComplete_accounts s).part, saveComplete_profile s⟩
  case partTimeTick => exact ⟨_, rfl, (partTimeTick_accounts s).pending, (partTimeTick_accounts s).part, partTimeTick_profile s⟩
  case livenessExpiry p => exact ⟨_, rfl, livenessExpiry_ongoing p s⟩

theorem leads_ongoing (c : Instr) (s : State) (hw : writesRecords c = false) : Leads c s (Ongoing s) := by
  cases hq : quietCommand c with
  | true => exact (lasting_ongoing s).leads c hq (.refl s)
  | false => exact leads_ongoing_of_loud c s hq hw

/-- Settles O8: a command outside `writesRecords` leaves the working records as they are, quiet or not. -/
theorem onlyConfigurationWritesTheRecords : Obligations.OnlyConfigurationWritesTheRecords :=
  fun c s _ hw ht => ((leads_ongoing c s hw).elim ht).profile

/-! ### Configuration requests keep the accounts -/

namespace Accounts

variable {s : State}

theorem setChan {c : ChannelId} {x : Channel} (h : ∀ p, x.claims.has p = true → (s.chan c).claims.has p = true) :
    Accounts s (s.setChan c x) :=
  .of_same (hclaims := fun d p hd => by
    rw [chan_setChan] at hd
    split at hd
    · rename_i e; exact e ▸ h p hd
    · exact hd)

theorem reconfigured_claims (ch : Channel) (r : CoilRecord) {p : Port} (h : (ch.reconfigured r).claims.has p = true) :
    ch.claims.has p = true := by
  simp only [Channel.reconfigured] at h
  split at h
  · exact h
  · rw [has_empty] at h; cases h

theorem configureCoil (s : State) (c : ChannelId) (r : CoilRecord) : Accounts s (configureCoil s c r) := by
  unfold Machine.configureCoil
  dsimp only
  have recorded : Accounts s (recomputeThermal (s.setChan c ((s.chan c).reconfigured r)) c) :=
    (setChan fun _ => reconfigured_claims _ r).trans (CoilWork.recomputeThermal _ c).quiet.accounts
  split
  · exact recorded.trans ((CoilWork.pullInTest _ c).trans (.settle _)).quiet.accounts
  · exact recorded

theorem configureCoilRequest (body : List Byte) (s : State) : Accounts s (configureCoilRequest body s).state := by
  unfold Machine.configureCoilRequest
  split
  · dsimp only
    split_ifs
    · exact refl s
    · exact refl s
    · exact refl s
    · exact refl s
    · exact configureCoil s _ _
  · exact refl s

theorem configureSupplyRequest (body : List Byte) (s : State) : Accounts s (configureSupplyRequest body s).state := by
  rw [configureSupplyRequest_eq]
  dsimp only
  split_ifs
  · exact refl s
  · exact refl s
  · exact refl s
  · exact refl s
  · exact refl s
  · exact trans .of_same (coilWork_replaceSupply s _).quiet.accounts

theorem configureFlipperRequest (body : List Byte) (s : State) : Accounts s (configureFlipperRequest body s).state := by
  unfold Machine.configureFlipperRequest
  split
  · dsimp only
    split_ifs
    · exact refl s
    · exact refl s
    · exact refl s
    · exact trans .of_same (CoilWork.flipperTest _ _).quiet.accounts
  · exact refl s

theorem configureLinkRequest (body : List Byte) (s : State) : Accounts s (configureLinkRequest body s).state := by
  unfold Machine.configureLinkRequest
  split
  · dsimp only
    split_ifs
    · exact refl s
    · exact refl s
    · exact refl s
    · exact .of_same
  · exact refl s

theorem configureStepperRequest (body : List Byte) (s : State) : Accounts s (configureStepperRequest body s).state := by
  unfold Machine.configureStepperRequest
  split
  · dsimp only
    split_ifs
    · exact refl s
    · exact refl s
    · exact refl s
    · exact refl s
    · exact .of_same
    · exact .of_same
  · exact refl s

theorem setCarry (s : State) (t : StepperId) (target : Option StepperId) : Accounts s (setCarry s t target) := .of_same

theorem joinReels : ∀ (reels : List StepperId) (s : State), Accounts s (joinReels reels s)
  | [], s => refl s
  | [t], s => setCarry s t none
  | t :: u :: rest, s => (setCarry s t (some u)).trans (joinReels (u :: rest) _)

theorem configureBankRequest (body : List Byte) (s : State) : Accounts s (configureBankRequest body s).state := by
  unfold Machine.configureBankRequest
  split
  · rename_i n reels _ _
    split_ifs
    · exact refl s
    · exact refl s
    · exact refl s
    · refine trans (trans (foldl (fun s t => setCarry s t none) (s.bank n) s) (joinReels reels _)) ?_
      exact .of_same
  · exact refl s

theorem setInput (s : State) (w : SwitchId) (x : SwitchInput) : Accounts s (s.setInput w x) := .of_same

theorem configureSwitchRequest (body : List Byte) (s : State) : Accounts s (configureSwitchRequest body s).state := by
  unfold Machine.configureSwitchRequest
  split
  · split
    · exact refl s
    · unfold Machine.configureSwitch
      dsimp only [Answer.done, Answer.okWith]
      split_ifs
      · exact setInput s _ _
      · exact setInput s _ _
      · exact (setInput s _ _).trans (Quiet.deliver _ _ _).accounts
  · exact refl s

theorem configuredLamps_layers {u v : LampUnit} {body : List Byte} (h : configuredLamps u body = some v) : v.layers = u.layers := by
  unfold configuredLamps at h
  split at h
  · cases h
  all_goals
    obtain ⟨_, _, rfl⟩ := Option.map_eq_some_iff.1 h
    rfl

theorem configureLampRequest (body : List Byte) (s : State) : Accounts s (configureLampRequest body s).state := by
  unfold Machine.configureLampRequest
  split
  · exact refl s
  · rename_i u hu
    split
    · exact refl s
    · exact .of_same (hlayers := fun p _ _ => congrArg (PerPort.get · p) (configuredLamps_layers hu))

/-- A request of the CONFIGURE family keeps the accounts. -/
theorem ownRules {c : Instr} {line : Port × Byte × Nat × List Byte} (hline : requestLine c = some line)
    (hw : writesRecords c = true) (s : State) : Accounts s (ownRules c s).state := by
  cases c <;> try cases hw
  all_goals try cases hline
  case configureCoil => exact configureCoilRequest _ s
  case configureSupply => exact configureSupplyRequest _ s
  case configureFlipper => exact configureFlipperRequest _ s
  case configureLink => exact configureLinkRequest _ s
  case configureStepper => exact configureStepperRequest _ s
  case configureBank => exact configureBankRequest _ s
  case configureSwitch => exact configureSwitchRequest _ s
  case configureLamp => exact configureLampRequest _ s

end Accounts

/-! ### The resets and the load's end -/

theorem replySent_of_none {s : State} {p : Port} (h : (s.port p).sending = none) : replySent p s = s := by
  simp only [replySent, h]

theorem replySent_of_not_resets {s : State} {p : Port} {r : Sending} (h : (s.port p).sending = some r) (hr : r.resets = false) :
    replySent p s = s.setPort p { s.port p with sending := none } := by
  simp only [replySent, h, hr]
  rfl

/-- The end of a reply resets the part where the reply says so, and is quiet otherwise. -/
theorem replySent_cases (p : Port) (s : State) :
    (∃ r, (s.port p).sending = some r ∧ r.resets = true ∧ replySent p s = warmReset s) ∨ Quiet s (replySent p s) := by
  cases hr : (s.port p).sending with
  | none => exact .inr (.of_eq (replySent_of_none hr))
  | some r =>
    cases hresets : r.resets with
    | true => exact .inl ⟨r, rfl, hresets, replySent_of_resets hr hresets⟩
    | false => rw [replySent_of_not_resets hr hresets]; exact .inr (.setPort rfl)

/-- The load with the part in RUN, its records at work, before the channels' thermal states are taken (R168). -/
def loadStarted (s : State) : State :=
  { reportProfile (loadRecords s s.store.loaded) with part := ⟨.run, none⟩, coolTimer := some Config.coolingInterval }

theorem loadThermal_coilWork (s : State) (c : ChannelId) : CoilWork s (loadThermal s c) := by
  unfold loadThermal
  split
  · exact .setFlagBoth _ _ _
  · exact .recomputeThermal _ _

theorem sampleSwitches_quiet (s : State) : Quiet s (sampleSwitches s) :=
  .setSw (by rw [Table.map_map]) fun _ _ => rfl

/-- From there on the end of the load is quiet. -/
theorem endLoad_quiet (channels : List ChannelId) (s : State) : Quiet (loadStarted s) (endLoad channels s) := by
  unfold endLoad
  dsimp only
  refine .trans ?_ (.setLamp rfl rfl fun _ _ _ => rfl)
  refine .trans ?_ (sampleSwitches_quiet _)
  refine .trans (CoilWork.foldl loadThermal_coilWork channels _).quiet ?_
  exact .setSupply rfl rfl rfl

theorem reportProfile_quiet (s : State) : Quiet s (reportProfile s) := by
  unfold reportProfile
  split
  · exact .refl s
  · exact .setFlagBoth _ _ _

theorem loadStarted_pending (s : State) : (loadStarted s).pending = s.pending :=
  (reportProfile_quiet (loadRecords s s.store.loaded)).accounts.pending

theorem profileLoadEnd_pending (s : State) : (profileLoadEnd s).pending = s.pending := by
  unfold profileLoadEnd
  split
  · exact (endLoad_quiet _ _).accounts.pending.trans (loadStarted_pending _)
  · rfl

/-! ### The queue of commands (O2) -/

theorem lasting_pending (l : List Instr) : Lasting fun t => t.pending = l where
  quiet h g := h.accounts.pending.trans g
  take _ g := g

/-- The resets, the load's end and the end of a reply. -/
theorem leads_pending_of_reset (c : Instr) (s : State) (hline : requestLine c = none) (hw : writesRecords c = true) :
    Leads c s fun t => t.pending = s.pending := by
  cases c <;> try cases hw
  all_goals try cases hline
  case powerOnReset => exact ⟨_, rfl, rfl⟩
  case pinReset => exact ⟨_, rfl, rfl⟩
  case profileLoadEnd => exact ⟨_, rfl, profileLoadEnd_pending s⟩
  case replySent p =>
    obtain ⟨_, _, _, he⟩ | hquiet := replySent_cases p s
    · exact ⟨_, rfl, (congrArg State.pending he).trans (show (warmReset s).pending = s.pending from rfl)⟩
    · exact ⟨_, rfl, hquiet.accounts.pending⟩

/-- Settles O2: every row leads to a next state and leaves the queue as it was. -/
theorem everyCommandCompletesAndKeepsTheQueue : Obligations.EveryCommandCompletesAndKeepsTheQueue := by
  intro c s
  change Leads c s fun t => t.pending = s.pending
  cases hw : writesRecords c with
  | false => exact (leads_ongoing c s hw).mono fun _ h => h.pending
  | true =>
    cases hline : requestLine c with
    | none => exact leads_pending_of_reset c s hline hw
    | some line =>
      exact (lasting_pending s.pending).leads_request hline (fun u hu _ => (Accounts.ownRules hline hw u).pending.trans hu) rfl

end Sys2Proof.Machine
end

section
/-! Nothing stands on the account of a LAPSED port (R12, R29, R135, R151): kept by whatever keeps the accounts, by the resets, which make
both ports LIVE, and by the lapse, which withdraws everything of its port. -/

namespace Sys2Proof.Machine

/-- A layer as a lapse leaves it: TRANSPARENT in both buffers and IDLE (R151). -/
def Layer.cleared (x : Layer) : Layer := { x with x := .replicate 32 none, y := .replicate 32 none, commit := .idle }

theorem lapseLayer_eq (s : State) (p : Port) : lapseLayer s p = setLayer s p (s.lamp.layers.get p).cleared := rfl

namespace LapsedWithdrawn

variable {s t : State}

theorem accounts (h : LapsedWithdrawn s) (g : Accounts s t) : LapsedWithdrawn t where
  claims c p hc := by
    obtain hc | hl := g.claimed c p hc
    · exact (g.live p).trans (h.claims c p hc)
    · exact (g.live p).trans hl
  groups p hp := (g.live p).trans (h.groups p (by rwa [g.flipClaims, g.directClaims] at hp))
  queue p hp := by
    have hs := (g.live p).symm.trans hp
    rw [g.queues p hs, h.queue p hs]
  layer p hp := by
    have hs := (g.live p).symm.trans hp
    rw [g.layers p hs (h.layer p hs).1]
    exact h.layer p hs

/-- While both ports are LIVE there is no LAPSED port. -/
theorem of_live (h : ∀ p, (t.port p).live = true) : LapsedWithdrawn t where
  claims _ p _ := h p
  groups p _ := h p
  queue p hp := absurd ((h p).symm.trans hp) (by decide)
  layer p hp := absurd ((h p).symm.trans hp) (by decide)

theorem setPending (h : LapsedWithdrawn s) (l : List Instr) : LapsedWithdrawn { s with pending := l } :=
  ⟨h.claims, h.groups, h.queue, h.layer⟩

/-! ### A request's take and the groups -/

theorem take_live_of_live {p : Port} (s : State) (q : Port) (h : (s.port q).live = true) : ((take s p).port q).live = true := by
  by_cases e : q = p
  · subst e; exact Safe.take_live s q
  · exact (congrArg PortRec.live (State.port_setPort_ne _ _ _ _ e)).trans h

theorem live_of_take_live {p : Port} (s : State) (q : Port) (h : ((take s p).port q).live = false) : (s.port q).live = false := by
  by_contra hl
  rw [take_live_of_live s q (by simpa using hl)] at h
  cases h

theorem take (h : LapsedWithdrawn s) (p : Port) : LapsedWithdrawn (take s p) where
  claims c q hc := take_live_of_live s q (h.claims c q hc)
  groups q hq := take_live_of_live s q (h.groups q hq)
  queue q hq := h.queue q (live_of_take_live s q hq)
  layer q hq := h.layer q (live_of_take_live s q hq)

theorem lasting : Lasting LapsedWithdrawn where
  quiet g h := h.accounts g.accounts
  take p h := h.take p

/-- The claims that ENABLE GROUP writes are of the groups' ports and of the sender. -/
theorem has_of_claim {m : SupplyMonitor} {g : Group} {p q : Port} {on : Bool}
    (h : (m.claim g p on).flipClaims.has q = true ∨ (m.claim g p on).directClaims.has q = true) :
    (m.flipClaims.has q = true ∨ m.directClaims.has q = true) ∨ q = p := by
  have written {x : PortSet} (hx : (if on then x.add p else x.remove p).has q = true) : x.has q = true ∨ q = p := by
    split at hx
    · exact CoilWork.has_add hx
    · exact .inl (CoilWork.has_of_remove hx)
  cases g with
  | flippers =>
    obtain h | h := h
    · exact (written h).imp_left .inl
    · exact .inl (.inr h)
  | direct =>
    obtain h | h := h
    · exact .inl (.inl h)
    · exact (written h).imp_left .inr

theorem enableGroupRequest (h : LapsedWithdrawn s) {p : Port} (body : List Byte) (hl : (s.port p).live = true) :
    LapsedWithdrawn (enableGroupRequest p body s).state := by
  unfold Machine.enableGroupRequest
  split
  · rename_i g on _ _
    have claimed : LapsedWithdrawn (s.setSupply (s.supply.claim g p on)) := by
      refine ⟨h.claims, fun q hq => ?_, h.queue, h.layer⟩
      obtain hq | rfl := has_of_claim hq
      · exact h.groups q hq
      · exact hl
    exact claimed.accounts (Quiet.recomputeGroups _).accounts
  · exact h

/-! ### The lapse (R159) -/

theorem has_remove_of_ne {x : PortSet} {p q : Port} (h : q ≠ p) : (x.remove p).has q = x.has q := by
  cases p <;> cases q
  · exact absurd rfl h
  · rfl
  · rfl
  · exact absurd rfl h

/-- After every channel has forgotten the port, the port is in no claim set. -/
theorem foldl_forget_chan (p : Port) (l : List ChannelId) (hl : l.Nodup) (s : State) (d : ChannelId) :
    (l.foldl (fun s c => s.setChan c ((s.chan c).forget p)) s).chan d = if d ∈ l then (s.chan d).forget p else s.chan d := by
  induction l generalizing s with
  | nil => rfl
  | cons c l ih =>
    obtain ⟨hc, hl⟩ := List.nodup_cons.1 hl
    rw [List.foldl_cons, ih hl, chan_setChan]
    by_cases e : d = c
    · subst e; simp [hc]
    · simp [e]

/-- The claims' part of the lapse's coil work: every channel forgets the port. -/
def forgetClaims (s : State) (p : Port) : State := allChannels.foldl (fun s c => s.setChan c ((s.chan c).forget p)) s

theorem forgetClaims_chan (s : State) (p : Port) (d : ChannelId) : (forgetClaims s p).chan d = (s.chan d).forget p :=
  (foldl_forget_chan p allChannels (List.nodup_finRange 48) s d).trans (if_pos (List.mem_finRange d))

theorem forgetClaims_coilWork (s : State) (p : Port) : CoilWork s (forgetClaims s p) :=
  .foldl (fun s c => .forgetClaim s c p) _ _

/-- The entries' part: the port leaves every origin and all notified ports. -/
def forgetEntries (s : State) (p : Port) : State := s.setWaitList (s.arb.waitList.map fun e => e.forget p)

theorem forgetEntries_chan (s : State) (p : Port) (c : ChannelId) : (forgetEntries s p).chan c = s.chan c := rfl

theorem forgetEntries_coilWork (s : State) (p : Port) : CoilWork s (forgetEntries s p) := by
  refine .relist ?_ fun e he q hq => ?_
  · rw [List.map_map]
    exact List.Sublist.refl _
  · obtain ⟨d, hd, rfl⟩ := List.mem_map.1 he
    rw [CoilWork.ports_forget] at hq
    exact .inl ⟨d, hd, CoilWork.has_of_remove hq⟩

/-- Then the holds left without a claim end, and the entries left without an origin go. -/
theorem lapseCoilWork_eq (s : State) (p : Port) :
    lapseCoilWork s p =
      let u := allChannels.foldl endUnclaimedHold (forgetEntries (forgetClaims s p) p)
      (u.arb.waitList.filter Entry.orphan).foldl removeEntry u := by
  simp only [lapseCoilWork, forgetEntries, forgetClaims]

theorem lapseCoilWork_of_forgotten (s : State) (p : Port) :
    CoilWork (forgetEntries (forgetClaims s p) p) (lapseCoilWork s p) := by
  rw [lapseCoilWork_eq]
  exact (CoilWork.foldl CoilWork.endUnclaimedHold _ _).trans (.foldl CoilWork.removeEntry _ _)

theorem forgotten_coilWork (s : State) (p : Port) : CoilWork s (forgetEntries (forgetClaims s p) p) :=
  (forgetClaims_coilWork s p).trans (forgetEntries_coilWork _ p)

theorem port_of_coilWork {s t : State} (h : CoilWork s t) (q : Port) : t.port q = s.port q := congrArg (PerPort.get · q) h.ports

theorem forgotten_claims (s : State) (p : Port) (c : ChannelId) :
    ((forgetEntries (forgetClaims s p) p).chan c).claims = (s.chan c).claims.remove p := by
  rw [forgetEntries_chan, forgetClaims_chan, Channel.forget]

/-- No channel is claimed by a port whose coil work has been withdrawn and that is not LIVE. -/
theorem lapseCoilWork_claims {p : Port} (hl : (s.port p).live = false) (c : ChannelId) :
    ((lapseCoilWork s p).chan c).claims.has p = false := by
  by_contra hc
  obtain hc | hl' := (lapseCoilWork_of_forgotten s p).claimed c p (by simpa using hc)
  · rw [forgotten_claims, PortSet.has_remove_self] at hc
    cases hc
  · rw [port_of_coilWork (forgotten_coilWork s p), hl] at hl'
    cases hl'

/-- Once its own work and its claims on the groups are withdrawn, nothing stands on the account of the lapsed port, and of the other
nothing has changed. -/
theorem withdrawn (h : LapsedWithdrawn s) (p : Port) : LapsedWithdrawn (withoutGroupClaims (lapseOwnWork p s) p) := by
  obtain ⟨v, hv, hclaims, he⟩ := lapseOwnWork_coilWork p s
  have hlapsed : ((portLapsed s p).port p).live = false := by
    rw [portLapsed, State.port_setPort_self]
  have hother {q : Port} (e : q ≠ p) : v.port q = s.port q :=
    (port_of_coilWork hv q).trans (State.port_setPort_ne _ _ _ _ e)
  have hsupply : v.supply = s.supply := hv.supply
  rw [he]
  refine ⟨fun c q hc => ?claims, fun q hq => ?groups, fun q hq => ?queue, fun q hq => ?layer⟩
  case claims =>
    change (v.chan c).claims.has q = true at hc
    change (v.port q).live = true
    by_cases e : q = p
    · subst e
      rw [hclaims, lapseCoilWork_claims hlapsed] at hc
      cases hc
    · obtain hc | hl := hv.claimed c q hc
      · rw [hother e]; exact h.claims c q hc
      · rw [port_of_coilWork hv]; exact hl
  case groups =>
    change (v.supply.flipClaims.remove p).has q = true ∨ (v.supply.directClaims.remove p).has q = true at hq
    change (v.port q).live = true
    by_cases e : q = p
    · subst e; simp at hq
    · rw [hsupply, has_remove_of_ne e, has_remove_of_ne e] at hq
      rw [hother e]; exact h.groups q hq
  case queue =>
    change (v.port q).live = false at hq
    change ((v.sw.queues.set p { v.sw.queues.get p with entries := [], gapMark := true }).get q).entries = []
    by_cases e : q = p
    · subst e; rw [PerPort.get_set_self]
    · rw [hother e] at hq
      rw [PerPort.get_set_ne _ _ _ _ e, hv.sw]; exact h.queue q hq
  case layer =>
    change (v.port q).live = false at hq
    change ((v.lamp.layers.set p (v.lamp.layers.get p).cleared).get q).commit = .idle ∧
      ∀ l, ((v.lamp.layers.set p (v.lamp.layers.get p).cleared).get q).x.get l = none ∧
        ((v.lamp.layers.set p (v.lamp.layers.get p).cleared).get q).y.get l = none
    by_cases e : q = p
    · subst e; rw [PerPort.get_set_self]
      exact ⟨rfl, fun l => ⟨Table.get_replicate _ _, Table.get_replicate _ _⟩⟩
    · rw [hother e] at hq
      rw [PerPort.get_set_ne _ _ _ _ e, hv.lamp]; exact h.layer q hq

theorem livenessExpiry (h : LapsedWithdrawn s) (p : Port) : LapsedWithdrawn (livenessExpiry p s) := by
  unfold Machine.livenessExpiry
  split
  · exact (h.withdrawn p).accounts (lapse_quiet p s).accounts
  · exact h

/-! ### The resets and the load's end -/

theorem resetWith_live (heats : Table Heat 48) (s : State) (p : Port) : ((resetWith heats s).port p).live = true := by
  cases p <;> rfl

theorem resetWith (heats : Table Heat 48) (s : State) : LapsedWithdrawn (resetWith heats s) := of_live (resetWith_live heats s)

theorem loadRecords_chan_claims (s : State) (r : Profile) (c : ChannelId) : ((loadRecords s r).chan c).claims = .empty := by
  simp only [loadRecords, State.chan, Table.get_ofFn]
  rfl

/-- The load leaves every claim set empty, and of the rest only records. -/
theorem loadRecords (h : LapsedWithdrawn s) (r : Profile) : LapsedWithdrawn (loadRecords s r) where
  claims c p hc := by rw [loadRecords_chan_claims, has_empty] at hc; cases hc
  groups := h.groups
  queue := h.queue
  layer := h.layer

theorem loadStarted (h : LapsedWithdrawn s) : LapsedWithdrawn (loadStarted s) :=
  have reported := (h.loadRecords s.store.loaded).accounts (reportProfile_quiet _).accounts
  ⟨reported.claims, reported.groups, reported.queue, reported.layer⟩

theorem setOrders (h : LapsedWithdrawn s) (n : Nat) : LapsedWithdrawn { s with orders := n } :=
  ⟨h.claims, h.groups, h.queue, h.layer⟩

theorem profileLoadEnd (h : LapsedWithdrawn s) : LapsedWithdrawn (profileLoadEnd s) := by
  unfold Machine.profileLoadEnd
  split
  · exact (h.setOrders _).loadStarted.accounts (endLoad_quiet _ _).accounts
  · exact h

theorem replySent (h : LapsedWithdrawn s) (p : Port) : LapsedWithdrawn (replySent p s) := by
  obtain ⟨_, _, _, he⟩ | hquiet := replySent_cases p s
  · rw [he]; exact resetWith _ _
  · exact h.accounts hquiet.accounts

/-! ### Every command -/

/-- The commands outside the requests that are not quiet. -/
theorem leads_of_loud_event (h : LapsedWithdrawn s) (c : Instr) (hline : requestLine c = none) (hq : quietCommand c = false) :
    Leads c s LapsedWithdrawn := by
  cases c <;> try cases hq
  all_goals try cases hline
  case powerOnReset => exact ⟨_, rfl, resetWith _ _⟩
  case pinReset => exact ⟨_, rfl, resetWith _ _⟩
  case profileLoadEnd => exact ⟨_, rfl, h.profileLoadEnd⟩
  case saveComplete => exact ⟨_, rfl, h.accounts (saveComplete_accounts s)⟩
  case replySent p => exact ⟨_, rfl, h.replySent p⟩
  case livenessExpiry p => exact ⟨_, rfl, h.livenessExpiry p⟩
  case partTimeTick => exact ⟨_, rfl, h.accounts (partTimeTick_accounts s)⟩

/-- The requests that are not quiet: CONFIGURE, SAVE PROFILE and ENABLE GROUP. -/
theorem ownRules_of_loud (h : LapsedWithdrawn s) {c : Instr} {p : Port} {kind : Byte} {n : Nat} {body : List Byte}
    (hline : requestLine c = some (p, kind, n, body)) (hq : quietCommand c = false) (hl : (s.port p).live = true) :
    LapsedWithdrawn (ownRules c s).state := by
  cases hw : writesRecords c with
  | true => exact h.accounts (Accounts.ownRules hline hw s)
  | false =>
    cases c <;> try cases hq
    all_goals try cases hw
    all_goals cases hline
    · exact h.enableGroupRequest _ hl
    · exact h.accounts (saveProfileRequest_accounts _ s)

theorem leads (h : LapsedWithdrawn s) (c : Instr) : Leads c s LapsedWithdrawn := by
  cases hq : quietCommand c with
  | true => exact lasting.leads c hq h
  | false =>
    cases hline : requestLine c with
    | none => exact h.leads_of_loud_event c hline hq
    | some line => exact lasting.leads_request hline (fun _ hu hl => hu.ownRules_of_loud hline hq hl) h

end LapsedWithdrawn

/-- Settles O7: the invariant is kept by quiet work and by the take, and by each other command for its own reason. -/
theorem everyStepKeepsLapsedPortsWithdrawn : Obligations.EveryStepKeepsLapsedPortsWithdrawn :=
  fun _ _ => step_keeps (fun _ l h => h.setPending l) fun c _ h => h.leads c

end Sys2Proof.Machine
end

section
/-! The conditions between records that name channels, steppers and reels (R3, R80, R97, R107, R126): what each CONFIGURE request's checks
give for the record it writes, and that every command keeps the conditions of the working, the stored and the copied records. -/

namespace Sys2Proof.Machine

theorem Table.map_set {α β : Type} {n : Nat} (f : α → β) (t : Table α n) (i : Fin n) (x : α) :
    (t.set i x).map f = (t.map f).set i (f x) := Table.ext_get fun j => by
  rw [Table.get_map, Table.get_set, Table.get_set, Table.get_map]
  exact apply_ite f _ _ _

theorem StepperRecord.isWrap_of_isReel {r : StepperRecord} (h : r.isReel = true) : r.isWrap = true :=
  (Bool.and_eq_true_iff.1 h).1

theorem CoilClass.pulsed_iff (k : CoilClass) : k.pulsed = true ↔ k = .pulse ∨ k = .holdable := by cases k <;> decide

/-! ### One record of a joined profile replaced -/

namespace Profile.Joined

variable {r : Profile}

/-- The conditions speak of coils, flippers, links, steppers and banks alone. -/
theorem congr (h : r.Joined) {q : Profile} (hcoils : q.coils = r.coils) (hflippers : q.flippers = r.flippers)
    (hlinks : q.links = r.links) (hsteppers : q.steppers = r.steppers) (hbanks : q.banks = r.banks) : q.Joined := by
  obtain ⟨coils, supply, flippers, links, steppers, banks, switches, lamps, lampBudget⟩ := q
  cases hcoils; cases hflippers; cases hlinks; cases hsteppers; cases hbanks
  exact ⟨h.flipperOnce, h.stepper, h.stepperOnce, h.link, h.reels, h.reelOnce, h.carry⟩

/-- A coil record whose class is the one that the records naming the channel need (R19). -/
theorem setCoil (h : r.Joined) {c : ChannelId} {k : CoilRecord} (hstepper : ∀ t, (r.steppers.get t).names c = true → k.cls = .stepper)
    (hlink : ∀ j, (r.links.get j).channel = some c → k.cls = .pulse ∨ k.cls = .holdable) :
    Joined { r with coils := r.coils.set c k } where
  flipperOnce := h.flipperOnce
  stepper t d hn := by
    rw [Table.get_set]
    split
    · rename_i e; subst e; exact hstepper t hn
    · exact h.stepper t d hn
  stepperOnce := h.stepperOnce
  link j d hj := by
    rw [Table.get_set]
    split
    · rename_i e; subst e; exact hlink j hj
    · exact h.link j d hj
  reels := h.reels
  reelOnce := h.reelOnce
  carry := h.carry

/-- A flipper record that names no channel of another flipper (R94). -/
theorem setFlipper (h : r.Joined) {f : FlipperId} {x : FlipperRecord}
    (hother : ∀ g c, g ≠ f → (r.flippers.get g).names c = true → x.names c = false) :
    Joined { r with flippers := r.flippers.set f x } where
  flipperOnce g g' c hg hg' := by
    rw [Table.get_set] at hg hg'
    by_cases e : g = f <;> by_cases e' : g' = f
    · exact e.trans e'.symm
    · rw [if_pos e] at hg
      rw [if_neg e'] at hg'
      exact absurd (hg.symm.trans (hother g' c e' hg')) (by decide)
    · rw [if_neg e] at hg
      rw [if_pos e'] at hg'
      exact absurd (hg'.symm.trans (hother g c e hg)) (by decide)
    · rw [if_neg e] at hg
      rw [if_neg e'] at hg'
      exact h.flipperOnce g g' c hg hg'
  stepper := h.stepper
  stepperOnce := h.stepperOnce
  link := h.link
  reels := h.reels
  reelOnce := h.reelOnce
  carry := h.carry

/-- A link record whose channel is of class PULSE or HOLDABLE (R104). -/
theorem setLink (h : r.Joined) {k : LinkId} {x : LinkRecord}
    (hchannel : ∀ c, x.channel = some c → (r.coils.get c).cls = .pulse ∨ (r.coils.get c).cls = .holdable) :
    Joined { r with links := r.links.set k x } where
  flipperOnce := h.flipperOnce
  stepper := h.stepper
  stepperOnce := h.stepperOnce
  link j c hj := by
    rw [Table.get_set] at hj
    split at hj
    · exact hchannel c hj
    · exact h.link j c hj
  reels := h.reels
  reelOnce := h.reelOnce
  carry := h.carry

/-- What R124 asks of a stepper record beside the others of a profile. -/
structure StepperFits (r : Profile) (t : StepperId) (x : StepperRecord) : Prop where
  cls : ∀ c, x.names c = true → (r.coils.get c).cls = .stepper
  once : ∀ u c, u ≠ t → (r.steppers.get u).names c = true → x.names c = false
  reel : ∀ n, t ∈ r.banks.get n → x.isReel = true
  carry : ∀ u, x.carry = some u → t < u ∧ (r.steppers.get u).isWrap = true
  target : ∀ u, u ≠ t → (r.steppers.get u).carry = some t → x.isWrap = true

theorem setStepper (h : r.Joined) {t : StepperId} {x : StepperRecord} (hx : StepperFits r t x) :
    Joined { r with steppers := r.steppers.set t x } where
  flipperOnce := h.flipperOnce
  stepper u c hu := by
    rw [Table.get_set] at hu
    split at hu
    · exact hx.cls c hu
    · exact h.stepper u c hu
  stepperOnce u v c hu hv := by
    rw [Table.get_set] at hu hv
    by_cases e : u = t <;> by_cases e' : v = t
    · exact e.trans e'.symm
    · rw [if_pos e] at hu
      rw [if_neg e'] at hv
      exact absurd (hu.symm.trans (hx.once v c e' hv)) (by decide)
    · rw [if_neg e] at hu
      rw [if_pos e'] at hv
      exact absurd (hv.symm.trans (hx.once u c e hu)) (by decide)
    · rw [if_neg e] at hu
      rw [if_neg e'] at hv
      exact h.stepperOnce u v c hu hv
  link := h.link
  reels n u hu := by
    rw [Table.get_set]
    split
    · rename_i e; subst e; exact hx.reel n hu
    · exact h.reels n u hu
  reelOnce := h.reelOnce
  carry u v huv := by
    rw [Table.get_set] at huv ⊢
    split at huv
    · rename_i e
      subst e
      obtain ⟨hlt, hwrap⟩ := hx.carry v huv
      rw [if_neg hlt.ne']
      exact ⟨hlt, hwrap⟩
    · rename_i e
      obtain ⟨hlt, hwrap⟩ := h.carry u v huv
      refine ⟨hlt, ?_⟩
      split
      · rename_i e'; subst e'; exact hx.target u e huv
      · exact hwrap

/-- A carry target that is a configured WRAP stepper of higher index, or none (R126). -/
theorem setCarry (h : r.Joined) {t : StepperId} {target : Option StepperId}
    (htarget : ∀ u, target = some u → t < u ∧ (r.steppers.get u).isWrap = true) :
    Joined { r with steppers := r.steppers.set t { r.steppers.get t with carry := target } } :=
  h.setStepper {
    cls := fun c hc => h.stepper t c hc
    once := fun u c hne hu => by
      by_contra hc
      exact hne (h.stepperOnce u t c hu (Bool.eq_true_of_not_eq_false hc))
    reel := fun n hn => h.reels n t hn
    carry := htarget
    target := fun u _ hu => (h.carry u t hu).2 }

/-- Reels that are configured WRAP steppers of 10 positions and of no other bank (R126). -/
theorem setBank (h : r.Joined) {n : BankId} {reels : List StepperId} (hreel : ∀ t ∈ reels, (r.steppers.get t).isReel = true)
    (hother : ∀ t ∈ reels, ∀ m, m ≠ n → t ∉ r.banks.get m) : Joined { r with banks := r.banks.set n reels } where
  flipperOnce := h.flipperOnce
  stepper := h.stepper
  stepperOnce := h.stepperOnce
  link := h.link
  reels m t ht := by
    rw [Table.get_set] at ht
    split at ht
    · exact hreel t ht
    · exact h.reels m t ht
  reelOnce m m' t hm hm' := by
    rw [Table.get_set] at hm hm'
    by_cases e : m = n <;> by_cases e' : m' = n
    · exact e.trans e'.symm
    · rw [if_pos e] at hm
      rw [if_neg e'] at hm'
      exact absurd hm' (hother t hm m' e')
    · rw [if_neg e] at hm
      rw [if_pos e'] at hm'
      exact absurd hm (hother t hm' m e)
    · rw [if_neg e] at hm
      rw [if_neg e'] at hm'
      exact h.reelOnce m m' t hm hm'
  carry := h.carry

/-- The unconfigured records name nothing (R4, R80, R97, R107). -/
theorem unconfigured : Profile.unconfigured.Joined where
  flipperOnce f g c hf _ := by
    simp only [Profile.unconfigured, Table.get_replicate] at hf
    cases hf
  stepper t c ht := by
    simp only [Profile.unconfigured, Table.get_replicate] at ht
    cases ht
  stepperOnce t u c ht _ := by
    simp only [Profile.unconfigured, Table.get_replicate] at ht
    cases ht
  link k c hk := by
    simp only [Profile.unconfigured, Table.get_replicate] at hk
    cases hk
  reels n t ht := by
    simp only [Profile.unconfigured, Table.get_replicate] at ht
    cases ht
  reelOnce m n t ht _ := by
    simp only [Profile.unconfigured, Table.get_replicate] at ht
    cases ht
  carry t u ht := by
    simp only [Profile.unconfigured, Table.get_replicate] at ht
    cases ht

end Profile.Joined

/-! ### The working records after one of the part's records is replaced -/

theorem workingProfile_coils (s : State) (c : ChannelId) (x : Channel) :
    workingProfile (s.setChan c x) = { workingProfile s with coils := (workingProfile s).coils.set c x.coil } := by
  simp only [workingProfile, State.setChan_channels, Table.map_set]
  rfl

theorem workingProfile_setFlip (s : State) (f : FlipperId) (x : Flipper) :
    workingProfile (s.setFlip f x) = { workingProfile s with flippers := (workingProfile s).flippers.set f x.cfg } := by
  simp only [workingProfile, State.setFlip_flippers, Table.map_set]
  rfl

theorem workingProfile_setLink (s : State) (k : LinkId) (x : Link) :
    workingProfile (s.setLink k x) = { workingProfile s with links := (workingProfile s).links.set k x.cfg } := by
  simp only [workingProfile, State.setLink_links, Table.map_set]
  rfl

theorem workingProfile_setStepper (s : State) (t : StepperId) (x : Stepper) :
    workingProfile (s.setStepper t x) = { workingProfile s with steppers := (workingProfile s).steppers.set t x.cfg } := by
  simp only [workingProfile, State.setStepper_steppers, Table.map_set]
  rfl

theorem workingProfile_setBank (s : State) (n : BankId) (reels : List StepperId) :
    workingProfile (s.setBank n reels) = { workingProfile s with banks := (workingProfile s).banks.set n reels } := rfl

theorem workingProfile_stepper (s : State) (t : StepperId) : (workingProfile s).steppers.get t = (s.stepper t).cfg :=
  Table.get_map _ _ _

theorem workingProfile_link (s : State) (k : LinkId) : (workingProfile s).links.get k = (s.link k).cfg := Table.get_map _ _ _

theorem workingProfile_bank (s : State) (n : BankId) : (workingProfile s).banks.get n = s.bank n := rfl

end Sys2Proof.Machine
end

section
/-! Every command keeps the records joined: the checks of each CONFIGURE request, the resets and the load, the save. -/

namespace Sys2Proof.Machine

namespace RecordsJoined

variable {s t : State}

theorem of_working (h : RecordsJoined s) (hp : (workingProfile t).Joined) (hstore : t.store = s.store) : RecordsJoined t where
  working := hp
  stored := by rw [hstore]; exact h.stored
  copied save hsave := h.copied save (by rw [← hstore]; exact hsave)

theorem quiet (h : RecordsJoined s) (g : Quiet s t) : RecordsJoined t := h.of_working (g.profile.symm ▸ h.working) g.store

theorem lasting : Lasting RecordsJoined where
  quiet g h := h.quiet g
  take _ h := ⟨h.working, h.stored, h.copied⟩

/-! ### CONFIGURE COIL (R19) -/

theorem stepperOf_isSome {t : StepperId} {c : ChannelId} (h : (s.stepper t).cfg.names c = true) : (stepperOf s c).isSome = true := by
  rw [stepperOf, List.find?_isSome]
  exact ⟨t, List.mem_finRange t, h⟩

theorem linkNames_of {k : LinkId} {c : ChannelId} (h : (s.link k).cfg.channel = some c) : linkNames s c = true := by
  rw [linkNames, List.any_eq_true]
  exact ⟨k, List.mem_finRange k, by simpa using h⟩

/-- A record of the channel's own class, or of a class that the records naming the channel need. -/
theorem configureCoil (h : RecordsJoined s) (c : ChannelId) {r : CoilRecord}
    (hcls : r.cls = (s.chan c).coil.cls ∨ classFits s c r.cls = true) : RecordsJoined (configureCoil s c r) := by
  have recorded : RecordsJoined (s.setChan c ((s.chan c).reconfigured r)) := by
    refine h.of_working ?_ rfl
    rw [workingProfile_coils]
    refine h.working.setCoil (fun t ht => ?_) fun k hk => ?_
    · obtain e | fits := hcls
      · have hold := h.working.stepper t c ht
        rw [workingProfile_coil] at hold
        exact e.trans hold
      · rw [workingProfile_stepper] at ht
        simp only [classFits, Bool.and_eq_true, Bool.or_eq_true, decide_eq_true_eq] at fits
        obtain ⟨⟨_, hnone | hstepper⟩, _⟩ := fits
        · have hsome := stepperOf_isSome ht
          rw [Option.isNone_iff_eq_none] at hnone
          rw [hnone] at hsome
          cases hsome
        · exact hstepper
    · obtain e | fits := hcls
      · have hold := h.working.link k c hk
        rw [workingProfile_coil] at hold
        exact (CoilClass.pulsed_iff _).1 (e ▸ (CoilClass.pulsed_iff _).2 hold)
      · rw [workingProfile_link] at hk
        simp only [classFits, Bool.and_eq_true, Bool.or_eq_true, decide_eq_true_eq] at fits
        obtain ⟨_, hnone | hpulsed⟩ := fits
        · rw [linkNames_of hk] at hnone
          cases hnone
        · exact (CoilClass.pulsed_iff _).1 hpulsed
  have thermal := recorded.quiet (CoilWork.recomputeThermal _ c).quiet
  unfold Machine.configureCoil
  dsimp only
  split
  · exact thermal.quiet ((CoilWork.pullInTest _ c).trans (.settle _)).quiet
  · exact thermal

theorem configureCoilRequest (h : RecordsJoined s) (body : List Byte) : RecordsJoined (configureCoilRequest body s).state := by
  unfold Machine.configureCoilRequest
  split
  · rename_i c r _ _
    dsimp only
    split_ifs with hsaving hbusy hcls hweight
    · exact h
    · exact h
    · exact h
    · exact h
    · refine h.configureCoil c ?_
      by_contra hne
      obtain ⟨hne, hfits⟩ := not_or.1 hne
      exact hcls (by simp [hne, hfits])
  · exact h

/-! ### CONFIGURE SUPPLY (R31) -/

theorem configureSupplyRequest (h : RecordsJoined s) (body : List Byte) : RecordsJoined (configureSupplyRequest body s).state := by
  rw [configureSupplyRequest_eq]
  dsimp only
  split_ifs
  · exact h
  · exact h
  · exact h
  · exact h
  · exact h
  · have recorded : RecordsJoined (s.setSupply { s.supply with cfg := supplyRecordOf body }) :=
      h.of_working (h.working.congr rfl rfl rfl rfl rfl) rfl
    exact recorded.quiet (coilWork_replaceSupply s _).quiet

/-! ### CONFIGURE FLIPPER (R94) -/

/-- A channel that passes check 6 is named by no other flipper. -/
theorem not_named_of_channelForFlipper {f g : FlipperId} {c : ChannelId} (hg : g ≠ f) (h : channelForFlipper s f (some c) = true) :
    (s.flip g).cfg.names c = false := by
  simp only [channelForFlipper, Bool.and_eq_true, List.all_eq_true] at h
  simpa [hg] using h.2 g (List.mem_finRange g)

theorem not_names_of_flipperNamesFit {f g : FlipperId} {c : ChannelId} {r : FlipperRecord} (hg : g ≠ f)
    (h : flipperNamesFit s f r = true) (hn : (s.flip g).cfg.names c = true) : r.names c = false := by
  by_contra hr
  have hr := Bool.eq_true_of_not_eq_false hr
  simp only [FlipperRecord.names, Bool.and_eq_true, Bool.or_eq_true, decide_eq_true_eq] at hr
  obtain ⟨hsome, hc⟩ := hr
  simp only [flipperNamesFit, Bool.and_eq_true, Bool.or_eq_true] at h
  obtain hnone | ⟨⟨_, hpower⟩, hhold⟩ := h
  · rw [Option.isNone_iff_eq_none] at hnone
    rw [hnone] at hsome
    cases hsome
  · obtain hc | hc := hc
    · rw [hc] at hpower
      exact absurd (hn.symm.trans (not_named_of_channelForFlipper hg hpower)) (by decide)
    · rw [hc] at hhold
      exact absurd (hn.symm.trans (not_named_of_channelForFlipper hg hhold)) (by decide)

theorem configureFlipperRequest (h : RecordsJoined s) (body : List Byte) : RecordsJoined (configureFlipperRequest body s).state := by
  unfold Machine.configureFlipperRequest
  split
  · rename_i f r _ _
    dsimp only
    split_ifs with hsaving hacting hfits
    · exact h
    · exact h
    · exact h
    · have recorded : RecordsJoined (s.setFlip f { Flipper.reset with cfg := r }) := by
        refine h.of_working ?_ rfl
        rw [workingProfile_setFlip]
        refine h.working.setFlipper fun g c hg hn => ?_
        rw [workingProfile_flipper] at hn
        exact not_names_of_flipperNamesFit hg (by simpa using hfits) hn
      exact recorded.quiet (CoilWork.flipperTest _ f).quiet
  · exact h

/-! ### CONFIGURE LINK (R104) -/

theorem configureLinkRequest (h : RecordsJoined s) (body : List Byte) : RecordsJoined (configureLinkRequest body s).state := by
  unfold Machine.configureLinkRequest
  split
  · rename_i k r _ _
    dsimp only
    split_ifs with hsaving hentry hfits
    · exact h
    · exact h
    · exact h
    · refine h.of_working ?_ rfl
      refine (workingProfile_setLink s k _).symm ▸ h.working.setLink fun c hc => ?_
      rw [workingProfile_coil]
      have hfits : linkChannelFits s r.channel = true := by simpa using hfits
      rw [show r.channel = some c from hc] at hfits
      exact (CoilClass.pulsed_iff _).1 hfits
  · exact h

/-! ### CONFIGURE STEPPER (R124) -/

theorem stepper_class_of_channelForStepper {t : StepperId} {c : ChannelId} (h : channelForStepper s t (some c) = true) :
    (s.chan c).coil.cls = .stepper := by
  simp only [channelForStepper, Bool.and_eq_true, decide_eq_true_eq] at h
  exact h.1

theorem not_named_of_channelForStepper {t u : StepperId} {c : ChannelId} (hu : u ≠ t) (h : channelForStepper s t (some c) = true) :
    (s.stepper u).cfg.names c = false := by
  simp only [channelForStepper, Bool.and_eq_true, List.all_eq_true] at h
  simpa [hu] using h.2 u (List.mem_finRange u)

/-- Both channels of a record that passes check 5 are fit for the stepper. -/
theorem channel_of_stepperNamesFit {t : StepperId} {c : ChannelId} {r : StepperRecord} (h : stepperNamesFit s t r = true)
    (hc : r.names c = true) : channelForStepper s t (some c) = true := by
  simp only [stepperNamesFit, Bool.and_eq_true] at h
  obtain ⟨⟨⟨hup, hdown⟩, _⟩, _⟩ := h
  simp only [StepperRecord.names, Bool.or_eq_true, decide_eq_true_eq] at hc
  obtain hc | hc := hc
  · exact hc ▸ hup
  · exact hc ▸ hdown

theorem carry_of_stepperNamesFit {t u : StepperId} {r : StepperRecord} (h : stepperNamesFit s t r = true) (hu : r.carry = some u) :
    t < u ∧ (s.stepper u).cfg.isWrap = true := by
  simp only [stepperNamesFit, Bool.and_eq_true] at h
  obtain ⟨_, hkind⟩ := h
  cases hk : r.kind with
  | wrap =>
    rw [hk, hu] at hkind
    obtain ⟨_, hcarry⟩ := Bool.and_eq_true_iff.1 hkind
    simpa using hcarry
  | stop => simp [hk, hu] at hkind

theorem isBankReel_iff {t : StepperId} : isBankReel s t = true ↔ ∃ n, t ∈ s.bank n := by
  simp [isBankReel, List.any_eq_true]

theorem isReel_of_stepperRoleKept {t : StepperId} {r : StepperRecord} (h : stepperRoleKept s t r = true) (hb : isBankReel s t = true) :
    r.isReel = true := by
  simp only [stepperRoleKept, Bool.and_eq_true] at h
  simpa [hb] using h.1

theorem isWrap_of_stepperRoleKept {t u : StepperId} {r : StepperRecord} (h : stepperRoleKept s t r = true) (hu : u ≠ t)
    (hc : (s.stepper u).cfg.carry = some t) : r.isWrap = true := by
  simp only [stepperRoleKept, Bool.and_eq_true, Bool.or_eq_true, List.all_eq_true] at h
  obtain ⟨_, hall | hwrap⟩ := h
  · simpa [hu, hc] using hall u (List.mem_finRange u)
  · exact hwrap

/-- The record that CONFIGURE STEPPER writes, a reel's with its old carry, fits beside the others. -/
theorem stepperFits (h : RecordsJoined s) {t : StepperId} {r : StepperRecord} (hnames : stepperNamesFit s t r = true)
    (hrole : stepperRoleKept s t r = true) :
    Profile.Joined.StepperFits (workingProfile s) t (if isBankReel s t then { r with carry := (s.stepper t).cfg.carry } else r) where
  cls c hc := by
    rw [workingProfile_coil]
    exact stepper_class_of_channelForStepper (channel_of_stepperNamesFit hnames (by split at hc <;> exact hc))
  once u c hu hn := by
    rw [workingProfile_stepper] at hn
    by_contra hc
    have hc : r.names c = true := by split at hc <;> exact Bool.eq_true_of_not_eq_false hc
    have hfree := not_named_of_channelForStepper hu (channel_of_stepperNamesFit hnames hc)
    exact absurd (hn.symm.trans hfree) (by decide)
  reel n hn := by
    have hreel := isReel_of_stepperRoleKept hrole (isBankReel_iff.2 ⟨n, hn⟩)
    split <;> exact hreel
  carry u hu := by
    rw [workingProfile_stepper]
    split at hu
    · have hold := h.working.carry t u (by rw [workingProfile_stepper]; exact hu)
      rwa [workingProfile_stepper] at hold
    · exact carry_of_stepperNamesFit hnames hu
  target u hu hc := by
    rw [workingProfile_stepper] at hc
    have hwrap := isWrap_of_stepperRoleKept hrole hu hc
    split <;> exact hwrap

theorem configureStepperRequest (h : RecordsJoined s) (body : List Byte) : RecordsJoined (configureStepperRequest body s).state := by
  unfold Machine.configureStepperRequest
  split
  · rename_i t r _ _
    dsimp only
    split
    · exact h
    · split
      · exact h
      · split
        · exact h
        · rename_i hnames
          split
          · exact h
          · rename_i hrole
            refine h.of_working ?_ rfl
            refine (workingProfile_setStepper s t _).symm ▸ h.working.setStepper (h.stepperFits ?_ ?_)
            · simpa using hnames
            · simpa using hrole
  · exact h

/-! ### CONFIGURE BANK (R126) -/

theorem setCarry (h : RecordsJoined s) {t : StepperId} {target : Option StepperId}
    (htarget : ∀ u, target = some u → t < u ∧ (s.stepper u).cfg.isWrap = true) : RecordsJoined (setCarry s t target) := by
  refine h.of_working ?_ rfl
  rw [Machine.setCarry, workingProfile_setStepper]
  have hold := h.working.setCarry (t := t) (target := target) fun u hu => by rw [workingProfile_stepper]; exact htarget u hu
  rwa [workingProfile_stepper] at hold

theorem setCarry_isReel (s : State) (t u : StepperId) (target : Option StepperId) :
    ((Machine.setCarry s t target).stepper u).cfg.isReel = (s.stepper u).cfg.isReel := by
  by_cases e : u = t
  · subst e; rw [Machine.setCarry, State.stepper_setStepper_self]; rfl
  · rw [Machine.setCarry, State.stepper_setStepper_ne _ _ _ _ e]

theorem clearCarries (h : RecordsJoined s) (l : List StepperId) : RecordsJoined (l.foldl (fun s t => Machine.setCarry s t none) s) := by
  induction l generalizing s with
  | nil => exact h
  | cons t l ih => exact ih (h.setCarry fun u hu => nomatch hu)

theorem clearCarries_isReel (l : List StepperId) (s : State) (u : StepperId) :
    ((l.foldl (fun s t => Machine.setCarry s t none) s).stepper u).cfg.isReel = (s.stepper u).cfg.isReel := by
  induction l generalizing s with
  | nil => rfl
  | cons t l ih => exact (ih _).trans (setCarry_isReel s t u none)

/-- Reels in ascending order, each a configured WRAP stepper, may carry one to the next. -/
theorem joinReels : ∀ (reels : List StepperId) {s : State}, RecordsJoined s → ascending reels = true →
    (∀ t ∈ reels, (s.stepper t).cfg.isReel = true) → RecordsJoined (joinReels reels s)
  | [], _, h, _, _ => h
  | [t], _, h, _, _ => h.setCarry fun u hu => nomatch hu
  | t :: u :: rest, s, h, hasc, hreel => by
    obtain ⟨hlt, hrest⟩ := Bool.and_eq_true_iff.1 (show (decide (t < u) && ascending (u :: rest)) = true from hasc)
    refine joinReels (u :: rest) (h.setCarry fun v hv => ?_) hrest fun v hv => ?_
    · obtain rfl := Option.some.inj hv
      exact ⟨of_decide_eq_true hlt, StepperRecord.isWrap_of_isReel (hreel u (by simp))⟩
    · rw [setCarry_isReel]
      exact hreel v (List.mem_cons_of_mem _ hv)

theorem joinReels_isReel : ∀ (reels : List StepperId) (s : State) (u : StepperId),
    ((Machine.joinReels reels s).stepper u).cfg.isReel = (s.stepper u).cfg.isReel
  | [], _, _ => rfl
  | [t], s, u => setCarry_isReel s t u none
  | t :: v :: rest, s, u => (joinReels_isReel (v :: rest) _ u).trans (setCarry_isReel s t u (some v))

theorem clearCarries_bank (l : List StepperId) (s : State) (m : BankId) :
    (l.foldl (fun s t => Machine.setCarry s t none) s).bank m = s.bank m := by
  induction l generalizing s with
  | nil => rfl
  | cons t l ih => exact ih _

theorem joinReels_bank : ∀ (reels : List StepperId) (s : State) (m : BankId), (Machine.joinReels reels s).bank m = s.bank m
  | [], _, _ => rfl
  | [_], _, _ => rfl
  | _ :: v :: rest, _, m => joinReels_bank (v :: rest) _ m

theorem reelForBank_iff {n : BankId} {t : StepperId} :
    reelForBank s n t = true ↔ (s.stepper t).cfg.isReel = true ∧ ∀ m, m ≠ n → t ∉ s.bank m := by
  simp only [reelForBank, Bool.and_eq_true, List.all_eq_true, Bool.or_eq_true, decide_eq_true_eq, List.mem_finRange, true_imp_iff,
    or_iff_not_imp_left]

theorem configureBankRequest (h : RecordsJoined s) (body : List Byte) : RecordsJoined (configureBankRequest body s).state := by
  unfold Machine.configureBankRequest
  split
  · rename_i n reels _ _
    split_ifs with hsaving hrefused hbusy
    · exact h
    · exact h
    · exact h
    · simp only [Bool.or_eq_true, Bool.not_eq_true', not_or, Bool.not_eq_false, List.all_eq_true] at hrefused
      obtain ⟨hasc, hreels⟩ := hrefused
      have hreel (t : StepperId) (ht : t ∈ reels) := (reelForBank_iff.1 (hreels t ht)).1
      have hother (t : StepperId) (ht : t ∈ reels) := (reelForBank_iff.1 (hreels t ht)).2
      have joined := (h.clearCarries (s.bank n)).joinReels reels hasc fun t ht => (clearCarries_isReel _ s t).trans (hreel t ht)
      refine joined.of_working ?_ rfl
      refine (workingProfile_setBank _ n reels).symm ▸ joined.working.setBank (fun t ht => ?_) fun t ht m hm => ?_
      · rw [workingProfile_stepper, joinReels_isReel, clearCarries_isReel]
        exact hreel t ht
      · rw [workingProfile_bank, joinReels_bank, clearCarries_bank]
        exact hother t ht m hm
  · exact h

/-! ### CONFIGURE SWITCH and CONFIGURE LAMP (R138, R152) -/

theorem setInput (h : RecordsJoined s) (w : SwitchId) (x : SwitchInput) : RecordsJoined (s.setInput w x) :=
  h.of_working (h.working.congr rfl rfl rfl rfl rfl) rfl

theorem configureSwitchRequest (h : RecordsJoined s) (body : List Byte) : RecordsJoined (configureSwitchRequest body s).state := by
  unfold Machine.configureSwitchRequest
  split
  · split
    · exact h
    · unfold Machine.configureSwitch
      dsimp only [Answer.done, Answer.okWith]
      split_ifs
      · exact h.setInput _ _
      · exact h.setInput _ _
      · exact (h.setInput _ _).quiet (.deliver _ _ _)
  · exact h

theorem configureLampRequest (h : RecordsJoined s) (body : List Byte) : RecordsJoined (configureLampRequest body s).state := by
  unfold Machine.configureLampRequest
  split
  · exact h
  · split
    · exact h
    · exact h.of_working (h.working.congr rfl rfl rfl rfl rfl) rfl

/-! ### The requests that are not quiet -/

theorem enableGroupRequest (h : RecordsJoined s) (p : Port) (body : List Byte) : RecordsJoined (enableGroupRequest p body s).state := by
  unfold Machine.enableGroupRequest
  split
  · rename_i g on _ _
    have claimed : RecordsJoined (s.setSupply (s.supply.claim g p on)) :=
      h.of_working (h.working.congr rfl rfl rfl rfl rfl) rfl
    exact claimed.quiet (.recomputeGroups _)
  · exact h

theorem saveProfileRequest (h : RecordsJoined s) (p : Port) : RecordsJoined (saveProfileRequest p s).state := by
  unfold Machine.saveProfileRequest
  split
  · exact h
  · refine ⟨h.working, h.stored, fun save hsave => ?_⟩
    obtain rfl := Option.some.inj hsave
    exact h.working

theorem ownRules_of_loud (h : RecordsJoined s) {c : Instr} {line : Port × Byte × Nat × List Byte} (hline : requestLine c = some line)
    (hq : quietCommand c = false) : RecordsJoined (ownRules c s).state := by
  cases c <;> try cases hq
  all_goals try cases hline
  case configureCoil => exact h.configureCoilRequest _
  case enableGroup => exact h.enableGroupRequest _ _
  case configureSupply => exact h.configureSupplyRequest _
  case configureFlipper => exact h.configureFlipperRequest _
  case configureLink => exact h.configureLinkRequest _
  case configureStepper => exact h.configureStepperRequest _
  case configureBank => exact h.configureBankRequest _
  case configureSwitch => exact h.configureSwitchRequest _
  case configureLamp => exact h.configureLampRequest _
  case saveProfile => exact h.saveProfileRequest _

/-! ### The resets, the load, the save and the tick -/

theorem workingProfile_resetWith (heats : Table Heat 48) (s : State) : workingProfile (resetWith heats s) = Profile.unconfigured := by
  have coils : (resetWith heats s).channels.map Channel.coil = Profile.unconfigured.coils :=
    Table.ext_get fun c => by
      simp only [resetWith, Profile.unconfigured, Table.get_map, Table.get_replicate]
      rfl
  have switches : (resetWith heats s).sw.inputs.map SwitchInput.cfg = Profile.unconfigured.switches :=
    Table.ext_get fun w => by
      simp only [resetWith, keepSwitchLevels, Profile.unconfigured, Table.get_map, Table.get_replicate]
      rfl
  rw [workingProfile, coils, switches]
  rfl

theorem resetWith (h : RecordsJoined s) (heats : Table Heat 48) : RecordsJoined (resetWith heats s) where
  working := workingProfile_resetWith heats s ▸ .unconfigured
  stored := h.stored
  copied _ hsave := nomatch hsave

theorem replySent (h : RecordsJoined s) (p : Port) : RecordsJoined (replySent p s) := by
  obtain ⟨_, _, _, he⟩ | hquiet := replySent_cases p s
  · rw [he]; exact h.resetWith _
  · exact h.quiet hquiet

/-- The working records after the load are the loaded ones. -/
theorem workingProfile_loadRecords (s : State) (r : Profile) : workingProfile (loadRecords s r) = r := by
  have coils : (loadRecords s r).channels.map Channel.coil = r.coils :=
    Table.ext_get fun c => by simp only [loadRecords, Table.get_map, Table.get_ofFn]
  have flippers : (loadRecords s r).flippers.map Flipper.cfg = r.flippers :=
    Table.ext_get fun f => by simp only [loadRecords, Table.get_map, Table.get_ofFn]
  have links : (loadRecords s r).links.map Link.cfg = r.links :=
    Table.ext_get fun k => by simp only [loadRecords, Table.get_map, Table.get_ofFn]
  have steppers : (loadRecords s r).steppers.map Stepper.cfg = r.steppers :=
    Table.ext_get fun t => by simp only [loadRecords, Table.get_map, Table.get_ofFn]
  have switches : (loadRecords s r).sw.inputs.map SwitchInput.cfg = r.switches :=
    Table.ext_get fun w => by simp only [loadRecords, Table.get_map, Table.get_ofFn]
  have lamps : (loadRecords s r).lamp.lamps.map Lamp.cfg = r.lamps :=
    Table.ext_get fun l => by simp only [loadRecords, Table.get_map, Table.get_ofFn]
  rw [workingProfile, coils, flippers, links, steppers, switches, lamps]
  rfl

theorem workingProfile_loadStarted (s : State) : workingProfile (loadStarted s) = s.store.loaded :=
  (reportProfile_quiet (loadRecords s s.store.loaded)).profile.trans (workingProfile_loadRecords _ _)

theorem loadStarted_store (s : State) : (loadStarted s).store = s.store := (reportProfile_quiet (loadRecords s s.store.loaded)).store

theorem loaded (h : RecordsJoined s) : s.store.loaded.Joined := by
  rw [ProfileStore.loaded]
  split
  · exact h.stored
  · exact .unconfigured

theorem loadStarted (h : RecordsJoined s) : RecordsJoined (loadStarted s) :=
  h.of_working (workingProfile_loadStarted s ▸ h.loaded) (loadStarted_store s)

theorem profileLoadEnd (h : RecordsJoined s) : RecordsJoined (profileLoadEnd s) := by
  have advanced : RecordsJoined { s with orders := s.orders + 1 } := ⟨h.working, h.stored, h.copied⟩
  unfold Machine.profileLoadEnd
  split
  · exact advanced.loadStarted.quiet (endLoad_quiet _ _)
  · exact h

theorem saveComplete (h : RecordsJoined s) : RecordsJoined (saveComplete s) := by
  unfold Machine.saveComplete
  split
  · exact h
  · rename_i save hsave
    split
    · exact ⟨h.working, h.copied save hsave, fun _ hnone => nomatch hnone⟩
    · exact h

theorem partTimeTick (h : RecordsJoined s) : RecordsJoined (partTimeTick s) where
  working := (partTimeTick_profile s).symm ▸ h.working
  stored := h.stored
  copied save hsave := by
    obtain ⟨old, hold, rfl⟩ := Option.map_eq_some_iff.1 hsave
    exact h.copied old hold

theorem livenessExpiry (h : RecordsJoined s) (p : Port) : RecordsJoined (livenessExpiry p s) := by
  refine h.of_working ((livenessExpiry_ongoing p s).profile.symm ▸ h.working) ?_
  unfold Machine.livenessExpiry
  split
  · obtain ⟨v, hv, _, he⟩ := lapseOwnWork_coilWork p s
    calc (lapse p s).store = (withoutGroupClaims (lapseOwnWork p s) p).store := (lapse_quiet p s).store
      _ = v.store := by rw [he]; rfl
      _ = s.store := hv.store
  · rfl

theorem leads_of_loud_event (h : RecordsJoined s) (c : Instr) (hline : requestLine c = none) (hq : quietCommand c = false) :
    Leads c s RecordsJoined := by
  cases c <;> try cases hq
  all_goals try cases hline
  case powerOnReset => exact ⟨_, rfl, h.resetWith _⟩
  case pinReset => exact ⟨_, rfl, h.resetWith _⟩
  case profileLoadEnd => exact ⟨_, rfl, h.profileLoadEnd⟩
  case saveComplete => exact ⟨_, rfl, h.saveComplete⟩
  case replySent p => exact ⟨_, rfl, h.replySent p⟩
  case livenessExpiry p => exact ⟨_, rfl, h.livenessExpiry p⟩
  case partTimeTick => exact ⟨_, rfl, h.partTimeTick⟩

theorem leads (h : RecordsJoined s) (c : Instr) : Leads c s RecordsJoined := by
  cases hq : quietCommand c with
  | true => exact lasting.leads c hq h
  | false =>
    cases hline : requestLine c with
    | none => exact h.leads_of_loud_event c hline hq
    | some line => exact lasting.leads_request hline (fun _ hu _ => hu.ownRules_of_loud hline hq) h

end RecordsJoined

/-- Settles O6: a quiet command writes no record, and each other one keeps the conditions by the checks it makes. -/
theorem everyStepKeepsTheRecordsJoined : Obligations.EveryStepKeepsTheRecordsJoined :=
  fun _ _ => step_keeps (fun _ _ h => ⟨h.working, h.stored, h.copied⟩) fun c _ h => h.leads c

/-! ### The state after reset (O3) -/

theorem workingProfile_reset : workingProfile State.reset = Profile.unconfigured := by
  have coils : State.reset.channels.map Channel.coil = Profile.unconfigured.coils :=
    Table.ext_get fun c => by
      simp only [State.reset, Profile.unconfigured, Table.get_map, Table.get_replicate]
      rfl
  rw [workingProfile, coils]
  rfl

theorem reset_chan (c : ChannelId) : State.reset.chan c = Channel.reset := Table.get_replicate _ _

theorem reset_safe : Safe State.reset where
  listFits := Nat.zero_le _
  oneEach := List.nodup_nil
  general := by
    rw [generalLoads]
    simp only [reset_chan]
    decide
  flipper := by
    rw [flipperLoads]
    simp only [reset_chan]
    decide
  pool := Nat.zero_le _
  duty c := by rw [reset_chan]; decide
  heat c := by rw [reset_chan]; decide
  claims c h := by rw [reset_chan] at h; cases h
  working := workingProfile_reset ▸ Profile.sound_unconfigured
  stored := Profile.sound_unconfigured
  copied _ hsave := nomatch hsave
  queues p := by cases p <;> exact Nat.zero_le _

/-- Settles O3: the records after reset are unconfigured, both ports are LIVE, and nothing loads a pool. -/
theorem resetStateHasTheInvariants : Obligations.ResetStateHasTheInvariants :=
  ⟨reset_safe, ⟨workingProfile_reset ▸ .unconfigured, .unconfigured, fun _ hsave => nomatch hsave⟩,
    .of_live fun p => by cases p <;> rfl⟩

end Sys2Proof.Machine
end

section
/-! Frames: what the rows of a group of commands leave as it was, read off the few shapes that a served or waiting request can have. -/

namespace Sys2Proof.Machine

/-! ### The shapes of a request row (R157) -/

/-- The state in which a request's own rules answer: the sender's record written, and the sender served last. -/
def servedAs (s : State) (p : Port) (x : PortRec) : State := { s.setPort p x with lastServed := p }

theorem take_setPort (s : State) (p : Port) (x : PortRec) :
    take (s.setPort p x) p = servedAs s p { x with hold := none, live := true } := by cases p <;> rfl

/-- A request row writes its sender's record alone (it waits, its frame is discarded, or it is turned away), or is answered by its own
rules, after which the sender's record is written again. -/
theorem catalogued_shape (p : Port) (kind : Byte) (n : Nat) (body : List Byte) (carry : State → Answer) (s : State) :
    (∃ x, catalogued p kind n body carry s = s.setPort p x) ∨
    (∃ x y, catalogued p kind n body carry s = (servedAs s p x).setPort p y) ∨
    ∃ x y, x.live = true ∧ catalogued p kind n body carry s = (carry (servedAs s p x)).state.setPort p y := by
  obtain ⟨x, hx⟩ := presented_eq_setPort p kind body s
  simp only [catalogued, request, hx, take_setPort, decideRequest]
  split_ifs
  · exact .inr (.inl ⟨_, _, rfl⟩)
  · exact .inr (.inl ⟨_, _, rfl⟩)
  · exact .inr (.inr ⟨_, _, rfl, rfl⟩)
  · exact .inl ⟨x, rfl⟩

theorem servedAs_setPort_port (s : State) (p : Port) (x y : PortRec) : ((servedAs s p x).setPort p y).port p = y :=
  State.port_setPort_self _ _ _

/-! ### Commands of the port alone -/

theorem PortFrame.setPort (s : State) (p : Port) (x : PortRec) : PortFrame p s (s.setPort p x) := by cases p <;> rfl

theorem PortFrame.served (s : State) (p : Port) (x y : PortRec) : PortFrame p s ((servedAs s p x).setPort p y) := by cases p <;> rfl

/-- A request that answers with its sender's record alone written. -/
theorem PortFrame.catalogued {p : Port} {carry : State → Answer} (h : ∀ u, ∃ x, (carry u).state = u.setPort p x) (kind : Byte) (n : Nat)
    (body : List Byte) (s : State) : PortFrame p s (catalogued p kind n body carry s) := by
  obtain ⟨x, he⟩ | ⟨x, y, he⟩ | ⟨x, y, _, he⟩ := catalogued_shape p kind n body carry s
  · exact he ▸ .setPort s p x
  · exact he ▸ .served s p x y
  · obtain ⟨z, hz⟩ := h (servedAs s p x)
    rw [he, hz, State.setPort_setPort]
    exact .served s p x y

theorem unchanged_setPort {p : Port} {u t : State} (h : t = u) : ∃ x, t = u.setPort p x := ⟨_, h.trans (State.setPort_port u p).symm⟩

theorem configurePortRequest_setPort (p : Port) (body : List Byte) (u : State) :
    ∃ x, (configurePortRequest p body u).state = u.setPort p x := by
  unfold configurePortRequest
  split
  · exact unchanged_setPort rfl
  · exact ⟨_, rfl⟩

/-- The reading requests and those of the port write the sender's record alone. -/
theorem ownRules_setPort {c : Instr} {p : Port} {kind : Byte} {n : Nat} {body : List Byte}
    (hline : requestLine c = some (p, kind, n, body)) (hp : portOnly c = some p) (u : State) :
    ∃ x, (ownRules c u).state = u.setPort p x := by
  cases c <;> try cases hp
  all_goals cases hline
  case ping => exact unchanged_setPort rfl
  case readHeat => exact unchanged_setPort (readHeatRequest_state _ u)
  case readFlipper => exact unchanged_setPort (readFlipperRequest_state _ u)
  case readLink => exact unchanged_setPort (readLinkRequest_state _ u)
  case readStepper => exact unchanged_setPort (readStepperRequest_state _ u)
  case readBank => exact unchanged_setPort (readBankRequest_state _ u)
  case readSwitches => exact unchanged_setPort rfl
  case readLamps => exact unchanged_setPort rfl
  case readConfig => exact unchanged_setPort (readConfigRequest_state _ u)
  case setMask => exact ⟨_, rfl⟩
  case configurePort => exact configurePortRequest_setPort _ _ u
  case resetPart => exact unchanged_setPort rfl

theorem PortFrame.of_setPort {p : Port} {s t : State} (h : ∃ x, t = s.setPort p x) : PortFrame p s t := by
  obtain ⟨x, rfl⟩ := h
  exact .setPort s p x

theorem interByteGapTimeout_setPort (p : Port) (s : State) : ∃ x, interByteGapTimeout p s = s.setPort p x := by
  unfold interByteGapTimeout
  split
  · exact abandonFrame_eq_setPort s p
  · exact unchanged_setPort rfl

theorem unknownKindRequest_frame (p : Port) (kind : Byte) (body : List Byte) (s : State) :
    PortFrame p s (unknownKindRequest p kind body s) := by
  obtain ⟨x, hx⟩ := presented_eq_setPort p kind body s
  simp only [unknownKindRequest, request, hx, take_setPort]
  split_ifs
  · exact .of_setPort (unchanged_setPort rfl)
  · exact .served s p _ _
  · exact .setPort s p x

/-- The events of a port's link, and a request of an unknown kind. -/
theorem leads_portFrame_of_event {c : Instr} {p : Port} (hline : requestLine c = none) (hp : portOnly c = some p) (s : State) :
    Leads c s (PortFrame p s) := by
  cases c <;> try cases hp
  all_goals try cases hline
  case frameReceived b stop => exact ⟨_, rfl, .of_setPort (receiveByte_eq_setPort s p b stop)⟩
  case interByteGapTimeout => exact ⟨_, rfl, .of_setPort (interByteGapTimeout_setPort p s)⟩
  case unknownKindRequest kind body => exact ⟨_, rfl, unknownKindRequest_frame p kind body s⟩
  case byteReceived b stop => exact ⟨_, rfl, .of_setPort (receiveByte_eq_setPort s p b stop)⟩

/-- A row that names a port as its only one is sent by that port. -/
theorem sender_of_portOnly {c : Instr} {p q : Port} {kind : Byte} {n : Nat} {body : List Byte}
    (hline : requestLine c = some (q, kind, n, body)) (hp : portOnly c = some p) : q = p := by
  cases c <;> try cases hp
  all_goals cases hline
  all_goals rfl

theorem leads_portFrame {c : Instr} {p : Port} (hp : portOnly c = some p) (s : State) : Leads c s (PortFrame p s) := by
  cases hline : requestLine c with
  | none => exact leads_portFrame_of_event hline hp s
  | some line =>
    obtain ⟨q, kind, n, body⟩ := line
    obtain rfl := sender_of_portOnly hline hp
    exact ⟨_, exec_requestLine hline s, .catalogued (ownRules_setPort hline hp) kind n body s⟩

/-! ### Coil work -/

/-- What coil work leaves as it was. -/
theorem CoilWork.frame {s t : State} (h : CoilWork s t) :
    t = { s with
      channels := t.channels
      arb := t.arb
      flippers := t.flippers
      links := t.links
      steppers := t.steppers
      latches := t.latches } := by
  obtain ⟨pending, channels, coolTimer, supply, arb, flippers, links, steppers, banks, sw, lamp, ports, latches, lastServed, part,
    store, orders⟩ := t
  simp only [State.mk.injEq, true_and]
  exact ⟨h.pending, h.coolTimer, h.supply, h.banks, h.sw, h.lamp, h.ports, h.lastServed, h.part, h.store, h.orders⟩

theorem CoilWork.coilFrame {s t : State} (h : CoilWork s t) : CoilFrame s t := ⟨h.frame, h.profile⟩

theorem CoilRequestFrame.setPort (s : State) (p : Port) (x : PortRec) : CoilRequestFrame p s (s.setPort p x) := by
  cases p <;> exact ⟨rfl, rfl⟩

/-- Coil work in the state in which the request is answered, and the sender's record written after it. -/
theorem CoilRequestFrame.served {s v : State} {p : Port} {x : PortRec} (h : CoilWork (servedAs s p x) v) (y : PortRec) :
    CoilRequestFrame p s (v.setPort p y) := by
  refine ⟨?_, h.profile⟩
  have hv := h.frame
  obtain ⟨pending, channels, coolTimer, supply, arb, flippers, links, steppers, banks, sw, lamp, ports, latches, lastServed, part,
    store, orders⟩ := v
  cases hv
  cases p <;> rfl

theorem ownRules_coilWork {c : Instr} {p : Port} {kind : Byte} {n : Nat} {body : List Byte} {u : State}
    (hline : requestLine c = some (p, kind, n, body)) (hc : (coilRequest c).isSome = true) (hl : (u.port p).live = true) :
    CoilWork u (ownRules c u).state := by
  cases c <;> try cases hc
  all_goals cases hline
  case pulse => exact .pulseRequest _ hl
  case holdOn => exact .holdRequest _ hl
  case holdOff => exact .holdRequest _ hl
  case disableChannel => exact .disableChannelRequest _ u
  case enableChannel => exact .enableChannelRequest _ u
  case clearStats => exact .clearStatsRequest _ u
  case step => exact .stepRequest _ hl
  case stopStepper => exact .stopStepperRequest _ u
  case home => exact .homeRequest _ hl
  case setPosition => exact .setPositionRequest _ u
  case addScore => exact .addScoreRequest _ hl

theorem coilRequest_line {c : Instr} {p : Port} (hc : coilRequest c = some p) : ∃ kind n body, requestLine c = some (p, kind, n, body) := by
  cases c <;> cases hc <;> exact ⟨_, _, _, rfl⟩

theorem leads_coilRequestFrame {c : Instr} {p : Port} (hc : coilRequest c = some p) (s : State) : Leads c s (CoilRequestFrame p s) := by
  obtain ⟨kind, n, body, hline⟩ := coilRequest_line hc
  refine ⟨_, exec_requestLine hline s, ?_⟩
  obtain ⟨x, he⟩ | ⟨x, y, he⟩ | ⟨x, y, hl, he⟩ := catalogued_shape p kind n body (ownRules c) s
  · exact he ▸ .setPort s p x
  · exact he ▸ .served (.refl _) y
  · refine he ▸ .served (ownRules_coilWork hline (hc ▸ rfl) ?_) y
    exact (congrArg PortRec.live (State.port_setPort_self s p x)).trans hl

theorem leads_coilFrame {c : Instr} (hc : coilEvent c = true) (s : State) : Leads c s (CoilFrame s) := by
  cases c <;> try cases hc
  case driveEnd c => exact ⟨_, rfl, (CoilWork.driveEnd c s).coilFrame⟩
  case recoveryGapExpiry c => exact ⟨_, rfl, (CoilWork.recoveryGapExpiry c s).coilFrame⟩
  case spacingExpiry t => exact ⟨_, rfl, (CoilWork.spacingExpiry t s).coilFrame⟩
  case deadlineExpiry c => exact ⟨_, rfl, (CoilWork.deadlineExpiry c s).coilFrame⟩
  case lockoutExpiry k => exact ⟨_, rfl, (CoilWork.lockoutExpiry k s).coilFrame⟩
  case flipperEffectiveMinReached f => exact ⟨_, rfl, (CoilWork.flipperMinReached f s).coilFrame⟩

/-- Settles O9: the reads write their port's record, the requests and events of the coils do coil work. -/
theorem readsPortsAndCoilsKeepToTheirOwnState : Obligations.ReadsPortsAndCoilsKeepToTheirOwnState :=
  ⟨fun _ _ s _ hp ht => (leads_portFrame hp s).elim ht, fun _ _ s _ hc ht => (leads_coilRequestFrame hc s).elim ht,
    fun _ s _ hc ht => (leads_coilFrame hc s).elim ht⟩

/-! ### Lamps, queues, latches and the store -/

/-- A request row whose own rules are the identity or one operation `f`, seen from outside: a property of the sender's record written,
and of `f` in between. -/
theorem leads_of_shapes {c : Instr} {p : Port} {kind : Byte} {n : Nat} {body : List Byte}
    (hline : requestLine c = some (p, kind, n, body)) {s : State} {P : State → Prop} (hwaits : ∀ x, P (s.setPort p x))
    (hserved : ∀ x y, P ((servedAs s p x).setPort p y))
    (hanswered : ∀ x y, P ((ownRules c (servedAs s p x)).state.setPort p y)) : Leads c s P := by
  refine ⟨_, exec_requestLine hline s, ?_⟩
  obtain ⟨x, he⟩ | ⟨x, y, he⟩ | ⟨x, y, _, he⟩ := catalogued_shape p kind n body (ownRules c) s
  · exact he ▸ hwaits x
  · exact he ▸ hserved x y
  · exact he ▸ hanswered x y

/-- The sender's layer, its port's record and the port served last. -/
def LayerFrame (p : Port) (s t : State) : Prop :=
  t = { s with
    lamp := { s.lamp with layers := s.lamp.layers.set p (t.lamp.layers.get p) }
    ports := s.ports.set p (t.port p)
    lastServed := t.lastServed }

theorem LayerFrame.waits (s : State) (p : Port) (x : PortRec) : LayerFrame p s (s.setPort p x) := by cases p <;> rfl

theorem LayerFrame.served (s : State) (p : Port) (x y : PortRec) : LayerFrame p s ((servedAs s p x).setPort p y) := by cases p <;> rfl

theorem LayerFrame.written (s : State) (p : Port) (x y : PortRec) (z : Layer) :
    LayerFrame p s ((setLayer (servedAs s p x) p z).setPort p y) := by cases p <;> rfl

theorem lampsRequest_shape (p : Port) (body : List Byte) (u : State) :
    (lampsRequest p body u).state = u ∨ ∃ z, (lampsRequest p body u).state = setLayer u p z := by
  unfold lampsRequest
  dsimp only
  split
  · exact .inl rfl
  · split_ifs
    · exact .inl rfl
    · exact .inl rfl
    · exact .inr ⟨_, rfl⟩

theorem lampCommitRequest_shape (p : Port) (body : List Byte) (u : State) :
    (lampCommitRequest p body u).state = u ∨ ∃ z, (lampCommitRequest p body u).state = setLayer u p z := by
  unfold lampCommitRequest
  dsimp only
  split
  · exact .inl rfl
  · split_ifs
    · exact .inl rfl
    · exact .inr ⟨_, rfl⟩

theorem leads_layerFrame {c : Instr} {p : Port} {kind : Byte} {n : Nat} {body : List Byte}
    (hline : requestLine c = some (p, kind, n, body))
    (hshape : ∀ u, (ownRules c u).state = u ∨ ∃ z, (ownRules c u).state = setLayer u p z) (s : State) :
    Leads c s (LayerFrame p s) := by
  refine leads_of_shapes hline (LayerFrame.waits s p) (LayerFrame.served s p) fun x y => ?_
  obtain he | ⟨z, he⟩ := hshape (servedAs s p x)
  · rw [he]; exact .served s p x y
  · rw [he]; exact .written s p x y z

/-- The lamp records and the budget, no level, with the sender's record and the port served last. -/
def LampRecordFrame (p : Port) (s t : State) : Prop :=
  t = { s with
    lamp := { s.lamp with lamps := t.lamp.lamps, budget := t.lamp.budget }
    ports := s.ports.set p (t.port p)
    lastServed := t.lastServed } ∧
  ∀ l, (t.lamp.lamps.get l).target = (s.lamp.lamps.get l).target ∧ (t.lamp.lamps.get l).ramp = (s.lamp.lamps.get l).ramp ∧
    (t.lamp.lamps.get l).applied = (s.lamp.lamps.get l).applied

/-- CONFIGURE LAMP writes records or the budget (R152): the levels, the layers, Lb in use, the sum and the frame timer stay. -/
theorem configuredLamps_frame {u v : LampUnit} {body : List Byte} (h : configuredLamps u body = some v) :
    v = { u with lamps := v.lamps, budget := v.budget } ∧
    ∀ l, (v.lamps.get l).target = (u.lamps.get l).target ∧ (v.lamps.get l).ramp = (u.lamps.get l).ramp ∧
      (v.lamps.get l).applied = (u.lamps.get l).applied := by
  unfold configuredLamps at h
  split at h
  · cases h
  · obtain ⟨r, _, rfl⟩ := Option.map_eq_some_iff.1 h
    refine ⟨rfl, fun l => ?_⟩
    dsimp only
    rw [Table.get_modify]
    split
    · rename_i e; subst e; exact ⟨rfl, rfl, rfl⟩
    · exact ⟨rfl, rfl, rfl⟩
  · obtain ⟨r, _, rfl⟩ := Option.map_eq_some_iff.1 h
    refine ⟨rfl, fun l => ?_⟩
    rw [Table.get_map]
    exact ⟨rfl, rfl, rfl⟩
  · obtain ⟨lb, _, rfl⟩ := Option.map_eq_some_iff.1 h
    exact ⟨rfl, fun l => ⟨rfl, rfl, rfl⟩⟩

theorem leads_lampRecordFrame (p : Port) (body : List Byte) (s : State) :
    Leads (.configureLamp p body) s (LampRecordFrame p s) := by
  have kept (x y : PortRec) : LampRecordFrame p s ((servedAs s p x).setPort p y) := by
    cases p <;> exact ⟨rfl, fun _ => ⟨rfl, rfl, rfl⟩⟩
  refine leads_of_shapes rfl (fun x => by cases p <;> exact ⟨rfl, fun _ => ⟨rfl, rfl, rfl⟩⟩) kept fun x y => ?_
  change LampRecordFrame p s ((configureLampRequest body (servedAs s p x)).state.setPort p y)
  unfold configureLampRequest
  split
  · exact kept x y
  · rename_i v hv
    split
    · exact kept x y
    · obtain ⟨he, hlevels⟩ := configuredLamps_frame hv
      refine ⟨?_, hlevels⟩
      dsimp only [Answer.done, Answer.okWith]
      rw [he]
      cases p <;> rfl

/-- The sender's queue. -/
theorem leads_readEvents_frame (p : Port) (body : List Byte) (s : State) :
    Leads (.readEvents p body) s fun t => t = { s with
      sw := { s.sw with queues := s.sw.queues.set p (t.sw.queues.get p) }
      ports := s.ports.set p (t.port p)
      lastServed := t.lastServed } :=
  leads_of_shapes rfl (fun x => by cases p <;> rfl) (fun x y => by cases p <;> rfl) fun x y => by cases p <;> rfl

/-- The sender's latch. -/
theorem leads_readFlags_frame (p : Port) (body : List Byte) (s : State) :
    Leads (.readFlags p body) s fun t => t = { s with
      latches := s.latches.set p (t.latch p)
      ports := s.ports.set p (t.port p)
      lastServed := t.lastServed } :=
  leads_of_shapes rfl (fun x => by cases p <;> rfl) (fun x y => by cases p <;> rfl) fun x y => by cases p <;> rfl

/-- The store's mark and save, with the sender's record and the port served last. -/
def SaveFrame (p : Port) (s t : State) : Prop :=
  t = { s with store := t.store, ports := s.ports.set p (t.port p), lastServed := t.lastServed } ∧
    t.store.records = s.store.records ∧ t.store.checksum = s.store.checksum

theorem saveProfileRequest_shape (p : Port) (u : State) : (saveProfileRequest p u).state = u ∨
    ∃ save, (saveProfileRequest p u).state = u.setStore { u.store with mark := false, save := some save } := by
  unfold saveProfileRequest
  split
  · exact .inl rfl
  · exact .inr ⟨_, rfl⟩

theorem leads_saveFrame (p : Port) (body : List Byte) (s : State) : Leads (.saveProfile p body) s (SaveFrame p s) := by
  have kept (x y : PortRec) : SaveFrame p s ((servedAs s p x).setPort p y) := by cases p <;> exact ⟨rfl, rfl, rfl⟩
  refine leads_of_shapes rfl (fun x => by cases p <;> exact ⟨rfl, rfl, rfl⟩) kept fun x y => ?_
  obtain he | ⟨save, he⟩ := saveProfileRequest_shape p (servedAs s p x)
  · exact he.symm ▸ kept x y
  · change SaveFrame p s ((saveProfileRequest p (servedAs s p x)).state.setPort p y)
    rw [he]
    cases p <;> exact ⟨rfl, rfl, rfl⟩

theorem saveComplete_frame (s : State) : saveComplete s = { s with store := (saveComplete s).store, latches := (saveComplete s).latches } := by
  unfold saveComplete
  split
  · rfl
  · split <;> rfl

theorem lampFrame_frame (s : State) : lampFrame s = { s with lamp := (lampFrame s).lamp } ∧ (lampFrame s).lamp.budget = s.lamp.budget := by
  unfold lampFrame
  split <;> exact ⟨rfl, rfl⟩

theorem syncRisingEdge_frame (s : State) : syncRisingEdge s = { s with
    sw := { s.sw with syncHigh := (syncRisingEdge s).sw.syncHigh, syncTimer := (syncRisingEdge s).sw.syncTimer }
    lamp := { s.lamp with layers := (syncRisingEdge s).lamp.layers } } := by
  unfold syncRisingEdge
  split <;> rfl

theorem syncDebouncedFall_frame (s : State) : syncDebouncedFall s = { s with
    sw := { s.sw with syncHigh := (syncDebouncedFall s).sw.syncHigh, syncTimer := (syncDebouncedFall s).sw.syncTimer } } := by
  unfold syncDebouncedFall
  split <;> rfl

theorem syncRawChange_frame (high : Bool) (s : State) : syncRawChange high s = { s with
    sw := { s.sw with syncRaw := (syncRawChange high s).sw.syncRaw, syncTimer := (syncRawChange high s).sw.syncTimer } } := by
  unfold syncRawChange
  dsimp only
  split <;> rfl

theorem setInput_frame (s : State) (w : SwitchId) (x : SwitchInput) :
    s.setInput w x = { s with sw := { s.sw with inputs := s.sw.inputs.set w ((s.setInput w x).input w) } } := by
  rw [State.input_setInput_self]
  rfl

theorem switchRawChange_frame (w : SwitchId) (low : Bool) (s : State) : switchRawChange w low s =
    { s with sw := { s.sw with inputs := s.sw.inputs.set w ((switchRawChange w low s).input w) } } := by
  unfold switchRawChange
  dsimp only
  split
  · rw [State.input, Table.set_get_self]
  · exact setInput_frame s w _

theorem ilkRawChange_frame (closed : Bool) (s : State) : ilkRawChange closed s = { s with
    supply := { s.supply with ilkRaw := (ilkRawChange closed s).supply.ilkRaw, ilkTimer := (ilkRawChange closed s).supply.ilkTimer } } := by
  unfold ilkRawChange
  dsimp only
  split <;> rfl

/-- Settles O10: each row by the frame of its own operation, a request's with its sender's record around it. -/
theorem lampQueueLatchAndStoreFrames : Obligations.LampQueueLatchAndStoreFrames := by
  refine ⟨fun p body s t => ⟨fun h => ?layer, fun h => (leads_lampRecordFrame p body s).elim h,
    fun h => (leads_readEvents_frame p body s).elim h, fun h => (leads_readFlags_frame p body s).elim h,
    fun h => (leads_saveFrame p body s).elim h⟩, fun s t => ⟨?saved, ?frame, ?rise, ?fall⟩, fun high s t => ?syncRaw,
    fun w low s t => ?switchRaw, fun closed s t => ?ilkRaw⟩
  case layer =>
    obtain h | h := h
    · exact (leads_layerFrame (c := .lamps p body) rfl (lampsRequest_shape p body) s).elim h
    · exact (leads_layerFrame (c := .lampCommit p body) rfl (lampCommitRequest_shape p body) s).elim h
  case saved =>
    intro h
    obtain rfl := Host.Outcome.next.inj h
    exact saveComplete_frame s
  case frame =>
    intro h
    obtain rfl := Host.Outcome.next.inj h
    exact lampFrame_frame s
  case rise =>
    intro h
    obtain rfl := Host.Outcome.next.inj h
    exact syncRisingEdge_frame s
  case fall =>
    intro h
    obtain rfl := Host.Outcome.next.inj h
    exact syncDebouncedFall_frame s
  case syncRaw =>
    intro h
    obtain rfl := Host.Outcome.next.inj h
    exact syncRawChange_frame high s
  case switchRaw =>
    intro h
    obtain rfl := Host.Outcome.next.inj h
    exact switchRawChange_frame w low s
  case ilkRaw =>
    intro h
    obtain rfl := Host.Outcome.next.inj h
    exact ilkRawChange_frame closed s

end Sys2Proof.Machine
end

section
/-! The receivers (R155, R156) and the command engine (R157): how the bytes of a frame become a held request, when the engine takes it,
and the requests of the port unit and the store. -/

namespace Sys2Proof.Machine

/-! ### The assembly of a frame (R156) -/

/-- Taking the CRC-8 one byte further is eight steps of its register (R155). -/
theorem crc8_append (l : List Byte) (b : Byte) : crc8 (l ++ [b]) =
    (List.range 8).foldl (fun (r : Byte) _ => if r.msb = true then (r <<< 1) ^^^ 0x07#8 else r <<< 1) (crc8 l ^^^ b) := by
  rw [crc8, List.foldl_append]
  rfl

theorem assemble_port (s : State) (p : Port) (asm : List Byte) :
    (assemble s p asm).port p = { s.port p with assembly := asm, gap := some Config.interByteGap } := State.port_setPort_self _ _ _

theorem assemble_assemble (s : State) (p : Port) (x y : List Byte) : assemble (assemble s p x) p y = assemble s p y := by
  rw [assemble, assemble_port, assemble, State.setPort_setPort, assemble]

theorem clearAssembly_assemble (s : State) (p : Port) (asm : List Byte) : clearAssembly (assemble s p asm) p = clearAssembly s p := by
  rw [clearAssembly, assemble_port, assemble, State.setPort_setPort, clearAssembly]

theorem clearAssembly_port (s : State) (p : Port) : (clearAssembly s p).port p = { s.port p with assembly := [], gap := none } :=
  State.port_setPort_self _ _ _

/-- The record of a port whose started frame is abandoned (R156). -/
theorem abandonFrame_eq (s : State) (p : Port) : abandonFrame s p = s.setPort p
    { s.port p with assembly := [], gap := none, linkErrors := min 65535 ((s.port p).linkErrors + 1) } := by
  rw [abandonFrame, countLinkError, clearAssembly_port, clearAssembly, State.setPort_setPort]
  rfl

theorem receiveByte_start {s : State} {p : Port} (h : (s.port p).assembly = []) :
    receiveByte s p 0xC3#8 true = assemble s p [0xC3#8] := by
  rw [receiveByte, h]
  rfl

theorem receiveByte_outside {s : State} {p : Port} {b : Byte} {stop : Bool} (h : (s.port p).assembly = []) (hb : b ≠ 0xC3#8) :
    receiveByte s p b stop = s := by
  rw [receiveByte, h]
  exact if_pos hb

theorem receiveByte_broken {s : State} {p : Port} {b : Byte} (h : (s.port p).assembly ≠ []) :
    receiveByte s p b false = abandonFrame s p := by
  rw [receiveByte]
  exact (if_neg h).trans (if_pos rfl)

/-- The byte after C3h is the length. -/
theorem receiveByte_length {s : State} {p : Port} {b : Byte} (h : (s.port p).assembly = [0xC3#8]) :
    receiveByte s p b true = if 56 < b.toNat then abandonFrame s p else assemble s p [0xC3#8, b] := by
  rw [receiveByte, h]
  rfl

/-- While bytes of kind and body are missing, a byte is appended. -/
theorem receiveByte_append {s : State} {p : Port} {b n x : Byte} {rest : List Byte}
    (h : (s.port p).assembly = x :: n :: rest) (hroom : rest.length < 1 + n.toNat) :
    receiveByte s p b true = assemble s p (x :: n :: rest ++ [b]) := by
  have hmore : (x :: n :: rest).length < 3 + ((x :: n :: rest).getD 1 0#8).toNat := by
    simp only [List.length_cons, List.getD_cons_succ, List.getD_cons_zero]
    omega
  rw [receiveByte, h]
  refine (if_neg (List.cons_ne_nil _ _)).trans <| (if_neg (by decide)).trans <| (if_neg ?_).trans (if_pos hmore)
  simp

/-- The check byte completes the frame. -/
theorem receiveByte_check {s : State} {p : Port} {b n x kind : Byte} {body : List Byte}
    (h : (s.port p).assembly = x :: n :: kind :: body) (hlen : body.length = n.toNat) :
    receiveByte s p b true = completeFrame s p (x :: n :: kind :: body) b := by
  have hwhole : ¬(x :: n :: kind :: body).length < 3 + ((x :: n :: kind :: body).getD 1 0#8).toNat := by
    simp only [List.length_cons, List.getD_cons_succ, List.getD_cons_zero]
    omega
  rw [receiveByte, h]
  refine (if_neg (List.cons_ne_nil _ _)).trans <| (if_neg (by decide)).trans <| (if_neg ?_).trans (if_neg hwhole)
  simp

/-- What the check byte does to the port's record: a wrong check or a full hold is a link error, else the request is held (R156). -/
theorem completeFrame_eq (s : State) (p : Port) (x n kind b : Byte) (body : List Byte) :
    let y := s.port p
    let error := { y with assembly := [], gap := none, linkErrors := min 65535 (y.linkErrors + 1) }
    completeFrame s p (x :: n :: kind :: body) b = s.setPort p (
      if b ≠ crc8 (n :: kind :: body) then error
      else if y.hold.isSome then error
      else { y with assembly := [], gap := none, hold := some ⟨kind, body⟩ }) := by
  dsimp only
  rw [completeFrame, clearAssembly_port]
  simp only [List.drop_succ_cons, List.drop_zero, List.getD_cons_succ, List.getD_cons_zero, ne_comm (a := b)]
  split_ifs
  · exact abandonFrame_eq s p
  · exact abandonFrame_eq s p
  · rw [clearAssembly, State.setPort_setPort]

/-- The bytes of kind and body, one after another. -/
theorem foldl_receiveByte_append (s : State) (p : Port) (x n : Byte) (l rest : List Byte) (h : (rest ++ l).length ≤ 1 + n.toNat) :
    l.foldl (fun u b => receiveByte u p b true) (assemble s p (x :: n :: rest)) = assemble s p (x :: n :: (rest ++ l)) := by
  induction l generalizing rest with
  | nil => rw [List.append_nil]; rfl
  | cons b l ih =>
    have hroom : rest.length < 1 + n.toNat := by simp at h; omega
    rw [List.foldl_cons, receiveByte_append (congrArg PortRec.assembly (assemble_port s p _)) hroom, assemble_assemble]
    have hrest := ih (rest ++ [b]) (by simpa using h)
    rw [List.append_assoc] at hrest
    exact hrest

/-- A whole frame with its CRC-8, at an empty assembly area and an empty hold, is held (R156). -/
theorem receiveFrame_holds {p : Port} {kind : Byte} {body : List Byte} {s : State} (hlen : body.length ≤ 56)
    (hasm : (s.port p).assembly = []) (hhold : (s.port p).hold = none) :
    (requestFrame kind body).foldl (fun u b => receiveByte u p b true) s =
      s.setPort p { s.port p with hold := some ⟨kind, body⟩, gap := none } := by
  have hn : (byte body.length).toNat = body.length := toNat_byte (by omega)
  have hlength : receiveByte (assemble s p [0xC3#8]) p (byte body.length) true = assemble s p [0xC3#8, byte body.length] := by
    rw [receiveByte_length (congrArg PortRec.assembly (assemble_port s p _)), if_neg (by omega), assemble_assemble]
  have hbody := foldl_receiveByte_append s p 0xC3#8 (byte body.length) (kind :: body) [] (by simp [hn])
  rw [List.nil_append] at hbody
  have hstart : requestFrame kind body =
      [0xC3#8, byte body.length] ++ ((kind :: body) ++ [crc8 (byte body.length :: kind :: body)]) := rfl
  rw [hstart, List.foldl_append, List.foldl_cons, List.foldl_cons, List.foldl_nil, receiveByte_start hasm, hlength,
    List.foldl_append, hbody, List.foldl_cons, List.foldl_nil,
    receiveByte_check (congrArg PortRec.assembly (assemble_port s p _)) hn.symm, completeFrame_eq, assemble_port]
  simp [hhold, assemble, State.setPort_setPort, hasm]

theorem interByteGapTimeout_due {s : State} {p : Port} (h : (s.port p).gap = some 0) : interByteGapTimeout p s = abandonFrame s p :=
  if_pos (decide_eq_true h)

theorem interByteGapTimeout_early {s : State} {p : Port} (h : (s.port p).gap ≠ some 0) : interByteGapTimeout p s = s :=
  if_neg (by simpa [due] using h)

/-- Settles O11: the byte that arrives is judged by what the assembly area holds; a frame is its bytes one after another. -/
theorem receiverHoldsOrAbandonsAFrame : Obligations.ReceiverHoldsOrAbandonsAFrame := by
  refine ⟨⟨rfl, crc8_append, fun _ _ => rfl⟩, fun p kind body s hlen hasm hhold => receiveFrame_holds hlen hasm hhold,
    fun p b stop s => ?_⟩
  intro x error
  have abandoned : abandonFrame s p = s.setPort p error := abandonFrame_eq s p
  refine ⟨rfl, fun hasm hb => ?outside, fun hasm => ?start, fun hasm => ?broken, fun hasm hlong => ?length,
    fun n kind body hasm hlen => ?check, fun hgap => ?due, fun hgap => ?early⟩
  case outside => exact congrArg Host.Outcome.next (receiveByte_outside hasm hb)
  case start => exact congrArg Host.Outcome.next (receiveByte_start hasm)
  case broken => exact congrArg Host.Outcome.next ((receiveByte_broken hasm).trans abandoned)
  case length => exact congrArg Host.Outcome.next ((receiveByte_length hasm).trans ((if_pos hlong).trans abandoned))
  case check => exact congrArg Host.Outcome.next ((receiveByte_check hasm hlen).trans (completeFrame_eq s p _ n kind b body))
  case due => exact congrArg Host.Outcome.next ((interByteGapTimeout_due hgap).trans abandoned)
  case early => exact congrArg Host.Outcome.next (interByteGapTimeout_early hgap)

/-! ### The status order (R157) -/

theorem catalogued_taken {p : Port} {kind : Byte} {n : Nat} {body : List Byte} {s : State} (carry : State → Answer)
    (h : (s.port p).hold = some ⟨kind, body⟩) (ht : taken s p = true) :
    catalogued p kind n body carry s = reply p kind (decideRequest kind (body.length = n) carry (take s p)) :=
  request_taken _ h ht

theorem decideRequest_malformed {kind : Byte} {n : Nat} {body : List Byte} (carry : State → Answer) (u : State)
    (h : body.length ≠ n) : decideRequest kind (body.length = n) carry u = .refuse u .malformed :=
  if_pos (by simpa using h)

theorem decideRequest_busy {kind : Byte} {n : Nat} {body : List Byte} (carry : State → Answer) {u : State} (h : body.length = n)
    (hrun : u.inRun = false) (hkind : kind ≠ 0x01#8) : decideRequest kind (body.length = n) carry u = .refuse u .busy :=
  (if_neg (by simpa using h)).trans (if_pos (by simp [hrun, pingKind, hkind]))

/-- Settles O12: the status order of R157, a taken request's length first and the part's state next. -/
theorem malformedAndUnknownComeBeforeBusy : Obligations.MalformedAndUnknownComeBeforeBusy := by
  refine ⟨fun c p kind n body s hline hhold ht => ⟨fun hlen => ?malformed, fun hlen hrun hkind => ?busy⟩,
    fun p kind body s hhold ht hkind => ?unknown⟩
  case malformed => rw [exec_requestLine hline, catalogued_taken _ hhold ht, decideRequest_malformed _ _ hlen, refusedTo]
  case busy => rw [exec_requestLine hline, catalogued_taken _ hhold ht, decideRequest_busy _ hlen ((take_inRun s p).trans hrun) hkind,
    refusedTo]
  case unknown =>
    refine congrArg Host.Outcome.next ?_
    rw [unknownKindRequest, hkind, if_neg Bool.false_ne_true, request_taken _ hhold ht, refusedTo]

/-! ### The turn and the service (R157) -/

theorem otherPort_eq_of_ne {p q : Port} (h : q ≠ p) : q = otherPort p := by
  cases p <;> cases q
  · exact absurd rfl h
  · rfl
  · rfl
  · exact absurd rfl h

/-- The engine takes a held request whose port has no reply leaving, unless the other port may go first. -/
theorem taken_iff (p : Port) (s : State) : taken s p = true ↔ (s.port p).hold.isSome = true ∧ (s.port p).sending = none ∧
    ((s.port (otherPort p)).hold.isSome = true → (s.port (otherPort p)).sending = none → s.lastServed = otherPort p) := by
  have turn : s.lastServed = otherPort p ↔ s.lastServed ≠ p :=
    ⟨fun e => e ▸ otherPort_ne p, otherPort_eq_of_ne⟩
  simp only [taken, canTake, Bool.and_eq_true, Bool.not_eq_true', Bool.and_eq_false_imp, decide_eq_false_iff_not, turn, and_assoc,
    Option.isNone_iff_eq_none, and_imp]

theorem catalogued_waits {p : Port} {kind : Byte} {n : Nat} {body : List Byte} {s : State} (carry : State → Answer)
    (h : (s.port p).hold = some ⟨kind, body⟩) (ht : taken s p = false) : catalogued p kind n body carry s = s :=
  request_waits _ h ht

/-- Settles O13: the turn is read off `taken`, the service off `take` and `reply`. -/
theorem requestIsTakenInItsTurnAndAnswered : Obligations.RequestIsTakenInItsTurnAndAnswered := by
  refine ⟨⟨fun _ _ _ => rfl, rfl⟩, taken_iff, fun c p kind n body s hline hhold ht => ?waits,
    fun p kind bytes status s u => ⟨⟨?hold, Safe.take_live s p, rfl, take_port_other s p⟩, rfl, fun hstatus => ?refused⟩⟩
  case waits => rw [exec_requestLine hline, catalogued_waits _ hhold ht]
  case hold => rw [take_port_self]
  case refused => rw [refusedTo, reply, Answer.refuse, if_neg hstatus]; rfl

/-! ### SAVE PROFILE (R169, R170) -/

/-- Settles O20: the request by the engine's service, the completion by the milliseconds that the save has left. -/
theorem saveProfileCopiesAndCompletes : Obligations.SaveProfileCopiesAndCompletes := by
  refine ⟨fun p s h => ?request, fun save s hsave => ⟨fun hleft => ?done, fun hleft => ?early⟩, fun s hsave => ?none⟩
  case request =>
    refine congrArg Host.Outcome.next ((catalogued_ready (n := 0) _ h rfl).trans ?_)
    rw [saveProfileRequest, apply_ite (reply p 0x23#8)]
    rfl
  case done =>
    refine congrArg Host.Outcome.next ?_
    simp only [saveComplete, hsave, hleft, if_true]
    rfl
  case early =>
    refine congrArg Host.Outcome.next ?_
    simp only [saveComplete, hsave, if_neg hleft]
  case none =>
    refine congrArg Host.Outcome.next ?_
    simp only [saveComplete, hsave]

/-! ### PING (R163) -/

/-- Settles O21: PING passes the status order in any state of the part, and answers without changing anything. -/
theorem pingReportsTheState : Obligations.PingReportsTheState := by
  refine ⟨fun p s hhold ht => ?answer, rfl, rfl, fun _ => rfl,
    fun p s => ⟨Safe.take_live s p, congrArg PortRec.live (take_port_other s p)⟩⟩
  have served : decideRequest pingKind (([] : List Byte).length = 0) (pingRequest p) (take s p) = pingRequest p (take s p) := by
    simp [decideRequest, pingKind]
  refine congrArg Host.Outcome.next ((catalogued_taken (n := 0) (pingRequest p) hhold ht).trans ?_)
  rw [show (0x01#8 : Byte) = pingKind from rfl, served, pingRequest, take_port_self]
  rfl

/-! ### CONFIGURE PORT and RESET PART (R158, R164) -/

/-- Settles O22: both requests by the engine's service, the end of a reply by what the port is sending. -/
theorem configurePortAndResetPart : Obligations.ConfigurePortAndResetPart := by
  refine ⟨fun p x s h => ?configure, fun p s h => ?reset, fun p r s hr => ?sent, fun p s hnone => ?nothing⟩
  case configure =>
    refine congrArg Host.Outcome.next ((catalogued_ready (n := 1) _ h rfl).trans ?_)
    rw [configurePortRequest, apply_ite (reply p 0x21#8)]
    rfl
  case reset =>
    refine congrArg Host.Outcome.next ((catalogued_ready (n := 0) _ h rfl).trans ?_)
    rw [reply, resetPartRequest, Answer.done, Answer.okWith, take_port_self]
    rfl
  case sent =>
    refine congrArg Host.Outcome.next ?_
    cases hresets : r.resets with
    | true => exact replySent_of_resets hr hresets
    | false => exact replySent_of_not_resets hr hresets
  case nothing => exact congrArg Host.Outcome.next (replySent_of_none hnone)

end Sys2Proof.Machine
end

section
/-! The resets and the time until the load ends (R21, R33, R60, R96, R106, R129, R140, R154, R165, R168): the part's state through every
command, what a reset leaves of each block, and that a part whose load has not ended stays asleep. -/

namespace Sys2Proof.Machine

/-! ### The part's state (R168) -/

/-- The commands that reset the part. -/
def ResetsPart (c : Instr) (s : State) : Prop :=
  c = .powerOnReset ∨ c = .pinReset ∨ ∃ p r, c = .replySent p ∧ (s.port p).sending = some r ∧ r.resets = true

/-- Each kind of reset leaves the part as every reset does, with heats of its own. -/
theorem exec_of_resetsPart {c : Instr} {s : State} (h : ResetsPart c s) : ∃ heats, exec c s = .next (resetWith heats s) := by
  obtain rfl | h := h
  · exact ⟨_, rfl⟩
  · exact ⟨_, exec_warm h⟩

/-- What a command may do to the part's state. -/
structure PartGoesOn (c : Instr) (s t : State) : Prop where
  cases : t.part.state = s.part.state ∨ (ResetsPart c s ∧ t.part.state = .starting) ∨ (c = .profileLoadEnd ∧ t.part.state = .run)

theorem lasting_part (x : PartState) : Lasting fun t => t.part.state = x where
  quiet h g := h.accounts.part.trans g
  take _ g := g

theorem loadStarted_part (s : State) : (loadStarted s).part.state = .run := rfl

theorem profileLoadEnd_due {s : State} (h : s.part.load = some 0) :
    profileLoadEnd s = endLoad (freely s.orders allChannels) { s with orders := s.orders + 1 } := if_pos (decide_eq_true h)

theorem profileLoadEnd_early {s : State} (h : s.part.load ≠ some 0) : profileLoadEnd s = s := if_neg (by simpa [due] using h)

theorem endLoad_part (channels : List ChannelId) (s : State) : (endLoad channels s).part.state = .run :=
  (endLoad_quiet channels s).accounts.part

theorem leads_part_of_event (c : Instr) (s : State) (hline : requestLine c = none) (hw : writesRecords c = true) :
    Leads c s (PartGoesOn c s) := by
  cases c <;> try cases hw
  all_goals try cases hline
  case powerOnReset => exact ⟨_, rfl, ⟨.inr (.inl ⟨.inl rfl, rfl⟩)⟩⟩
  case pinReset => exact ⟨_, rfl, ⟨.inr (.inl ⟨.inr (.inl rfl), rfl⟩)⟩⟩
  case profileLoadEnd =>
    refine ⟨_, rfl, ?_⟩
    by_cases hdue : s.part.load = some 0
    · rw [profileLoadEnd_due hdue]
      exact ⟨.inr (.inr ⟨rfl, endLoad_part _ _⟩)⟩
    · rw [profileLoadEnd_early hdue]
      exact ⟨.inl rfl⟩
  case replySent p =>
    refine ⟨_, rfl, ?_⟩
    obtain ⟨r, hr, hresets, he⟩ | hquiet := replySent_cases p s
    · rw [he]
      exact ⟨.inr (.inl ⟨.inr (.inr ⟨p, r, rfl, hr, hresets⟩), rfl⟩)⟩
    · exact ⟨.inl hquiet.accounts.part⟩

theorem leads_part (c : Instr) (s : State) : Leads c s (PartGoesOn c s) := by
  cases hw : writesRecords c with
  | false => exact (leads_ongoing c s hw).mono fun _ h => ⟨.inl h.part⟩
  | true =>
    cases hline : requestLine c with
    | none => exact leads_part_of_event c s hline hw
    | some line =>
      refine Leads.mono ((lasting_part s.part.state).leads_request hline (fun u hu _ => ?_) rfl) fun _ h => ⟨.inl h⟩
      exact (Accounts.ownRules hline hw u).part.trans hu

/-! ### What a reset leaves of the ports (R165) -/

theorem resetWith_port (heats : Table Heat 48) (s : State) (p : Port) : (resetWith heats s).port p = PortRec.reset := by cases p <;> rfl

theorem resetWith_latch (heats : Table Heat 48) (s : State) (p : Port) : (resetWith heats s).latch p = Latch.reset := by cases p <;> rfl

/-- Settles O16: every reset is one and the same but for the heats, and the part's state changes at a reset and at the load's end alone. -/
theorem portUnitAfterEveryReset : Obligations.PortUnitAfterEveryReset := by
  refine ⟨fun c s h => ?reset, fun c s t hs ht => ?starting, fun s hdue => ?ends, fun c s t hs ht => ?runs⟩
  case reset =>
    obtain ⟨heats, he⟩ := exec_of_resetsPart h
    refine ⟨_, he, rfl, rfl, fun q => ?_⟩
    have hlatch := resetWith_latch heats s q
    rw [resetWith_port]
    exact ⟨rfl, rfl, rfl, rfl, rfl, rfl, fun i => hlatch ▸ Latch.reset_get i, rfl, rfl, attnLow_of_latch_reset hlatch⟩
  case starting =>
    obtain h | ⟨_, h⟩ | h := ((leads_part c s).elim ht).cases
    · exact .inl (h.trans hs)
    · exact .inl h
    · exact .inr h
  case ends => exact ⟨_, rfl, profileLoadEnd_due hdue ▸ endLoad_part _ _⟩
  case runs =>
    obtain h | ⟨hreset, _⟩ | ⟨_, h⟩ := ((leads_part c s).elim ht).cases
    · exact .inl (h.trans hs)
    · exact .inr hreset
    · exact .inl h

/-! ### Asleep until the load ends -/

namespace Asleep

variable {s t : State}

/-- Sleep speaks of the part's state, the channels', the flippers', the wait list, the supply and the timers alone. -/
theorem of_same (h : Asleep s) (hpart : t.part.state = s.part.state := by rfl)
    (hchan : ∀ c, (t.chan c).state = (s.chan c).state := by exact fun _ => rfl)
    (hflip : ∀ f, (t.flip f).state = (s.flip f).state := by exact fun _ => rfl)
    (hlist : t.arb.waitList = s.arb.waitList := by rfl) (hstate : t.supply.state = s.supply.state := by rfl)
    (hilk : t.supply.ilkTimer = s.supply.ilkTimer := by rfl) (hcountdown : t.supply.countdown = s.supply.countdown := by rfl)
    (hcool : t.coolTimer = s.coolTimer := by rfl) (hsync : t.sw.syncTimer = s.sw.syncTimer := by rfl)
    (hinput : ∀ w, (t.input w).timer = (s.input w).timer := by exact fun _ => rfl)
    (hframe : t.lamp.frame = s.lamp.frame := by rfl) : Asleep t where
  starting := hpart.trans h.starting
  off c := (hchan c).trans (h.off c)
  flippers f := (hflip f).trans (h.flippers f)
  list := hlist.trans h.list
  down := hstate.trans h.down
  supply := ⟨hilk.trans h.supply.1, hcountdown.trans h.supply.2⟩
  cooling := hcool.trans h.cooling
  switches := ⟨hsync.trans h.switches.1, fun w => (hinput w).trans (h.switches.2 w)⟩
  lamps := hframe.trans h.lamps

theorem setPort (h : Asleep s) (p : Port) (x : PortRec) : Asleep (s.setPort p x) := h.of_same

theorem servedAs (h : Asleep s) (p : Port) (x : PortRec) : Asleep (servedAs s p x) := h.of_same

theorem setLatch (h : Asleep s) (p : Port) (x : Latch) : Asleep (s.setLatch p x) := h.of_same

theorem not_inRun (h : Asleep s) : s.inRun = false := by rw [State.inRun, h.starting]; rfl

theorem not_up (h : Asleep s) : s.supply.state ≠ .up := by rw [h.down]; decide

theorem not_isUp (h : Asleep s) : s.isUp = false := by rw [State.isUp, h.down]; rfl

/-- No attempt does anything while the supply is DOWN. -/
theorem settle (h : Asleep s) : Asleep (settle s) := by
  obtain ⟨a, ha⟩ := settleN_unpowered 49 h.not_up
  rw [Machine.settle, ha]
  exact h.of_same

/-! ### Requests -/

/-- A part whose load has not ended answers a request without its own rules, unless they change nothing (PING). -/
theorem catalogued (h : Asleep s) (p : Port) (kind : Byte) (n : Nat) (body : List Byte) {carry : State → Answer}
    (hping : kind = pingKind → ∀ u, (carry u).state = u) : Asleep (catalogued p kind n body carry s) := by
  obtain ⟨x, hx⟩ := presented_eq_setPort p kind body s
  simp only [Machine.catalogued, request, hx, take_setPort, decideRequest]
  have hserved := h.servedAs p { x with hold := none, live := true }
  split_ifs with hturn hlength hbusy
  · exact hserved.setPort p _
  · exact hserved.setPort p _
  · have hkind : kind = pingKind := by simpa [hserved.not_inRun] using hbusy
    refine setPort ?_ p _
    rw [hping hkind]
    exact hserved
  · exact h.setPort p x

theorem ping_of_kind {c : Instr} {p : Port} {n : Nat} {body : List Byte} (hline : requestLine c = some (p, pingKind, n, body)) :
    ∃ q b, c = .ping q b := by
  cases c <;> cases hline
  exact ⟨_, _, rfl⟩

theorem leads_request (h : Asleep s) {c : Instr} {p : Port} {kind : Byte} {n : Nat} {body : List Byte}
    (hline : requestLine c = some (p, kind, n, body)) : Leads c s Asleep := by
  refine ⟨_, exec_requestLine hline s, h.catalogued p kind n body fun hkind u => ?_⟩
  subst hkind
  obtain ⟨_, _, rfl⟩ := ping_of_kind hline
  rfl

/-! ### Events -/

theorem unknownKindRequest (h : Asleep s) (p : Port) (kind : Byte) (body : List Byte) : Asleep (unknownKindRequest p kind body s) := by
  obtain ⟨x, hx⟩ := presented_eq_setPort p kind body s
  simp only [Machine.unknownKindRequest, request, hx, take_setPort]
  split_ifs
  · exact h
  · exact (h.servedAs p _).setPort p _
  · exact h.setPort p x

theorem of_setPort (h : Asleep s) {p : Port} (ht : ∃ x, t = s.setPort p x) : Asleep t := by
  obtain ⟨x, rfl⟩ := ht
  exact h.setPort p x

theorem saveComplete (h : Asleep s) : Asleep (saveComplete s) := by
  unfold Machine.saveComplete
  split
  · exact h
  · split
    · exact h.of_same
    · exact h

theorem resetWith (heats : Table Heat 48) (s : State) : Asleep (resetWith heats s) where
  starting := rfl
  off c := by rw [resetWith_chan]; rfl
  flippers f := congrArg Flipper.state (Table.get_replicate Flipper.reset f)
  list := rfl
  down := rfl
  supply := ⟨rfl, rfl⟩
  cooling := rfl
  switches := ⟨rfl, fun w => by
    simp only [Machine.resetWith, keepSwitchLevels, State.input, Table.get_map]
    rfl⟩
  lamps := rfl

theorem ilkRawChange (h : Asleep s) (closed : Bool) : Asleep (ilkRawChange closed s) := by
  unfold Machine.ilkRawChange
  dsimp only
  split
  · exact h
  · exact h.of_same (hilk := by simp [h.not_inRun, h.supply.1])

theorem not_due {x : Timer} (h : x = none) : due x = false := by rw [h]; rfl

theorem ilkDebouncedClose (h : Asleep s) : ilkDebouncedClose s = s := by
  simp [Machine.ilkDebouncedClose, not_due h.supply.1]

theorem ilkDebouncedOpen (h : Asleep s) : ilkDebouncedOpen s = s := by
  simp [Machine.ilkDebouncedOpen, not_due h.supply.1]

theorem settleExpiry (h : Asleep s) : settleExpiry s = s := by
  simp [Machine.settleExpiry, not_due h.supply.2]

theorem partTimeTick (h : Asleep s) : Asleep (partTimeTick s) where
  starting := h.starting
  off c := by rw [partTimeTick_chan, h.off]; rfl
  flippers f := by
    simp only [Machine.partTimeTick, State.flip, Table.get_map]
    rw [show (s.flippers.get f).state = .disabled from h.flippers f]
    rfl
  list := by
    change s.arb.waitList.map Entry.tick = []
    rw [h.list]
    rfl
  down := h.down
  supply := ⟨congrArg Timer.tick h.supply.1, congrArg Timer.tick h.supply.2⟩
  cooling := congrArg Timer.tick h.cooling
  switches := ⟨congrArg Timer.tick h.switches.1, fun w => by
    simp only [Machine.partTimeTick, SwitchUnit.tick, State.input, Table.get_map]
    exact congrArg Timer.tick (h.switches.2 w)⟩
  lamps := congrArg Timer.tick h.lamps

theorem setInput (h : Asleep s) (w : SwitchId) {x : SwitchInput} (hx : x.timer = none) : Asleep (s.setInput w x) :=
  h.of_same (hinput := fun v => by
    by_cases e : v = w
    · subst e; rw [State.input_setInput_self, hx, h.switches.2]
    · exact congrArg SwitchInput.timer (Table.get_set_ne _ _ _ _ e))

theorem switchRawChange (h : Asleep s) (w : SwitchId) (low : Bool) : Asleep (switchRawChange w low s) := by
  unfold Machine.switchRawChange
  dsimp only
  split
  · exact h
  · exact h.setInput w (by simp [h.not_inRun])

theorem switchDebounceExpiry (h : Asleep s) (w : SwitchId) : switchDebounceExpiry w s = s := by
  simp [Machine.switchDebounceExpiry, not_due (h.switches.2 w)]

theorem flipperMinReached (h : Asleep s) (f : FlipperId) : flipperMinReached f s = s := by
  simp only [Machine.flipperMinReached, h.flippers f]

theorem lockoutExpiry (h : Asleep s) (k : LinkId) : Asleep (lockoutExpiry k s) := by
  unfold Machine.lockoutExpiry
  split
  · exact h.of_same
  · exact h

theorem syncRawChange (h : Asleep s) (high : Bool) : Asleep (syncRawChange high s) := by
  unfold Machine.syncRawChange
  dsimp only
  split
  · exact h
  · exact h.of_same (hsync := by simp [h.not_inRun, h.switches.1])

theorem syncRisingEdge (h : Asleep s) : syncRisingEdge s = s := by
  simp [Machine.syncRisingEdge, not_due h.switches.1]

theorem syncDebouncedFall (h : Asleep s) : syncDebouncedFall s = s := by
  simp [Machine.syncDebouncedFall, not_due h.switches.1]

theorem lampFrame (h : Asleep s) : lampFrame s = s := by
  simp [Machine.lampFrame, not_due h.lamps]

theorem coolingInterval (h : Asleep s) : coolingInterval s = s := by
  simp [Machine.coolingInterval, not_due h.cooling]

theorem driveEnd (h : Asleep s) (c : ChannelId) : driveEnd c s = s := by
  simp only [Machine.driveEnd, h.off c]

theorem recoveryGapExpiry (h : Asleep s) (c : ChannelId) : recoveryGapExpiry c s = s := by
  simp only [Machine.recoveryGapExpiry, h.off c]

/-- No step is ready while the supply is DOWN. -/
theorem stepTest (h : Asleep s) (t : StepperId) : stepTest s t = s := by
  simp only [Machine.stepTest, stepTestN, stepReady_unpowered h.not_up]

theorem spacingExpiry (h : Asleep s) (t : StepperId) : Asleep (spacingExpiry t s) := by
  have stopped : Asleep (s.setStepper t { s.stepper t with spacing := none }) := h.of_same
  unfold Machine.spacingExpiry
  split
  · rw [stopped.stepTest]
    exact stopped.settle
  · exact h

theorem entryOf (h : Asleep s) (c : ChannelId) : entryOf s c = none := by rw [Machine.entryOf, h.list]; rfl

theorem deadlineExpiry (h : Asleep s) (c : ChannelId) : deadlineExpiry c s = s := by
  simp only [Machine.deadlineExpiry, h.entryOf c]

/-! ### The lapse -/

/-- A flipper that is DISABLED stays so where the FLIPPERS group is not effective. -/
theorem flipperTest_off {s : State} {f : FlipperId} (hon : s.supply.flipOn = false) (hf : (s.flip f).state = .disabled) :
    flipperTest s f = s := by
  have hable : able s f = false := by simp [able, reasonsNotAble, hon]
  simp [flipperTest, hable, hf]

theorem foldl_flipperTest (h : Asleep s) (hon : s.supply.flipOn = false) (l : List FlipperId) : l.foldl flipperTest s = s := by
  induction l with
  | nil => rfl
  | cons f l ih => rw [List.foldl_cons, flipperTest_off hon (h.flippers f), ih]

/-- The groups recomputed while the supply is DOWN are not effective, and no flipper acts. -/
theorem recomputeGroups (h : Asleep s) : Asleep (recomputeGroups s) := by
  unfold Machine.recomputeGroups
  dsimp only
  have recorded : Asleep (s.setSupply { s.supply with
      flipOn := s.isUp && !s.supply.flipClaims.isEmpty, directOn := s.isUp && !s.supply.directClaims.isEmpty }) := h.of_same
  split
  · exact recorded
  · rw [recorded.foldl_flipperTest (by simp [h.not_isUp])]
    exact recorded

theorem foldl_forget_kept (p : Port) (l : List ChannelId) (s : State) :
    (l.foldl (fun s c => s.setChan c ((s.chan c).forget p)) s).flippers = s.flippers ∧
      (l.foldl (fun s c => s.setChan c ((s.chan c).forget p)) s).arb.waitList = s.arb.waitList := by
  induction l generalizing s with
  | nil => exact ⟨rfl, rfl⟩
  | cons c l ih => exact ih (s.setChan c ((s.chan c).forget p))

theorem forgetClaims (h : Asleep s) (p : Port) : Asleep (LapsedWithdrawn.forgetClaims s p) := by
  have work := LapsedWithdrawn.forgetClaims_coilWork s p
  obtain ⟨hflip, hlist⟩ := foldl_forget_kept p allChannels s
  exact h.of_same (hpart := congrArg Part.state work.part)
    (hchan := fun c => by rw [LapsedWithdrawn.forgetClaims_chan]; rfl)
    (hflip := fun f => congrArg (fun t : Table Flipper 6 => (t.get f).state) hflip)
    (hlist := hlist) (hstate := congrArg SupplyMonitor.state work.supply)
    (hilk := congrArg SupplyMonitor.ilkTimer work.supply) (hcountdown := congrArg SupplyMonitor.countdown work.supply)
    (hcool := work.coolTimer) (hsync := congrArg SwitchUnit.syncTimer work.sw)
    (hinput := fun w => congrArg (fun u : SwitchUnit => (u.inputs.get w).timer) work.sw)
    (hframe := congrArg LampUnit.frame work.lamp)

theorem forgetEntries (h : Asleep s) (p : Port) : Asleep (LapsedWithdrawn.forgetEntries s p) :=
  h.of_same (hlist := by simp only [LapsedWithdrawn.forgetEntries, State.setWaitList, h.list]; rfl)

theorem endUnclaimedHold (h : Asleep s) (c : ChannelId) : endUnclaimedHold s c = s := by
  simp [Machine.endUnclaimedHold, h.off c]

theorem foldl_endUnclaimedHold (h : Asleep s) (l : List ChannelId) : l.foldl Machine.endUnclaimedHold s = s := by
  induction l with
  | nil => rfl
  | cons c l ih => rw [List.foldl_cons, h.endUnclaimedHold, ih]

/-- With no hold and no entry, the lapse's coil work is the claims alone. -/
theorem lapseCoilWork (h : Asleep s) (p : Port) : Asleep (lapseCoilWork s p) := by
  have forgotten := (h.forgetClaims p).forgetEntries p
  rw [LapsedWithdrawn.lapseCoilWork_eq]
  simp only [forgotten.foldl_endUnclaimedHold, forgotten.list]
  exact forgotten

/-- The origins, the layer and the queue are none of sleep's. -/
theorem withdrawn (h : Asleep s) (p : Port) : Asleep (lapseQueue (lapseLayer (forgetOrigins s p) p) p) := h.of_same

theorem lapseOwnWork (h : Asleep s) (p : Port) : Asleep (lapseOwnWork p s) :=
  withdrawn (lapseCoilWork (h.setPort p _) p) p

theorem withoutGroupClaims (h : Asleep s) (p : Port) : Asleep (withoutGroupClaims s p) := h.of_same

theorem lapse (h : Asleep s) (p : Port) : Asleep (lapse p s) := by
  rw [lapse_eq, lapseGroups_eq]
  exact (((h.lapseOwnWork p).withoutGroupClaims p).recomputeGroups.setLatch p _).settle

theorem livenessExpiry (h : Asleep s) (p : Port) : Asleep (livenessExpiry p s) := by
  unfold Machine.livenessExpiry
  split
  · exact h.lapse p
  · exact h

theorem replySent (h : Asleep s) (p : Port) : Asleep (replySent p s) := by
  cases hr : (s.port p).sending with
  | none => rwa [replySent_of_none hr]
  | some r =>
    cases hresets : r.resets with
    | true => rw [replySent_of_resets hr hresets]; exact resetWith _ s
    | false => rw [replySent_of_not_resets hr hresets]; exact h.setPort p _

/-- The events that are neither the load's end nor a request leave the part asleep. -/
theorem leads_event (h : Asleep s) {c : Instr} (hline : requestLine c = none) (hload : c ≠ .profileLoadEnd) : Leads c s Asleep := by
  cases c <;> try cases hline
  case powerOnReset => exact ⟨_, rfl, resetWith _ s⟩
  case pinReset => exact ⟨_, rfl, resetWith _ s⟩
  case profileLoadEnd => exact absurd rfl hload
  case saveComplete => exact ⟨_, rfl, h.saveComplete⟩
  case frameReceived p check stop => exact ⟨_, rfl, h.of_setPort (receiveByte_eq_setPort s p check stop)⟩
  case interByteGapTimeout p => exact ⟨_, rfl, h.of_setPort (interByteGapTimeout_setPort p s)⟩
  case replySent p => exact ⟨_, rfl, h.replySent p⟩
  case unknownKindRequest p kind body => exact ⟨_, rfl, h.unknownKindRequest p kind body⟩
  case livenessExpiry p => exact ⟨_, rfl, h.livenessExpiry p⟩
  case ilkRawChange closed => exact ⟨_, rfl, h.ilkRawChange closed⟩
  case ilkDebouncedClose => exact ⟨_, rfl, h.ilkDebouncedClose.symm ▸ h⟩
  case ilkDebouncedOpen => exact ⟨_, rfl, h.ilkDebouncedOpen.symm ▸ h⟩
  case settleExpiry => exact ⟨_, rfl, h.settleExpiry.symm ▸ h⟩
  case partTimeTick => exact ⟨_, rfl, h.partTimeTick⟩
  case switchRawChange w low => exact ⟨_, rfl, h.switchRawChange w low⟩
  case switchDebounceExpiry w => exact ⟨_, rfl, (h.switchDebounceExpiry w).symm ▸ h⟩
  case flipperEffectiveMinReached f => exact ⟨_, rfl, (h.flipperMinReached f).symm ▸ h⟩
  case lockoutExpiry k => exact ⟨_, rfl, h.lockoutExpiry k⟩
  case syncRawChange high => exact ⟨_, rfl, h.syncRawChange high⟩
  case syncRisingEdge => exact ⟨_, rfl, h.syncRisingEdge.symm ▸ h⟩
  case syncDebouncedFall => exact ⟨_, rfl, h.syncDebouncedFall.symm ▸ h⟩
  case lampFrame => exact ⟨_, rfl, h.lampFrame.symm ▸ h⟩
  case coolingInterval => exact ⟨_, rfl, h.coolingInterval.symm ▸ h⟩
  case driveEnd c => exact ⟨_, rfl, (h.driveEnd c).symm ▸ h⟩
  case recoveryGapExpiry c => exact ⟨_, rfl, (h.recoveryGapExpiry c).symm ▸ h⟩
  case spacingExpiry t => exact ⟨_, rfl, h.spacingExpiry t⟩
  case deadlineExpiry c => exact ⟨_, rfl, (h.deadlineExpiry c).symm ▸ h⟩
  case byteReceived p b stop => exact ⟨_, rfl, h.of_setPort (receiveByte_eq_setPort s p b stop)⟩

/-- Unless the load ends, the part stays asleep. -/
theorem leads (h : Asleep s) {c : Instr} (hload : c ≠ .profileLoadEnd) : Leads c s Asleep := by
  cases hline : requestLine c with
  | none => exact h.leads_event hline hload
  | some line => exact h.leads_request hline

theorem profileLoadEnd (h : Asleep s) (hpart : (profileLoadEnd s).part.state = .starting) : Asleep (profileLoadEnd s) := by
  by_cases hdue : s.part.load = some 0
  · rw [profileLoadEnd_due hdue, endLoad_part] at hpart
    cases hpart
  · rwa [profileLoadEnd_early hdue]

end Asleep

theorem Channel.load_of_off {x : Channel} (h : x.state = .off) : x.load = 0 := by
  simp only [Channel.load, h]

/-- The raw input levels are inputs: a reset keeps them. -/
theorem resetWith_low (heats : Table Heat 48) (s : State) (w : SwitchId) : ((resetWith heats s).input w).low = (s.input w).low := by
  simp only [resetWith, keepSwitchLevels, State.input, Table.get_map]

/-- Settles O18: every reset puts the part to sleep, and it sleeps on through every command until its load ends. -/
theorem blocksAfterEveryReset : Obligations.BlocksAfterEveryReset := by
  refine ⟨fun c s t hs ht hpart => ?stays, fun s hs d => ?rests, fun c s h => ?resets⟩
  case stays =>
    by_cases hc : c = .profileLoadEnd
    · subst hc
      cases ht
      exact hs.profileLoadEnd hpart
    · exact (hs.leads hc).elim ht
  case rests => exact ⟨coilOutput_of_off (hs.off d), Channel.load_of_off (hs.off d)⟩
  case resets =>
    obtain ⟨heats, he⟩ := exec_of_resetsPart h
    have asleep := Asleep.resetWith heats s
    refine ⟨_, he, asleep, fun d => ?channel, rfl, rfl, rfl, rfl, rfl, rfl, rfl, rfl, rfl, rfl, rfl, rfl,
      Table.get_replicate _, Table.get_replicate _, Table.get_replicate _, rfl, rfl, asleep.switches.2,
      fun q => by cases q <;> rfl, Table.get_replicate _, rfl, rfl, fun q => by cases q <;> rfl, rfl, rfl, rfl, rfl, rfl, rfl, rfl,
      resetWith_low heats s⟩
    rw [resetWith_chan]
    exact ⟨rfl, rfl, rfl, rfl, rfl, rfl⟩

end Sys2Proof.Machine
end

section
/-! The heat model (R62 to R79): what each of its operations writes in its channel and in the latches, the load's end, and the check. -/

namespace Sys2Proof.Machine

/-! ### Flags on both ports (R160) -/

theorem raiseFlag_isSome (old : Option FlagRec) (k : Option Nat) (r : Option DropReason) : (raiseFlag old k r).isSome = true := by
  cases old <;> rfl

theorem setFlagBoth_get_self (s : State) (n : FlagName) (k : Option Nat) (q : Port) :
    ((setFlagBoth s n k).latch q).get n.bit = raiseFlag ((s.latch q).get n.bit) k none := by
  rw [setFlagBoth_latch, setFlag, setFlagReason_get_self]

theorem setFlagBoth_get_ne (s : State) {m n : FlagName} (k : Option Nat) (q : Port) (h : m ≠ n) :
    ((setFlagBoth s n k).latch q).get m.bit = (s.latch q).get m.bit := by
  rw [setFlagBoth_latch, setFlag, setFlagReason_get_ne _ _ _ _ h]

@[simp] theorem setFlagBoth_chan (s : State) (n : FlagName) (k : Option Nat) (c : ChannelId) :
    (setFlagBoth s n k).chan c = s.chan c :=
  congrArg (Table.get · c) (setFlagPorts_channels s _ n k)

/-! ### One channel's heat (R67, R70, R71) -/

theorem setHeat_chan (s : State) (c d : ChannelId) (x : Heat) :
    (s.setHeat c x).chan d = if d = c then { s.chan c with heat := x } else s.chan d := by
  rw [State.setHeat_eq, chan_setChan]

@[simp] theorem setHeat_chan_self (s : State) (c : ChannelId) (x : Heat) : (s.setHeat c x).chan c = { s.chan c with heat := x } := by
  rw [setHeat_chan, if_pos rfl]

@[simp] theorem setHeat_latch (s : State) (c : ChannelId) (x : Heat) (q : Port) : (s.setHeat c x).latch q = s.latch q := rfl

/-- A flag reads as raised where the condition holds, and as before where it does not. -/
def Told (s t : State) (k : Option Nat) (raised : Bool) (n : FlagName) : Prop :=
  ∀ q, (t.latch q).get n.bit = if raised = true then raiseFlag ((s.latch q).get n.bit) k none else (s.latch q).get n.bit

theorem Told.isSome_iff {s t : State} {k : Option Nat} {raised : Bool} {n : FlagName} (h : Told s t k raised n) (q : Port) :
    ((t.latch q).get n.bit).isSome = true ↔ ((s.latch q).get n.bit).isSome = true ∨ raised = true := by
  rw [h q]
  cases raised with
  | false => simp
  | true => simp [raiseFlag_isSome]

theorem setThermal_chan (s : State) (c d : ChannelId) (t : Thermal) :
    (setThermal s c t).chan d = if d = c then { s.chan c with heat := { (s.chan c).heat with thermal := t } } else s.chan d := by
  unfold setThermal
  dsimp only
  split
  · rw [setFlagBoth_chan, setHeat_chan]
  · exact setHeat_chan _ _ _ _

@[simp] theorem setThermal_chan_self (s : State) (c : ChannelId) (t : Thermal) :
    (setThermal s c t).chan c = { s.chan c with heat := { (s.chan c).heat with thermal := t } } := by
  rw [setThermal_chan, if_pos rfl]

/-- HEAT_WARN where the channel leaves NORMAL (R71). -/
theorem setThermal_warns (s : State) (c : ChannelId) (t : Thermal) :
    Told s (setThermal s c t) (some c.val) ((s.chan c).heat.thermal = .normal && t ≠ .normal) .heatWarn := by
  intro q
  unfold setThermal
  dsimp only
  split
  · exact setFlagBoth_get_self _ _ _ _
  · rfl

theorem setThermal_get_ne (s : State) (c : ChannelId) (t : Thermal) (q : Port) {n : FlagName} (h : n ≠ .heatWarn) :
    ((setThermal s c t).latch q).get n.bit = (s.latch q).get n.bit := by
  unfold setThermal
  dsimp only
  split
  · exact setFlagBoth_get_ne _ _ _ h
  · rfl

/-- The heat of a channel that enters CUTOFF (R67, R73). -/
def Heat.cut (x : Heat) : Heat := { x with thermal := .cutoff, stats := { x.stats with cutoffs := min 65535 (x.stats.cutoffs + 1) } }

theorem noteCutoff_chan (s : State) (c d : ChannelId) :
    (noteCutoff s c).chan d = if d = c then { s.chan c with heat := { (s.chan c).heat with
      stats := { (s.chan c).heat.stats with cutoffs := min 65535 ((s.chan c).heat.stats.cutoffs + 1) } } } else s.chan d :=
  (setFlagBoth_chan _ _ _ _).trans (setHeat_chan _ _ _ _)

theorem enterCutoff_chan (s : State) (c d : ChannelId) :
    (enterCutoff s c).chan d = if d = c then { s.chan c with heat := (s.chan c).heat.cut } else s.chan d := by
  rw [enterCutoff, noteCutoff_chan, setThermal_chan_self]
  split
  · rfl
  · rename_i hd
    rw [setThermal_chan, if_neg hd]

theorem enterCutoff_cuts (s : State) (c : ChannelId) : Told s (enterCutoff s c) (some c.val) true .heatCutoff := fun q => by
  have noted : ((enterCutoff s c).latch q).get FlagName.heatCutoff.bit =
      raiseFlag (((setThermal s c .cutoff).latch q).get FlagName.heatCutoff.bit) (some c.val) none := setFlagBoth_get_self _ _ _ _
  rw [noted, setThermal_get_ne _ _ _ _ (by decide)]
  rfl

theorem enterCutoff_get_ne (s : State) (c : ChannelId) (q : Port) {n : FlagName} (h : n ≠ .heatCutoff) :
    ((enterCutoff s c).latch q).get n.bit = ((setThermal s c .cutoff).latch q).get n.bit := setFlagBoth_get_ne _ _ _ h

theorem enterCutoff_warns (s : State) (c : ChannelId) :
    Told s (enterCutoff s c) (some c.val) ((s.chan c).heat.thermal = .normal) .heatWarn := fun q => by
  rw [enterCutoff_get_ne _ _ _ (by decide), setThermal_warns s c .cutoff q]
  simp

/-! ### The recomputation (R73, R79) -/

/-- The heat that a recomputation against a record leaves. -/
def Heat.recomputed (x : Heat) (r : CoilRecord) : Heat :=
  if x.thermal = .cutoff then x else if thermalOf r x.h = .cutoff then x.cut else { x with thermal := thermalOf r x.h }

theorem Heat.recomputed_h (x : Heat) (r : CoilRecord) : (x.recomputed r).h = x.h := by
  unfold Heat.recomputed
  split_ifs <;> rfl

theorem Heat.recomputed_thermal (x : Heat) (r : CoilRecord) :
    (x.recomputed r).thermal = if x.thermal = .cutoff then .cutoff else thermalOf r x.h := by
  unfold Heat.recomputed
  split_ifs with hold hnew
  · exact hold
  · exact hnew.symm
  · rfl

theorem Heat.recomputed_stats (x : Heat) (r : CoilRecord) :
    (x.recomputed r).stats = if x.thermal ≠ .cutoff ∧ (x.recomputed r).thermal = .cutoff then
      { x.stats with cutoffs := min 65535 (x.stats.cutoffs + 1) } else x.stats := by
  unfold Heat.recomputed
  split_ifs <;> simp_all [Heat.cut]

/-- The recomputation takes the channel into CUTOFF, or finds it there. -/
def Channel.endsCut (x : Channel) : Bool := (x.heat.recomputed x.coil).thermal = .cutoff

/-- The recomputation takes the channel out of NORMAL. -/
def Channel.leavesNormal (x : Channel) : Bool := x.heat.thermal = .normal && (x.heat.recomputed x.coil).thermal ≠ .normal

theorem recomputeThermal_chan (s : State) (c d : ChannelId) :
    (recomputeThermal s c).chan d = if d = c then { s.chan c with heat := (s.chan c).heat.recomputed (s.chan c).coil } else s.chan d := by
  unfold recomputeThermal Heat.recomputed
  simp only [inCutoff_iff]
  split_ifs with hold hnew hd <;> simp only [enterCutoff_chan, setThermal_chan, *, if_true, if_false]

theorem recomputeThermal_of_cutoff {s : State} {c : ChannelId} (h : (s.chan c).heat.thermal = .cutoff) :
    recomputeThermal s c = s := if_pos ((inCutoff_iff s c).2 h)

theorem recomputeThermal_of_not_cutoff {s : State} {c : ChannelId} (h : (s.chan c).heat.thermal ≠ .cutoff) :
    recomputeThermal s c = if thermalOf (s.chan c).coil (s.chan c).heat.h = .cutoff then enterCutoff s c
      else setThermal s c (thermalOf (s.chan c).coil (s.chan c).heat.h) := if_neg fun e => h ((inCutoff_iff s c).1 e)

/-- HEAT_WARN where the recomputation leaves NORMAL. -/
theorem recomputeThermal_warns (s : State) (c : ChannelId) :
    Told s (recomputeThermal s c) (some c.val) (s.chan c).leavesNormal .heatWarn := by
  intro q
  rw [Channel.leavesNormal, Heat.recomputed_thermal]
  by_cases hold : (s.chan c).heat.thermal = .cutoff
  · rw [recomputeThermal_of_cutoff hold, hold]
    rfl
  · rw [recomputeThermal_of_not_cutoff hold, if_neg hold]
    split
    · rename_i hnew
      rw [enterCutoff_warns s c q, hnew]
      simp
    · exact setThermal_warns s c _ q

/-- HEAT_CUTOFF where the recomputation enters CUTOFF. -/
theorem recomputeThermal_cuts {s : State} {c : ChannelId} (hold : (s.chan c).heat.thermal ≠ .cutoff) :
    Told s (recomputeThermal s c) (some c.val) (s.chan c).endsCut .heatCutoff := by
  intro q
  rw [Channel.endsCut, Heat.recomputed_thermal, recomputeThermal_of_not_cutoff hold, if_neg hold]
  split
  · rename_i hnew
    rw [enterCutoff_cuts s c q, hnew]
    rfl
  · rename_i hnew
    rw [setThermal_get_ne _ _ _ _ (by decide)]
    simp [hnew]

/-! ### The thermal states at the load's end (R79) -/

theorem loadThermal_of_cutoff {s : State} {c : ChannelId} (h : (s.chan c).heat.thermal = .cutoff) :
    loadThermal s c = setFlagBoth s .heatCutoff (some c.val) := if_pos ((inCutoff_iff s c).2 h)

theorem loadThermal_of_not_cutoff {s : State} {c : ChannelId} (h : (s.chan c).heat.thermal ≠ .cutoff) :
    loadThermal s c = recomputeThermal s c := if_neg fun e => h ((inCutoff_iff s c).1 e)

theorem loadThermal_chan (s : State) (c d : ChannelId) :
    (loadThermal s c).chan d = if d = c then { s.chan c with heat := (s.chan c).heat.recomputed (s.chan c).coil } else s.chan d := by
  by_cases hold : (s.chan c).heat.thermal = .cutoff
  · rw [loadThermal_of_cutoff hold, setFlagBoth_chan, ← recomputeThermal_chan, recomputeThermal_of_cutoff hold]
  · rw [loadThermal_of_not_cutoff hold, recomputeThermal_chan]

theorem loadThermal_warns (s : State) (c : ChannelId) :
    Told s (loadThermal s c) (some c.val) (s.chan c).leavesNormal .heatWarn := by
  by_cases hold : (s.chan c).heat.thermal = .cutoff
  · intro q
    rw [loadThermal_of_cutoff hold, setFlagBoth_get_ne _ _ _ (by decide), Channel.leavesNormal, hold]
    rfl
  · rw [loadThermal_of_not_cutoff hold]
    exact recomputeThermal_warns s c

theorem loadThermal_cuts (s : State) (c : ChannelId) :
    Told s (loadThermal s c) (some c.val) (s.chan c).endsCut .heatCutoff := by
  by_cases hold : (s.chan c).heat.thermal = .cutoff
  · intro q
    rw [loadThermal_of_cutoff hold, setFlagBoth_get_self, Channel.endsCut, Heat.recomputed_thermal, if_pos hold]
    rfl
  · rw [loadThermal_of_not_cutoff hold]
    exact recomputeThermal_cuts hold

/-- Each channel once: the heats are recomputed, whatever the order. -/
theorem foldl_loadThermal_chan {l : List ChannelId} (hl : l.Nodup) (s : State) (d : ChannelId) :
    (l.foldl loadThermal s).chan d =
      if d ∈ l then { s.chan d with heat := (s.chan d).heat.recomputed (s.chan d).coil } else s.chan d := by
  induction l generalizing s with
  | nil => rfl
  | cons c l ih =>
    obtain ⟨hc, hl⟩ := List.nodup_cons.1 hl
    rw [List.foldl_cons, ih hl, loadThermal_chan]
    by_cases e : d = c
    · subst e; simp [hc]
    · simp [e]

/-- A flag that each channel of a list raises on a condition of its own is set at the end where it was or where one of them raised it. -/
theorem foldl_told {n : FlagName} {raised : Channel → Bool}
    (told : ∀ s c, Told s (loadThermal s c) (some c.val) (raised (s.chan c)) n) {l : List ChannelId} (hl : l.Nodup) (s : State)
    (q : Port) :
    (((l.foldl loadThermal s).latch q).get n.bit).isSome = true ↔
      ((s.latch q).get n.bit).isSome = true ∨ ∃ c ∈ l, raised (s.chan c) = true := by
  induction l generalizing s with
  | nil => simp
  | cons c l ih =>
    obtain ⟨hc, hl⟩ := List.nodup_cons.1 hl
    have later : (∃ d ∈ l, raised ((loadThermal s c).chan d) = true) ↔ ∃ d ∈ l, raised (s.chan d) = true := by
      refine exists_congr fun d => and_congr_right fun hd => ?_
      rw [loadThermal_chan, if_neg fun e : d = c => hc (e ▸ hd)]
    rw [List.foldl_cons, ih hl, later, (told s c).isSome_iff, List.exists_mem_cons_iff, or_assoc]

/-! ### The end of the load (R168) -/

theorem loadStarted_chan (s : State) (c : ChannelId) :
    (loadStarted s).chan c = { Channel.reset with
      coil := s.store.loaded.coils.get c
      state := if (s.store.loaded.coils.get c).cls = .off then .off else .idle
      heat := { (s.chan c).heat with dEff := derate (s.store.loaded.coils.get c) (s.chan c).heat.h } } := by
  have reported (u : State) : (reportProfile u).chan c = u.chan c := by
    unfold reportProfile
    split
    · rfl
    · exact setFlagBoth_chan _ _ _ _
  refine (reported _).trans ?_
  simp only [loadRecords, State.chan, Table.get_ofFn]

/-- The channels taken in a free order are every channel, each once. -/
theorem freely_channels (k : Nat) : (freely k allChannels).Nodup ∧ ∀ c, c ∈ freely k allChannels := by
  have perm := freely_perm k allChannels
  exact ⟨perm.nodup_iff.2 (List.nodup_finRange 48), fun c => perm.mem_iff.2 (List.mem_finRange c)⟩

/-- What the end of the load leaves, through the state before its thermal states and the one after them. -/
theorem endLoad_eq (l : List ChannelId) (s : State) :
    endLoad l s = (sampleSwitches (sampleIlk (l.foldl loadThermal (loadStarted s)))).setLamp
      { (sampleSwitches (sampleIlk (l.foldl loadThermal (loadStarted s)))).lamp with frame := some Config.lampFrame } := rfl

theorem endLoad_chan (l : List ChannelId) (s : State) (c : ChannelId) :
    (endLoad l s).chan c = (l.foldl loadThermal (loadStarted s)).chan c := by rw [endLoad_eq]; rfl

theorem endLoad_latch (l : List ChannelId) (s : State) (q : Port) :
    (endLoad l s).latch q = (l.foldl loadThermal (loadStarted s)).latch q := by rw [endLoad_eq]; rfl

theorem reportProfile_get (s : State) (q : Port) (n : FlagName) :
    ((reportProfile s).latch q).get n.bit =
      if n = .profile ∧ s.store.valid = false then
        raiseFlag ((s.latch q).get n.bit) (some (if s.store.mark then profileBad else profileBlank)) none
      else (s.latch q).get n.bit := by
  unfold reportProfile
  by_cases hvalid : s.store.valid = true
  · simp [hvalid]
  · by_cases hn : n = .profile
    · subst hn
      rw [if_neg hvalid, setFlagBoth_get_self]
      exact (if_pos ⟨rfl, by simpa using hvalid⟩).symm
    · rw [if_neg hvalid, setFlagBoth_get_ne _ _ _ hn, if_neg fun h => hn h.1]

theorem loadStarted_get (s : State) (q : Port) {n : FlagName} (h : n ≠ .profile) :
    ((loadStarted s).latch q).get n.bit = (s.latch q).get n.bit :=
  (reportProfile_get (loadRecords s s.store.loaded) q n).trans (if_neg fun e => h e.1)

theorem reportProfile_supply (s : State) : (reportProfile s).supply = s.supply := by
  unfold reportProfile
  split <;> rfl

theorem reportProfile_sw (s : State) : (reportProfile s).sw = s.sw := by
  unfold reportProfile
  split <;> rfl

theorem ProfileStore.loaded_eq (x : ProfileStore) :
    x.loaded = if x.mark = true ∧ x.checksum = Config.checksum x.records then x.records else .unconfigured := by
  simp [ProfileStore.loaded, ProfileStore.valid]

/-- The blocks that the end of the load writes besides the channels and the latches. -/
structure LoadEnded (s t : State) : Prop where
  part : t.part = ⟨.run, none⟩
  coolTimer : t.coolTimer = some 10
  frame : t.lamp.frame = some 20
  ilk : t.supply.ilkTimer = if s.supply.ilkRaw = true then some 20 else none
  sync : t.sw.syncHigh = s.sw.syncRaw
  closed : ∀ w, (t.input w).closed = ((t.input w).low != (t.input w).cfg.invert)
  profile (q : Port) : (t.latch q).get FlagName.profile.bit = ((reportProfile s).latch q).get FlagName.profile.bit

theorem endLoad_ended (l : List ChannelId) (s : State) : LoadEnded s (endLoad l s) := by
  have work := CoilWork.foldl loadThermal_coilWork l (loadStarted s)
  have hsupply : (loadStarted s).supply.ilkRaw = s.supply.ilkRaw := by
    rw [loadStarted, reportProfile_supply]
    rfl
  have hsw : (loadStarted s).sw.syncRaw = s.sw.syncRaw := by
    rw [loadStarted, reportProfile_sw]
    rfl
  have hlatch (q : Port) : ((endLoad l s).latch q).get FlagName.profile.bit = ((loadStarted s).latch q).get FlagName.profile.bit :=
    (congrArg (·.get FlagName.profile.bit) (endLoad_latch l s q)).trans (work.latched q .profile rfl)
  have hprofile (q : Port) :
      ((loadStarted s).latch q).get FlagName.profile.bit = ((reportProfile s).latch q).get FlagName.profile.bit := by
    rw [reportProfile_get s]
    exact reportProfile_get (loadRecords s s.store.loaded) q .profile
  refine ⟨?_, ?_, rfl, ?_, ?_, fun w => ?_, fun q => (hlatch q).trans (hprofile q)⟩
  all_goals rw [endLoad_eq]
  · exact work.part
  · exact work.coolTimer
  · have h := (congrArg SupplyMonitor.ilkRaw work.supply).trans hsupply
    rw [← h]
    rfl
  · exact (congrArg SwitchUnit.syncRaw work.sw).trans hsw
  · simp only [sampleSwitches, State.input, State.setSw_sw, Table.get_map, State.setLamp_sw]
    rfl

/-- What each channel's heat is at the end of the load. -/
theorem endLoad_heat (k : Nat) (s : State) (c : ChannelId) :
    (endLoad (freely k allChannels) s).chan c =
      { (loadStarted s).chan c with heat := ((loadStarted s).chan c).heat.recomputed ((loadStarted s).chan c).coil } := by
  rw [endLoad_chan, foldl_loadThermal_chan (freely_channels k).1, if_pos ((freely_channels k).2 c)]

/-- A flag of the heat model at the end of the load. -/
theorem endLoad_told {n : FlagName} {raised : Channel → Bool}
    (told : ∀ s c, Told s (loadThermal s c) (some c.val) (raised (s.chan c)) n) (hn : n ≠ .profile) (k : Nat) (s : State) (q : Port) :
    (((endLoad (freely k allChannels) s).latch q).get n.bit).isSome = true ↔
      ((s.latch q).get n.bit).isSome = true ∨ ∃ c, raised ((loadStarted s).chan c) = true := by
  rw [endLoad_latch, foldl_told told (freely_channels k).1, loadStarted_get _ _ hn]
  simp [(freely_channels k).2]

/-- Settles O19: the records are put to work whole, then each channel's thermal state is taken once, whatever the order. -/
theorem loadEndPutsTheProfileToWork : Obligations.LoadEndPutsTheProfileToWork := by
  refine ⟨fun s h => congrArg _ (profileLoadEnd_early h), fun s hdue => ?_⟩
  refine ⟨_, congrArg Host.Outcome.next (profileLoadEnd_due hdue), ?_⟩
  generalize hu : ({ s with orders := s.orders + 1 } : State) = u
  have hstore : u.store = s.store := hu ▸ rfl
  have hchan (c : ChannelId) : u.chan c = s.chan c := hu ▸ rfl
  have hlatch (q : Port) : u.latch q = s.latch q := hu ▸ rfl
  have ended := endLoad_ended (freely s.orders allChannels) u
  have quiet := endLoad_quiet (freely s.orders allChannels) u
  have heat := endLoad_heat s.orders u
  have started (c : ChannelId) : ((loadStarted u).chan c).heat.h = (s.chan c).heat.h ∧
      ((loadStarted u).chan c).heat.thermal = (s.chan c).heat.thermal ∧ ((loadStarted u).chan c).heat.stats = (s.chan c).heat.stats := by
    rw [loadStarted_chan, hchan]
    exact ⟨rfl, rfl, rfl⟩
  refine ⟨?profile, ended.part, ended.coolTimer, ended.frame, ?store, ?ilk, ?pending, ?sync, ended.closed, fun c => ?state,
    fun c => ?heat, fun q => ⟨?cuts, ?warns⟩, fun q => ?flag⟩
  case profile => rw [quiet.profile, RecordsJoined.workingProfile_loadStarted, hstore, ProfileStore.loaded_eq]
  case store => rw [quiet.store, RecordsJoined.loadStarted_store, hstore]
  case ilk => rw [ended.ilk, ← hu]
  case pending => rw [quiet.accounts.pending, loadStarted_pending, ← hu]
  case sync => rw [ended.sync, ← hu]
  case state =>
    rw [heat, loadStarted_chan]
  case heat =>
    obtain ⟨hh, hthermal, hstats⟩ := started c
    rw [heat]
    refine ⟨(Heat.recomputed_h _ _).trans hh, ?_, ?_⟩
    · dsimp only
      rw [Heat.recomputed_thermal, hthermal, hh]
      rfl
    · dsimp only
      rw [Heat.recomputed_stats, hthermal, hstats]
  case cuts =>
    rw [endLoad_told (raised := Channel.endsCut) loadThermal_cuts (by decide) s.orders u, hlatch]
    simp only [heat, Channel.endsCut, decide_eq_true_eq]
  case warns =>
    rw [endLoad_told (raised := Channel.leavesNormal) loadThermal_warns (by decide) s.orders u, hlatch]
    simp only [heat, Channel.leavesNormal, Bool.and_eq_true, decide_eq_true_eq, (started _).2.1]
  case flag =>
    rw [ended.profile, reportProfile_get, hstore, hlatch]
    refine ⟨fun hmark => ?_, fun hmark hsum => ?_, fun hvalid => ?_⟩
    · simp [ProfileStore.valid, hmark, profileBlank]
    · simp [ProfileStore.valid, hmark, hsum, profileBad]
    · simp [hvalid]

end Sys2Proof.Machine
end

section
/-! The heat check (R66 to R68) and the derated duty (R65). -/

namespace Sys2Proof.Machine

/-! ### Derating -/

theorem derate_below {r : CoilRecord} {h : Nat} (hw : h < r.warn) : derate r h = r.duty := if_pos hw

theorem derate_between {r : CoilRecord} {h : Nat} (hw : r.warn ≤ h) (hc : h < r.cutoff) :
    derate r h = r.duty - (h - r.warn) * (r.duty - 1) / (r.cutoff - r.warn) := by
  rw [derate, if_neg (Nat.not_lt.2 hw), if_pos hc]

theorem derate_above {r : CoilRecord} {h : Nat} (hw : r.warn ≤ h) (hc : r.cutoff ≤ h) : derate r h = 1 := by
  rw [derate, if_neg (Nat.not_lt.2 hw), if_neg (Nat.not_lt.2 hc)]

/-! ### The check -/

theorem checkedWidth_eq (r : CoilRecord) (h w : Nat) :
    checkedWidth r h w = if h + w * r.gain ≤ r.limit then w
      else if h < r.limit then min w (max r.wmin ((r.limit - h) / r.gain)) else min w r.wmin := by
  unfold checkedWidth
  split_ifs <;> rfl

theorem checkedWidth_le (r : CoilRecord) (h w : Nat) : checkedWidth r h w ≤ w := by
  unfold checkedWidth
  split
  · exact Nat.le_refl w
  · exact Nat.min_le_left _ _

theorem heatCheck_refused {s : State} {c : ChannelId} {w : Nat}
    (h : (s.chan c).coil.cutoff ≤ (s.chan c).heat.h + checkedWidth (s.chan c).coil (s.chan c).heat.h w * (s.chan c).coil.gain) :
    heatCheck s c w = (enterCutoff s c, none) := if_pos h

/-- The heat charged for a passed check. -/
def Channel.charged (x : Channel) (w : Nat) : Heat := x.heat.charge x.coil w (checkedWidth x.coil x.heat.h w)

theorem heatCheck_passed {s : State} {c : ChannelId} {w : Nat}
    (h : (s.chan c).heat.h + checkedWidth (s.chan c).coil (s.chan c).heat.h w * (s.chan c).coil.gain < (s.chan c).coil.cutoff) :
    heatCheck s c w =
      (setThermal (s.setHeat c ((s.chan c).charged w)) c (thermalOf (s.chan c).coil ((s.chan c).charged w).h),
        some (checkedWidth (s.chan c).coil (s.chan c).heat.h w)) := if_neg (Nat.not_le.2 h)

theorem heatCheck_chan_ne (s : State) {c d : ChannelId} (w : Nat) (h : d ≠ c) : (heatCheck s c w).1.chan d = s.chan d := by
  unfold heatCheck
  dsimp only
  split
  · rw [enterCutoff_chan, if_neg h]
  · rw [setThermal_chan, if_neg h, setHeat_chan, if_neg h]

theorem thermalOf_of_lt {r : CoilRecord} {h : Nat} (hc : h < r.cutoff) :
    thermalOf r h = if h < r.warn then .normal else if h < r.limit then .warm else .limited := by
  rw [thermalOf, if_pos hc]

theorem thermalOf_ne_normal {r : CoilRecord} {h : Nat} : thermalOf r h ≠ .normal ↔ r.warn ≤ h := by
  unfold thermalOf
  split_ifs <;> simp <;> omega

/-- The check's flags: HEAT_CUTOFF at a refusal, HEAT_WARN where the channel leaves NORMAL, and no other. -/
theorem heatCheck_told (s : State) (c : ChannelId) (w : Nat) {refused : Bool}
    (h : refused = decide ((s.chan c).coil.cutoff ≤
      (s.chan c).heat.h + checkedWidth (s.chan c).coil (s.chan c).heat.h w * (s.chan c).coil.gain)) :
    Told s (heatCheck s c w).1 (some c.val) refused .heatCutoff ∧
    Told s (heatCheck s c w).1 (some c.val) ((s.chan c).heat.thermal = .normal && (refused || (s.chan c).coil.warn ≤
      (s.chan c).heat.h + checkedWidth (s.chan c).coil (s.chan c).heat.h w * (s.chan c).coil.gain)) .heatWarn ∧
    ∀ n, n ≠ .heatCutoff → n ≠ .heatWarn → Told s (heatCheck s c w).1 (some c.val) false n := by
  cases refused with
  | true =>
    rw [heatCheck_refused (of_decide_eq_true h.symm)]
    refine ⟨enterCutoff_cuts s c, fun q => ?_, fun n hc hw q => ?_⟩
    · rw [enterCutoff_warns s c q]
      simp
    · rw [enterCutoff_get_ne _ _ _ hc, setThermal_get_ne _ _ _ _ hw]
      rfl
  | false =>
    rw [heatCheck_passed (Nat.not_le.1 (of_decide_eq_false h.symm))]
    refine ⟨fun q => ?_, fun q => ?_, fun n _ hw q => ?_⟩
    · rw [setThermal_get_ne _ _ _ _ (by decide)]
      rfl
    · dsimp only
      rw [setThermal_warns _ c _ q, setHeat_chan_self]
      simp only [thermalOf_ne_normal, setHeat_latch, Bool.false_or]
      rfl
    · rw [setThermal_get_ne _ _ _ _ hw]
      rfl

theorem derate_spec (r : CoilRecord) (h : Nat) (hr : r.stored = true) :
    (h < r.warn → derate r h = r.duty) ∧
    (r.warn ≤ h → h < r.cutoff → derate r h = r.duty - (h - r.warn) * (r.duty - 1) / (r.cutoff - r.warn)) ∧
    (r.cutoff ≤ h → derate r h = 1) ∧ 1 ≤ derate r h ∧ derate r h ≤ r.duty ∧ (r.warn = h → derate r h = r.duty) := by
  have hwarn := CoilRecord.warn_lt_cutoff hr
  refine ⟨derate_below, derate_between, fun hc => derate_above (by omega) hc, (derate_bounds hr h).1, (derate_bounds hr h).2, ?_⟩
  rintro rfl
  rw [derate_between (Nat.le_refl _) hwarn]
  simp

/-- Settles O34: the check either refuses, entering CUTOFF, or charges the shortened width. -/
theorem deratedDutyAndHeatCheck : Obligations.DeratedDutyAndHeatCheck := by
  refine ⟨derate_spec, fun s c w => ?_⟩
  simp only [← checkedWidth_eq]
  refine ⟨fun h => ?refused, fun h => ?passed, fun q => ?flags, fun d hd => heatCheck_chan_ne s w hd⟩
  case refused =>
    rw [heatCheck_refused h]
    exact ⟨rfl, (enterCutoff_chan s c c).trans (if_pos rfl)⟩
  case passed =>
    rw [heatCheck_passed h]
    refine ⟨rfl, checkedWidth_le _ _ _, ?_⟩
    dsimp only
    rw [setThermal_chan_self, setHeat_chan_self, ← thermalOf_of_lt h]
    rfl
  case flags =>
    obtain ⟨hcut, hwarn, hothers⟩ := heatCheck_told s c w rfl
    exact ⟨hcut q, hwarn q, fun n hc hw => hothers n hc hw q⟩

end Sys2Proof.Machine
end

section
/-! The arbiter by its steps (R46 to R54): attempts, the walk, grants, removals, freed places, and what each leaves of the pools. -/

namespace Sys2Proof.Machine

/-! ### The pools and the pointer (R35, R49) -/

/-- The two pools' loads and the round-robin pointer stay as they are. -/
structure PoolsKept (s t : State) : Prop where
  general : t.arb.general = s.arb.general
  flipper : t.arb.flipper = s.arb.flipper
  pointer : t.arb.pointer = s.arb.pointer

namespace PoolsKept

theorem refl (s : State) : PoolsKept s s := ⟨rfl, rfl, rfl⟩

theorem trans {s t u : State} (h : PoolsKept s t) (g : PoolsKept t u) : PoolsKept s u :=
  ⟨g.general.trans h.general, g.flipper.trans h.flipper, g.pointer.trans h.pointer⟩

theorem of_arb {s t : State} (h : t.arb = s.arb) : PoolsKept s t := by
  refine ⟨?_, ?_, ?_⟩ <;> rw [h]

theorem setFlagPorts (s : State) (ps : PortSet) (n : FlagName) (k : Option Nat) : PoolsKept s (setFlagPorts s ps n k) :=
  of_arb (setFlagPorts_arb s ps n k)

theorem setStepper (s : State) (t : StepperId) (x : Stepper) : PoolsKept s (s.setStepper t x) := ⟨rfl, rfl, rfl⟩

theorem setLink (s : State) (k : LinkId) (x : Link) : PoolsKept s (s.setLink k x) := ⟨rfl, rfl, rfl⟩

theorem endTrain (s : State) (t : StepperId) : PoolsKept s (endTrain s t) := by
  unfold Machine.endTrain
  dsimp only
  split
  · exact (setStepper s t _).trans (setFlagPorts _ _ _ _)
  · exact (setStepper s t _).trans (setFlagPorts _ _ _ _)
  all_goals exact refl s

theorem clampTrain (s : State) (t : StepperId) : PoolsKept s (clampTrain s t) := by
  unfold Machine.clampTrain
  dsimp only
  split
  · exact (setStepper s t _).trans (endTrain _ t)
  all_goals exact refl s

theorem enterStep (s : State) (t : StepperId) (c : ChannelId) : PoolsKept s (enterStep s t c) := ⟨rfl, rfl, rfl⟩

theorem stepTestN (n : Nat) (s : State) (t : StepperId) : PoolsKept s (stepTestN n s t) := by
  induction n generalizing s with
  | zero => exact refl s
  | succ n ih =>
    unfold Machine.stepTestN
    split
    · exact refl s
    · split_ifs
      · exact (clampTrain s t).trans (ih _)
      · exact setStepper s t _
      · exact enterStep s t _

theorem stepTest (s : State) (t : StepperId) : PoolsKept s (stepTest s t) := stepTestN 3 s t

theorem turnedAway (s : State) (t : StepperId) (k : Nat) (counted : Bool) :
    PoolsKept s (if counted then s.setStepper t ((s.stepper t).lose k) else s) := by
  split
  · exact setStepper s t _
  · exact refl s

theorem offerTrain (s : State) (t : StepperId) (dir : Direction) (k : Nat) (origin : Origin) (counted : Bool) :
    PoolsKept s (offerTrain s t dir k origin counted).1 := by
  have away := turnedAway s t k counted
  unfold Machine.offerTrain
  dsimp only
  split
  · exact away
  · split
    · exact away
    · exact away
    · split
      · exact away
      · exact (setStepper s t _).trans (stepTest _ t)
    · split
      · exact away
      · exact setStepper s t _
    · split
      · exact away
      · split
        · exact setStepper s t _
        · exact away

theorem grantFire (s : State) (k : LinkId) : PoolsKept s (grantFire s k) := by
  unfold Machine.grantFire
  dsimp only
  split
  · exact setLink s k _
  · split
    · exact ((setLink s k _).trans (offerTrain _ _ _ _ _ _)).trans (setLink _ k _)
    · exact (setLink s k _).trans (offerTrain _ _ _ _ _ _)

end PoolsKept

/-! ### Drives start (R6, R35) -/

theorem Channel.generalLoad_of_idle {x : Channel} (h : x.state = .idle) : x.generalLoad = 0 := by
  simp [Channel.generalLoad, Channel.load, h]

theorem Channel.flipperLoad_of_idle {x : Channel} (h : x.state = .idle) : x.flipperLoad = 0 := by
  simp [Channel.flipperLoad, Channel.load, h]

theorem Channel.generalLoad_of_drive {x : Channel} {kind : DriveKind} {w left : Nat} (h : x.state = .drive kind w left)
    (hcls : x.coil.cls ≠ .flipper) : x.generalLoad = x.coil.weight := by
  simp only [Channel.generalLoad, if_neg hcls, Channel.load, h]

theorem Channel.flipperLoad_of_general {x : Channel} (hcls : x.coil.cls ≠ .flipper) : x.flipperLoad = 0 := if_neg hcls

/-- A drive of an IDLE channel adds its weight to the general pool. -/
theorem startDrive_arb {s : State} {c : ChannelId} (kind : DriveKind) (w : Nat) (hidle : (s.chan c).state = .idle)
    (hcls : (s.chan c).coil.cls ≠ .flipper) :
    (startDrive s c kind w).arb = { s.arb with general := s.arb.general + (s.chan c).coil.weight } := by
  have old := Channel.generalLoad_of_idle hidle
  have new := Channel.generalLoad_of_drive (x := { s.chan c with state := .drive kind w w }) rfl hcls
  have oldFlipper := Channel.flipperLoad_of_general hcls
  have newFlipper := Channel.flipperLoad_of_general (x := { s.chan c with state := .drive kind w w }) hcls
  simp only [startDrive, State.setChan_arb, Arbiter.report, old, new, oldFlipper, newFlipper, Nat.sub_zero, Nat.add_zero]

theorem startDrive_chan (s : State) (c : ChannelId) (kind : DriveKind) (w : Nat) :
    (startDrive s c kind w).chan c = { s.chan c with state := .drive kind w w } := State.chan_setChan_self _ _ _

/-! ### Grants (R49, R52) -/

/-- Where the list was full, the place that an entry of it leaves is handed out (R46). -/
def freed (s t : State) : State := if listFull s then handout t else t

theorem freed_of_room {s : State} (t : State) (h : s.arb.waitList.length < 24) : freed s t = t :=
  if_neg (by simpa using (listFull_false_iff s).2 h)

theorem freed_eq (s t : State) : freed s t = if 24 ≤ s.arb.waitList.length then handout t else t := by
  simp only [freed, listFull_iff]

/-- The granted entry out of the list, its drive started. -/
def grantedDrive (s : State) (e : Entry) (w : Nat) : State := startDrive (dropEntry s e.channel) e.channel e.work.kind w

theorem grant_of_port {s : State} {e : Entry} (w : Nat) {origin : PortSet} (h : e.work = .pulse origin ∨ e.work = .pullIn origin) :
    grant s e w = freed s (grantedDrive s e w) := by
  obtain h | h := h <;> simp only [grant, freed, grantedDrive, h]

theorem grant_of_step {s : State} {e : Entry} (w : Nat) {t : StepperId} (h : e.work = .step t) :
    grant s e w = freed s (grantStep (grantedDrive s e w) t e.channel) := by
  simp only [grant, freed, grantedDrive, h]

theorem grant_of_fire {s : State} {e : Entry} (w : Nat) {k : LinkId} {notified : PortSet} (h : e.work = .fire k notified) :
    grant s e w = grantFire (freed s (grantedDrive s e w)) k := by
  simp only [grant, freed, grantedDrive, h]

theorem grantedDrive_chan (s : State) (e : Entry) (w : Nat) :
    (grantedDrive s e w).chan e.channel = { s.chan e.channel with state := .drive e.work.kind w w } := startDrive_chan _ _ _ _

theorem grantedDrive_arb {s : State} {e : Entry} (w : Nat) (hidle : (s.chan e.channel).state = .idle)
    (hcls : (s.chan e.channel).coil.cls ≠ .flipper) :
    (grantedDrive s e w).arb = { s.arb with
      waitList := s.arb.waitList.filter fun x => x.channel ≠ e.channel
      general := s.arb.general + (s.chan e.channel).coil.weight } := startDrive_arb (s := dropEntry s e.channel) _ w hidle hcls

theorem chan_of_channels {s t : State} (h : t.channels = s.channels) (c : ChannelId) : t.chan c = s.chan c := congrArg (Table.get · c) h

/-- What the grant of an entry leaves where its place needs no handing out. -/
structure Granted (s : State) (e : Entry) (w : Nat) (t : State) : Prop where
  state : (t.chan e.channel).state = .drive e.work.kind w w
  general : t.arb.general = s.arb.general + (s.chan e.channel).coil.weight
  stepped : ∀ u, e.work = .step u →
    t.arb.pointer = u + 1 ∧ (t.stepper u).spacing = some (s.stepper u).cfg.spacing ∧ (t.stepper u).inDrive.isSome = true
  pointer : (∀ u, e.work ≠ .step u) → t.arb.pointer = s.arb.pointer

/-- A grant of a PULSE or PULL_IN is its drive; that of a FIRE is followed by an offer, which touches neither channels nor pools. -/
theorem granted_of_drive {s t : State} {e : Entry} {w : Nat} (hidle : (s.chan e.channel).state = .idle)
    (hcls : (s.chan e.channel).coil.cls ≠ .flipper) (hstep : ∀ u, e.work ≠ .step u)
    (hchan : t.channels = (grantedDrive s e w).channels) (hpools : PoolsKept (grantedDrive s e w) t) : Granted s e w t where
  state := by rw [chan_of_channels hchan, grantedDrive_chan]
  general := by rw [hpools.general, grantedDrive_arb w hidle hcls]
  stepped u hu := absurd hu (hstep u)
  pointer _ := by rw [hpools.pointer, grantedDrive_arb w hidle hcls]

theorem grant_granted {s : State} {e : Entry} (w : Nat) (hroom : s.arb.waitList.length < 24)
    (hidle : (s.chan e.channel).state = .idle) (hcls : (s.chan e.channel).coil.cls ≠ .flipper) : Granted s e w (grant s e w) := by
  cases hw : e.work with
  | pulse origin =>
    rw [grant_of_port w (.inl hw), freed_of_room _ hroom]
    exact granted_of_drive hidle hcls (by simp [hw]) rfl (.refl _)
  | pullIn origin =>
    rw [grant_of_port w (.inr hw), freed_of_room _ hroom]
    exact granted_of_drive hidle hcls (by simp [hw]) rfl (.refl _)
  | fire k notified =>
    rw [grant_of_fire w hw, freed_of_room _ hroom]
    exact granted_of_drive hidle hcls (by simp [hw]) (grantFire_channels _ k) (.grantFire _ k)
  | step t =>
    rw [grant_of_step w hw, freed_of_room _ hroom]
    refine ⟨congrArg Channel.state (grantedDrive_chan s e w), ?_, fun u hu => ?_, fun h => absurd hw (h t)⟩
    · exact congrArg Arbiter.general (grantedDrive_arb w hidle hcls)
    · obtain rfl : t = u := Work.step.inj (hw.symm.trans hu)
      simp only [grantStep, State.stepper_setStepper_self]
      exact ⟨rfl, rfl, rfl⟩

/-! ### Removals (R46, R59) -/

/-- The removed entry out of the list, with the attempt that a blocking one's removal brings. -/
def removedEntry (s : State) (e : Entry) : State := if e.passed = 4 then bring (dropEntry s e.channel) else dropEntry s e.channel

theorem removeEntry_of_step {s : State} {e : Entry} {t : StepperId} (h : e.work = .step t) :
    removeEntry s e = freed s (removedEntry s e) := by
  simp only [removeEntry, freed, removedEntry, h]
  rfl

theorem removeEntry_of_not_step {s : State} {e : Entry} (h : ∀ t, e.work ≠ .step t) :
    removeEntry s e = pullInTest (freed s (removedEntry s e)) e.channel := by
  unfold removeEntry
  dsimp only
  split
  · rename_i t ht
    exact absurd ht (h t)
  all_goals rfl

theorem refuseEntry_of_port {s : State} {e : Entry} {origin : PortSet} (h : e.work = .pulse origin ∨ e.work = .pullIn origin) :
    refuseEntry s e = removeEntry (dropPulse s origin e.channel .hot) e := by
  obtain h | h := h <;> simp [refuseEntry, reportDropped, h]

theorem refuseEntry_of_fire {s : State} {e : Entry} {k : LinkId} {notified : PortSet} (h : e.work = .fire k notified) :
    refuseEntry s e = removeEntry (dropPulse (loseFire s k) notified e.channel .hot) e := by
  simp only [refuseEntry, reportDropped, h]

theorem refuseEntry_of_step {s : State} {e : Entry} {t : StepperId} (h : e.work = .step t) : refuseEntry s e = removeEntry s e := by
  simp only [refuseEntry, reportDropped, h]

/-! ### Freed places (R46) -/

theorem handoutChannel_eq (s : State) (c : ChannelId) :
    handoutChannel s c = if s.arb.waitList.length < 24 ∧ (s.chan c).owed = true then
      if pullInCondition s c = true then
        enter (s.setChan c { s.chan c with owed := false })
          ⟨c, .pullIn (s.chan c).claims, (s.chan c).coil.defWidth, s.sw.partTime, none, 0⟩
      else s.setChan c { s.chan c with owed := false }
    else s := by
  have cleared : pullInCondition (s.setChan c { s.chan c with owed := false }) c = pullInCondition s c := by
    simp only [pullInCondition, inCutoff, State.chan_setChan_self]
    rfl
  unfold handoutChannel
  simp only [cleared, Bool.and_eq_true, Bool.not_eq_true', listFull_false_iff, makePullIn, State.chan_setChan_self, State.setChan_setChan]
  rfl

theorem handoutStepper_eq (s : State) (t : StepperId) :
    handoutStepper s t = if s.arb.waitList.length < 24 ∧ (s.stepper t).due = true then
      stepTest (s.setStepper t { s.stepper t with due := false }) t else s := by
  simp only [handoutStepper, Bool.and_eq_true, Bool.not_eq_true', listFull_false_iff]

theorem handoutChannel_owed (s : State) (c : ChannelId) (room : (handoutChannel s c).arb.waitList.length < 24) :
    ((handoutChannel s c).chan c).owed = false := by
  rw [handoutChannel_eq] at room ⊢
  split_ifs at room ⊢ with howed hcondition
  · exact congrArg Channel.owed (State.chan_setChan_self s c _)
  · exact congrArg Channel.owed (State.chan_setChan_self s c _)
  · simpa [room] using howed

theorem handoutStepper_due (s : State) (t : StepperId) (room : (handoutStepper s t).arb.waitList.length < 24) :
    ((handoutStepper s t).stepper t).due = false := by
  rw [handoutStepper_eq] at room ⊢
  split_ifs at room ⊢ with hdue
  · exact (Placed.stepTestN 3 _ t).due room t (by rw [State.stepper_setStepper_self])
  · simpa [room] using hdue

theorem mem_allChannels (c : ChannelId) : c ∈ allChannels := List.mem_finRange c

theorem mem_roundRobin (p t : StepperId) : t ∈ roundRobin p :=
  List.mem_map.2 ⟨t - p, List.mem_finRange (t - p), add_sub_cancel p t⟩

theorem foldl_handoutChannel_owed (l : List ChannelId) {s : State} (room : (l.foldl handoutChannel s).arb.waitList.length < 24) :
    ∀ c ∈ l, ((l.foldl handoutChannel s).chan c).owed = false :=
  Placed.foldl_clears (P := fun u c => (u.chan c).owed = false) Placed.handoutChannel handoutChannel_owed
    (fun _ _ _ placed _ h => placed.owed _ h) l s room

theorem foldl_handoutStepper_due (l : List StepperId) {s : State} (room : (l.foldl handoutStepper s).arb.waitList.length < 24) :
    ∀ t ∈ l, ((l.foldl handoutStepper s).stepper t).due = false :=
  Placed.foldl_clears (P := fun u t => (u.stepper t).due = false) Placed.handoutStepper handoutStepper_due
    (fun _ _ _ placed hroom h => placed.due hroom _ h) l s room

theorem handout_owed {s : State} (room : (handout s).arb.waitList.length < 24) (c : ChannelId) : ((handout s).chan c).owed = false := by
  unfold handout at room ⊢
  have steppers := Placed.foldl Placed.handoutStepper (roundRobin s.arb.pointer) (allChannels.foldl handoutChannel s)
  have channels := foldl_handoutChannel_owed allChannels (Nat.lt_of_le_of_lt steppers.grows room) c (mem_allChannels c)
  exact steppers.owed c channels

theorem handout_due {s : State} (room : (handout s).arb.waitList.length < 24) (t : StepperId) :
    ((handout s).stepper t).due = false := by
  unfold handout at room ⊢
  exact foldl_handoutStepper_due (roundRobin s.arb.pointer) room t (mem_roundRobin _ t)

/-! ### The walk (R48, R51, R53, R54) -/

theorem eligible_iff (s : State) (e : Entry) :
    eligible s e = true ↔ (s.chan e.channel).state = .idle ∧ (s.chan e.channel).heat.thermal ≠ .cutoff ∧ s.supply.state = .up := by
  simp [eligible, inCutoff, State.isUp, and_assoc]

theorem selection_eq (s : State) :
    selection s =
      let l := s.arb.waitList.filter fun e => (s.chan e.channel).state = .idle ∧ (s.chan e.channel).heat.thermal ≠ .cutoff ∧
        s.supply.state = .up
      ((l.filter fun e => e.work.kind = .fire) ++ (l.filter fun e => e.work.kind = .pulse ∨ e.work.kind = .pullIn) ++
        ((List.finRange 16).map fun i => s.arb.pointer + i).filterMap fun t => l.find? fun e => e.work = .step t).map Entry.channel := by
  have eligibles : (fun e => eligible s e) = fun e => decide ((s.chan e.channel).state = .idle ∧
      (s.chan e.channel).heat.thermal ≠ .cutoff ∧ s.supply.state = .up) := funext fun e => by
    rw [← Bool.coe_iff_coe, decide_eq_true_iff]
    exact eligible_iff s e
  have fires : (fun e : Entry => e.work.isFire) = fun e => decide (e.work.kind = .fire) := funext fun e => by cases e.work <;> rfl
  have ports : (fun e : Entry => e.work.isPort) = fun e => decide (e.work.kind = .pulse ∨ e.work.kind = .pullIn) :=
    funext fun e => by cases e.work <;> rfl
  simp only [selection, eligibles, fires, ports]
  rfl

theorem selection_of_none_eligible {s : State} (h : ∀ e ∈ s.arb.waitList, eligible s e = false) : selection s = [] := by
  have none : s.arb.waitList.filter (fun e => eligible s e) = [] := List.filter_eq_nil_iff.2 fun e he => by simp [h e he]
  simp [selection, none]

theorem attempt_of_selection_nil {s : State} (h : selection s = []) : attempt s = s := by
  simp only [attempt, h, walk, raisePassed, List.not_mem_nil, if_false, List.map_id']
  rfl

/-- Attempts that find no entry eligible change nothing (R47). -/
theorem attemptNow_of_selection_nil {s : State} (h : selection s = []) : attemptNow s = s.brought 0 :=
  settleN_idle 49 (s := bring s) fun m => attempt_of_selection_nil (s := (bring s).brought m) h

theorem fits_iff_le (s : State) (c : ChannelId) :
    fits s c = true ↔ s.arb.general + (s.chan c).coil.weight ≤ s.supply.cfg.budget - s.supply.cfg.reserve := decide_eq_true_iff

theorem walk_blocked {s : State} {c : ChannelId} {e : Entry} (rest failed passed : List ChannelId) (he : entryOf s c = some e)
    (hfit : ¬fits s c = true) (hp : e.passed = 4) : walk (c :: rest) failed passed s = (s, passed) := by
  simp only [walk, he, if_neg hfit]
  exact if_pos hp

theorem walk_misfit {s : State} {c : ChannelId} {e : Entry} (rest failed passed : List ChannelId) (he : entryOf s c = some e)
    (hfit : ¬fits s c = true) (hp : e.passed ≠ 4) : walk (c :: rest) failed passed s = walk rest (failed ++ [c]) passed s := by
  rw [walk]
  simp only [he, if_neg hfit]
  exact if_neg hp

theorem walk_refused {s : State} {c : ChannelId} {e : Entry} (rest failed passed : List ChannelId) (he : entryOf s c = some e)
    (hfit : fits s c = true) (hq : (heatCheck s c e.width).2 = none) :
    walk (c :: rest) failed passed s = walk rest failed passed (refuseEntry (heatCheck s c e.width).1 e) := by
  rw [walk]
  simp only [he, if_pos hfit]
  split
  · rename_i u hu; rw [hu]
  · rename_i u w hu; rw [hu] at hq; cases hq

theorem walk_granted {s : State} {c : ChannelId} {e : Entry} {w : Nat} (rest failed passed : List ChannelId)
    (he : entryOf s c = some e) (hfit : fits s c = true) (hq : (heatCheck s c e.width).2 = some w) :
    walk (c :: rest) failed passed s = walk rest failed failed (grant (heatCheck s c e.width).1 e w) := by
  rw [walk]
  simp only [he, if_pos hfit]
  split
  · rename_i u hu; rw [hu] at hq; cases hq
  · rename_i u v hu
    rw [hu] at hq ⊢
    obtain rfl := Option.some.inj hq
    rfl

theorem walk_without {s : State} {c : ChannelId} (rest failed passed : List ChannelId) (he : entryOf s c = none) :
    walk (c :: rest) failed passed s = walk rest failed passed s := by
  rw [walk]
  simp only [he]

theorem attempts_nothing {s : State} (h : s.supply.state ≠ .up ∨ ∀ e ∈ s.arb.waitList, (s.chan e.channel).state ≠ .idle ∨
      (s.chan e.channel).heat.thermal = .cutoff) : selection s = [] := by
  refine selection_of_none_eligible fun e he => Bool.eq_false_iff.2 fun heligible => ?_
  obtain ⟨hidle, hthermal, hup⟩ := (eligible_iff s e).1 heligible
  obtain h | h := h
  · exact h hup
  · exact (h e he).elim (fun k => k hidle) hthermal

/-- Settles O33, clause by clause from the arbiter's equations. -/
theorem grantsNeedTheSupplyAndStartTheDrive : Obligations.GrantsNeedTheSupplyAndStartTheDrive := by
  refine ⟨fun s h => ?nothing, fun s e w hroom hidle hcls => ?granted, fun s e w => ?equations, fun s => ?places, fun s => ?walks,
    fun s => ⟨rfl, rfl, settle_none, fun n hn => settle_next hn, settle_attempts s⟩⟩
  case nothing =>
    have hnil := attempts_nothing h
    rw [attemptNow_of_selection_nil hnil]
    exact ⟨hnil, rfl, rfl, rfl⟩
  case granted =>
    obtain ⟨hstate, hgeneral, hstepped, hpointer⟩ := grant_granted w hroom hidle hcls
    exact ⟨(grant_done s e w).2, hstate, hgeneral, hstepped, hpointer⟩
  case equations =>
    simp only [← freed_eq]
    exact ⟨fun _ => grant_of_port w, fun _ => grant_of_step w, fun _ _ => grant_of_fire w, fun _ => removeEntry_of_step,
      removeEntry_of_not_step, fun _ => refuseEntry_of_port, fun _ _ => refuseEntry_of_fire, fun _ => refuseEntry_of_step⟩
  case places =>
    exact ⟨rfl, handoutChannel_eq s, handoutStepper_eq s, (Placed.handout s).cap, fun room => ⟨handout_owed room, handout_due room⟩⟩
  case walks =>
    refine ⟨rfl, selection_eq s, fun cs => rfl, fun _ _ => rfl, fun c rest failed passed e he => ?_,
      fun c rest failed passed => walk_without rest failed passed⟩
    simp only [← fits_iff_le]
    exact ⟨walk_blocked rest failed passed he, walk_misfit rest failed passed he, walk_refused rest failed passed he,
      fun w => walk_granted rest failed passed he⟩

end Sys2Proof.Machine
end

section
/-! Holds, gaps, deadlines and coil records (R7, R11, R13, R19, R20, R56): the answers and ends by their tables. -/

namespace Sys2Proof.Machine

/-! ### Requests by their own rules -/

/-- A ready request of its row's length is answered by its own rules on the state that the engine's take leaves (R157). -/
theorem exec_ready {c : Instr} {p : Port} {kind : Byte} {n : Nat} {body : List Byte} {s : State} (h : Ready p kind body s)
    (hline : requestLine c = some (p, kind, n, body)) (hn : body.length = n) :
    exec c s = .next (reply p kind (ownRules c (take s p))) := by
  rw [exec_requestLine hline, catalogued_ready _ h hn]

theorem PortSet.isEmpty_iff (x : PortSet) : x.isEmpty = true ↔ x = .empty := by
  obtain ⟨a, b⟩ := x
  cases a <;> cases b <;> decide

theorem PortSet.isEmpty_false_iff (x : PortSet) : x.isEmpty = false ↔ x ≠ .empty := by
  rw [← Bool.not_eq_true, ne_eq, PortSet.isEmpty_iff]

/-! ### HOLD (R13) -/

theorem holdRequest_of_range {p : Port} {x setting : Byte} {s : State} (h : 47 < x.toNat ∨ 1 < setting.toNat) :
    holdRequest p [x, setting] s = .refuse s .range := by
  rw [holdRequest, u8_zero, u8_succ, u8_zero]
  split
  · rfl
  · rename_i c hc
    have hx : x.toNat = c.val := index_some hc
    rw [if_neg (by omega), if_neg (by omega)]

theorem holdRequest_on (p : Port) (c : ChannelId) (s : State) : holdRequest p [byte c.val, 1#8] s = holdOnRequest p c s := by
  rw [holdRequest, u8_zero, index_byte (by decide)]
  rfl

theorem holdRequest_off (p : Port) (c : ChannelId) (s : State) : holdRequest p [byte c.val, 0#8] s = holdOffRequest p c s := by
  rw [holdRequest, u8_zero, index_byte (by decide)]
  rfl

/-- Settles O26: the table of R13 row by row. -/
theorem holdOnIsAnsweredByItsTable : Obligations.HoldOnIsAnsweredByItsTable := by
  intro p s
  refine ⟨fun c h => ?table, fun x setting hx h => ?range⟩
  case table =>
    rw [exec_ready h rfl rfl]
    simp only [ownRules, holdRequest_on, holdOnRequest, apply_ite (reply p 0x03#8)]
    refine congrArg Host.Outcome.next <| if_congr Iff.rfl rfl <| if_congr Iff.rfl rfl <| if_congr Iff.rfl rfl <|
      if_congr (inCutoff_iff _ _) rfl <| if_congr Iff.rfl rfl <| if_congr ?full rfl <| if_congr (PortSet.isEmpty_iff _) rfl rfl
    rw [Bool.and_eq_true, listFull_iff]
    rfl
  case range =>
    rw [exec_ready h rfl rfl]
    exact congrArg (fun a => Host.Outcome.next (reply p 0x03#8 a)) (holdRequest_of_range hx)

/-! ### CONFIGURE COIL (R2, R19, R20) -/

theorem flipperNames_iff (r : FlipperRecord) (c : ChannelId) :
    r.names c = true ↔ r.power ≠ none ∧ (r.power = some c ∨ r.hold = some c) := by
  simp [FlipperRecord.names, Option.isSome_iff_ne_none]

theorem stepperNames_iff (r : StepperRecord) (c : ChannelId) : r.names c = true ↔ r.up = some c ∨ r.down = some c := by
  simp [StepperRecord.names]

theorem flipperOf_none_iff (s : State) (c : ChannelId) : flipperOf s c = none ↔ ∀ f, (s.flip f).cfg.names c = false := by
  simp [flipperOf, allFlippers]

theorem stepperOf_none_iff (s : State) (c : ChannelId) : stepperOf s c = none ↔ ∀ t, (s.stepper t).cfg.names c = false := by
  simp [stepperOf, allSteppers]

theorem linkNames_iff (s : State) (c : ChannelId) : linkNames s c = true ↔ ∃ k, (s.link k).cfg.channel = some c := by
  simp [linkNames, allLinks]

theorem coilClassOf_eq (k : Nat) : coilClassOf k = [CoilClass.off, .pulse, .holdable, .stepper, .flipper][k]? := by
  match k with
  | 0 | 1 | 2 | 3 | 4 => rfl
  | k + 5 => simp [coilClassOf]

theorem coilRecordOf_iff (b : List Byte) (r : CoilRecord) :
    coilRecordOf b = some r ↔ coilClassOf (u8 b 1) = some r.cls ∧ r = coilFields r.cls b ∧ r.accepted = true := by
  rw [coilRecordOf]
  cases hcls : coilClassOf (u8 b 1) with
  | none => simp
  | some cls =>
    dsimp only
    split
    · rename_i haccepted
      refine ⟨fun h => ?_, fun ⟨h, he, _⟩ => ?_⟩
      · obtain rfl := Option.some.inj h
        exact ⟨rfl, rfl, haccepted⟩
      · rw [Option.some.inj h, ← he]
    · rename_i hrefused
      refine ⟨fun h => (by cases h), fun ⟨h, he, haccepted⟩ => absurd ?_ hrefused⟩
      rwa [Option.some.inj h, ← he]

theorem coilFields_iff (r : CoilRecord) (b : List Byte) :
    r = coilFields r.cls b ↔
      r.maxWidth = u8 b 2 ∧ r.defWidth = u8 b 3 ∧ r.wmin = u8 b 4 ∧ r.gap = (if r.cls = .flipper then 0 else u8 b 5) ∧
      r.weight = u8 b 6 ∧ r.duty = min 16 (u8 b 7) ∧ r.gain = u8 b 8 ∧ r.decay = u8 b 9 ∧ r.warn = u16 b 10 ∧
      r.limit = u16 b 12 ∧ r.cutoff = u16 b 14 ∧ r.resume = u16 b 16 ∧ r.waitLimit = u8 b 18 := by
  cases r
  simp only [coilFields, CoilRecord.mk.injEq, true_and, Nat.min_comm]

theorem CoilRecord.accepted_iff (r : CoilRecord) :
    r.accepted = true ↔ r.warn < r.cutoff ∧ r.resume < r.warn ∧ r.warn ≤ r.limit ∧ r.limit ≤ r.cutoff ∧
      1 ≤ r.wmin ∧ r.wmin ≤ r.defWidth ∧ r.defWidth ≤ r.maxWidth ∧ r.maxWidth ≤ 255 ∧
      1 ≤ r.duty ∧ 1 ≤ r.weight ∧ r.weight ≤ 63 ∧ 1 ≤ r.gain ∧ 1 ≤ r.decay := by
  simp only [CoilRecord.accepted, Bool.and_eq_true, decide_eq_true_eq, and_assoc]

theorem classFits_iff (s : State) (c : ChannelId) (cls : CoilClass) :
    classFits s c cls = true ↔
      (∀ f, (s.flip f).cfg.power ≠ none → (s.flip f).cfg.power = some c ∨ (s.flip f).cfg.hold = some c → cls = .flipper) ∧
      (∀ t, (s.stepper t).cfg.up = some c ∨ (s.stepper t).cfg.down = some c → cls = .stepper) ∧
      ∀ k, (s.link k).cfg.channel = some c → cls = .pulse ∨ cls = .holdable := by
  have flipper : ((flipperOf s c).isNone || cls = .flipper) = true ↔
      ∀ f, (s.flip f).cfg.power ≠ none → (s.flip f).cfg.power = some c ∨ (s.flip f).cfg.hold = some c → cls = .flipper := by
    simp only [Bool.or_eq_true, Option.isNone_iff_eq_none, flipperOf_none_iff, ← Bool.not_eq_true, flipperNames_iff,
      decide_eq_true_eq]
    exact ⟨fun h f hp hn => h.resolve_left fun k => k f ⟨hp, hn⟩, fun h => or_iff_not_imp_right.2 fun k f ⟨hp, hn⟩ => k (h f hp hn)⟩
  have stepper : ((stepperOf s c).isNone || cls = .stepper) = true ↔
      ∀ t, (s.stepper t).cfg.up = some c ∨ (s.stepper t).cfg.down = some c → cls = .stepper := by
    simp only [Bool.or_eq_true, Option.isNone_iff_eq_none, stepperOf_none_iff, ← Bool.not_eq_true, stepperNames_iff,
      decide_eq_true_eq]
    exact ⟨fun h t hn => h.resolve_left fun k => k t hn, fun h => or_iff_not_imp_right.2 fun k t hn => k (h t hn)⟩
  have link : (!linkNames s c || cls.pulsed) = true ↔ ∀ k, (s.link k).cfg.channel = some c → cls = .pulse ∨ cls = .holdable := by
    simp only [Bool.or_eq_true, Bool.not_eq_true', ← Bool.not_eq_true, linkNames_iff, CoilClass.pulsed_iff]
    exact ⟨fun h k hk => h.resolve_left fun n => n ⟨k, hk⟩, fun h => or_iff_not_imp_left.2 fun n => (not_not.1 n).elim h⟩
  rw [classFits, Bool.and_eq_true, Bool.and_eq_true, flipper, stepper, link, and_assoc]

theorem flipperWeightsWith_eq (s : State) (c : ChannelId) (r : CoilRecord) :
    flipperWeightsWith s c r = ((List.finRange 48).map fun d =>
      let x := if d = c then r else (s.chan d).coil
      if x.cls = .flipper then x.weight else 0).sum := by
  refine congrArg List.sum (List.map_congr_left fun d _ => ?_)
  dsimp only [CoilRecord.flipperWeight]
  split_ifs <;> rfl

theorem configurable_iff (x : ChanState) : x.configurable = true ↔ x = .off ∨ x = .idle ∨ x = .disabled := by
  cases x <;> simp [ChanState.configurable]

theorem configureCoilRequest_of_range {body : List Byte} {s : State} (h : index 48 (u8 body 0) = none ∨ coilRecordOf body = none) :
    configureCoilRequest body s = .refuse s .range := by
  unfold configureCoilRequest
  split
  · rename_i hc hr
    rw [hc, hr] at h
    simp at h
  · rfl

theorem configureCoilRequest_eq {body : List Byte} {c : ChannelId} {r : CoilRecord} (s : State)
    (hc : index 48 (u8 body 0) = some c) (hr : coilRecordOf body = some r) :
    configureCoilRequest body s =
      if s.saving then .refuse s .busy
      else if !(s.chan c).state.configurable || (entryOf s c).isSome then .refuse s .busy
      else if r.cls ≠ (s.chan c).coil.cls && !classFits s c r.cls then .refuse s .refused
      else if s.supply.cfg.reserve < flipperWeightsWith s c r then .refuse s .refused
      else .done (configureCoil s c r) := by
  simp only [configureCoilRequest, hc, hr]

/-- Settles O29: the record's fields and ranges, the names a class must fit, and the checks of R19 in their order. -/
theorem configureCoilChecksAndReplaces : Obligations.ConfigureCoilChecksAndReplaces := by
  refine ⟨fun body r => ?record, classFits_iff, flipperWeightsWith_eq, fun p body s h hn => ⟨fun hrange => ?range, fun c r hc hr => ?checks⟩⟩
  case record =>
    rw [coilRecordOf_iff, coilFields_iff, CoilRecord.accepted_iff, coilClassOf_eq]
    simp only [and_assoc]
    rfl
  case range =>
    rw [exec_ready h rfl hn]
    exact congrArg (fun a => Host.Outcome.next (reply p 0x06#8 a)) (configureCoilRequest_of_range hrange)
  case checks =>
    rw [exec_ready h rfl hn]
    simp only [ownRules, configureCoilRequest_eq _ hc hr, apply_ite (reply p 0x06#8)]
    refine congrArg Host.Outcome.next <| if_congr Iff.rfl rfl <| if_congr ?busy rfl <| if_congr ?names rfl <|
      if_congr Iff.rfl rfl ?accepted
    case busy =>
      rw [Bool.or_eq_true, Bool.not_eq_true', ← Bool.not_eq_true, configurable_iff, not_or, not_or]
      rfl
    case names =>
      rw [Bool.and_eq_true, Bool.not_eq_true', decide_eq_true_eq]
      rfl
    case accepted =>
      simp only [configureCoil, Bool.and_eq_true, decide_eq_true_eq]
      rfl

end Sys2Proof.Machine
end

section
/-! Ends of drives, gaps and deadlines (R7, R11, R56): which report each end makes. -/

namespace Sys2Proof.Machine

/-! ### RECOVERY_GAP_EXPIRY (R11) -/

/-- The reports of a return to IDLE, in their order. -/
theorem reportIdle_eq (s : State) (c : ChannelId) (after : Option StepperId) :
    reportIdle s c after =
      let a := attemptNow s
      let b := match stepperOf a c with
        | none => a
        | some t => settle (stepTest (if after = some t then lookHome a t else a) t)
      settle (pullInTest b c) := by
  unfold reportIdle
  dsimp only
  cases stepperOf (attemptNow s) c with
  | none => rfl
  | some t => simp only [stepperIdle, decide_eq_true_eq]

theorem recoveryGapExpiry_due {s : State} {c : ChannelId} {after : Option StepperId} (h : (s.chan c).state = .recover 0 after) :
    recoveryGapExpiry c s = reportIdle (s.setChan c { s.chan c with state := .idle }) c after := by
  simp only [recoveryGapExpiry, h]

theorem recoveryGapExpiry_early {s : State} {c : ChannelId} (h : ∀ after, (s.chan c).state ≠ .recover 0 after) :
    recoveryGapExpiry c s = s := by
  unfold recoveryGapExpiry
  split
  · rename_i after hstate
    exact absurd hstate (h after)
  · rfl

/-- Settles O31: a gap that is due returns the channel to IDLE with its reports. -/
theorem recoveryGapExpiryReturnsToIdle : Obligations.RecoveryGapExpiryReturnsToIdle :=
  fun c s => ⟨fun _ h => congrArg Host.Outcome.next (recoveryGapExpiry_due h),
    fun h => congrArg Host.Outcome.next (recoveryGapExpiry_early h), reportIdle_eq s c⟩

/-! ### DEADLINE_EXPIRY (R56) -/

theorem deadlineExpiry_due {s : State} {c : ChannelId} {e : Entry} {d : Deadline} (he : entryOf s c = some e)
    (hd : e.deadline = some d) (hleft : d.left = 0) :
    deadlineExpiry c s = settle (removeEntry (reportDropped s e .expired) e) := by
  simp [deadlineExpiry, he, Entry.expired, hd, hleft]

theorem deadlineExpiry_early {s : State} {c : ChannelId}
    (h : ∀ e d, entryOf s c = some e → e.deadline = some d → d.left ≠ 0) : deadlineExpiry c s = s := by
  unfold deadlineExpiry
  split
  · rfl
  · rename_i e he
    refine if_neg fun hexpired => ?_
    unfold Entry.expired at hexpired
    split at hexpired
    · cases hexpired
    · rename_i d hd
      exact h e d he hd (of_decide_eq_true hexpired)

theorem entryOf_dropEntry_self (s : State) (c : ChannelId) : entryOf (dropEntry s c) c = none := by
  simp [entryOf, dropEntry]

/-- Settles O32: a due deadline's entry is reported EXPIRED by its kind and removed. -/
theorem deadlineExpiryRemovesTheEntry : Obligations.DeadlineExpiryRemovesTheEntry := by
  refine fun c s => ⟨fun e d he hd hleft => ⟨fun origin hw => ?pulse, fun k notified hw => ?fire, entryOf_dropEntry_self s c⟩,
    fun h => congrArg Host.Outcome.next (deadlineExpiry_early h)⟩
  all_goals refine congrArg Host.Outcome.next ((deadlineExpiry_due he hd hleft).trans ?_)
  case pulse => simp only [reportDropped, hw]
  case fire =>
    simp only [reportDropped, hw]
    rfl

/-! ### DRIVE_END (R7) -/

theorem driveEnd_running {s : State} {c : ChannelId} {kind : DriveKind} {w left : Nat}
    (h : (s.chan c).state = .drive kind w left) (hleft : left ≠ 0) : driveEnd c s = s := by
  obtain ⟨n, rfl⟩ := Nat.exists_eq_succ_of_ne_zero hleft
  simp only [driveEnd, h]

/-- The end of a due drive by its kind. -/
theorem driveEnd_due {s : State} {c : ChannelId} {kind : DriveKind} {w : Nat} (h : (s.chan c).state = .drive kind w 0) :
    driveEnd c s = match kind with
      | .pullIn => if (s.chan c).claims.isEmpty then release s c else attemptNow (absorbWaiting (enterHold s c) c)
      | .flipper =>
        match flipperOf s c with
        | none => release s c
        | some f => flipperDriveEnd s f c
      | .step => stepChannelEnd s c
      | .pulse => release s c
      | .fire => release s c := by
  simp only [driveEnd, h]
  cases kind <;> rfl

/-- The drives that rest: PULSE and FIRE, an unclaimed PULL_IN, a STEP or FLIPPER that no record owns. -/
theorem driveEnd_rests {s : State} {c : ChannelId} {kind : DriveKind} {w : Nat} (h : (s.chan c).state = .drive kind w 0)
    (hrests : kind = .pulse ∨ kind = .fire ∨ kind = .pullIn ∧ (s.chan c).claims = .empty ∨ kind = .step ∧ stepperOf s c = none ∨
      kind = .flipper ∧ flipperOf s c = none) : driveEnd c s = release s c := by
  rw [driveEnd_due h]
  obtain rfl | rfl | ⟨rfl, hclaims⟩ | ⟨rfl, hstepper⟩ | ⟨rfl, hflipper⟩ := hrests
  · rfl
  · rfl
  · exact if_pos ((PortSet.isEmpty_iff _).2 hclaims)
  · simp only [stepChannelEnd, hstepper]
  · simp only [hflipper]

theorem driveEnd_claimed {s : State} {c : ChannelId} {w : Nat} (h : (s.chan c).state = .drive .pullIn w 0)
    (hclaims : (s.chan c).claims ≠ .empty) : driveEnd c s = attemptNow (absorbWaiting (enterHold s c) c) := by
  rw [driveEnd_due h]
  exact if_neg fun e => hclaims ((PortSet.isEmpty_iff _).1 e)

theorem absorbWaiting_none {s : State} {c : ChannelId} (h : entryOf s c = none) : absorbWaiting s c = s := by
  simp only [absorbWaiting, h]

theorem absorbWaiting_pulse {s : State} {c : ChannelId} {e : Entry} {origin : PortSet} (h : entryOf s c = some e)
    (hw : e.work = .pulse origin) : absorbWaiting s c = removeEntry (countAbsorbed s c) e := by
  simp only [absorbWaiting, h, hw]

theorem absorbWaiting_fire {s : State} {c : ChannelId} {e : Entry} {k : LinkId} {notified : PortSet} (h : entryOf s c = some e)
    (hw : e.work = .fire k notified) : absorbWaiting s c = removeEntry (loseFire (countAbsorbed s c) k) e := by
  simp only [absorbWaiting, h, hw]

/-- Into HOLD with the absorbed count: one write of the channel. -/
theorem countAbsorbed_enterHold (s : State) (c : ChannelId) :
    countAbsorbed (enterHold s c) c = s.setChan c { s.chan c with
      state := .hold
      absorbed := min 65535 ((s.chan c).absorbed + 1)
      heat := { (s.chan c).heat with dEff := derate (s.chan c).coil (s.chan c).heat.h } } := by
  simp only [countAbsorbed, enterHold, State.chan_setChan_self, State.setChan_setChan]
  rfl

theorem driveEnd_step {s : State} {c : ChannelId} {w : Nat} {t : StepperId} (h : (s.chan c).state = .drive .step w 0)
    (ht : stepperOf s c = some t) :
    driveEnd c s = if (s.chan c).coil.gap = 0 then
        reportIdle (settle (stepDriveEnd (attemptNow (s.setChan c { s.chan c with state := .idle })) t c true)) c (some t)
      else settle (stepDriveEnd (attemptNow (s.setChan c { s.chan c with
        state := .recover (s.chan c).coil.gap (some t) })) t c false) := by
  rw [driveEnd_due h]
  by_cases hgap : (s.chan c).coil.gap = 0 <;> simp [stepChannelEnd, ht, gapless, rest, hgap]

/-- Settles O30: each kind of drive by its end, and what the removal of an absorbed entry tells. -/
theorem driveEndLeadsToRecoverOrHold : Obligations.DriveEndLeadsToRecoverOrHold := by
  refine ⟨fun c kind w left s h => ?ends, fun e s => ⟨removeEntry_dropped s e, fun hhold => ?removed⟩⟩
  case removed => exact removeEntry_entryOf (.inl (by rw [hhold]; decide))
  case ends =>
    refine ⟨fun hleft => congrArg Host.Outcome.next (driveEnd_running h hleft), ?gap, ?gapless, ?held, ?absorbed, ?step, ?flipper⟩
    case gap =>
      rintro rfl hrests hgap
      exact congrArg Host.Outcome.next ((driveEnd_rests h hrests).trans (release_gap hgap))
    case gapless =>
      rintro rfl hrests hgap
      exact congrArg Host.Outcome.next ((driveEnd_rests h hrests).trans (release_gapless hgap))
    case held =>
      rintro rfl rfl hclaims hentry
      refine congrArg Host.Outcome.next ((driveEnd_claimed h hclaims).trans ?_)
      rw [absorbWaiting_none (s := enterHold s c) hentry]
      rfl
    case absorbed =>
      rintro e rfl rfl hclaims hentry
      refine ⟨fun origin hw => ?_, fun k notified hw => ?_⟩
      · refine congrArg Host.Outcome.next ((driveEnd_claimed h hclaims).trans ?_)
        rw [absorbWaiting_pulse (s := enterHold s c) hentry hw, countAbsorbed_enterHold]
      · refine congrArg Host.Outcome.next ((driveEnd_claimed h hclaims).trans ?_)
        rw [absorbWaiting_fire (s := enterHold s c) hentry hw, countAbsorbed_enterHold]
        rfl
    case step =>
      rintro t rfl rfl ht
      exact congrArg Host.Outcome.next (driveEnd_step h ht)
    case flipper =>
      rintro f rfl rfl hf
      refine congrArg Host.Outcome.next ((driveEnd_due h).trans ?_)
      simp only [hf]

end Sys2Proof.Machine
end

section
/-! What any work of the arbiter, the steppers and the flippers may do to one channel: start its drive from IDLE, and nothing more, unless
the work releases that channel itself. -/

namespace Sys2Proof.Machine

/-- Nobody asks for the channel: it has no entry, no stepper names it, and no pull-in can be made for it. -/
structure Unfed (c : ChannelId) (s : State) : Prop where
  entry : entryOf s c = none
  stepper : stepperOf s c = none
  pull : (s.chan c).claims = .empty ∨ (s.chan c).coil.cls ≠ .holdable

/-- From `s` to `t` the channel keeps its claims and record, and its state unless a drive starts from IDLE. Without claims it gains no owed
mark, and where nobody asks for it, nobody does after, and its state stays. -/
structure Served (c : ChannelId) (s t : State) : Prop where
  claims : (t.chan c).claims = (s.chan c).claims
  coil : (t.chan c).coil = (s.chan c).coil
  state : (t.chan c).state = (s.chan c).state ∨ (s.chan c).state = .idle ∧ ∃ kind w, (t.chan c).state = .drive kind w w
  owed : (s.chan c).claims = .empty → (s.chan c).owed = false → (t.chan c).owed = false
  unfed : Unfed c s → (t.chan c).state = (s.chan c).state ∧ Unfed c t

theorem CoilWork.stepperOf {s t : State} (h : CoilWork s t) (c : ChannelId) : stepperOf t c = stepperOf s c := by
  have names : (fun u => (t.stepper u).cfg.names c) = fun u => (s.stepper u).cfg.names c := funext fun u => by rw [h.stepperCfg]
  simp only [Machine.stepperOf, names]

theorem CoilWork.flipperOf {s t : State} (h : CoilWork s t) (c : ChannelId) : flipperOf t c = flipperOf s c := by
  have names : (fun f => (t.flip f).cfg.names c) = fun f => (s.flip f).cfg.names c := funext fun f => by rw [h.flipCfg]
  simp only [Machine.flipperOf, names]

theorem pullInCondition_iff (s : State) (c : ChannelId) :
    pullInCondition s c = true ↔ (s.chan c).coil.cls = .holdable ∧ (s.chan c).claims ≠ .empty ∧ (s.chan c).state = .idle ∧
      s.supply.state = .up ∧ (s.chan c).heat.thermal ≠ .cutoff ∧ entryOf s c = none := by
  simp [pullInCondition, inCutoff, State.isUp, PortSet.isEmpty_false_iff, and_assoc]

/-- The channel of a ready step is one that the stepper names. -/
theorem stepperOf_of_stepReady {s : State} {t : StepperId} {c : ChannelId} (h : stepReady s t = some c) : stepperOf s c ≠ none := by
  intro hnone
  have unnamed := (stepperOf_none_iff s c).1 hnone t
  rw [← Bool.not_eq_true, stepperNames_iff] at unnamed
  unfold stepReady at h
  dsimp only at h
  split at h
  · cases h
  · rename_i d _
    split at h
    · cases h
    · rename_i e he
      split at h
      · obtain rfl := Option.some.inj h
        cases d with
        | up => exact unnamed (.inl he)
        | down => exact unnamed (.inr he)
      · cases h

theorem entryOf_none_iff (s : State) (c : ChannelId) : entryOf s c = none ↔ ∀ e ∈ s.arb.waitList, e.channel ≠ c := by
  simp [entryOf]

namespace Served

variable {c : ChannelId} {s t u : State}

theorem refl (s : State) : Served c s s := ⟨rfl, rfl, .inl rfl, fun _ => id, fun h => ⟨rfl, h⟩⟩

theorem trans (h : Served c s t) (g : Served c t u) : Served c s u where
  claims := g.claims.trans h.claims
  coil := g.coil.trans h.coil
  state := by
    obtain hs | ⟨hidle, kind, w, hd⟩ := h.state
    · rw [← hs]
      exact g.state
    · refine .inr ⟨hidle, kind, w, ?_⟩
      obtain gs | ⟨gidle, _⟩ := g.state
      · exact gs.trans hd
      · rw [hd] at gidle; cases gidle
  owed hc ho := g.owed (h.claims.trans hc) (h.owed hc ho)
  unfed hu := ⟨(g.unfed (h.unfed hu).2).1.trans (h.unfed hu).1, (g.unfed (h.unfed hu).2).2⟩

theorem foldl {α : Type} {f : State → α → State} (h : ∀ s x, Served c s (f s x)) (l : List α) (s : State) :
    Served c s (l.foldl f s) := by
  induction l generalizing s with
  | nil => exact refl s
  | cons x l ih => exact (h s x).trans (ih _)

/-- Work that touches neither the channel nor any stepper's record, and gives the channel no entry. -/
theorem of_chan (hchan : t.chan c = s.chan c) (hentry : entryOf s c = none → entryOf t c = none)
    (hstep : stepperOf t c = stepperOf s c) : Served c s t :=
  ⟨by rw [hchan], by rw [hchan], .inl (by rw [hchan]), fun _ h => by rwa [hchan],
    fun h => ⟨by rw [hchan], hentry h.entry, hstep.trans h.stepper, by rw [hchan]; exact h.pull⟩⟩

theorem of_same (work : CoilWork s t) (hchan : t.channels = s.channels) (hlist : t.arb.waitList = s.arb.waitList) : Served c s t :=
  of_chan (chan_of_channels hchan c) (fun h => by simpa only [entryOf, hlist] using h) (work.stepperOf c)

/-! ### Writes -/

theorem setFlagPorts (s : State) (ps : PortSet) (n : FlagName) (k : Option Nat) : Served c s (setFlagPorts s ps n k) := by
  refine of_chan (chan_of_channels (setFlagPorts_channels s ps n k) c) (fun h => ?_) ?_
  · simpa only [entryOf, setFlagPorts_arb] using h
  · simp only [stepperOf, setFlagPorts_stepper]

theorem setLink (s : State) (k : LinkId) (x : Link) : Served c s (s.setLink k x) := of_chan rfl id rfl

theorem setFlip (s : State) (f : FlipperId) (x : Flipper) : Served c s (s.setFlip f x) := of_chan rfl id rfl

theorem setAttempts (s : State) (n : Nat) : Served c s (s.setArb { s.arb with attempts := n }) := of_chan rfl id rfl

theorem bring (s : State) : Served c s (bring s) := setAttempts s _

/-- A stepper's state may change, its record not. -/
theorem setStepper (s : State) (t : StepperId) (x : Stepper) (h : x.cfg = (s.stepper t).cfg := by rfl) :
    Served c s (s.setStepper t x) := by
  have same (v : StepperId) : ((s.setStepper t x).stepper v).cfg = (s.stepper v).cfg := by
    by_cases e : v = t
    · subst e; rw [State.stepper_setStepper_self, h]
    · rw [State.stepper_setStepper_ne _ _ _ _ e]
  exact of_chan rfl id (by simp only [stepperOf, same])

/-- Another channel's record. -/
theorem setChan_ne (s : State) {d : ChannelId} (x : Channel) (h : d ≠ c) : Served c s (s.setChan d x) :=
  of_chan (State.chan_setChan_ne _ _ _ _ h.symm) id rfl

/-- The channel's own heat, or its owed mark cleared. -/
theorem setChan_self (s : State) {x : Channel} (hclaims : x.claims = (s.chan c).claims) (hcoil : x.coil = (s.chan c).coil)
    (hstate : x.state = (s.chan c).state) (howed : (s.chan c).claims = .empty → (s.chan c).owed = false → x.owed = false) :
    Served c s (s.setChan c x) := by
  refine ⟨?_, ?_, .inl ?_, ?_, fun h => ⟨?_, h.entry, h.stepper, ?_⟩⟩
  all_goals rw [State.chan_setChan_self]
  · exact hclaims
  · exact hcoil
  · exact hstate
  · exact howed
  · exact hstate
  · rw [hclaims, hcoil]; exact h.pull

/-- Any channel whose record keeps its claims, coil and state. -/
theorem setChan (s : State) (d : ChannelId) {x : Channel} (hclaims : x.claims = (s.chan d).claims) (hcoil : x.coil = (s.chan d).coil)
    (hstate : x.state = (s.chan d).state) (howed : (s.chan d).claims = .empty → (s.chan d).owed = false → x.owed = false) :
    Served c s (s.setChan d x) := by
  by_cases e : d = c
  · subst e; exact setChan_self s hclaims hcoil hstate howed
  · exact setChan_ne s x e

theorem setHeat (s : State) (d : ChannelId) (x : Heat) : Served c s (s.setHeat d x) := setChan s d rfl rfl rfl fun _ => id

theorem relist (s : State) {l : List Entry} (h : ∀ e ∈ l, ∃ o ∈ s.arb.waitList, o.channel = e.channel) : Served c s (s.setWaitList l) := by
  refine of_chan rfl (fun hs => (entryOf_none_iff _ _).2 fun e he hc => ?_) rfl
  obtain ⟨o, ho, hoc⟩ := h e he
  exact (entryOf_none_iff _ _).1 hs o ho (hoc.trans hc)

theorem dropEntry (s : State) (d : ChannelId) : Served c s (dropEntry s d) :=
  relist s fun e he => ⟨e, (List.mem_filter.1 he).1, rfl⟩

theorem enter (s : State) {e : Entry} (h : e.channel = c → ¬Unfed c s) : Served c s (enter s e) := by
  refine ⟨rfl, rfl, .inl rfl, fun _ => id, fun hu => ⟨rfl, (entryOf_none_iff _ _).2 fun o ho => ?_, hu.stepper, hu.pull⟩⟩
  obtain ho | ho := List.mem_append.1 ho
  · exact (entryOf_none_iff _ _).1 hu.entry o ho
  · rw [List.mem_singleton.1 ho]
    exact fun hc => h hc hu

/-! ### Trains, places and removals -/

theorem endTrain (s : State) (t : StepperId) : Served c s (endTrain s t) := by
  unfold Machine.endTrain
  dsimp only
  split
  · exact (setStepper s t _).trans (setFlagPorts _ _ _ _)
  · exact (setStepper s t _).trans (setFlagPorts _ _ _ _)
  all_goals exact refl s

theorem clampTrain (s : State) (t : StepperId) : Served c s (clampTrain s t) := by
  unfold Machine.clampTrain
  dsimp only
  split
  · exact (setStepper s t _).trans (endTrain _ t)
  all_goals exact refl s

theorem enterStep {s : State} {t : StepperId} {d : ChannelId} (h : stepReady s t = some d) : Served c s (enterStep s t d) := by
  have marked : Served c s (s.setStepper t { s.stepper t with homingEntry := (s.stepper t).state.isHoming }) := setStepper s t _
  refine ⟨rfl, rfl, .inl rfl, fun _ => id, fun hu => ?_⟩
  have fed : d ≠ c := fun hd => stepperOf_of_stepReady h (hd ▸ hu.stepper)
  exact (marked.trans (enter (c := c) _ fun hd => absurd hd fed)).unfed hu

theorem stepTestN (n : Nat) (s : State) (t : StepperId) : Served c s (stepTestN n s t) := by
  induction n generalizing s with
  | zero => exact refl s
  | succ n ih =>
    unfold Machine.stepTestN
    split
    · exact refl s
    · rename_i d hd
      split_ifs
      · exact (clampTrain s t).trans (ih _)
      · exact setStepper s t _
      · exact enterStep hd

theorem stepTest (s : State) (t : StepperId) : Served c s (stepTest s t) := stepTestN 3 s t

theorem not_unfed_of_pullInCondition (h : pullInCondition s c = true) : ¬Unfed c s := fun hu => by
  obtain ⟨hcls, hclaims, _⟩ := (pullInCondition_iff s c).1 h
  exact hu.pull.elim hclaims fun k => k hcls

theorem makePullIn {s : State} {d : ChannelId} (h : pullInCondition s d = true) : Served c s (makePullIn s d) := by
  have cleared : Served c s (s.setChan d { s.chan d with owed := false }) := setChan s d rfl rfl rfl fun _ _ => rfl
  refine ⟨cleared.claims, cleared.coil, cleared.state, cleared.owed, fun hu => ?_⟩
  have fed : d ≠ c := fun hd => not_unfed_of_pullInCondition (hd ▸ h) hu
  exact (cleared.trans (enter (c := c) _ fun hd => absurd hd fed)).unfed hu

theorem pullInTest (s : State) (d : ChannelId) : Served c s (pullInTest s d) := by
  unfold Machine.pullInTest
  split_ifs with h
  · exact setChan s d rfl rfl rfl fun hclaims _ => absurd hclaims ((pullInCondition_iff s d).1 h).2.1
  · exact makePullIn h
  · exact refl s

theorem handoutChannel (s : State) (d : ChannelId) : Served c s (handoutChannel s d) := by
  have cleared : Served c s (s.setChan d { s.chan d with owed := false }) := setChan s d rfl rfl rfl fun _ _ => rfl
  unfold Machine.handoutChannel
  dsimp only
  split_ifs with _ h
  · exact cleared.trans (makePullIn h)
  · exact cleared
  · exact refl s

theorem handoutStepper (s : State) (t : StepperId) : Served c s (handoutStepper s t) := by
  unfold Machine.handoutStepper
  split
  · exact (setStepper s t _).trans (stepTest _ t)
  · exact refl s

theorem handout (s : State) : Served c s (handout s) := by
  unfold Machine.handout
  exact (foldl handoutChannel _ s).trans (foldl handoutStepper _ _)

theorem freed (s t : State) : Served c t (freed s t) := by
  unfold Machine.freed
  split
  · exact handout t
  · exact refl t

theorem removedEntry (s : State) (e : Entry) : Served c s (removedEntry s e) := by
  unfold Machine.removedEntry
  split
  · exact (dropEntry s e.channel).trans (bring _)
  · exact dropEntry s e.channel

theorem removeEntry (s : State) (e : Entry) : Served c s (removeEntry s e) := by
  by_cases h : ∃ t, e.work = .step t
  · obtain ⟨t, ht⟩ := h
    rw [removeEntry_of_step ht]
    exact (removedEntry s e).trans (freed s _)
  · rw [removeEntry_of_not_step fun t ht => h ⟨t, ht⟩]
    exact ((removedEntry s e).trans (freed s _)).trans (pullInTest _ _)

theorem dropPulse (s : State) (ps : PortSet) (d : ChannelId) (r : DropReason) : Served c s (dropPulse s ps d r) :=
  of_same (.dropPulse s ps d r) (dropPulse_channels s ps d r) (by rw [Shut.dropPulse_arb])

theorem reportDropped (s : State) (e : Entry) (r : DropReason) : Served c s (reportDropped s e r) :=
  of_same (.reportDropped s e r) (reportDropped_channels s e r) (Shut.reportDropped_waitList s e r)

theorem reportQuietly (s : State) (e : Entry) : Served c s (reportQuietly s e) := by
  unfold Machine.reportQuietly
  split
  · exact setLink s _ _
  all_goals exact refl s

theorem refuseEntry (s : State) (e : Entry) : Served c s (refuseEntry s e) := (reportDropped s e .hot).trans (removeEntry _ e)

/-! ### Heat and grants -/

theorem setThermal (s : State) (d : ChannelId) (x : Thermal) : Served c s (setThermal s d x) := by
  unfold Machine.setThermal
  dsimp only
  split
  · exact (setHeat s d _).trans (setFlagPorts _ _ _ _)
  · exact setHeat s d _

theorem noteCutoff (s : State) (d : ChannelId) : Served c s (noteCutoff s d) := by
  unfold Machine.noteCutoff
  exact (setHeat s d _).trans (setFlagPorts _ _ _ _)

theorem heatCheck (s : State) (d : ChannelId) (w : Nat) : Served c s (heatCheck s d w).1 := by
  unfold Machine.heatCheck
  dsimp only
  split
  · exact (setThermal s d .cutoff).trans (noteCutoff _ d)
  · exact (setHeat s d _).trans (setThermal _ d _)

theorem offerTrain (s : State) (t : StepperId) (dir : Direction) (k : Nat) (origin : Origin) (counted : Bool) :
    Served c s (offerTrain s t dir k origin counted).1 := by
  have away : Served c s (if counted then s.setStepper t ((s.stepper t).lose k) else s) := by
    split
    · exact setStepper s t _
    · exact refl s
  unfold Machine.offerTrain
  dsimp only
  split
  · exact away
  · split
    · exact away
    · exact away
    · split
      · exact away
      · exact (setStepper s t _).trans (stepTest _ t)
    · split
      · exact away
      · exact setStepper s t _
    · split
      · exact away
      · split
        · exact setStepper s t _
        · exact away

theorem grantFire (s : State) (k : LinkId) : Served c s (grantFire s k) := by
  unfold Machine.grantFire
  dsimp only
  split
  · exact setLink s k _
  · split
    · exact ((setLink s k _).trans (offerTrain _ _ _ _ _ _)).trans (setLink _ k _)
    · exact (setLink s k _).trans (offerTrain _ _ _ _ _ _)

theorem setPointer (s : State) (t : StepperId) : Served c s (s.setArb { s.arb with pointer := t }) := of_chan rfl id rfl

theorem grantStep (s : State) (t : StepperId) (d : ChannelId) : Served c s (grantStep s t d) := by
  unfold Machine.grantStep
  exact (setPointer s (t + 1)).trans (setStepper _ t _)

/-- The drive of an entry starts from IDLE. -/
theorem grantedDrive {s : State} {e : Entry} (w : Nat) (hidle : e.channel = c → (s.chan c).state = .idle)
    (hfed : e.channel = c → ¬Unfed c s) : Served c s (grantedDrive s e w) := by
  by_cases hc : e.channel = c
  · subst hc
    have hchan := grantedDrive_chan s e w
    refine ⟨by rw [hchan], by rw [hchan], .inr ⟨hidle rfl, e.work.kind, w, by rw [hchan]⟩, fun _ h => by rwa [hchan],
      fun hu => absurd hu (hfed rfl)⟩
  · exact (dropEntry s e.channel).trans (setChan_ne _ _ hc)

theorem grant {s : State} {e : Entry} (w : Nat) (hidle : e.channel = c → (s.chan c).state = .idle)
    (hfed : e.channel = c → ¬Unfed c s) : Served c s (grant s e w) := by
  have drive := grantedDrive w hidle hfed
  cases hw : e.work with
  | pulse origin => rw [grant_of_port w (.inl hw)]; exact drive.trans (freed s _)
  | pullIn origin => rw [grant_of_port w (.inr hw)]; exact drive.trans (freed s _)
  | fire k notified => rw [grant_of_fire w hw]; exact (drive.trans (freed s _)).trans (grantFire _ k)
  | step t =>
    rw [grant_of_step w hw]
    exact (drive.trans (grantStep _ t e.channel)).trans (freed s _)

/-! ### Attempts -/

/-- A channel that the walk has still to come to is IDLE, or done with. -/
theorem walk (l failed passed : List ChannelId) (s : State) (h : c ∈ l → (s.chan c).state = .idle ∨ Done s c) :
    Served c s (walk l failed passed s).1 := by
  induction l generalizing failed passed s with
  | nil => exact refl s
  | cons d rest ih =>
    have later (u : State) (hkept : d ≠ c → Kept c s u ∧ (Done s c → Done u c)) (hdone : d = c → Done u c) :
        c ∈ rest → (u.chan c).state = .idle ∨ Done u c := fun hc => by
      by_cases e : d = c
      · exact .inr (hdone e)
      · obtain ⟨kept, done⟩ := hkept e
        refine (h (List.mem_cons_of_mem _ hc)).imp (fun k => kept.disabled.1.trans k) done
    cases he : entryOf s d with
    | none =>
      rw [walk_without rest failed passed he]
      exact ih _ _ s fun hc => h (List.mem_cons_of_mem _ hc)
    | some e =>
      have hed := entryOf_channel he
      by_cases hfit : fits s d = true
      · have checked := heatCheck (c := c) s d e.width
        cases hq : (Machine.heatCheck s d e.width).2 with
        | none =>
          rw [walk_refused rest failed passed he hfit hq]
          refine (checked.trans (refuseEntry _ e)).trans (ih _ _ _ (later _ (fun hd => ⟨?_, fun done => ?_⟩) fun hd => ?_))
          · exact (Kept.heatCheck s e.width hd).trans (.refuseEntry _ e)
          · exact done.shut ((Shut.heatCheck s e.width hd).trans (.refuseEntry _ e))
          · exact hd ▸ refuse_done hed (Prod.ext rfl hq)
        | some w =>
          rw [walk_granted rest failed passed he hfit hq]
          have granted : Served c (Machine.heatCheck s d e.width).1 (Machine.grant (Machine.heatCheck s d e.width).1 e w) := by
            refine grant w (fun hc => ?_) fun hc hu => ?_
            · obtain rfl : d = c := hed.symm.trans hc
              obtain hidle | done := h List.mem_cons_self
              · exact checked.state.elim (fun k => k.trans hidle) fun ⟨_, k, w', hk⟩ => by
                  have same : ((Machine.heatCheck s d e.width).1.chan d).state = (s.chan d).state := by
                    unfold Machine.heatCheck
                    dsimp only
                    split
                    · rw [enterCutoff_chan, if_pos rfl]
                    · rw [setThermal_chan_self, setHeat_chan_self]
                  exact same.trans hidle
              · rw [done.2] at he; cases he
            · obtain rfl : d = c := hed.symm.trans hc
              have still : entryOf (Machine.heatCheck s d e.width).1 d = entryOf s d := by
                simp only [entryOf, Shut.heatCheck_waitList]
              rw [← still, hu.entry] at he
              cases he
          refine (checked.trans granted).trans (ih _ _ _ (later _ (fun hd => ⟨?_, fun done => ?_⟩) fun hd => ?_))
          · exact (Kept.heatCheck s e.width hd).trans (.grant _ w (hed ▸ hd))
          · exact done.shut ((Shut.heatCheck s e.width hd).trans (.grant w (hed ▸ hd)))
          · exact hd ▸ hed ▸ grant_done _ e w
      · by_cases hp : e.passed = 4
        · rw [walk_blocked rest failed passed he hfit hp]
          exact refl s
        · rw [walk_misfit rest failed passed he hfit hp]
          exact ih _ _ s fun hc => h (List.mem_cons_of_mem _ hc)

theorem raisePassed (s : State) (cs : List ChannelId) : Served c s (raisePassed s cs) := by
  refine relist s fun e he => ?_
  obtain ⟨o, ho, rfl⟩ := List.mem_map.1 he
  refine ⟨o, ho, ?_⟩
  split <;> rfl

theorem attempt (s : State) : Served c s (attempt s) := by
  refine (walk (selection s) [] [] s fun hc => .inl ?_).trans (raisePassed _ _)
  by_contra hidle
  exact Kept.not_mem_selection (.inl hidle) hc

theorem settleN (n : Nat) (s : State) : Served c s (settleN n s) := by
  induction n generalizing s with
  | zero => exact setAttempts s 0
  | succ n ih =>
    unfold Machine.settleN
    split
    · exact refl s
    · exact ((setAttempts s _).trans (attempt _)).trans (ih _)

theorem settle (s : State) : Served c s (settle s) := settleN 49 s

theorem attemptNow (s : State) : Served c s (attemptNow s) := (bring s).trans (settle _)

end Served

end Sys2Proof.Machine
end

section
/-! The steppers' and the flippers' work on a channel that they do not release, and the requests that take a claim or a channel away
(R14, R17, R18) or drive a coil at once (R42). -/

namespace Sys2Proof.Machine

namespace Served

variable {c : ChannelId} {s t : State}

/-! ### Steppers -/

theorem removeStepEntry (s : State) (t : StepperId) : Served c s (removeStepEntry s t) := by
  unfold Machine.removeStepEntry
  split
  · exact refl s
  · exact removeEntry s _

theorem setFlagBoth (s : State) (n : FlagName) (k : Option Nat) : Served c s (setFlagBoth s n k) := setFlagPorts s _ n k

theorem faultStepper (s : State) (t : StepperId) (unknown : Bool) : Served c s (faultStepper s t unknown) := by
  unfold Machine.faultStepper
  exact ((setStepper s t _).trans (removeStepEntry _ t)).trans (setFlagBoth _ _ _)

theorem mismatch (s : State) (t : StepperId) : Served c s (mismatch s t) := by
  unfold Machine.mismatch
  dsimp only
  split
  · exact (setStepper s t _).trans (faultStepper _ t false)
  · exact setStepper s t _

theorem verifyAgainst (s : State) (t : StepperId) (closed : Bool) : Served c s (verifyAgainst s t closed) := by
  unfold Machine.verifyAgainst
  dsimp only
  split
  · exact setStepper s t _
  · split
    · exact setStepper s t _
    · exact mismatch s t
  · exact refl s
  · split
    · exact mismatch s t
    · exact setStepper s t _

theorem homingTest (s : State) (t : StepperId) (closed : Bool) (origin : PortSet) (steps : Nat) :
    Served c s (homingTest s t closed origin steps) := by
  unfold Machine.homingTest Machine.homeFound
  split_ifs
  · exact (setStepper s t _).trans (setFlagPorts _ _ _ _)
  · exact refl s
  · exact faultStepper s t true

theorem lookHome (s : State) (t : StepperId) : Served c s (lookHome s t) := by
  unfold Machine.lookHome
  dsimp only
  split
  · exact refl s
  · split
    · exact verifyAgainst s t _
    · exact verifyAgainst s t _
    · exact homingTest s t _ _ _
    · exact refl s

theorem stepperIdle (s : State) (t : StepperId) (afterStep : Bool) : Served c s (stepperIdle s t afterStep) := by
  unfold Machine.stepperIdle
  split
  · exact (lookHome s t).trans (stepTest _ t)
  · exact stepTest s t

theorem reportIdle (s : State) (d : ChannelId) (after : Option StepperId) : Served c s (reportIdle s d after) := by
  unfold Machine.reportIdle
  dsimp only
  split
  · exact (attemptNow s).trans ((pullInTest _ d).trans (settle _))
  · exact (attemptNow s).trans (((stepperIdle _ _ _).trans (settle _)).trans ((pullInTest _ d).trans (settle _)))

/-! ### Releases and flippers -/

theorem release (s : State) {d : ChannelId} (h : d ≠ c) : Served c s (release s d) := by
  have rested : Served c s (rest s d none) := setChan_ne s _ h
  have told := rested.trans (attemptNow _)
  unfold Machine.release
  dsimp only
  split
  · exact told.trans (reportIdle _ d none)
  · exact told

theorem releaseIfOn (s : State) (d : ChannelId) (h : energised s c = false) : Served c s (releaseIfOn s d) := by
  unfold Machine.releaseIfOn
  split
  · rename_i hon
    refine release s fun hd => ?_
    rw [hd, h] at hon
    cases hon
  · exact refl s

end Served

/-- The channel is off and stays so through any work: it is not IDLE, or nobody asks for it. -/
structure Dormant (c : ChannelId) (s : State) : Prop where
  off : energised s c = false
  stays : (s.chan c).state ≠ .idle ∨ Unfed c s

theorem Dormant.state {c : ChannelId} {s t : State} (h : Dormant c s) (g : Served c s t) : (t.chan c).state = (s.chan c).state := by
  obtain hs | hu := h.stays
  · exact g.state.elim id fun ⟨hidle, _⟩ => absurd hidle hs
  · exact (g.unfed hu).1

theorem Dormant.served {c : ChannelId} {s t : State} (h : Dormant c s) (g : Served c s t) : Dormant c t where
  off := by
    have off := h.off
    simp only [energised, h.state g] at off ⊢
    exact off
  stays := by
    rw [h.state g]
    exact h.stays.imp_right fun hu => (g.unfed hu).2

namespace Served

variable {c : ChannelId} {s t : State}

theorem endFlipperDrives (h : Dormant c s) (f : FlipperId) : Served c s (endFlipperDrives s f) := by
  have releases (d : Option ChannelId) {u : State} (hu : Dormant c u) :
      Served c u (match d with | none => u | some d => Machine.releaseIfOn u d) := by
    cases d with
    | none => exact refl u
    | some d => exact releaseIfOn u d hu.off
  have power := releases (s.flip f).cfg.power h
  exact power.trans (releases (s.flip f).cfg.hold (h.served power))

theorem flipperTest (h : Dormant c s) (f : FlipperId) : Served c s (flipperTest s f) := by
  have goes (x : FlipState) : Served c s (flipperTo s f x) := setFlip s f _
  unfold Machine.flipperTest
  split
  · split
    · exact goes _
    · exact refl s
  · split
    · exact refl s
    · exact (goes .disabled).trans (endFlipperDrives (h.served (goes .disabled)) f)

theorem testFlipperOf (h : Dormant c s) (d : ChannelId) : Served c s (testFlipperOf s d) := by
  unfold Machine.testFlipperOf
  split
  · exact refl s
  · exact flipperTest h _

theorem removeQuietly (s : State) (d : ChannelId) : Served c s (removeQuietly s d) := by
  unfold Machine.removeQuietly
  split
  · exact refl s
  · exact ((reportQuietly s _).trans (removeEntry _ _)).trans (settle _)

theorem faultStepperOf (s : State) (d : ChannelId) : Served c s (faultStepperOf s d) := by
  unfold Machine.faultStepperOf
  split
  · exact refl s
  · exact (faultStepper s _ true).trans (settle _)

end Served

/-! ### DISABLE CHANNEL (R17) -/

/-- The channel as DISABLE CHANNEL takes it out of service. -/
def Channel.out (x : Channel) (before : Option StepperId) : Channel :=
  { x with state := .disabled, stepBefore := before, claims := .empty, owed := false }

/-- After the channel is written out, nothing else of the request touches it. -/
theorem disableChannel_served (s : State) (c : ChannelId) :
    Served c (s.setChan c ((s.chan c).out (stepBehind s c))) (disableChannel s c) := by
  have disabled : ((s.setChan c ((s.chan c).out (stepBehind s c))).chan c).state = .disabled := by
    rw [State.chan_setChan_self]
    rfl
  have dormant : Dormant c (s.setChan c ((s.chan c).out (stepBehind s c))) :=
    ⟨by simp only [energised, disabled], .inl (by rw [disabled]; decide)⟩
  have taken : Served c (s.setChan c ((s.chan c).out (stepBehind s c))) (takeOut s c) := by
    unfold takeOut
    dsimp only
    split
    · exact .attemptNow _
    · exact .refl _
  have removed := (taken.trans (.removeQuietly (takeOut s c) c)).trans (.faultStepperOf _ c)
  exact removed.trans (.testFlipperOf (dormant.served removed) c)

/-- A channel out of service after a step of this stepper, or of none. -/
structure OutOfService (c : ChannelId) (before : Option StepperId) (s : State) : Prop where
  state : (s.chan c).state = .disabled
  claims : (s.chan c).claims = .empty
  owed : (s.chan c).owed = false
  load : (s.chan c).load = 0
  output : coilOutput s c = .off
  entry : entryOf s c = none
  stepBefore : (s.chan c).stepBefore = before

theorem disableChannel_outOfService (s : State) (c : ChannelId) : OutOfService c (stepBehind s c) (disableChannel s c) := by
  have out := disableChannel_out s c
  have served := disableChannel_served s c
  have written := State.chan_setChan_self s c ((s.chan c).out (stepBehind s c))
  refine ⟨out.state, ?_, served.owed (by rw [written]; rfl) (by rw [written]; rfl), ?_, ?_, out.entry, out.stepBefore⟩
  · rw [served.claims, written]
    rfl
  · simp only [Channel.load, out.state]
  · simp only [coilOutput, out.state]

theorem stepBehind_eq (s : State) (c : ChannelId) :
    stepBehind s c = match (s.chan c).state with
      | .drive kind _ _ => if kind = .step then stepperOf s c else none
      | .recover _ after => after
      | _ => none := by
  unfold stepBehind
  cases (s.chan c).state <;> rfl

theorem disableChannelRequest_of_range {x : Byte} {s : State} (h : 47 < x.toNat) :
    disableChannelRequest [x] s = .refuse s .range := by rw [disableChannelRequest, u8_zero, index_none h]

theorem disableChannelRequest_channel (c : ChannelId) (s : State) :
    disableChannelRequest [byte c.val] s = if (s.chan c).state = .disabled then .done s else .done (disableChannel s c) := by
  rw [disableChannelRequest, u8_zero, index_byte (by decide)]

/-! ### ENABLE CHANNEL (R18) -/

theorem enableChannelRequest_of_range {x : Byte} {s : State} (h : 47 < x.toNat) :
    enableChannelRequest [x] s = .refuse s .range := by rw [enableChannelRequest, u8_zero, index_none h]

theorem enableChannelRequest_channel (c : ChannelId) (s : State) :
    enableChannelRequest [byte c.val] s = if (s.chan c).state = .disabled then .done (enableChannel s c) else .done s := by
  rw [enableChannelRequest, u8_zero, index_byte (by decide)]

theorem putBack_of_off {s : State} {c : ChannelId} (h : (s.chan c).coil.cls = .off) :
    putBack s c = s.setChan c { s.chan c with state := .off, stepBefore := none } := if_pos h

theorem putBack_of_not_off {s : State} {c : ChannelId} (h : (s.chan c).coil.cls ≠ .off) :
    putBack s c = reportIdle (s.setChan c { s.chan c with state := .idle, stepBefore := none }) c (s.chan c).stepBefore := if_neg h

theorem putBack_flipperOf (s : State) (c : ChannelId) : flipperOf (putBack s c) c = flipperOf s c := (CoilWork.putBack s c).flipperOf c

/-- A class OFF channel is OFF, and so it stays. -/
theorem enableChannel_off {s : State} {c : ChannelId} (h : (s.chan c).coil.cls = .off) : ((enableChannel s c).chan c).state = .off := by
  have back : ((putBack s c).chan c).state = .off := by rw [putBack_of_off h, State.chan_setChan_self]
  have dormant : Dormant c (putBack s c) := ⟨by simp only [energised, back], .inl (by rw [back]; decide)⟩
  rw [enableChannel, dormant.state (.testFlipperOf dormant c), back]

/-- Without a flipper the channel is IDLE, or its work drives it at once. -/
theorem enableChannel_idle_or_driven {s : State} {c : ChannelId} (h : (s.chan c).coil.cls ≠ .off) (hf : flipperOf s c = none) :
    ((enableChannel s c).chan c).state = .idle ∨ ∃ kind w, ((enableChannel s c).chan c).state = .drive kind w w := by
  have unnamed : enableChannel s c = putBack s c := by
    rw [enableChannel, testFlipperOf, putBack_flipperOf, hf]
  rw [unnamed, putBack_of_not_off h]
  have served := Served.reportIdle (c := c) (s.setChan c { s.chan c with state := .idle, stepBefore := none }) c (s.chan c).stepBefore
  have hstate := served.state
  rw [State.chan_setChan_self] at hstate
  exact hstate.imp id fun ⟨_, k⟩ => k

/-- A flipper's channel that nobody asks for stays IDLE. -/
theorem enableChannel_flipper {s : State} {c : ChannelId} (h : (s.chan c).coil.cls = .flipper) (ht : stepperOf s c = none)
    (he : entryOf s c = none) : ((enableChannel s c).chan c).state = .idle := by
  have hback := putBack_of_not_off (s := s) (c := c) (by rw [h]; decide)
  have idle : ((s.setChan c { s.chan c with state := .idle, stepBefore := none }).chan c).state = .idle := by
    rw [State.chan_setChan_self]
  have dormant : Dormant c (s.setChan c { s.chan c with state := .idle, stepBefore := none }) := by
    refine ⟨by simp only [energised, idle], .inr ⟨he, ht, .inr ?_⟩⟩
    rw [State.chan_setChan_self]
    dsimp only
    rw [h]
    decide
  have served := Served.reportIdle (c := c) (s.setChan c { s.chan c with state := .idle, stepBefore := none }) c (s.chan c).stepBefore
  rw [← hback] at served
  rw [enableChannel, (dormant.served served).state (.testFlipperOf (dormant.served served) c), dormant.state served, idle]

/-- Settles O28: what becomes of the channel is read off its record as it is taken out or put back, which the rest of the work keeps. -/
theorem disableAndEnableAChannel : Obligations.DisableAndEnableAChannel := by
  refine fun p c s => ⟨fun h => ?disable, fun h => ?enable, fun x hx => ⟨fun h => ?_, fun h => ?_⟩⟩
  case disable =>
    rw [exec_ready h rfl rfl]
    simp only [ownRules, disableChannelRequest_channel]
    refine ⟨fun hd => ?_, fun hd => ⟨_, rfl, ?_⟩⟩
    · exact congrArg (fun a => Host.Outcome.next (reply p 0x04#8 a)) (if_pos hd)
    · rw [if_neg (show ((take s p).chan c).state ≠ .disabled from hd)]
      have out := disableChannel_outOfService (take s p) c
      generalize disableChannel (take s p) c = u at out
      exact ⟨okTo_sending p 0x04#8 u [], out.state, out.claims, out.owed, out.load, out.output, out.entry,
        out.stepBefore.trans (stepBehind_eq (take s p) c)⟩
  case enable =>
    rw [exec_ready h rfl rfl]
    simp only [ownRules, enableChannelRequest_channel]
    have enabled (hd : (s.chan c).state = .disabled) :
        (if ((take s p).chan c).state = .disabled then Answer.done (enableChannel (take s p) c) else .done (take s p)) =
          .done (enableChannel (take s p) c) := if_pos hd
    refine ⟨fun hd => ?_, fun hd hoff => ?_, fun hd hon hf => ?_, fun hd hcls ht he => ?_, fun hd => ?_⟩
    · exact congrArg (fun a => Host.Outcome.next (reply p 0x05#8 a)) (if_neg hd)
    · have off := enableChannel_off (s := take s p) hoff
      rw [enabled hd]
      generalize enableChannel (take s p) c = u at off
      exact ⟨_, rfl, okTo_sending p 0x05#8 u [], off⟩
    · have driven := enableChannel_idle_or_driven (s := take s p) hon hf
      rw [enabled hd]
      generalize enableChannel (take s p) c = u at driven
      exact ⟨_, rfl, okTo_sending p 0x05#8 u [], driven⟩
    · have idle := enableChannel_flipper (s := take s p) hcls ht he
      rw [enabled hd]
      generalize enableChannel (take s p) c = u at idle
      exact ⟨_, rfl, okTo_sending p 0x05#8 u [], idle⟩
    · rw [enabled hd]
      rfl
  · rw [exec_ready h rfl rfl]
    exact congrArg (fun a => Host.Outcome.next (reply p 0x04#8 a)) (disableChannelRequest_of_range hx)
  · rw [exec_ready h rfl rfl]
    exact congrArg (fun a => Host.Outcome.next (reply p 0x05#8 a)) (enableChannelRequest_of_range hx)

end Sys2Proof.Machine
end

section
/-! HOLD off (R14) and the PULSE that drives at once (R42). -/

namespace Sys2Proof.Machine

/-! ### Claims withdrawn (R10, R12, R14) -/

/-- The channel as the end of a hold or drive leaves it (R7). -/
def Channel.rested (x : Channel) (after : Option StepperId) : Channel :=
  { x with state := if x.coil.gap = 0 then .idle else .recover x.coil.gap after }

theorem Channel.rested_load (x : Channel) (after : Option StepperId) : (x.rested after).load = 0 := by
  simp only [Channel.load, Channel.rested]
  split <;> rename_i h <;> split_ifs at h <;> rfl

theorem endClaimedHold_chan (s : State) (c d : ChannelId) :
    (endClaimedHold s c).chan d = if d = c then (s.chan c).rested none else s.chan d := by
  have written : (endClaimedHold s c).chan d = (rest s c none).chan d := by
    unfold endClaimedHold
    dsimp only
    split <;> rfl
  exact written.trans (chan_setChan _ _ _ _)

theorem endClaimedHold_latch (s : State) (c : ChannelId) (q : Port) : (endClaimedHold s c).latch q = s.latch q := by
  unfold endClaimedHold
  dsimp only
  split <;> rfl

/-- The channel with its owed mark cleared. -/
def unmarked (s : State) (c : ChannelId) : State := s.setChan c { s.chan c with owed := false }

theorem unmarked_chan (s : State) (c d : ChannelId) :
    (unmarked s c).chan d = if d = c then { s.chan c with owed := false } else s.chan d := chan_setChan _ _ _ _

theorem unmarked_state (s : State) (c d : ChannelId) : ((unmarked s c).chan d).state = (s.chan d).state := by
  rw [unmarked_chan]
  split
  · rename_i h; rw [h]
  · rfl

theorem claimsEmptied_of_hold {s : State} {c : ChannelId} (h : (s.chan c).state = .hold) :
    claimsEmptied s c = endClaimedHold (unmarked s c) c := if_pos ((unmarked_state s c c).trans h)

theorem claimsEmptied_of_pullIn {s : State} {c : ChannelId} {e : Entry} {origin : PortSet} (h : (s.chan c).state ≠ .hold)
    (he : entryOf s c = some e) (hw : e.work = .pullIn origin) : claimsEmptied s c = removeEntry (unmarked s c) e := by
  have rests : ¬((unmarked s c).chan c).state = .hold := fun k => h ((unmarked_state s c c).symm.trans k)
  have entry : entryOf (unmarked s c) c = some e := he
  unfold claimsEmptied
  dsimp only
  rw [← unmarked, if_neg rests, entry]
  simp only [hw]

theorem claimsEmptied_of_other {s : State} {c : ChannelId} (h : (s.chan c).state ≠ .hold)
    (he : ∀ e origin, entryOf s c = some e → e.work ≠ .pullIn origin) : claimsEmptied s c = unmarked s c := by
  have rests : ¬((unmarked s c).chan c).state = .hold := fun k => h ((unmarked_state s c c).symm.trans k)
  unfold claimsEmptied
  dsimp only
  rw [← unmarked, if_neg rests]
  split
  · rfl
  · rename_i e hentry
    split
    · rename_i origin hw
      exact absurd hw (he e origin hentry)
    all_goals rfl

/-- An unheld channel without claims: either its PULL_IN is removed, or the owed mark alone is cleared. -/
theorem claimsEmptied_cases {s : State} {c : ChannelId} (h : (s.chan c).state ≠ .hold) :
    (∃ e, e.channel = c ∧ claimsEmptied s c = removeEntry (unmarked s c) e) ∨ claimsEmptied s c = unmarked s c := by
  by_cases hp : ∃ e origin, entryOf s c = some e ∧ e.work = .pullIn origin
  · obtain ⟨e, origin, he, hw⟩ := hp
    exact .inl ⟨e, entryOf_channel he, claimsEmptied_of_pullIn h he hw⟩
  · exact .inr (claimsEmptied_of_other h fun e origin he hw => hp ⟨e, origin, he, hw⟩)

theorem claimsEmptied_state {s : State} {c : ChannelId} (h : (s.chan c).state ≠ .hold) (d : ChannelId) :
    ((claimsEmptied s c).chan d).state = (s.chan d).state := by
  obtain ⟨e, _, he⟩ | he := claimsEmptied_cases h
  · rw [he, (Kept.removeEntry (c := d) (unmarked s c) e).disabled.1, unmarked_state]
  · rw [he, unmarked_state]

theorem claimsEmptied_owed {s : State} {c : ChannelId} (h : (s.chan c).state ≠ .hold) (hclaims : (s.chan c).claims = .empty) :
    ((claimsEmptied s c).chan c).owed = false := by
  have cleared : ((unmarked s c).chan c).owed = false := by rw [unmarked_chan, if_pos rfl]
  have empty : ((unmarked s c).chan c).claims = .empty := by rw [unmarked_chan, if_pos rfl, hclaims]
  obtain ⟨e, _, he⟩ | he := claimsEmptied_cases h
  · rw [he]
    exact (Served.removeEntry (unmarked s c) e).owed empty cleared
  · rw [he, cleared]

/-- A channel without claims that no stepper names is left without an entry. -/
theorem removeEntry_unfed {s : State} {e : Entry} (hclaims : (s.chan e.channel).claims = .empty)
    (ht : stepperOf s e.channel = none) : entryOf (removeEntry s e) e.channel = none := by
  have work : CoilWork s (removedEntry s e) := by
    unfold removedEntry
    split
    · exact (CoilWork.dropEntry s e.channel).trans (.bring _)
    · exact .dropEntry s e.channel
  have unfed : Unfed e.channel (removedEntry s e) := by
    refine ⟨?_, (work.stepperOf _).trans ht, .inl ?_⟩
    · unfold removedEntry
      split <;> exact entryOf_dropEntry_self s e.channel
    · rw [(Served.removedEntry (c := e.channel) s e).claims, hclaims]
  have given := (Served.freed s (removedEntry s e)).unfed unfed
  by_cases hstep : ∃ t, e.work = .step t
  · obtain ⟨t, hw⟩ := hstep
    rw [removeEntry_of_step hw]
    exact given.2.entry
  · rw [removeEntry_of_not_step fun t hw => hstep ⟨t, hw⟩]
    exact ((Served.pullInTest _ _).unfed given.2).2.entry

theorem claimsEmptied_dropped (s : State) (c : ChannelId) (q : Port) :
    ((claimsEmptied s c).latch q).get FlagName.pulseDropped.bit = (s.latch q).get FlagName.pulseDropped.bit := by
  by_cases h : (s.chan c).state = .hold
  · rw [claimsEmptied_of_hold h, endClaimedHold_latch]
    rfl
  · obtain ⟨e, _, he⟩ | he := claimsEmptied_cases h
    · rw [he, removeEntry_dropped]
      rfl
    · rw [he]
      rfl

theorem copyClaims_eq (s : State) (c : ChannelId) :
    copyClaims s c = s.setWaitList (s.arb.waitList.map fun e => if e.channel = c then
      { e with work := match e.work with
        | .pullIn _ => .pullIn (s.chan c).claims
        | work => work } else e) := by
  refine congrArg s.setWaitList (List.map_congr_left fun e _ => ?_)
  obtain ⟨d, work, width, enteredAt, deadline, passed⟩ := e
  cases work <;> rfl

theorem withdrawClaim_eq (s : State) (c : ChannelId) (p : Port) :
    withdrawClaim s c p =
      if (s.chan c).claims.has p = false then s
      else if (s.chan c).claims.remove p = .empty then
        claimsEmptied (s.setChan c { s.chan c with claims := (s.chan c).claims.remove p }) c
      else copyClaims (s.setChan c { s.chan c with claims := (s.chan c).claims.remove p }) c := by
  unfold withdrawClaim
  dsimp only
  cases hp : (s.chan c).claims.has p with
  | false => rfl
  | true =>
    rw [if_pos rfl, if_neg (show ¬true = false by decide)]
    refine if_congr ?_ rfl rfl
    rw [State.chan_setChan_self, PortSet.isEmpty_iff]

/-- Settles O27: the withdrawal by the sender's claim, and what an emptied claim set does to a hold and to a waiting PULL_IN. -/
theorem holdOffWithdrawsTheClaim : Obligations.HoldOffWithdrawsTheClaim := by
  refine fun p s => ⟨fun c h => ?table, fun c hhold => ?hold, fun c hhold => ⟨fun e origin he hw => ⟨?_, fun hclaims ht => ?_⟩,
    claimsEmptied_of_other hhold, claimsEmptied_owed hhold, claimsEmptied_state hhold⟩, claimsEmptied_dropped s, copyClaims_eq s,
    fun x hx h => ?range⟩
  case table =>
    rw [exec_ready h rfl rfl]
    simp only [ownRules, holdRequest_off, holdOffRequest, withdrawClaim_eq, apply_ite (reply p 0x03#8)]
    rfl
  case hold =>
    rw [claimsEmptied_of_hold hhold, endClaimedHold_chan, if_pos rfl, unmarked_chan, if_pos rfl]
    exact ⟨rfl, rfl, Channel.rested_load _ _⟩
  case range =>
    rw [exec_ready h rfl rfl]
    exact congrArg (fun a => Host.Outcome.next (reply p 0x03#8 a)) (holdRequest_of_range (.inl hx))
  · exact claimsEmptied_of_pullIn hhold he hw
  · obtain rfl := entryOf_channel he
    rw [claimsEmptied_of_pullIn hhold he hw]
    refine removeEntry_unfed ?_ ht
    rw [unmarked_chan, if_pos rfl, hclaims]

/-! ### A PULSE granted in the event of its service (R42, R52) -/

theorem raisePassed_nil (s : State) : raisePassed s [] = s := by
  simp only [raisePassed, List.not_mem_nil, if_false, List.map_id']
  rfl

/-- The only entry, a PULSE or PULL_IN that may be driven, is the whole selection. -/
theorem selection_of_single {s : State} {e : Entry} {origin : PortSet} (hl : s.arb.waitList = [e]) (he : eligible s e = true)
    (hw : e.work = .pulse origin) : selection s = [e.channel] := by
  have unstepped (t : StepperId) : e.work ≠ .step t := by rw [hw]; exact Work.noConfusion
  have fire : e.work.isFire = false := by rw [hw]; rfl
  have port : e.work.isPort = true := by rw [hw]; rfl
  simp [selection, hl, he, fire, port, unstepped]

/-- An attempt that finds one entry, fitting and passed by its heat check, grants it. -/
theorem attempt_of_single {s : State} {e : Entry} {origin : PortSet} {w : Nat} (hl : s.arb.waitList = [e])
    (he : eligible s e = true) (hw : e.work = .pulse origin) (hfit : fits s e.channel = true)
    (hq : (heatCheck s e.channel e.width).2 = some w) :
    attempt s = grantedDrive (heatCheck s e.channel e.width).1 e w := by
  have entry : entryOf s e.channel = some e := by simp [entryOf, hl]
  have room : (heatCheck s e.channel e.width).1.arb.waitList.length < 24 := by
    rw [Shut.heatCheck_waitList, hl]
    exact show 1 < 24 by decide
  have walked : walk (selection s) [] [] s = (grantedDrive (heatCheck s e.channel e.width).1 e w, []) := by
    rw [selection_of_single hl he hw, walk_granted [] [] [] entry hfit hq, grant_of_port w (.inl hw), freed_of_room _ room]
    rfl
  rw [attempt, walked]
  exact raisePassed_nil _

/-- Writes of an IDLE channel that leave it IDLE report no load. -/
theorem setChan_arb_of_idle {s : State} {c : ChannelId} {x : Channel} (h : (s.chan c).state = .idle) (hx : x.state = .idle) :
    (s.setChan c x).arb = s.arb := by
  rw [State.setChan_arb]
  refine report_same _ _ _ ?_ ?_ ?_ ?_
  · rw [Channel.generalLoad_of_idle h, Channel.generalLoad_of_idle hx]
  · rw [Channel.flipperLoad_of_idle h, Channel.flipperLoad_of_idle hx]
  · rw [Channel.generalLoad_of_idle h]; exact Nat.zero_le _
  · rw [Channel.flipperLoad_of_idle h]; exact Nat.zero_le _

theorem setThermal_arb_of_idle {s : State} {c : ChannelId} (h : (s.chan c).state = .idle) (x : Thermal) :
    (setThermal s c x).arb = s.arb := by
  have written : (s.setHeat c { (s.chan c).heat with thermal := x }).arb = s.arb := setChan_arb_of_idle h h
  unfold setThermal
  dsimp only
  split
  · rw [setFlagBoth_arb, written]
  · exact written

theorem checkedWidth_of_le {r : CoilRecord} {h w : Nat} (hle : h + w * r.gain ≤ r.limit) : checkedWidth r h w = w := if_pos hle

/-- The check of a width that stays below the limit: passed whole, the pools untouched. -/
theorem heatCheck_cool {s : State} {c : ChannelId} {w : Nat} (hidle : (s.chan c).state = .idle)
    (hlimit : (s.chan c).heat.h + w * (s.chan c).coil.gain ≤ (s.chan c).coil.limit)
    (hcutoff : (s.chan c).heat.h + w * (s.chan c).coil.gain < (s.chan c).coil.cutoff) :
    (heatCheck s c w).2 = some w ∧ (heatCheck s c w).1.arb = s.arb ∧
      ∃ x, (heatCheck s c w).1.chan c = { s.chan c with heat := { (s.chan c).charged w with thermal := x } } := by
  have width := checkedWidth_of_le hlimit
  have passed : (s.chan c).heat.h + checkedWidth (s.chan c).coil (s.chan c).heat.h w * (s.chan c).coil.gain < (s.chan c).coil.cutoff := by
    rwa [width]
  have still : ((s.setHeat c ((s.chan c).charged w)).chan c).state = .idle := by rw [setHeat_chan_self]; exact hidle
  have written : (s.setHeat c ((s.chan c).charged w)).arb = s.arb := setChan_arb_of_idle hidle hidle
  rw [heatCheck_passed passed, width]
  exact ⟨rfl, (setThermal_arb_of_idle still _).trans written, _, by rw [setThermal_chan_self, setHeat_chan_self]⟩

theorem Channel.charged_of_le {x : Channel} {w : Nat} (hle : x.heat.h + w * x.coil.gain ≤ x.coil.limit) :
    (x.charged w).h = x.heat.h + w * x.coil.gain ∧ (x.charged w).stats.fires = min 65535 (x.heat.stats.fires + 1) ∧
      (x.charged w).stats.shortened = x.heat.stats.shortened := by
  simp only [Channel.charged, Heat.charge, checkedWidth_of_le hle, Nat.lt_irrefl, if_false]
  exact ⟨trivial, rfl, trivial⟩

/-- The state that a lone fitting PULSE leads to. -/
structure DrivenAtOnce (c : ChannelId) (w : Nat) (s t : State) : Prop where
  state : (t.chan c).state = .drive .pulse w w
  output : coilOutput t c = .full
  heat : (t.chan c).heat.h = (s.chan c).heat.h + w * (s.chan c).coil.gain
  fires : (t.chan c).heat.stats.fires = min 65535 ((s.chan c).heat.stats.fires + 1)
  shortened : (t.chan c).heat.stats.shortened = (s.chan c).heat.stats.shortened
  general : t.arb.general = s.arb.general + (s.chan c).coil.weight
  flipper : t.arb.flipper = s.arb.flipper
  list : t.arb.waitList = []
  pointer : t.arb.pointer = s.arb.pointer
  others : ∀ d, d ≠ c → t.chan d = s.chan d

/-- A PULSE entered alone for an idle, cool, fitting coil is granted by the attempt that it brings. -/
theorem settle_enter_pulse {s : State} {e : Entry} {origin : PortSet} (hw : e.work = .pulse origin)
    (hcls : (s.chan e.channel).coil.cls ≠ .flipper) (hidle : (s.chan e.channel).state = .idle) (hup : s.supply.state = .up)
    (hthermal : (s.chan e.channel).heat.thermal ≠ .cutoff) (hlist : s.arb.waitList = []) (hattempts : s.arb.attempts = 0)
    (hfit : s.arb.general + (s.chan e.channel).coil.weight ≤ s.supply.cfg.budget - s.supply.cfg.reserve)
    (hlimit : (s.chan e.channel).heat.h + e.width * (s.chan e.channel).coil.gain ≤ (s.chan e.channel).coil.limit)
    (hcutoff : (s.chan e.channel).heat.h + e.width * (s.chan e.channel).coil.gain < (s.chan e.channel).coil.cutoff) :
    DrivenAtOnce e.channel e.width s (settle (enter s e)) := by
  generalize hu : (enter s e).brought 0 = u
  have list : u.arb.waitList = [e] := by
    subst hu
    change s.arb.waitList ++ [e] = [e]
    rw [hlist, List.nil_append]
  have chans (d : ChannelId) : u.chan d = s.chan d := by subst hu; rfl
  have brought : (enter s e).arb.attempts = 0 + 1 := congrArg (· + 1) hattempts
  obtain ⟨hq, harb, x, hchan⟩ := heatCheck_cool (s := u) (c := e.channel) (w := e.width) (by rwa [chans]) (by rwa [chans]) (by rwa [chans])
  have eligible : eligible u e = true := (eligible_iff u e).2 ⟨by rwa [chans], by rwa [chans], by subst hu; exact hup⟩
  have fit : fits u e.channel = true := (fits_iff_le u e.channel).2 (by rw [chans]; subst hu; exact hfit)
  have made : settle (enter s e) = settle (grantedDrive (heatCheck u e.channel e.width).1 e e.width) := by
    rw [settle_next brought, hu, attempt_of_single list eligible hw fit hq]
  have idle : ((heatCheck u e.channel e.width).1.chan e.channel).state = .idle := by rw [hchan, chans]; exact hidle
  have cls : ((heatCheck u e.channel e.width).1.chan e.channel).coil.cls ≠ .flipper := by rw [hchan, chans]; exact hcls
  have drive := grantedDrive_chan (heatCheck u e.channel e.width).1 e e.width
  have arb := grantedDrive_arb e.width idle cls
  have pools : s.arb = { u.arb with waitList := [], attempts := s.arb.attempts } := by subst hu; rw [← hlist]; rfl
  obtain ⟨hh, hfires, hshortened⟩ := Channel.charged_of_le hlimit
  rw [made, settle_none (by rw [arb, harb]; subst hu; rfl)]
  rw [hchan, chans] at drive
  refine ⟨?_, ?_, ?_, ?_, ?_, ?_, ?_, ?_, ?_, fun d hd => ?_⟩
  · rw [drive, hw]; rfl
  · simp only [coilOutput, drive]
  · rw [drive]; exact hh
  · rw [drive]; exact hfires
  · rw [drive]; exact hshortened
  · rw [arb, hchan, chans, harb, pools]
  · rw [arb, harb, pools]
  · rw [arb, harb, list]; simp
  · rw [arb, harb, pools]
  · have same : (grantedDrive (heatCheck u e.channel e.width).1 e e.width).chan d = (heatCheck u e.channel e.width).1.chan d :=
      State.chan_setChan_ne _ _ _ _ hd
    rw [same, heatCheck_chan_ne u e.width hd, chans]

/-- Settles O25: past its table's checks the PULSE is entered alone, and the attempt that it brings grants it. -/
theorem pulseOnAnIdleCoilDrivesAtOnce : Obligations.PulseOnAnIdleCoilDrivesAtOnce := by
  intro p c w s h ch width hcls hidle hup hthermal hlist hattempts hfit hlimit hcutoff
  have pulsed : ¬(!((take s p).chan c).coil.cls.pulsed) = true := by
    rw [(CoilClass.pulsed_iff _).2 (show ((take s p).chan c).coil.cls = .pulse ∨ ((take s p).chan c).coil.cls = .holdable from hcls)]
    decide
  have enabled : ¬((take s p).chan c).state = .disabled := by rw [show ((take s p).chan c).state = .idle from hidle]; decide
  have powered : ¬(take s p).supply.state = .down := by rw [show (take s p).supply.state = .up from hup]; decide
  have cool : ¬inCutoff (take s p) c = true := fun k => hthermal ((inCutoff_iff _ _).1 k)
  have free : ¬heldOrPulling (take s p) c = true := fun k => by
    obtain k | k := (heldOrPulling_iff _ _).1 k
    · rw [show ((take s p).chan c).state = .idle from hidle] at k; cases k
    · simp [hasPullIn, entryOf, hlist] at k
  have unentered : entryOf (take s p) c = none := by simp [entryOf, hlist]
  have room : ¬listFull (take s p) = true := by simp [listFull, hlist, Config.waitListSize]
  let e : Entry := ⟨c, .pulse (.single p), width, s.sw.partTime, newDeadline (take s p) ch.coil, 0⟩
  have driven : DrivenAtOnce e.channel e.width (take s p) (settle (enter (take s p) e)) :=
    settle_enter_pulse rfl (fun k => by obtain hc | hc := hcls <;> rw [show ch.coil.cls = .flipper from k] at hc <;> cases hc)
      hidle hup hthermal hlist hattempts hfit hlimit hcutoff
  have answered : exec (.pulse p [byte c.val, w]) s = .next (okTo p 0x02#8 (settle (enter (take s p) e)) [2#8, byte width]) := by
    rw [exec_pulse_ready h, pulseRequest_channel]
    dsimp only
    rw [if_neg pulsed, if_neg enabled, if_neg powered, if_neg cool, if_neg free, pulseAtList_of_none unentered,
      if_neg room]
    rfl
  generalize settle (enter (take s p) e) = u at driven answered
  exact ⟨_, answered, okTo_sending p 0x02#8 u _, driven.state, driven.output, driven.heat, driven.fires, driven.shortened,
    driven.general, driven.flipper, driven.list, driven.pointer, driven.others⟩

end Sys2Proof.Machine
end

section
/-! The requests that read (R76, R95, R105, R123, R128, R137, R153, R171): each answers the bytes of the record as it stands. -/

namespace Sys2Proof.Machine

/-! ### Indices and names in a reply -/

theorem index_of_lt {n k : Nat} (h : k < n) : index n k = some ⟨k, h⟩ := dif_pos h

theorem hasFireEntry_iff (s : State) (k : LinkId) :
    hasFireEntry s k = true ↔ ∃ e ∈ s.arb.waitList, ∃ notified, e.work = .fire k notified := by
  rw [hasFireEntry, List.any_eq_true]
  refine exists_congr fun e => and_congr_right fun _ => ?_
  cases e.work <;> simp

theorem hasStepEntry_iff (s : State) (t : StepperId) : hasStepEntry s t = true ↔ ∃ e ∈ s.arb.waitList, e.work = .step t := by
  simp [hasStepEntry]

theorem driving_iff (s : State) (o : Option ChannelId) :
    driving s o = true ↔ ∃ c, o = some c ∧ ∃ kind width left, (s.chan c).state = .drive kind width left := by
  cases o with
  | none => simp [driving]
  | some c =>
    simp only [driving, Option.some.injEq, exists_eq_left']
    cases (s.chan c).state <;> simp

theorem stepInDrive_iff (s : State) (t : StepperId) :
    stepInDrive s t = true ↔ (s.stepper t).inDrive ≠ none ∨
      ∃ c, ((s.stepper t).cfg.up = some c ∨ (s.stepper t).cfg.down = some c) ∧
        ∃ kind width left, (s.chan c).state = .drive kind width left := by
  rw [stepInDrive, Bool.or_eq_true, Bool.or_eq_true, driving_iff, driving_iff, Option.isSome_iff_ne_none, or_assoc, ← exists_or]
  simp only [or_and_right]

/-! ### Why a flipper is not able to act (R95) -/

theorem isDisabled_iff (s : State) (o : Option ChannelId) :
    isDisabled s o = true ↔ ∃ c, o = some c ∧ (s.chan c).state = .disabled := by
  cases o <;> simp [isDisabled]

theorem reasonCode_mem (s : State) (f : FlipperId) :
    reasonsNotAble s f = [] ∧ reasonCode s f = 0 ∨ reasonCode s f ∈ reasonsNotAble s f := by
  unfold reasonCode
  cases h : reasonsNotAble s f with
  | nil => exact .inl ⟨rfl, rfl⟩
  | cons r l =>
    have hlt : Config.freeReason (r :: l) % (r :: l).length < (r :: l).length := Nat.mod_lt _ (Nat.succ_pos _)
    dsimp only
    rw [List.getD_eq_getElem _ _ hlt]
    exact .inr (List.getElem_mem hlt)

/-- Whether a channel that the record names is DISABLED. -/
theorem flipperDisabled_iff (s : State) (r : FlipperRecord) :
    (isDisabled s r.power || isDisabled s r.hold) = true ↔
      ∃ c, (r.power = some c ∨ r.hold = some c) ∧ (s.chan c).state = .disabled := by
  rw [Bool.or_eq_true, isDisabled_iff, isDisabled_iff, ← exists_or]
  simp only [or_and_right]

theorem mem_reasonsNotAble (s : State) (f : FlipperId) (n : Nat) :
    n ∈ reasonsNotAble s f ↔ n = 1 ∧ s.supply.flipOn = false ∨ n = 3 ∧ (s.flip f).cfg.power = none ∨
      n = 2 ∧ (s.flip f).cfg.power ≠ none ∧
        ∃ c, ((s.flip f).cfg.power = some c ∨ (s.flip f).cfg.hold = some c) ∧ (s.chan c).state = .disabled := by
  rw [← flipperDisabled_iff, reasonsNotAble]
  generalize (isDisabled s (s.flip f).cfg.power || isDisabled s (s.flip f).cfg.hold) = disabled
  rcases (s.flip f).cfg.power with _ | power <;> cases s.supply.flipOn <;> cases disabled <;> simp

theorem reasonsNotAble_nil_iff (s : State) (f : FlipperId) :
    reasonsNotAble s f = [] ↔ s.supply.flipOn = true ∧ (s.flip f).cfg.power ≠ none ∧
      ¬∃ c, ((s.flip f).cfg.power = some c ∨ (s.flip f).cfg.hold = some c) ∧ (s.chan c).state = .disabled := by
  simp only [List.eq_nil_iff_forall_not_mem, mem_reasonsNotAble, not_or]
  refine ⟨fun h => ⟨?_, ?_, ?_⟩, fun ⟨hon, hpower, hd⟩ n => ⟨fun h => ?_, fun h => hpower h.2, fun h => hd h.2.2⟩⟩
  · simpa using (h 1).1
  · simpa using (h 3).2.1
  · simp only [not_and] at h
    intro hd
    exact (h 2).2.2 rfl (by simpa using (h 3).2.1) hd
  · simp [hon] at h

theorem reasonCode_spec (s : State) (f : FlipperId) :
    let x := s.flip f
    let disabled := ∃ c, (x.cfg.power = some c ∨ x.cfg.hold = some c) ∧ (s.chan c).state = .disabled
    reasonCode s f = 0 ∧ s.supply.flipOn = true ∧ x.cfg.power ≠ none ∧ ¬disabled ∨
      reasonCode s f = 1 ∧ s.supply.flipOn = false ∨
      reasonCode s f = 2 ∧ x.cfg.power ≠ none ∧ disabled ∨
      reasonCode s f = 3 ∧ x.cfg.power = none := by
  obtain ⟨hnil, hcode⟩ | hmem := reasonCode_mem s f
  · exact .inl ⟨hcode, (reasonsNotAble_nil_iff s f).1 hnil⟩
  · obtain h | h | h := (mem_reasonsNotAble s f _).1 hmem
    · exact .inr (.inl h)
    · exact .inr (.inr (.inr h))
    · exact .inr (.inr (.inl h))

/-! ### The bodies of the replies -/

theorem phaseBytes_eq (x : FlipState) :
    phaseBytes x = match x with
      | .power phase => [boolByte phase.eosNote, boolByte phase.eosSeen, boolByte phase.released, byte phase.width]
      | _ => [Config.absentYesNo, Config.absentYesNo, Config.absentYesNo, 0#8] := by
  cases x <;> rfl

theorem flipperBytes_eq (s : State) (f : FlipperId) :
    flipperBytes s f = (s.flip f).cfg.bytes ++ [boolByte (s.flip f).cfg.power.isSome, byte (s.flip f).state.code, byte (reasonCode s f),
        closedByte (s.input (s.flip f).cfg.button).closed] ++
      (match (s.flip f).cfg.eos with
        | none => [0xFF#8]
        | some w => [closedByte (s.input w).closed]) ++
      [byte (s.flip f).repowers] ++
      (match (s.flip f).state with
        | .power phase => [boolByte phase.eosNote, boolByte phase.eosSeen, boolByte phase.released, byte phase.width]
        | _ => [Config.absentYesNo, Config.absentYesNo, Config.absentYesNo, 0#8]) ++
      be16 (s.flip f).flips ++ be16 (s.flip f).eosMissing ++ be16 (s.flip f).repowerCount ++ be16 (s.flip f).blockedCount := by
  rw [flipperBytes, phaseBytes_eq]
  cases (s.flip f).cfg.eos <;> rfl

theorem heatBytes_eq (ch : Channel) : heatBytes ch =
    [byte ch.state.code] ++
    (match ch.state with
      | .drive kind width _ => [byte kind.code, byte width]
      | _ => [0xFF#8, 0#8]) ++
    [byte ch.claims.code] ++ be16 ch.absorbed ++ be16 ch.heat.h ++ [byte ch.heat.thermal.code] ++
    [byte (if ch.state = .hold then ch.heat.dEff else derate ch.coil ch.heat.h)] ++
    be16 ch.heat.stats.fires ++ be16 ch.heat.stats.shortened ++ be16 ch.heat.stats.cutoffs ++ be16 ch.heat.stats.peak ++
    be24 ch.heat.stats.bandNormal ++ be24 ch.heat.stats.bandWarm ++ be24 ch.heat.stats.bandLimited ++
    be24 ch.heat.stats.bandCutoff := by
  obtain ⟨coil, state, before, claims, owed, absorbed, heat⟩ := ch
  cases state <;> rfl

theorem linkBytes_eq (s : State) (k : LinkId) :
    linkBytes s k = (s.link k).cfg.bytes ++ [boolByte (s.link k).cfg.channel.isSome, boolByte s.supply.directOn,
      closedByte (s.input (s.link k).cfg.trigger).closed, boolByte (s.link k).lockout.isSome, byte ((s.link k).lockout.getD 0),
      boolByte (hasFireEntry s k)] ++ be16 (s.link k).fired ++ be16 (s.link k).ignored ++ be16 (s.link k).lost := rfl

theorem stepperBytes_eq (s : State) (t : StepperId) :
    let x := s.stepper t
    let train : Option Train → List Byte := fun y => match y with
      | none => [0xFF#8] ++ be16 0 ++ be16 0 ++ [0#8]
      | some y => [byte y.dir.code] ++ be16 y.remaining ++ be16 y.delivered ++ [byte y.origin.code]
    stepperBytes s t = x.cfg.bytes ++ [boolByte x.cfg.up.isSome, byte x.state.code, natByte x.position] ++
      (match x.state with
        | .running run next => train (some run) ++ train next
        | _ => train none ++ train none) ++
      [byte x.mismatch] ++ be16 x.lost ++ be16 x.clamped ++
      (match x.last with
        | none => be16 0 ++ [0xFF#8]
        | some l => be16 l.delivered ++ [byte l.ended.code]) ++
      [boolByte x.due, boolByte (hasStepEntry s t), boolByte (stepInDrive s t)] ++
      (match x.cfg.home with
        | none => [0xFF#8]
        | some w => [closedByte (s.input w).closed]) ++
      (match x.state with
        | .homing origin steps => [byte steps, byte origin.code]
        | _ => [0#8, 0#8]) := by
  intro x train
  have empty : PortSet.empty.code = 0 := rfl
  have trains (y : Option Train) : trainBytes y = train y := by cases y <;> rfl
  have homeByte (w : Option SwitchId) : [switchByte s w] =
      match w with
      | none => [0xFF#8]
      | some w => [closedByte (s.input w).closed] := by cases w <;> rfl
  rw [← homeByte]
  unfold stepperBytes
  dsimp only
  rw [trains, trains]
  change _ = x.cfg.bytes ++ _ ++ _ ++ _ ++ _ ++ _ ++ _ ++ _ ++ _ ++ _
  cases x.state <;> cases x.last <;> simp [x, StepState.runningTrain, StepState.pendingTrain,
    StepState.homingSteps, StepState.homingOrigin, absent, byte, empty]

theorem bankBytes_eq (reels : List StepperId) :
    bankBytes reels = [byte reels.length, indexByte reels[0]?, indexByte reels[1]?, indexByte reels[2]?, indexByte reels[3]?,
      indexByte reels[4]?] := rfl

theorem LinkRecord.bytes_eq (r : LinkRecord) :
    r.bytes = [byte r.trigger.val, byte r.edge.code, indexByte r.channel, byte r.width, byte r.lockout] ++
      match r.award with
        | none => [0xFF#8, 0#8]
        | some a => [byte a.stepper.val, byte a.steps] := by
  obtain ⟨trigger, edge, channel, width, lockout, award⟩ := r
  cases award <;> rfl

theorem switchStates_eq (s : State) (w : Fin 4) :
    switchStates s (8 * w.val) = byte ((List.finRange 8).map fun i : Fin 8 =>
      if (s.input ⟨8 * w.val + i.val, by omega⟩).closed = true then 0 else 2 ^ i.val).sum := by
  rw [switchStates, ← List.map_coe_finRange_eq_range, List.map_map]
  refine congrArg (fun l => byte (List.sum l)) (List.map_congr_left fun i _ => ?_)
  simp only [Function.comp_apply, index_of_lt (show 8 * w.val + i.val < 32 by omega), State.closed, closedByte]
  split <;> rename_i h <;> simp [h]

theorem configRecord_eq (s : State) (kind i : Nat) : configRecord s kind i =
    match kind with
    | 0 => (index 48 i).map fun c => (s.chan c).coil.bytes
    | 1 => if i = 0 then some s.supply.cfg.bytes else none
    | 2 => (index 6 i).map fun f => (s.flip f).cfg.bytes
    | 3 => (index 16 i).map fun k => (s.link k).cfg.bytes
    | 4 => (index 16 i).map fun t => (s.stepper t).cfg.bytes
    | 5 => (index 4 i).map fun n => bankBytes (s.bank n)
    | 6 => (index 32 i).map fun w => (s.input w).cfg.bytes
    | 7 => (index 32 i).map fun l => (s.lamp.lamps.get l).cfg.bytes
    | 8 => if i = 0 then some (be16 s.lamp.budget) else none
    | _ => none := by
  match kind with
  | 0 | 1 | 2 | 3 | 4 | 5 | 6 | 7 | 8 => rfl
  | n + 9 => simp [configRecord]

/-! ### The requests -/

theorem readBankBytes_eq (s : State) (reels : List StepperId) : readBankBytes s reels =
    [byte reels.length] ++
    (List.range 5).flatMap (fun i => match reels[i]? with
      | none => [0xFF#8, 0xFF#8]
      | some t => [byte t.val, natByte (s.stepper t).position]) ++
    [boolByte (reels.any fun t => (s.stepper t).state.isRunning || (s.stepper t).state.isHoming || stepInDrive s t)] := rfl

/-- Settles O36: each read request answers its record, and the bytes of every record are those of its table. -/
theorem readRequestsAnswerTheRecords : Obligations.ReadRequestsAnswerTheRecords := by
  unfold Obligations.ReadRequestsAnswerTheRecords
  refine ⟨fun p x y s => ⟨fun h => ?heat, fun h => ?flipper, fun h => ?link, fun h => ?stepper, fun h => ?bank, fun h => ?switches,
    fun h => ?lamps, fun h => ?config⟩, heatBytes_eq, fun s f => ⟨flipperBytes_eq s f, reasonCode_spec s f⟩,
    fun s k => ⟨linkBytes_eq s k, hasFireEntry_iff s k⟩, fun s t => ⟨stepperBytes_eq s t, hasStepEntry_iff s t, stepInDrive_iff s t⟩,
    readBankBytes_eq, switchStates_eq, configRecord_eq, fun _ => rfl, fun _ => rfl, fun _ => rfl, LinkRecord.bytes_eq,
    fun _ => rfl, bankBytes_eq, fun _ => rfl, fun _ => rfl, fun _ => rfl, ?numbers, ?codes⟩
  case heat =>
    rw [exec_ready h rfl rfl]
    simp only [ownRules, readHeatRequest, u8_zero]
    cases index 48 x.toNat <;> rfl
  case flipper =>
    rw [exec_ready h rfl rfl]
    simp only [ownRules, readFlipperRequest, u8_zero]
    cases index 6 x.toNat <;> rfl
  case link =>
    rw [exec_ready h rfl rfl]
    simp only [ownRules, readLinkRequest, u8_zero]
    cases index 16 x.toNat <;> rfl
  case stepper =>
    rw [exec_ready h rfl rfl]
    simp only [ownRules, readStepperRequest, u8_zero]
    cases index 16 x.toNat <;> rfl
  case bank =>
    rw [exec_ready h rfl rfl]
    simp only [ownRules, readBankRequest, u8_zero]
    cases index 4 x.toNat <;> rfl
  case switches => exact exec_ready h rfl rfl
  case lamps => exact exec_ready h rfl rfl
  case config =>
    rw [exec_ready h rfl rfl]
    simp only [ownRules, readConfigRequest, u8_zero, u8_succ, byte_toNat]
    change _ = Host.Outcome.next (match configRecord (take s p) x.toNat y.toNat with
      | none => refusedTo p 0x24#8 (take s p) .range
      | some bytes => okTo p 0x24#8 (take s p) (x :: y :: bytes))
    cases configRecord (take s p) x.toNat y.toNat <;> rfl
  case numbers =>
    exact ⟨fun _ => rfl, fun _ => rfl, fun _ => rfl, rfl, rfl, rfl, rfl, rfl, fun _ => rfl, fun _ => rfl, fun _ _ => rfl,
      fun _ _ => index_of_lt, fun _ _ => index_none⟩
  case codes =>
    refine ⟨rfl, fun _ _ _ _ => rfl, rfl, rfl, fun _ => rfl, fun _ _ _ _ => rfl, rfl, rfl, rfl, rfl, rfl, rfl, rfl, ?_⟩
    decide

end Sys2Proof.Machine
end

section
/-! ENABLE GROUP (R28, R30): the claim it records and the enables it recomputes. -/

namespace Sys2Proof.Machine

/-! ### Recomputing the groups (R30) -/

theorem recomputeGroups_eq (s : State) :
    let u := s.setSupply { s.supply with
      flipOn := s.isUp && !s.supply.flipClaims.isEmpty
      directOn := s.isUp && !s.supply.directClaims.isEmpty }
    recomputeGroups s = if u.supply.flipOn = s.supply.flipOn then u else (List.finRange 6).foldl flipperTest u := rfl

/-- The flippers' tests leave the supply as the recomputation writes it. -/
theorem recomputeGroups_supply (s : State) : (recomputeGroups s).supply = { s.supply with
    flipOn := s.isUp && !s.supply.flipClaims.isEmpty
    directOn := s.isUp && !s.supply.directClaims.isEmpty } := by
  rw [recomputeGroups_eq]
  dsimp only
  split
  · rfl
  · exact (CoilWork.foldl CoilWork.flipperTest (List.finRange 6) _).supply

/-! ### The request (R28) -/

theorem byte_le_one {x : Byte} (h : x.toNat ≤ 1) : x = 0#8 ∨ x = 1#8 := by
  simp only [← BitVec.toNat_inj]
  exact Nat.le_one_iff_eq_zero_or_eq_one.1 h

/-- A group's claims with the sender's set or cleared by the setting `y`. -/
def claimSet (claims : PortSet) (p : Port) (y : Byte) : PortSet := if y = 1#8 then claims.add p else claims.remove p

/-- The supply record with the sender's claim on the group `x` set or cleared by `y`. -/
def groupClaimed (m : SupplyMonitor) (p : Port) (x y : Byte) : SupplyMonitor :=
  if x = 0#8 then { m with flipClaims := claimSet m.flipClaims p y } else { m with directClaims := claimSet m.directClaims p y }

/-- What ENABLE GROUP answers of the supply. -/
def groupBytes (m : SupplyMonitor) : List Byte :=
  [byte m.flipClaims.code, boolByte m.flipOn, byte m.directClaims.code, boolByte m.directOn]

theorem enableGroupRequest_of_range {p : Port} {x y : Byte} {s : State} (h : 1 < x.toNat ∨ 1 < y.toNat) :
    enableGroupRequest p [x, y] s = .refuse s .range := by
  have hnone : groupOf x.toNat = none ∨ yesNo y.toNat = none := by
    refine h.imp (fun hx => ?_) fun hy => ?_
    · rw [groupOf, if_neg (by omega), if_neg (by omega)]
    · rw [yesNo, if_neg (by omega), if_neg (by omega)]
  rw [enableGroupRequest, u8_zero, u8_succ, u8_zero]
  obtain hg | hy := hnone
  · rw [hg]
  · cases hg : groupOf x.toNat <;> rw [hy]

theorem enableGroupRequest_of_le {p : Port} {x y : Byte} {s : State} (hx : x.toNat ≤ 1) (hy : y.toNat ≤ 1) :
    let w := recomputeGroups (s.setSupply (groupClaimed s.supply p x y))
    enableGroupRequest p [x, y] s = .okWith w (groupBytes w.supply) := by
  obtain rfl | rfl := byte_le_one hx <;> obtain rfl | rfl := byte_le_one hy <;> rfl

theorem groupClaimed_flipClaims {m : SupplyMonitor} {p : Port} {x y : Byte} : (groupClaimed m p x y).flipClaims =
    if x = 0#8 then (if y = 1#8 then m.flipClaims.add p else m.flipClaims.remove p) else m.flipClaims := by
  unfold groupClaimed
  split <;> rfl

theorem groupClaimed_directClaims {m : SupplyMonitor} {p : Port} {x y : Byte} (hx : x.toNat ≤ 1) :
    (groupClaimed m p x y).directClaims =
      if x = 1#8 then (if y = 1#8 then m.directClaims.add p else m.directClaims.remove p) else m.directClaims := by
  obtain rfl | rfl := byte_le_one hx <;> rfl

theorem groupClaimed_state {m : SupplyMonitor} {p : Port} {x y : Byte} : (groupClaimed m p x y).state = m.state := by
  unfold groupClaimed
  split <;> rfl

theorem groupClaimed_flipOn {m : SupplyMonitor} {p : Port} {x y : Byte} : (groupClaimed m p x y).flipOn = m.flipOn := by
  unfold groupClaimed
  split <;> rfl

/-- Settles O37: ENABLE GROUP is the claim, then the recomputation, whose supply is written out. -/
theorem enableGroupRecordsTheClaim : Obligations.EnableGroupRecordsTheClaim := by
  unfold Obligations.EnableGroupRecordsTheClaim
  intro p x y s h
  have hexec := exec_ready (c := .enableGroup p [x, y]) h rfl rfl
  refine ⟨fun hrange => ?range, fun hx hy => ?supply, fun hx hy => ?state⟩
  case range => rw [hexec, ownRules, enableGroupRequest_of_range hrange]; rfl
  case supply =>
    let u := (take s p).setSupply (groupClaimed s.supply p x y)
    have hup : u.isUp = s.isUp := congrArg (fun st : SupplyState => decide (st = .up)) groupClaimed_state
    have hsupply := recomputeGroups_supply u
    refine ⟨okTo p 0x07#8 (recomputeGroups u) (groupBytes (recomputeGroups u).supply), ?_⟩
    rw [okTo_supply, okTo_sending]
    refine ⟨?_, ?_, ?_, ?_, ?_, ?_, rfl⟩
    · rw [hexec, ownRules, enableGroupRequest_of_le hx hy]; rfl
    · rw [hsupply]; exact groupClaimed_flipClaims
    · rw [hsupply]; exact groupClaimed_directClaims hx
    · rw [hsupply, hup]
    · rw [hsupply, hup]
    · rw [hsupply]; exact groupClaimed_state
  case state =>
    intro claim m u v w
    have hup : u.isUp = s.isUp := congrArg (fun st : SupplyState => decide (st = .up)) (groupClaimed_state (p := p) (x := x) (y := y))
    have hon : u.supply.flipOn = s.supply.flipOn := groupClaimed_flipOn
    have hw : recomputeGroups u = w := by
      rw [recomputeGroups_eq, hup, hon]
      rfl
    refine ⟨hw, ?_⟩
    rw [hexec, ownRules, enableGroupRequest_of_le hx hy, ← hw]
    rfl

end Sys2Proof.Machine
end

section
/-! The interlock (R23, R25, R30): its debounces, the settle countdown and the entry of UP. -/

namespace Sys2Proof.Machine

/-! ### The tests that an entry of UP brings (R15, R82) -/

theorem pullInTest_eq (s : State) (c : ChannelId) : pullInTest s c =
    if pullInCondition s c = true then
      if 24 ≤ s.arb.waitList.length then s.setChan c { s.chan c with owed := true }
      else enter (s.setChan c { s.chan c with owed := false })
        ⟨c, .pullIn (s.chan c).claims, (s.chan c).coil.defWidth, s.sw.partTime, none, 0⟩
    else s := by
  simp only [pullInTest, listFull_iff]
  rfl

theorem able_iff (s : State) (f : FlipperId) : able s f = true ↔ s.supply.flipOn = true ∧ (s.flip f).cfg.power ≠ none ∧
    ∀ c, ((s.flip f).cfg.power = some c ∨ (s.flip f).cfg.hold = some c) → (s.chan c).state ≠ .disabled := by
  rw [able, decide_eq_true_iff, reasonsNotAble_nil_iff]
  simp only [not_exists, not_and, ne_eq]

theorem flipperTest_eq (s : State) (f : FlipperId) :
    let goes : FlipState → State := fun state => s.setFlip f { s.flip f with state := state, repowers := 0 }
    flipperTest s f =
      if able s f = true then
        if (s.flip f).state = .disabled then
          goes (if (s.input (s.flip f).cfg.button).closed = true then .waitOpen else .ready)
        else s
      else if (s.flip f).state = .disabled then s
      else endFlipperDrives (goes .disabled) f := rfl

/-! ### Entering UP (R25) -/

@[simp] theorem setFlagBoth_supply (s : State) (n : FlagName) (k : Option Nat) : (setFlagBoth s n k).supply = s.supply := rfl

/-- What an entry of UP reports to the coils, before the groups' enables. -/
def upReported (s : State) : State :=
  let a := attemptNow s
  let b := allChannels.foldl (fun u c => settle (pullInTest u c)) a
  (roundRobin b.arb.pointer).foldl (fun u t => settle (stepTest u t)) b

theorem upReported_coilWork (s : State) : CoilWork s (upReported s) :=
  (CoilWork.attemptNow s).trans <|
    (CoilWork.foldl (fun _ _ => (CoilWork.pullInTest _ _).trans (CoilWork.settle _)) _ _).trans <|
      CoilWork.foldl (fun _ _ => (CoilWork.stepTest _ _).trans (CoilWork.settle _)) _ _

theorem enterUp_eq (s : State) : enterUp s =
    recomputeGroups (upReported (setFlagBoth (s.setSupply { s.supply with state := .up, countdown := none }) .supplyUp none)) := by
  unfold enterUp upReported
  dsimp only

theorem enterUp_setSupply (s : State) (m : SupplyMonitor) : enterUp (s.setSupply m) =
    recomputeGroups (upReported (setFlagBoth (s.setSupply { m with state := .up, countdown := none }) .supplyUp none)) :=
  enterUp_eq _

theorem recomputeGroups_latch (s : State) (q : Port) {n : FlagName} (h : coilFlag n = false) :
    ((recomputeGroups s).latch q).get n.bit = (s.latch q).get n.bit := by
  rw [recomputeGroups_eq]
  dsimp only
  split
  · rfl
  · exact (CoilWork.foldl CoilWork.flipperTest (List.finRange 6) _).latched q n h

theorem enterUp_supply (s : State) : (enterUp s).supply = { s.supply with
    state := .up
    countdown := none
    flipOn := !s.supply.flipClaims.isEmpty
    directOn := !s.supply.directClaims.isEmpty } := by
  have hkept (n : FlagName) (u : State) : (upReported (setFlagBoth u n none)).supply = u.supply := by
    exact (upReported_coilWork _).supply.trans (setFlagBoth_supply u n none)
  rw [enterUp_eq, recomputeGroups_supply, State.isUp, hkept]
  simp

theorem enterUp_latch (s : State) (q : Port) :
    ((enterUp s).latch q).get FlagName.supplyUp.bit = raiseFlag ((s.latch q).get FlagName.supplyUp.bit) none none := by
  rw [enterUp_eq, recomputeGroups_latch _ _ rfl, (upReported_coilWork _).latched q _ rfl, setFlagBoth_get_self]
  rfl

/-! ### The debounces and the countdown (R23) -/

theorem ilkRawChange_eq (closed : Bool) (s : State) : ilkRawChange closed s =
    if s.supply.ilkRaw = closed then s else s.setSupply { s.supply with
      ilkRaw := closed
      ilkTimer := if s.part.state = .run ∧ closed ≠ s.supply.ilkClosed then some 20 else none } := by
  simp only [ilkRawChange, State.inRun, Config.ilkDebounce, Bool.and_eq_true, decide_eq_true_eq]

theorem ilkDebouncedClose_closes {s : State} (ht : s.supply.ilkTimer = some 0) (hc : s.supply.ilkClosed = false) :
    ilkDebouncedClose s =
      if s.supply.cfg.settle = 0 then enterUp (s.setSupply { s.supply with ilkClosed := true, ilkTimer := none })
      else s.setSupply { s.supply with
        ilkClosed := true, ilkTimer := none, state := .settling, countdown := some (s.supply.cfg.settle * 10) } := by
  simp [ilkDebouncedClose, due, ht, hc]

theorem settleExpiry_due {s : State} (hc : s.supply.countdown = some 0) (hs : s.supply.state = .settling) :
    settleExpiry s = enterUp s := by
  simp [settleExpiry, due, hc, hs]

theorem ilkDebouncedOpen_settling {s : State} (ht : s.supply.ilkTimer = some 0) (hc : s.supply.ilkClosed = true)
    (hs : s.supply.state = .settling) :
    ilkDebouncedOpen s = setFlagBoth (s.setSupply { s.supply with
      ilkClosed := false, ilkTimer := none, state := .down, countdown := none }) .supplyDown none := by
  simp [ilkDebouncedOpen, due, ht, hc, hs]
  rfl

/-- Settles O39: the interlock's two debounces and the countdown, and the tests and the recomputation of which the entry of UP consists. -/
theorem interlockLeadsThroughSettlingToUp : Obligations.InterlockLeadsThroughSettlingToUp := by
  unfold Obligations.InterlockLeadsThroughSettlingToUp
  refine ⟨fun closed s => ?interlock, fun c s => ⟨pullInCondition_iff s c, pullInTest_eq s c⟩, recomputeGroups_eq,
    fun f s => ⟨able_iff s f, flipperTest_eq s f⟩⟩
  case interlock =>
    intro up
    have hup (m : SupplyMonitor) : up m =
        recomputeGroups (upReported (setFlagBoth (s.setSupply { m with state := .up, countdown := none }) .supplyUp none)) := by
      unfold upReported
      dsimp only [up, roundRobin, allChannels, allSteppers]
    refine ⟨congrArg Host.Outcome.next (ilkRawChange_eq closed s), fun ht hc hsettle => ?countdown, fun ht hc hsettle => ?atOnce,
      fun hcount hs => ?expiry, fun ht hc hs => ?abandoned⟩
    case countdown =>
      refine congrArg Host.Outcome.next ?_
      rw [ilkDebouncedClose_closes ht hc, if_neg hsettle]
    case atOnce =>
      have hclose : exec .ilkDebouncedClose s = .next (enterUp (s.setSupply { s.supply with ilkClosed := true, ilkTimer := none })) := by
        refine congrArg Host.Outcome.next ?_
        rw [ilkDebouncedClose_closes ht hc, if_pos hsettle]
      exact ⟨⟨_, hclose, by rw [enterUp_supply], by rw [enterUp_supply]; rfl⟩, by rw [hclose, enterUp_setSupply, hup]⟩
    case expiry =>
      have hexpiry : exec .settleExpiry s = .next (enterUp s) := congrArg Host.Outcome.next (settleExpiry_due hcount hs)
      exact ⟨by rw [hexpiry, enterUp_eq, hup], _, hexpiry, by rw [enterUp_supply], by rw [enterUp_supply], by rw [enterUp_supply], by rw [enterUp_supply],
        enterUp_latch s⟩
    case abandoned => exact congrArg Host.Outcome.next (ilkDebouncedOpen_settling ht hc hs)

end Sys2Proof.Machine
end

section
/-! The flipper unit's button (R80 to R93): what each state of the flipper makes of a press and of a release. -/

namespace Sys2Proof.Machine

/-! ### What a heat check leaves alone -/

theorem setThermal_flippers (s : State) (c : ChannelId) (t : Thermal) : (setThermal s c t).flippers = s.flippers := by
  unfold setThermal
  dsimp only
  split <;> rfl

theorem heatCheck_flip (s : State) (c : ChannelId) (w : Nat) (f : FlipperId) : (heatCheck s c w).1.flip f = s.flip f := by
  refine congrArg (Table.get · f) ?_
  unfold heatCheck
  dsimp only
  split
  · exact setThermal_flippers s c .cutoff
  · exact setThermal_flippers _ c _

theorem heatCheck_chan_state (s : State) (c : ChannelId) (w : Nat) : ((heatCheck s c w).1.chan c).state = (s.chan c).state := by
  unfold heatCheck
  dsimp only
  split
  · rw [enterCutoff_chan, if_pos rfl]
  · rw [setThermal_chan_self, setHeat_chan_self]

/-! ### The power drive (R84, R93) -/

theorem block_eq (s : State) (f : FlipperId) : block s f = setFlagBoth (s.setFlip f { s.flip f with
    state := .blocked, repowers := 0, blockedCount := min 65535 ((s.flip f).blockedCount + 1) }) .flipperFault (some f.val) := rfl

theorem block_flip (s : State) (f : FlipperId) : (block s f).flip f = { s.flip f with
    state := .blocked, repowers := 0, blockedCount := min 65535 ((s.flip f).blockedCount + 1) } := State.flip_setFlip_self ..

theorem block_channels (s : State) (f : FlipperId) : (block s f).channels = s.channels := rfl

theorem holdInCutoff_iff (s : State) (r : FlipperRecord) :
    holdInCutoff s r = true ↔ ∃ h, r.hold = some h ∧ (s.chan h).heat.thermal = .cutoff := by
  unfold holdInCutoff
  cases r.hold <;> simp [inCutoff]

/-- The width that a press asks for. -/
def powerWidth (s : State) (f : FlipperId) (c : ChannelId) : Nat := min (s.flip f).cfg.maxPower (s.chan c).coil.maxWidth

/-- Either channel of the flipper with power channel `c` is in CUTOFF. -/
def PowerBarred (s : State) (f : FlipperId) (c : ChannelId) : Prop :=
  (s.chan c).heat.thermal = .cutoff ∨ ∃ h, (s.flip f).cfg.hold = some h ∧ (s.chan h).heat.thermal = .cutoff

section
variable {s : State} {f : FlipperId} {c : ChannelId} (hp : (s.flip f).cfg.power = some c) (hr : (s.flip f).state = .ready)
  (hi : (s.chan c).state = .idle)
include hp hr hi

theorem buttonCloses_barred (h : PowerBarred s f c) : buttonCloses s f = block s f := by
  have hcut : (inCutoff s c || holdInCutoff s (s.flip f).cfg) = true := by
    rw [Bool.or_eq_true, inCutoff_iff, holdInCutoff_iff]
    exact h
  simp only [buttonCloses, hr, startPower, hp, hi, hcut, ne_eq, not_true_eq_false, if_false, if_true]

theorem buttonCloses_refused (h : ¬PowerBarred s f c) (hw : (heatCheck s c (powerWidth s f c)).2 = none) :
    buttonCloses s f = block (heatCheck s c (powerWidth s f c)).1 f := by
  have hcut : (inCutoff s c || holdInCutoff s (s.flip f).cfg) = false := by
    rw [← Bool.not_eq_true, Bool.or_eq_true, inCutoff_iff, holdInCutoff_iff]
    exact h
  have hcheck : heatCheck s c (powerWidth s f c) = ((heatCheck s c (powerWidth s f c)).1, none) := Prod.ext rfl hw
  rw [powerWidth] at hcheck
  simp only [buttonCloses, hr, startPower, hp, hi, hcut, ne_eq, not_true_eq_false, if_false, Bool.false_eq_true]
  rw [hcheck]
  rfl

theorem buttonCloses_driven {w : Nat} (h : ¬PowerBarred s f c) (hw : (heatCheck s c (powerWidth s f c)).2 = some w) :
    let checked := heatCheck s c (powerWidth s f c)
    buttonCloses s f = (checked.1.setFlip f { s.flip f with
      state := .power ⟨w, 0, false, false, false⟩
      flips := min 65535 ((s.flip f).flips + 1) }).setChan c { checked.1.chan c with state := .drive .flipper w w } := by
  have hcut : (inCutoff s c || holdInCutoff s (s.flip f).cfg) = false := by
    rw [← Bool.not_eq_true, Bool.or_eq_true, inCutoff_iff, holdInCutoff_iff]
    exact h
  have hcheck : heatCheck s c (powerWidth s f c) = ((heatCheck s c (powerWidth s f c)).1, some w) := Prod.ext rfl hw
  rw [powerWidth] at hcheck
  simp only [buttonCloses, hr, startPower, hp, hi, hcut, ne_eq, not_true_eq_false, if_false, Bool.false_eq_true]
  rw [hcheck]
  rfl

end

/-! ### The ends (R7, R8, R82) -/

theorem energised_iff (s : State) (c : ChannelId) :
    energised s c = true ↔ (s.chan c).state = .hold ∨ ∃ kind w left, (s.chan c).state = .drive kind w left := by
  unfold energised
  cases (s.chan c).state <;> simp

theorem releaseIfOn_on {s : State} {c : ChannelId} (h : energised s c = true) : releaseIfOn s c = release s c := if_pos h

theorem releaseIfOn_off {s : State} {c : ChannelId} (h : ¬energised s c = true) : releaseIfOn s c = s := if_neg h

theorem flipperSwitch_eq (w : SwitchId) (closed : Bool) (s : State) (f : FlipperId) : flipperSwitch w closed s f =
    if (s.flip f).cfg.power = none then s
    else if (s.flip f).cfg.button = w then (if closed = true then buttonCloses s f else buttonOpens s f)
    else if (s.flip f).cfg.eos = some w then (if closed = true then eosCloses s f else eosOpens s f)
    else s := by
  simp only [flipperSwitch, Option.isNone_iff_eq_none]

/-- Settles O42: the press in READY by the cut-offs and the heat check, the other states by their rows, and the ends of drives. -/
theorem flipperPressStartsThePowerDrive : Obligations.FlipperPressStartsThePowerDrive := by
  unfold Obligations.FlipperPressStartsThePowerDrive
  refine ⟨fun s f c hp hr hi => ?ready, fun s f => ?states, fun s f => rfl, fun s c => ?ends⟩
  case ready =>
    refine ⟨fun hcut => ?_, fun h hh hcut => ?_, fun hcool hhold => ?_⟩
    · rw [buttonCloses_barred hp hr hi (.inl hcut), block_flip]
      exact ⟨rfl, block_channels s f⟩
    · rw [buttonCloses_barred hp hr hi (.inr ⟨h, hh, hcut⟩), block_flip]
    · have hopen : ¬PowerBarred s f c := fun h => h.elim hcool fun ⟨d, hd, hcut⟩ => hhold d hd hcut
      refine ⟨fun w hw => ?_, fun hw => ?_⟩
      · rw [buttonCloses_driven hp hr hi hopen hw]
        exact ⟨congrArg Flipper.state (State.flip_setFlip_self ..), congrArg Flipper.flips (State.flip_setFlip_self ..),
          congrArg Channel.state (State.chan_setChan_self ..)⟩
      · rw [buttonCloses_refused hp hr hi hopen hw, block_flip, heatCheck_flip]
        exact ⟨rfl, rfl, (heatCheck_chan_state s c _).trans hi⟩
  case states =>
    intro x r goes blocked
    refine ⟨fun c hp hr hi => ⟨buttonCloses_barred hp hr hi, buttonCloses_refused hp hr hi, fun w => buttonCloses_driven hp hr hi⟩,
      fun phase h => ?held, fun h => ?idle, fun h => ?again, fun phase h => ?cut, fun h => ?ended, fun h => ?nothing,
      fun w closed => flipperSwitch_eq w closed s f⟩
    case held => simp only [buttonCloses, show (s.flip f).state = _ from h]; rfl
    case idle => obtain h | h | h | h | h := h <;> simp only [buttonCloses, show (s.flip f).state = _ from h]
    case again => obtain h | h := h <;> simp only [buttonOpens, show (s.flip f).state = _ from h] <;> rfl
    case cut => simp only [buttonOpens, show (s.flip f).state = _ from h]; rfl
    case ended => obtain h | h := h <;> simp only [buttonOpens, show (s.flip f).state = _ from h] <;> rfl
    case nothing => obtain h | h := h <;> simp only [buttonOpens, show (s.flip f).state = _ from h]
  case ends =>
    rw [← energised_iff]
    exact ⟨releaseIfOn_off, fun hon hgap => (releaseIfOn_on hon).trans (release_gapless hgap),
      fun hon hgap => (releaseIfOn_on hon).trans (release_gap hgap)⟩

end Sys2Proof.Machine
end

section
/-! The fields of a configuration body (R155, R166): each decoder by the byte that its value is written as; CONFIGURE FLIPPER (R94) and
CONFIGURE LINK (R104) by their tables. -/

namespace Sys2Proof.Machine

/-! ### Decoding one field -/

theorem toNat_eq_iff_byte {x : Byte} {n : Nat} : x.toNat = n ↔ x = byte n ∧ n ≤ 255 := by
  constructor
  · rintro rfl
    exact ⟨(byte_toNat x).symm, by omega⟩
  · rintro ⟨rfl, hn⟩
    exact toNat_byte (by omega)

theorem index_toNat_iff {n : Nat} (h : n ≤ 256) {x : Byte} {i : Fin n} : index n x.toNat = some i ↔ x = byte i.val := by
  constructor
  · intro hi
    rw [← index_some hi, byte_toNat]
  · rintro rfl
    exact index_byte h i

theorem indexOrNone_toNat_iff {n : Nat} (h : n ≤ 255) {x : Byte} {o : Option (Fin n)} :
    indexOrNone n x.toNat = some o ↔ x = indexByte o := by
  have habsent : x.toNat = 0xFF ↔ x = 0xFF#8 := by rw [toNat_eq_iff_byte]; exact and_iff_left (by omega)
  unfold indexOrNone
  cases o with
  | none =>
    split
    · exact iff_of_true rfl (habsent.1 ‹_›)
    · rename_i hx
      simp only [Option.map_eq_some_iff, reduceCtorEq, and_false, exists_false, false_iff]
      exact fun e => hx (habsent.2 e)
  | some i =>
    split
    · rename_i hx
      refine iff_of_false (by simp) fun e => ?_
      have hi : x.toNat = i.val := toNat_eq_iff_byte.2 ⟨e, by omega⟩
      omega
    · simp only [Option.map_eq_some_iff, Option.some.injEq, exists_eq_right, index_toNat_iff (Nat.le_succ_of_le h)]
      rfl

theorem edgeOf_toNat_iff {x : Byte} {e : Edge} : edgeOf x.toNat = some e ↔ x = byte e.code := by
  unfold edgeOf
  cases e <;> split_ifs <;> simp_all [toNat_eq_iff_byte, Edge.code] <;> decide

theorem stepperKindOf_toNat_iff {x : Byte} {k : StepperKind} : stepperKindOf x.toNat = some k ↔ x = byte k.code := by
  unfold stepperKindOf
  cases k <;> split_ifs <;> simp_all [toNat_eq_iff_byte, StepperKind.code] <;> decide

/-! ### The records -/

theorem flipperRecordOf_iff (b : List Byte) (r : FlipperRecord) : flipperRecordOf b = some r ↔
    index 32 (u8 b 1) = some r.button ∧ indexOrNone 48 (u8 b 2) = some r.power ∧ indexOrNone 48 (u8 b 3) = some r.hold ∧
      indexOrNone 32 (u8 b 4) = some r.eos ∧
      u8 b 5 = r.maxPower ∧ u8 b 6 = r.minPower ∧ u8 b 7 = r.repowerWidth ∧ u8 b 8 = r.repowerLimit ∧
      5 ≤ r.maxPower ∧ r.maxPower ≤ 100 ∧ 1 ≤ r.minPower ∧ r.minPower ≤ r.maxPower ∧ 1 ≤ r.repowerWidth ∧
        r.repowerWidth ≤ r.maxPower ∧ r.repowerLimit ≤ 3 := by
  obtain ⟨button, power, hold, eos, maxPower, minPower, repowerWidth, repowerLimit⟩ := r
  unfold flipperRecordOf
  split
  · rename_i hbutton hpower hhold heos
    simp only [hbutton, hpower, hhold, heos, Bool.and_eq_true, decide_eq_true_eq, Option.ite_none_right_eq_some,
      Option.some.injEq, FlipperRecord.mk.injEq]
    constructor
    · rintro ⟨⟨⟨⟨⟨⟨⟨h5, h100⟩, h1⟩, hmin⟩, hr⟩, hrmax⟩, hlimit⟩, rfl, rfl, rfl, rfl, rfl, rfl, rfl, rfl⟩
      exact ⟨rfl, rfl, rfl, rfl, rfl, rfl, rfl, rfl, h5, h100, h1, hmin, hr, hrmax, hlimit⟩
    · rintro ⟨rfl, rfl, rfl, rfl, rfl, rfl, rfl, rfl, h5, h100, h1, hmin, hr, hrmax, hlimit⟩
      exact ⟨⟨⟨⟨⟨⟨⟨h5, h100⟩, h1⟩, hmin⟩, hr⟩, hrmax⟩, hlimit⟩, rfl, rfl, rfl, rfl, rfl, rfl, rfl, rfl⟩
  · rename_i hnone
    refine iff_of_false (by simp) ?_
    rintro ⟨hbutton, hpower, hhold, heos, -⟩
    exact hnone _ _ _ _ hbutton hpower hhold heos

theorem awardOf_none_iff {stepper steps : Byte} : awardOf stepper.toNat steps.toNat = some none ↔ stepper = 0xFF#8 := by
  rw [show stepper = 0xFF#8 ↔ _ from (indexOrNone_toNat_iff (n := 16) (by omega) (o := none)).symm, awardOf]
  cases indexOrNone 16 stepper.toNat with
  | none => simp
  | some o => cases o <;> simp

theorem awardOf_some_iff {stepper steps : Byte} {a : Award} : awardOf stepper.toNat steps.toNat = some (some a) ↔
    1 ≤ a.steps ∧ a.steps ≤ 9 ∧ stepper = byte a.stepper.val ∧ steps = byte a.steps := by
  obtain ⟨t, n⟩ := a
  have hsteps : 1 ≤ n ∧ n ≤ 9 ∧ steps = byte n ↔ (1 ≤ steps.toNat ∧ steps.toNat ≤ 9) ∧ steps.toNat = n := by
    rw [toNat_eq_iff_byte]
    constructor
    · rintro ⟨h1, h9, rfl⟩
      rw [toNat_byte (by omega)]
      exact ⟨⟨h1, h9⟩, rfl, by omega⟩
    · rintro ⟨⟨h1, h9⟩, rfl, hn⟩
      rw [toNat_byte (by omega)] at h1 h9
      exact ⟨h1, h9, rfl⟩
  rw [show stepper = byte t.val ↔ _ from (indexOrNone_toNat_iff (n := 16) (by omega) (o := some t)).symm, awardOf,
    and_left_comm (b := _ = _), and_left_comm (b := _ = _), hsteps]
  cases indexOrNone 16 stepper.toNat with
  | none => simp
  | some o =>
    cases o with
    | none => simp
    | some u =>
      simp only [Bool.and_eq_true, decide_eq_true_eq, Option.ite_none_right_eq_some, Option.some.injEq, Award.mk.injEq]
      exact and_left_comm

theorem linkRecordOf_iff (b : List Byte) (r : LinkRecord) : linkRecordOf b = some r ↔
    index 32 (u8 b 1) = some r.trigger ∧ edgeOf (u8 b 2) = some r.edge ∧ indexOrNone 48 (u8 b 3) = some r.channel ∧
      u8 b 4 = r.width ∧ u8 b 5 = r.lockout ∧ awardOf (u8 b 6) (u8 b 7) = some r.award := by
  obtain ⟨trigger, edge, channel, width, lockout, award⟩ := r
  unfold linkRecordOf
  split
  · rename_i htrigger hedge hchannel haward
    simp only [htrigger, hedge, hchannel, haward, Option.some.injEq, LinkRecord.mk.injEq]
  · rename_i hnone
    refine iff_of_false (by simp) ?_
    rintro ⟨htrigger, hedge, hchannel, -, -, haward⟩
    exact hnone _ _ _ _ htrigger hedge hchannel haward

/-! ### The two records of a body, byte by byte (Tables 5-1 and 6-1) -/

theorem flipperRecordOf_bytes {body : List Byte} (h : body.length = 9) (r : FlipperRecord) : flipperRecordOf body = some r ↔
    body.drop 1 = [byte r.button.val, indexByte r.power, indexByte r.hold, indexByte r.eos, byte r.maxPower, byte r.minPower,
      byte r.repowerWidth, byte r.repowerLimit] ∧
    5 ≤ r.maxPower ∧ r.maxPower ≤ 100 ∧ 1 ≤ r.minPower ∧ r.minPower ≤ r.maxPower ∧ 1 ≤ r.repowerWidth ∧
      r.repowerWidth ≤ r.maxPower ∧ r.repowerLimit ≤ 3 := by
  match body, h with
  | [_, b1, b2, b3, b4, b5, b6, b7, b8], _ =>
    simp only [flipperRecordOf_iff, u8_succ, u8_zero, index_toNat_iff (show 32 ≤ 256 by omega),
      indexOrNone_toNat_iff (show 48 ≤ 255 by omega), indexOrNone_toNat_iff (show 32 ≤ 255 by omega), toNat_eq_iff_byte,
      List.drop_succ_cons, List.drop_zero, List.cons.injEq]
    constructor
    · rintro ⟨h1, h2, h3, h4, ⟨h5, -⟩, ⟨h6, -⟩, ⟨h7, -⟩, ⟨h8, -⟩, hrange⟩
      exact ⟨⟨h1, h2, h3, h4, h5, h6, h7, h8, trivial⟩, hrange⟩
    · rintro ⟨⟨h1, h2, h3, h4, h5, h6, h7, h8, -⟩, hrange⟩
      exact ⟨h1, h2, h3, h4, ⟨h5, by omega⟩, ⟨h6, by omega⟩, ⟨h7, by omega⟩, ⟨h8, by omega⟩, hrange⟩

theorem linkRecordOf_bytes {body : List Byte} (h : body.length = 8) (r : LinkRecord) : linkRecordOf body = some r ↔
    (body.drop 1).take 5 = [byte r.trigger.val, byte r.edge.code, indexByte r.channel, byte r.width, byte r.lockout] ∧
    r.width ≤ 255 ∧ r.lockout ≤ 255 ∧
    match r.award with
      | none => body.getD 6 0#8 = 0xFF#8
      | some a => 1 ≤ a.steps ∧ a.steps ≤ 9 ∧ body.drop 6 = [byte a.stepper.val, byte a.steps] := by
  obtain ⟨trigger, edge, channel, width, lockout, award⟩ := r
  match body, h with
  | [_, b1, b2, b3, b4, b5, b6, b7], _ =>
    have hfields : awardOf b6.toNat b7.toNat = some award ↔ match award with
        | none => b6 = 0xFF#8
        | some a => 1 ≤ a.steps ∧ a.steps ≤ 9 ∧ [b6, b7] = [byte a.stepper.val, byte a.steps] := by
      cases award with
      | none => exact awardOf_none_iff
      | some a => simp only [awardOf_some_iff, List.cons.injEq, and_true]
    simp only [linkRecordOf_iff, u8_succ, u8_zero, index_toNat_iff (show 32 ≤ 256 by omega), edgeOf_toNat_iff,
      indexOrNone_toNat_iff (show 48 ≤ 255 by omega), toNat_eq_iff_byte, hfields,
      List.drop_succ_cons, List.drop_zero, List.take_succ_cons, List.take_zero, List.cons.injEq]
    constructor
    · rintro ⟨h1, h2, h3, ⟨h4, hwidth⟩, ⟨h5, hlockout⟩, haward⟩
      exact ⟨⟨h1, h2, h3, h4, h5, trivial⟩, hwidth, hlockout, haward⟩
    · rintro ⟨⟨h1, h2, h3, h4, h5, -⟩, hwidth, hlockout, haward⟩
      exact ⟨h1, h2, h3, ⟨h4, hwidth⟩, ⟨h5, hlockout⟩, haward⟩

/-! ### Names that fit (R94, R104) -/

theorem channelForFlipper_iff (s : State) (f : FlipperId) (o : Option ChannelId) : channelForFlipper s f o = true ↔
    ∀ c, o = some c → (s.chan c).coil.cls = .flipper ∧ ∀ g, g ≠ f → (s.flip g).cfg.power ≠ none →
      (s.flip g).cfg.power ≠ some c ∧ (s.flip g).cfg.hold ≠ some c := by
  have unnamed (g : FlipperId) (c : ChannelId) : ((s.flip g).cfg.names c = false) ↔
      ((s.flip g).cfg.power ≠ none → (s.flip g).cfg.power ≠ some c ∧ (s.flip g).cfg.hold ≠ some c) := by
    rw [← Bool.not_eq_true, flipperNames_iff, not_and, not_or]
  cases o with
  | none => simp [channelForFlipper]
  | some c =>
    simp only [channelForFlipper, allFlippers, Bool.and_eq_true, decide_eq_true_eq, List.all_eq_true, List.mem_finRange,
      true_implies, Bool.or_eq_true, Bool.not_eq_true', unnamed, Option.some.injEq, forall_eq', ← or_iff_not_imp_left, ne_eq]

theorem flipperNamesFit_iff (s : State) (f : FlipperId) (r : FlipperRecord) : flipperNamesFit s f r = true ↔
    r.power = none ∨
      r.power ≠ r.hold ∧ r.eos ≠ some r.button ∧ ∀ c, r.power = some c ∨ r.hold = some c →
        (s.chan c).coil.cls = .flipper ∧
        ∀ g, g ≠ f → (s.flip g).cfg.power ≠ none → (s.flip g).cfg.power ≠ some c ∧ (s.flip g).cfg.hold ≠ some c := by
  simp only [flipperNamesFit, Bool.or_eq_true, Option.isNone_iff_eq_none, Bool.and_eq_true, decide_eq_true_eq,
    channelForFlipper_iff, and_assoc]
  exact or_congr_right (and_congr_right fun _ => and_congr_right fun _ => by rw [← forall_and]; simp only [or_imp])

theorem linkChannelFits_iff (s : State) (o : Option ChannelId) : (!linkChannelFits s o) = true ↔
    ∃ c, o = some c ∧ (s.chan c).coil.cls ≠ .pulse ∧ (s.chan c).coil.cls ≠ .holdable := by
  cases o with
  | none => simp [linkChannelFits]
  | some c =>
    rw [linkChannelFits, CoilClass.not_pulsed_iff]
    simp

/-- Settles O41: the two decoders byte by byte, the names that fit, and the checks in their order. -/
theorem configureFlipperAndLink : Obligations.ConfigureFlipperAndLink := by
  unfold Obligations.ConfigureFlipperAndLink
  refine ⟨fun body r h => flipperRecordOf_bytes h r, fun body r h => linkRecordOf_bytes h r, flipperNamesFit_iff,
    fun p body s h hn => ?flipper, fun p body s h hn => ?link⟩
  case flipper =>
    rw [exec_ready h rfl hn, ownRules, configureFlipperRequest]
    cases index 6 (u8 body 0) with
    | none => rfl
    | some f =>
      cases flipperRecordOf body with
      | none => rfl
      | some r =>
        simp only [apply_ite (reply p 0x0B#8)]
        refine congrArg Host.Outcome.next <| if_congr Iff.rfl rfl <| if_congr ?_ rfl <| if_congr (by simp; rfl) rfl rfl
        rw [show ((take s p).flip f).state = (s.flip f).state from rfl]
        cases (s.flip f).state <;> exact Iff.rfl
  case link =>
    rw [exec_ready h rfl hn, ownRules, configureLinkRequest]
    cases index 16 (u8 body 0) with
    | none => rfl
    | some k =>
      cases linkRecordOf body with
      | none => rfl
      | some r =>
        simp only [apply_ite (reply p 0x0D#8)]
        exact congrArg Host.Outcome.next <| if_congr Iff.rfl rfl <| if_congr Iff.rfl rfl <|
          if_congr (linkChannelFits_iff (take s p) r.channel) rfl rfl

end Sys2Proof.Machine
end

section
/-! The end of a flipper's power drive (R85 to R91): the effective minimum, the EOS switch, the repower and the hand-over to the hold. -/

namespace Sys2Proof.Machine

/-! ### A flipper in POWER -/

section
variable {s : State} {f : FlipperId} {phase : PowerPhase} (h : (s.flip f).state = .power phase)
include h

theorem flipperMinReached_power : flipperMinReached f s =
    if phase.elapsed < min (s.flip f).cfg.minPower phase.width then s
    else if phase.released then powerToReady s f
    else if phase.eosNote then handOverEarly s f
    else s := by
  simp only [flipperMinReached, h]
  rfl

theorem flipperDriveEnd_power (c : ChannelId) : flipperDriveEnd s f c =
    if phase.released = true then powerToReady s f
    else if (s.flip f).cfg.eos ≠ none ∧ phase.eosSeen = false then handOver (countEosMissing s f) f c
    else handOver s f c := by
  simp only [flipperDriveEnd, h, Bool.and_eq_true, Bool.not_eq_true', Option.isSome_iff_ne_none]
  split_ifs <;> rfl

theorem eosCloses_power {c : ChannelId} (hc : (s.flip f).cfg.power = some c) :
    let noted := s.setFlip f { s.flip f with state := .power { phase with eosNote := true, eosSeen := true } }
    eosCloses s f = if min (s.flip f).cfg.minPower phase.width ≤ phase.elapsed ∧ phase.released = false then handOver noted f c
      else noted := by
  intro noted
  have hpower : (noted.flip f).cfg.power = some c := (congrArg (fun x : Flipper => x.cfg.power) (State.flip_setFlip_self ..)).trans hc
  have hearly : handOverEarly noted f = handOver noted f c := by rw [handOverEarly, hpower]
  simp only [eosCloses, h, Bool.and_eq_true, Bool.not_eq_true', decide_eq_true_eq]
  exact if_congr Iff.rfl hearly rfl

theorem eosOpens_power : eosOpens s f = s.setFlip f { s.flip f with state := .power { phase with eosNote := false } } := by
  simp only [eosOpens, h]
  rfl

end

theorem handOverEarly_some {s : State} {f : FlipperId} {c : ChannelId} (h : (s.flip f).cfg.power = some c) :
    handOverEarly s f = handOver s f c := by
  rw [handOverEarly, h]

theorem eosCloses_of_not_power {s : State} {f : FlipperId} (h : ∀ phase, (s.flip f).state ≠ .power phase) : eosCloses s f = s := by
  unfold eosCloses
  split <;> try rfl
  rename_i phase hp
  exact absurd hp (h phase)

theorem eosOpens_of_not_acting {s : State} {f : FlipperId} (h : ∀ phase, (s.flip f).state ≠ .power phase)
    (hh : (s.flip f).state ≠ .hold) : eosOpens s f = s := by
  unfold eosOpens
  split <;> try rfl
  · rename_i phase hp
    exact absurd hp (h phase)
  · rename_i hhold
    exact absurd hhold hh

theorem flipperDriveEnd_repower {s : State} {f : FlipperId} (h : (s.flip f).state = .repower) (c : ChannelId) :
    flipperDriveEnd s f c = handOver s f c := by
  simp only [flipperDriveEnd, h]

/-! ### The repower (R90) -/

/-- The width that a repower asks for. -/
def repowerAsked (s : State) (f : FlipperId) (c : ChannelId) : Nat := min (s.flip f).cfg.repowerWidth (s.chan c).coil.maxWidth

section
variable {s : State} {f : FlipperId} {c : ChannelId} (hh : (s.flip f).state = .hold) (hp : (s.flip f).cfg.power = some c)
include hh hp

theorem eosOpens_spent (h : (s.flip f).cfg.repowerLimit ≤ (s.flip f).repowers) : eosOpens s f = s := by
  simp only [eosOpens, hh, repower, hp, h, if_true]

variable (hleft : (s.flip f).repowers < (s.flip f).cfg.repowerLimit)
include hleft

theorem eosOpens_cut (h : (s.chan c).heat.thermal = .cutoff) : eosOpens s f = endFlipperDrives (block s f) f := by
  simp only [eosOpens, hh, repower, hp, if_neg (Nat.not_le.2 hleft), (inCutoff_iff s c).2 h, if_true]

theorem eosOpens_refused (h : (s.chan c).heat.thermal ≠ .cutoff) (hw : (heatCheck s c (repowerAsked s f c)).2 = none) :
    eosOpens s f = endFlipperDrives (block (heatCheck s c (repowerAsked s f c)).1 f) f := by
  have hcheck : heatCheck s c (repowerAsked s f c) = ((heatCheck s c (repowerAsked s f c)).1, none) := Prod.ext rfl hw
  rw [repowerAsked] at hcheck
  simp only [eosOpens, hh, repower, hp, if_neg (Nat.not_le.2 hleft), if_neg (mt (inCutoff_iff s c).1 h)]
  rw [hcheck]
  rfl

theorem eosOpens_driven {w : Nat} (h : (s.chan c).heat.thermal ≠ .cutoff) (hw : (heatCheck s c (repowerAsked s f c)).2 = some w) :
    let checked := heatCheck s c (repowerAsked s f c)
    eosOpens s f = (checked.1.setFlip f { s.flip f with
      state := .repower
      repowers := (s.flip f).repowers + 1
      repowerCount := min 65535 ((s.flip f).repowerCount + 1) }).setChan c { checked.1.chan c with state := .drive .flipper w w } := by
  have hcheck : heatCheck s c (repowerAsked s f c) = ((heatCheck s c (repowerAsked s f c)).1, some w) := Prod.ext rfl hw
  rw [repowerAsked] at hcheck
  simp only [eosOpens, hh, repower, hp, if_neg (Nat.not_le.2 hleft), if_neg (mt (inCutoff_iff s c).1 h)]
  rw [hcheck]
  rfl

end

/-! ### The hand-over (R88) -/

theorem handOver_single {s : State} {f : FlipperId} {c : ChannelId} (h : (s.flip f).cfg.hold = none) :
    handOver s f c = attemptNow (flipperHolds (enterHold s c) f) := by
  simp only [handOver, h]

theorem handOver_dual {s : State} {f : FlipperId} {c d : ChannelId} (h : (s.flip f).cfg.hold = some d) :
    handOver s f c =
      if ((release s c).chan d).state = .hold then flipperHolds (release s c) f
      else if ((release s c).chan d).heat.thermal = .cutoff then block (release s c) f
      else flipperHolds (enterHold (release s c) d) f := by
  simp only [handOver, h, inCutoff_iff]

/-- Settles O43: the minimum, the drive's end and the EOS switch by the fields of the phase; the repower by the limit, the cut-off and the
heat check; the hand-over by the winding. -/
theorem powerStrokeEndsInReadyOrHold : Obligations.PowerStrokeEndsInReadyOrHold := by
  unfold Obligations.PowerStrokeEndsInReadyOrHold
  refine ⟨fun f phase s h => ?power, fun f s => ?others, fun f c s => ?repower, fun f c s => ?handOver⟩
  case power =>
    have hmin := congrArg Host.Outcome.next (flipperMinReached_power h) (β := Host.Outcome State Fault Refusal)
    refine ⟨fun hearly => ?_, fun hdue hreleased => ?_, fun hdue hreleased hnote c hc => ?_, fun hdue hreleased hnote => ?_,
      fun c => flipperDriveEnd_power h c, fun c hc => eosCloses_power h hc, eosOpens_power h⟩
    · rw [if_pos hearly] at hmin
      exact hmin
    · rw [if_neg (Nat.not_lt.2 hdue), if_pos hreleased] at hmin
      exact hmin
    · rw [if_neg (Nat.not_lt.2 hdue), hreleased, if_neg Bool.false_ne_true, if_pos hnote, handOverEarly_some hc] at hmin
      exact hmin
    · rw [if_neg (Nat.not_lt.2 hdue), hreleased, hnote, if_neg Bool.false_ne_true, if_neg Bool.false_ne_true] at hmin
      exact hmin
  case others => exact ⟨eosCloses_of_not_power, eosOpens_of_not_acting, fun c h => flipperDriveEnd_repower h c⟩
  case repower =>
    intro x r blocked checked hh hp
    exact ⟨eosOpens_spent hh hp, fun hleft hcut => eosOpens_cut hh hp hleft hcut,
      fun hleft hcool hw => eosOpens_refused hh hp hleft hcool hw, fun w hleft hcool hw => eosOpens_driven hh hp hleft hcool hw⟩
  case handOver =>
    refine ⟨handOver_single, fun d hd => ?_, release_gapless, release_gap⟩
    rw [handOver_dual hd]
    generalize release s c = u
    rfl

end Sys2Proof.Machine
end

section
/-! The direct-fire links (R97 to R102): a trigger, the FIRE that it offers, its grant with the award, and what an up-train's target makes
of it (R108, R109, R116). -/

namespace Sys2Proof.Machine

/-! ### Triggers and lockout (R98, R99) -/

theorem trigger_unconfigured {s : State} {k : LinkId} (h : (s.link k).cfg.channel = none) : trigger s k = s := by
  simp only [trigger, h]

theorem trigger_configured {s : State} {k : LinkId} {c : ChannelId} (h : (s.link k).cfg.channel = some c) : trigger s k =
    if s.supply.directOn = false then s
    else if (s.link k).lockout ≠ none then s.setLink k { s.link k with ignored := min 65535 ((s.link k).ignored + 1) }
    else if (s.chan c).state = .disabled then s.setLink k { s.link k with lost := min 65535 ((s.link k).lost + 1) }
    else settle (offerFire (s.setLink k { s.link k with
      lockout := if (s.link k).cfg.lockout = 0 then none else some (s.link k).cfg.lockout }) k c) := by
  simp only [trigger, h, Bool.not_eq_true', Option.isSome_iff_ne_none]
  rfl

theorem lockoutExpiry_due {s : State} {k : LinkId} (h : (s.link k).lockout = some 0) :
    lockoutExpiry k s = s.setLink k { s.link k with lockout := none } := if_pos (decide_eq_true h)

theorem lockoutExpiry_early {s : State} {k : LinkId} (h : (s.link k).lockout ≠ some 0) : lockoutExpiry k s = s :=
  if_neg fun e => h (of_decide_eq_true e)

theorem linkSwitch_eq (w : SwitchId) (closed : Bool) (s : State) (k : LinkId) : linkSwitch w closed s k =
    if (s.link k).cfg.trigger = w ∧ (s.link k).cfg.edge = (if closed = true then .close else .open) then trigger s k else s := by
  refine if_congr ?_ rfl rfl
  rw [Bool.and_eq_true, decide_eq_true_iff]
  refine and_congr_right fun _ => ?_
  cases (s.link k).cfg.edge <;> cases closed <;> decide

/-! ### The FIRE that a trigger offers (R45, R100) -/

theorem heldOrPulling_iff_entry (s : State) (c : ChannelId) : heldOrPulling s c = true ↔
    (s.chan c).state = .hold ∨ ∃ e origin, entryOf s c = some e ∧ e.work = .pullIn origin := by
  rw [heldOrPulling_iff, hasPullIn]
  refine or_congr_right ?_
  cases entryOf s c with
  | none => simp
  | some e => cases h : e.work <;> simp [h]

section
variable {s : State} {k : LinkId} {c : ChannelId}

theorem offerFire_hot (h : (s.chan c).heat.thermal = .cutoff) : offerFire s k c = countLost s k :=
  if_pos ((inCutoff_iff s c).2 h)

variable (hcool : (s.chan c).heat.thermal ≠ .cutoff)
include hcool

theorem offerFire_held (h : heldOrPulling s c = true) : offerFire s k c = countLost (countAbsorbed s c) k := by
  simp only [offerFire, if_neg (mt (inCutoff_iff s c).1 hcool), h, if_true]

variable (hfree : ¬heldOrPulling s c = true)
include hfree

theorem offerFire_pulse {e : Entry} {origin : PortSet} (he : entryOf s c = some e) (hw : e.work = .pulse origin) :
    offerFire s k c = markEntry (bring (changeEntry s c fun e => { e with
      work := .fire k origin, width := max e.width (entryWidth (s.chan c).coil (s.link k).cfg.width) })) k := by
  simp only [offerFire, if_neg (mt (inCutoff_iff s c).1 hcool), if_neg hfree, he, hw]

theorem offerFire_fire {e : Entry} {j : LinkId} {notified : PortSet} (he : entryOf s c = some e) (hw : e.work = .fire j notified) :
    offerFire s k c = countLost (bring (changeEntry s c fun e => { e with
      width := max e.width (entryWidth (s.chan c).coil (s.link k).cfg.width) })) k := by
  simp only [offerFire, if_neg (mt (inCutoff_iff s c).1 hcool), if_neg hfree, he, hw]

theorem offerFire_new (he : entryOf s c = none) : offerFire s k c =
    if 24 ≤ s.arb.waitList.length then countLost s k
    else markEntry (enter s ⟨c, .fire k .empty, entryWidth (s.chan c).coil (s.link k).cfg.width, s.sw.partTime,
      newDeadline s (s.chan c).coil, 0⟩) k := by
  simp only [offerFire, if_neg (mt (inCutoff_iff s c).1 hcool), if_neg hfree, he, listFull_iff]

end

/-! ### The grant of a FIRE and its award (R101) -/

theorem grantFire_plain {s : State} {k : LinkId} (h : (s.link k).cfg.award = none) :
    grantFire s k = s.setLink k { s.link k with entry := false, fired := min 65535 ((s.link k).fired + 1) } := by
  simp only [grantFire, h]
  rfl

theorem grantFire_award {s : State} {k : LinkId} {a : Award} (h : (s.link k).cfg.award = some a) :
    let fired := s.setLink k { s.link k with entry := false, fired := min 65535 ((s.link k).fired + 1) }
    let o := offerTrain fired a.stepper .up a.steps ⟨.empty, true⟩ true
    grantFire s k = if o.2.steps = 0 then o.1.setLink k { o.1.link k with lost := min 65535 ((o.1.link k).lost + 1) } else o.1 := by
  simp only [grantFire, h]
  rfl

/-! ### An up-train at its target (R108, R109) -/

/-- The stepper takes no up-train. -/
def TurnsUpAway (x : Stepper) : Prop :=
  x.cfg.up = none ∨ x.state = .faulted ∨ (∃ among steps, x.state = .homing among steps) ∨
    ∃ run next, x.state = .running run (some next) ∧ next.dir = .down

theorem offerTrain_up_away {s : State} {t : StepperId} (n : Nat) (origin : Origin) (h : TurnsUpAway (s.stepper t)) :
    (offerTrain s t .up n origin true).1 = s.setStepper t { s.stepper t with lost := min 65535 ((s.stepper t).lost + n) } ∧
      (offerTrain s t .up n origin true).2.steps = 0 := by
  have away (answer : Offered) (hzero : answer.steps = 0)
      (hoffer : offerTrain s t .up n origin true = (s.setStepper t ((s.stepper t).lose n), answer)) :
      (offerTrain s t .up n origin true).1 = s.setStepper t { s.stepper t with lost := min 65535 ((s.stepper t).lost + n) } ∧
        (offerTrain s t .up n origin true).2.steps = 0 := by
    rw [hoffer]
    exact ⟨rfl, hzero⟩
  cases hup : (s.stepper t).cfg.up.isNone with
  | true => exact away .refused rfl (by simp only [offerTrain, hup, if_true])
  | false =>
    obtain h | h | ⟨among, steps, h⟩ | ⟨run, next, h, hdir⟩ := h
    · rw [h] at hup
      cases hup
    · exact away .refused rfl (by simp only [offerTrain, hup, h]; rfl)
    · exact away .busy rfl (by simp only [offerTrain, hup, h]; rfl)
    · exact away .busy rfl (by simp only [offerTrain, hup, h, hdir]; rfl)

section
variable {s : State} {t : StepperId} (n : Nat) (origin : Origin) (hup : (s.stepper t).cfg.up ≠ none)
include hup

theorem offerTrain_up_idle (h : (s.stepper t).state = .idle) : offerTrain s t .up n origin true =
    (stepTest (s.setStepper t { s.stepper t with state := .running ⟨.up, n, 0, origin⟩ none }) t, .taken .running n 0) := by
  have hsome : (s.stepper t).cfg.up.isNone = false := by rwa [← Bool.not_eq_true, Option.isNone_iff_eq_none]
  simp only [offerTrain, hsome, h]
  rfl

theorem offerTrain_up_pending {run : Train} (h : (s.stepper t).state = .running run none) : offerTrain s t .up n origin true =
    (s.setStepper t { s.stepper t with state := .running run (some ⟨.up, n, 0, origin⟩) }, .taken .pending n 0) := by
  have hsome : (s.stepper t).cfg.up.isNone = false := by rwa [← Bool.not_eq_true, Option.isNone_iff_eq_none]
  simp only [offerTrain, hsome, h]
  rfl

theorem offerTrain_up_added {run next : Train} (h : (s.stepper t).state = .running run (some next)) (hdir : next.dir = .up) :
    let steps := min n (999 - next.remaining)
    offerTrain s t .up n origin true =
      (s.setStepper t { s.stepper t with
        lost := min 65535 ((s.stepper t).lost + (n - steps))
        state := .running run (some { next with
          remaining := next.remaining + steps
          origin := ⟨next.origin.ports.union origin.ports, next.origin.loc || origin.loc⟩ }) },
      .taken .added steps (n - steps)) := by
  have hsome : (s.stepper t).cfg.up.isNone = false := by rwa [← Bool.not_eq_true, Option.isNone_iff_eq_none]
  simp only [offerTrain, hsome, h, hdir]
  rfl

end

/-- Settles O44: a trigger by the table of R98, its FIRE by the cases of R45, the grant by its award, and the award's or carry's steps by
the state of their stepper. -/
theorem linkTriggerAndLockout : Obligations.LinkTriggerAndLockout := by
  unfold Obligations.LinkTriggerAndLockout
  refine ⟨fun k s => ⟨trigger_unconfigured, fun c => trigger_configured, fun h => congrArg Host.Outcome.next (lockoutExpiry_due h),
    fun h => congrArg Host.Outcome.next (lockoutExpiry_early h), fun w closed => linkSwitch_eq w closed s k⟩,
    fun k c s => ?offer, fun k s => ⟨grantFire_plain, fun a => grantFire_award⟩, fun t n origin s => offerTrain_up_away n origin,
    fun t n origin s hup => ⟨offerTrain_up_idle n origin hup, fun run => offerTrain_up_pending n origin hup,
      fun run next => offerTrain_up_added n origin hup, fun _ _ _ => rfl⟩⟩
  case offer =>
    intro ch asked width lost marked changed held
    refine ⟨offerFire_hot, fun hcool hheld => ?held, fun e origin hcool hfree he hw => ?pulse, fun e j notified hcool hfree he hw => ?fire,
      fun hcool hfree he hfull => ?full, fun hcool hfree he hroom => ?room⟩
    case held => exact offerFire_held hcool ((heldOrPulling_iff_entry s c).2 hheld)
    all_goals have hnot : ¬heldOrPulling s c = true := fun h => hfree ((heldOrPulling_iff_entry s c).1 h)
    case pulse => exact offerFire_pulse hcool hnot he hw
    case fire => exact offerFire_fire hcool hnot he hw
    case full => exact (offerFire_new hcool hnot he).trans (if_pos hfull)
    case room => exact (offerFire_new hcool hnot he).trans (if_neg (Nat.not_le.2 hroom))

end Sys2Proof.Machine
end

section
/-! STEP (R109, R110): a port's train by the state of its stepper. -/

namespace Sys2Proof.Machine

/-! ### A port's train (R109) -/

theorem PortSet.single_eq (p : Port) : PortSet.single p = PortSet.empty.add p := rfl

/-- The stepper makes no step in this direction. -/
abbrev NoWay (x : Stepper) (dir : Direction) : Prop := dir = .down ∧ (x.cfg.kind = .wrap ∨ x.cfg.down = none)

theorem noWay_iff (x : Stepper) (dir : Direction) :
    (dir = .down && (x.cfg.kind = .wrap || x.cfg.down.isNone)) = true ↔ NoWay x dir := by
  rw [Bool.and_eq_true, Bool.or_eq_true, decide_eq_true_iff, decide_eq_true_iff, Option.isNone_iff_eq_none]

theorem offerTrain_unconfigured {s : State} {t : StepperId} {dir : Direction} {k : Nat} {origin : Origin}
    (h : (s.stepper t).cfg.up = none) : offerTrain s t dir k origin false = (s, .refused) := by
  unfold offerTrain
  dsimp only
  rw [if_pos (Option.isNone_iff_eq_none.2 h)]
  rfl

section
variable {s : State} {t : StepperId} {dir : Direction} {k : Nat} {origin : Origin} (hup : (s.stepper t).cfg.up ≠ none)
include hup

theorem offerTrain_faulted (h : (s.stepper t).state = .faulted) : offerTrain s t dir k origin false = (s, .refused) := by
  unfold offerTrain
  dsimp only
  rw [if_neg (mt Option.isNone_iff_eq_none.1 hup), h]
  rfl

theorem offerTrain_homing {o : PortSet} {n : Nat} (h : (s.stepper t).state = .homing o n) :
    offerTrain s t dir k origin false = (s, .busy) := by
  unfold offerTrain
  dsimp only
  rw [if_neg (mt Option.isNone_iff_eq_none.1 hup), h]
  rfl


theorem offerTrain_idle (h : (s.stepper t).state = .idle) : offerTrain s t dir k origin false =
    if NoWay (s.stepper t) dir then (s, .refused)
    else (stepTest (s.setStepper t { s.stepper t with state := .running ⟨dir, k, 0, origin⟩ none }) t, .taken .running k 0) := by
  unfold offerTrain
  dsimp only
  rw [if_neg (mt Option.isNone_iff_eq_none.1 hup), h]
  exact if_congr (noWay_iff _ _) rfl rfl

theorem offerTrain_running {run : Train} (h : (s.stepper t).state = .running run none) : offerTrain s t dir k origin false =
    if NoWay (s.stepper t) dir then (s, .refused)
    else (s.setStepper t { s.stepper t with state := .running run (some ⟨dir, k, 0, origin⟩) }, .taken .pending k 0) := by
  unfold offerTrain
  dsimp only
  rw [if_neg (mt Option.isNone_iff_eq_none.1 hup), h]
  exact if_congr (noWay_iff _ _) rfl rfl

theorem offerTrain_pending {run next : Train} (h : (s.stepper t).state = .running run (some next)) :
    let steps := min k (999 - next.remaining)
    offerTrain s t dir k origin false =
    if NoWay (s.stepper t) dir then (s, .refused)
    else if dir ≠ next.dir then (s, .busy)
    else (s.setStepper t { s.stepper t with
      lost := min 65535 ((s.stepper t).lost + (k - steps))
      state := .running run (some { next with
        remaining := next.remaining + steps
        origin := ⟨next.origin.ports.union origin.ports, next.origin.loc || origin.loc⟩ }) },
      .taken .added steps (k - steps)) := by
  unfold offerTrain
  dsimp only
  rw [if_neg (mt Option.isNone_iff_eq_none.1 hup), h, ite_not]
  exact if_congr (noWay_iff _ _) rfl rfl

end

/-! ### The request (R110) -/

theorem directionOf_le_one {d : Nat} (h : d ≤ 1) : directionOf d = some (if d = 0 then .up else .down) := by
  obtain rfl | rfl := Nat.le_one_iff_eq_zero_or_eq_one.1 h <;> rfl

theorem directionOf_none {d : Nat} (h : 1 < d) : directionOf d = none := by
  rw [directionOf, if_neg (by omega), if_neg (by omega)]

theorem stepRequest_of_range {p : Port} {x d hi lo : Byte} {s : State} (h : 15 < x.toNat) :
    stepRequest p [x, d, hi, lo] s = .refuse s .range := by
  rw [stepRequest, u8_zero, index_none h]

theorem stepRequest_of_fields {p : Port} {t : StepperId} {d hi lo : Byte} {s : State}
    (h : 1 < d.toNat ∨ hi.toNat * 256 + lo.toNat = 0) : stepRequest p [byte t.val, d, hi, lo] s = .refuse s .range := by
  rw [stepRequest, u8_zero, index_byte (by decide), u8_succ, u8_zero]
  obtain hd | hv := h
  · rw [directionOf_none hd]
  · cases directionOf d.toNat with
    | none => rfl
    | some dir => exact if_pos hv

theorem stepRequest_offers (p : Port) (t : StepperId) {d hi lo : Byte} (s : State) (hd : d.toNat ≤ 1)
    (hv : hi.toNat * 256 + lo.toNat ≠ 0) :
    stepRequest p [byte t.val, d, hi, lo] s = offerAnswer s (offerTrain s t (if d.toNat = 0 then .up else .down)
      (min (hi.toNat * 256 + lo.toNat) 999) ⟨PortSet.empty.add p, false⟩ false) := by
  rw [stepRequest, u8_zero, index_byte (by decide), u8_succ, u8_zero, directionOf_le_one hd, ← PortSet.single_eq]
  exact if_neg hv

/-- Settles O45: STEP's refusals by its fields, then the offered train by the state of its stepper. -/
theorem stepOffersATrain : Obligations.StepOffersATrain := by
  unfold Obligations.StepOffersATrain
  refine ⟨fun p x d hi lo s h hx => ?range, fun p t d hi lo s h => ?stepper⟩
  case range => rw [exec_ready h rfl rfl, ownRules, stepRequest_of_range hx]; rfl
  case stepper =>
    intro u x k c
    have hexec : exec c s = .next (reply p 0x0F#8 (stepRequest p [byte t.val, d, hi, lo] u)) := exec_ready h rfl rfl
    refine ⟨fun hrange => by rw [hexec, stepRequest_of_fields hrange]; rfl, fun hd hv => ?offer⟩
    rw [stepRequest_offers p t u hd hv] at hexec
    intro dir noDown train
    change exec c s = .next (reply p 0x0F#8 (offerAnswer u (offerTrain u t dir k ⟨PortSet.empty.add p, false⟩ false))) at hexec
    have hnoDown : NoWay (u.stepper t) dir ↔ noDown := and_congr_left fun _ => by
      obtain hd | hd := Nat.le_one_iff_eq_zero_or_eq_one.1 hd <;> simp [dir, hd]
    refine ⟨fun hup => ?unconfigured, fun hup hs => ?faulted, fun o n hup hs => ?homing, fun hup hs => ?idle,
      fun run hup hs => ?running, fun run next hup hs => ?pending⟩
    case unconfigured => rw [hexec, offerTrain_unconfigured (s := u) hup]; rfl
    case faulted => rw [hexec, offerTrain_faulted (s := u) hup hs]; rfl
    case homing => rw [hexec, offerTrain_homing (s := u) hup hs]; rfl
    case idle =>
      rw [hexec, offerTrain_idle (s := u) hup hs]
      simp only [hnoDown, apply_ite (offerAnswer u), apply_ite (reply p 0x0F#8)]
      rfl
    case running =>
      rw [hexec, offerTrain_running (s := u) hup hs]
      simp only [hnoDown, apply_ite (offerAnswer u), apply_ite (reply p 0x0F#8)]
      rfl
    case pending =>
      rw [hexec, offerTrain_pending (s := u) hup hs]
      simp only [hnoDown, apply_ite (offerAnswer u), apply_ite (reply p 0x0F#8), Bool.or_false]
      rfl

end Sys2Proof.Machine
end

section
/-! STOP STEPPER (R58, R119) and SET POSITION (R122). -/

namespace Sys2Proof.Machine

/-! ### A flag set for a set of ports -/

theorem PortSet.has_union (a b : PortSet) (q : Port) : (a.union b).has q = (a.has q || b.has q) := by cases q <;> rfl

theorem setFlagPorts_latch (s : State) (ps : PortSet) (n : FlagName) (k : Option Nat) (q : Port) :
    (setFlagPorts s ps n k).latch q = if ps.has q = true then (setFlag s q n k).latch q else s.latch q := by
  obtain ⟨a, b⟩ := ps
  cases a <;> cases b <;> cases q <;> rfl

theorem setFlagPorts_get_self (s : State) (ps : PortSet) (n : FlagName) (k : Option Nat) (q : Port) :
    ((setFlagPorts s ps n k).latch q).get n.bit =
      if ps.has q = true then raiseFlag ((s.latch q).get n.bit) k none else (s.latch q).get n.bit := by
  rw [setFlagPorts_latch]
  split
  · exact setFlagReason_get_self ..
  · rfl

theorem setFlagPorts_get_ne (s : State) (ps : PortSet) {m n : FlagName} (k : Option Nat) (q : Port) (h : m ≠ n) :
    ((setFlagPorts s ps n k).latch q).get m.bit = (s.latch q).get m.bit := by
  rw [setFlagPorts_latch]
  split
  · exact setFlagReason_get_ne _ _ _ _ h
  · rfl

/-! ### What the places of a list leave of a stepper whose due mark is off (R46, R58) -/

/-- Places are given out: the stepper named, if its due mark is off, keeps it off and enters no step, and no flag is set but those of a
train's end. -/
structure Refilled (but : Option StepperId) (s u : State) : Prop where
  due : ∀ t, but = some t → (s.stepper t).due = false → (u.stepper t).due = false
  entries : ∀ t, but = some t → (s.stepper t).due = false → ∀ e ∈ u.arb.waitList, e.work = .step t → e ∈ s.arb.waitList
  told : ∀ (q : Port) (n : FlagName), n ≠ .trainDone → n ≠ .trainReload → (u.latch q).get n.bit = (s.latch q).get n.bit

namespace Refilled

variable {but : Option StepperId}

theorem refl (s : State) : Refilled but s s := ⟨fun _ _ h => h, fun _ _ _ _ he _ => he, fun _ _ _ _ => rfl⟩

theorem trans {s u v : State} (a : Refilled but s u) (b : Refilled but u v) : Refilled but s v where
  due t ht h := b.due t ht (a.due t ht h)
  entries t ht h e he hw := a.entries t ht h e (b.entries t ht (a.due t ht h) e he hw) hw
  told q n hd hr := (b.told q n hd hr).trans (a.told q n hd hr)

theorem foldl {α : Type} {f : State → α → State} (h : ∀ s x, Refilled but s (f s x)) (l : List α) (s : State) :
    Refilled but s (l.foldl f s) := by
  induction l generalizing s with
  | nil => exact refl s
  | cons x l ih => exact (h s x).trans (ih _)

theorem setStepper (s : State) {u : StepperId} (h : but ≠ some u) (x : Stepper) : Refilled but s (s.setStepper u x) := by
  refine ⟨fun t ht hd => ?_, fun _ _ _ _ he _ => he, fun _ _ _ _ => rfl⟩
  rwa [State.stepper_setStepper_ne _ _ _ _ fun e => h (ht.trans (congrArg some e))]

theorem setChan (s : State) (c : ChannelId) (x : Channel) : Refilled but s (s.setChan c x) :=
  ⟨fun _ _ h => h, fun _ _ _ _ he _ => he, fun _ _ _ _ => rfl⟩

theorem setFlagPorts (s : State) (ps : PortSet) {n : FlagName} (k : Option Nat) (h : n = .trainDone ∨ n = .trainReload) :
    Refilled but s (setFlagPorts s ps n k) := by
  refine ⟨fun _ _ hd => ?_, fun _ _ _ e he _ => ?_, fun q m hd hr => setFlagPorts_get_ne s ps k q ?_⟩
  · rwa [setFlagPorts_stepper]
  · rwa [setFlagPorts_arb] at he
  · rintro rfl
    exact h.elim hd hr

theorem enter (s : State) {e : Entry} (h : ∀ t, but = some t → e.work ≠ .step t) : Refilled but s (enter s e) := by
  refine ⟨fun _ _ h => h, fun t ht _ o ho hw => ?_, fun _ _ _ _ => rfl⟩
  obtain ho | ho := List.mem_append.1 (show o ∈ s.arb.waitList ++ [e] from ho)
  · exact ho
  · rw [List.mem_singleton.1 ho] at hw
    exact absurd hw (h t ht)

theorem endTrain (s : State) {u : StepperId} (h : but ≠ some u) : Refilled but s (endTrain s u) := by
  unfold Machine.endTrain
  dsimp only
  split
  · exact (setStepper s h _).trans (setFlagPorts _ _ _ (.inr rfl))
  · exact (setStepper s h _).trans (setFlagPorts _ _ _ (.inl rfl))
  all_goals exact refl s

theorem clampTrain (s : State) {u : StepperId} (h : but ≠ some u) : Refilled but s (clampTrain s u) := by
  unfold Machine.clampTrain
  dsimp only
  split
  · exact (setStepper s h _).trans (endTrain _ h)
  all_goals exact refl s

theorem stepTestN (n : Nat) (s : State) {u : StepperId} (h : but ≠ some u) : Refilled but s (stepTestN n s u) := by
  induction n generalizing s with
  | zero => exact refl s
  | succ n ih =>
    unfold Machine.stepTestN
    split
    · exact refl s
    · split
      · exact (clampTrain s h).trans (ih _)
      · split
        · exact setStepper s h _
        · exact (setStepper s h _).trans (enter _ fun t ht hw => h (by rw [ht, Work.step.inj hw]))

theorem makePullIn (s : State) (c : ChannelId) : Refilled but s (makePullIn s c) :=
  (setChan s c _).trans (enter _ fun _ _ hw => by cases hw)

theorem pullInTest (s : State) (c : ChannelId) : Refilled but s (pullInTest s c) := by
  unfold Machine.pullInTest
  split
  · split
    · exact setChan s c _
    · exact makePullIn s c
  · exact refl s

theorem handoutChannel (s : State) (c : ChannelId) : Refilled but s (handoutChannel s c) := by
  unfold Machine.handoutChannel
  dsimp only
  split
  · split
    · exact (setChan s c _).trans (makePullIn _ c)
    · exact setChan s c _
  · exact refl s

/-- The stepper that is given the place has its due mark on. -/
theorem handoutStepper (s : State) (u : StepperId) : Refilled but s (handoutStepper s u) := by
  unfold Machine.handoutStepper
  split
  · rename_i hplace
    have hdue : (s.stepper u).due = true := (Bool.and_eq_true _ _ ▸ hplace).2
    have tested (b : Option StepperId) (h : b ≠ some u) :
        Refilled b s (Machine.stepTest (s.setStepper u { s.stepper u with due := false }) u) :=
      (setStepper s h _).trans (stepTestN 3 _ h)
    have other (t : StepperId) (hoff : (s.stepper t).due = false) : some t ≠ some u := by
      intro e
      rw [Option.some.inj e, hdue] at hoff
      cases hoff
    exact ⟨fun t _ hoff => (tested (some t) (other t hoff)).due t rfl hoff,
      fun t _ hoff => (tested (some t) (other t hoff)).entries t rfl hoff, (tested none (by simp)).told⟩
  · exact refl s

theorem handout (s : State) : Refilled but s (handout s) := (foldl handoutChannel _ s).trans (foldl handoutStepper _ _)

/-- An entry leaves: its channel keeps no step, and what is entered in its place is no step of the stepper named. -/
theorem removeEntry (s : State) (e : Entry) : Refilled but (dropEntry s e.channel) (removeEntry s e) := by
  have brought (u : State) : Refilled but u (bring u) := ⟨fun _ _ h => h, fun _ _ _ _ he _ => he, fun _ _ _ _ => rfl⟩
  have placed := afterDrop (s := s) e (P := Refilled but (dropEntry s e.channel)) (refl _) (brought _) fun u hu => hu.trans (handout u)
  unfold Machine.removeEntry
  dsimp only
  split
  · exact placed
  all_goals exact placed.trans (pullInTest _ _)

end Refilled

/-! ### The removal of a STEP entry (R58) -/

theorem removeEntry_told (s : State) (e : Entry) (q : Port) {n : FlagName} (hd : n ≠ .trainDone) (hr : n ≠ .trainReload) :
    ((removeEntry s e).latch q).get n.bit = (s.latch q).get n.bit := (Refilled.removeEntry (but := none) s e).told q n hd hr

theorem removeStepEntry_told (s : State) (t : StepperId) (q : Port) {n : FlagName} (hd : n ≠ .trainDone) (hr : n ≠ .trainReload) :
    ((removeStepEntry s t).latch q).get n.bit = (s.latch q).get n.bit := by
  unfold removeStepEntry
  split
  · rfl
  · exact removeEntry_told s _ q hd hr

/-- The stepper has its STEP entries on one channel at most. -/
def StepEntriesOnOneChannel (s : State) (t : StepperId) : Prop :=
  ∀ e ∈ s.arb.waitList, ∀ f ∈ s.arb.waitList, e.work = .step t → f.work = .step t → e.channel = f.channel

theorem removeStepEntry_none_left {s : State} {t : StepperId} (hoff : (s.stepper t).due = false) (hone : StepEntriesOnOneChannel s t) :
    ∀ e ∈ (removeStepEntry s t).arb.waitList, e.work ≠ .step t := by
  unfold removeStepEntry
  split
  · rename_i hnone
    simpa using hnone
  · rename_i o ho
    intro e he hw
    have hleft := (Refilled.removeEntry (but := some t) s o).entries t rfl hoff e he hw
    have hwork : o.work = .step t := by simpa using List.find?_some ho
    obtain ⟨hmem, hne⟩ := List.mem_filter.1 (show e ∈ s.arb.waitList.filter (fun e => e.channel ≠ o.channel) from hleft)
    exact of_decide_eq_true hne (hone e hmem o (List.mem_of_find?_eq_some ho) hw hwork)

/-! ### STOP STEPPER (R119) -/

/-- The stepper once it is stopped with this many steps delivered. -/
def Stepper.stopped (x : Stepper) (n : Nat) : Stepper := { x with
  state := .idle
  last := some ⟨n, .stopped⟩
  due := false
  inDrive := x.inDrive.map fun step => { step with mark := .cleared } }

theorem stopStepper_eq {s : State} {t : StepperId} {n : Nat} (h : (s.stepper t).state.delivered = some n) : stopStepper s t =
    setFlagPorts (removeStepEntry (s.setStepper t ((s.stepper t).stopped n)) t) (s.stepper t).state.told .trainStopped (some t.val) := by
  simp only [stopStepper, Stepper.completed, h]
  rfl

theorem stopStepper_stepper {s : State} {t : StepperId} {n : Nat} (h : (s.stepper t).state.delivered = some n) :
    (stopStepper s t).stepper t = (s.stepper t).stopped n := by
  rw [stopStepper_eq h, setFlagPorts_stepper, removeStepEntry_stepper] <;> rw [State.stepper_setStepper_self]
  rfl

theorem stopStepper_told {s : State} {t : StepperId} {n : Nat} (h : (s.stepper t).state.delivered = some n) (q : Port) :
    ((stopStepper s t).latch q).get FlagName.trainStopped.bit =
      if (s.stepper t).state.told.has q = true then raiseFlag ((s.latch q).get FlagName.trainStopped.bit) (some t.val) none
      else (s.latch q).get FlagName.trainStopped.bit := by
  rw [stopStepper_eq h, setFlagPorts_get_self, removeStepEntry_told _ _ _ (by decide) (by decide)]
  rfl

theorem stopStepper_none_left {s : State} {t : StepperId} {n : Nat} (h : (s.stepper t).state.delivered = some n)
    (hone : StepEntriesOnOneChannel s t) : ∀ e ∈ (stopStepper s t).arb.waitList, e.work ≠ .step t := by
  rw [stopStepper_eq h, setFlagPorts_arb]
  refine removeStepEntry_none_left ?_ hone
  rw [State.stepper_setStepper_self]
  rfl

theorem stopStepperRequest_of_range {x : Byte} {s : State} (h : 15 < x.toNat) : stopStepperRequest [x] s = .refuse s .range := by
  rw [stopStepperRequest, u8_zero, index_none h]

theorem stopStepperRequest_resting {t : StepperId} {s : State} (h : (s.stepper t).state.delivered = none) :
    stopStepperRequest [byte t.val] s = .okWith s (be16 0) := by
  rw [stopStepperRequest, u8_zero, index_byte (by decide)]
  simp only [h]

theorem stopStepperRequest_moving {t : StepperId} {s : State} {n : Nat} (h : (s.stepper t).state.delivered = some n) :
    stopStepperRequest [byte t.val] s = .okWith (settle (stopStepper s t)) (be16 n) := by
  rw [stopStepperRequest, u8_zero, index_byte (by decide)]
  simp only [h]

/-! ### SET POSITION (R122) -/

theorem setPositionRequest_eq (x y : Byte) (s : State) : setPositionRequest [x, y] s =
    match index 16 x.toNat with
    | none => .refuse s .range
    | some t =>
      if (s.stepper t).cfg.up = none then .refuse s .refused
      else if y ≠ 0xFF#8 ∧ (s.stepper t).cfg.positions ≤ y.toNat then .refuse s .range
      else if (s.stepper t).state ≠ .idle then .refuse s .busy
      else .done (s.setStepper t { s.stepper t with position := if y = 0xFF#8 then none else some y.toNat, mismatch := 0 }) := by
  have habsent : y.toNat = 0xFF ↔ y = 0xFF#8 := by rw [toNat_eq_iff_byte]; exact and_iff_left (by omega)
  rw [setPositionRequest, u8_zero, u8_succ, u8_zero]
  cases index 16 x.toNat with
  | none => rfl
  | some t =>
    simp only [habsent, Option.isNone_iff_eq_none, Bool.and_eq_true, Bool.not_eq_true', decide_eq_false_iff_not, decide_eq_true_eq]

/-- Settles O46: a stop by what the stepper delivered, its removal of the STEP entry and its reports; SET POSITION by its checks. -/
theorem stopStepperAndSetPosition : Obligations.StopStepperAndSetPosition := by
  unfold Obligations.StopStepperAndSetPosition
  refine ⟨fun p t s h => ⟨fun hrest => ?resting, fun n hn => ⟨?moving, stopStepper_stepper (s := take s p) hn,
      stopStepper_told (s := take s p) hn⟩, ?running, ?homing⟩, fun t n s hn => ⟨stopStepper_eq hn, stopStepper_none_left hn⟩,
    ⟨fun _ => rfl, fun _ _ => rfl, fun _ _ => rfl, PortSet.has_union⟩, fun p x s h hx => ?range, fun p x y s h => ?position⟩
  case resting =>
    have hnone : ((take s p).stepper t).state.delivered = none := by
      obtain hs | hs := hrest <;> exact congrArg StepState.delivered hs
    rw [exec_ready h rfl rfl, ownRules, stopStepperRequest_resting hnone]
    rfl
  case moving =>
    rw [exec_ready h rfl rfl, ownRules, stopStepperRequest_moving (s := take s p) hn]
    rfl
  case running =>
    intro run next hs
    rw [hs]
    rfl
  case homing =>
    intro origin steps hs
    rw [hs]
    rfl
  case range =>
    rw [exec_ready h rfl rfl, ownRules, stopStepperRequest_of_range hx]
    rfl
  case position =>
    rw [exec_ready h rfl rfl, ownRules, setPositionRequest_eq]
    cases index 16 x.toNat with
    | none => rfl
    | some t =>
      simp only [apply_ite (reply p 0x12#8)]
      rfl

end Sys2Proof.Machine
end

section
/-! HOME (R120): its refusals, what was running is stopped, and home found at once or the homing begun. -/

namespace Sys2Proof.Machine

/-! ### Units at rest -/

theorem drivingOrRecovering_iff (s : State) (c : ChannelId) : drivingOrRecovering s (some c) = true ↔
    (∃ kind w left, (s.chan c).state = .drive kind w left) ∨ ∃ left after, (s.chan c).state = .recover left after := by
  unfold drivingOrRecovering
  dsimp only
  cases (s.chan c).state <;> simp

theorem atHome_eq {s : State} {t : StepperId} {w : SwitchId} (h : (s.stepper t).cfg.home = some w) :
    atHome s t = (s.input w).closed := by
  simp only [atHome, h]
  rfl

/-! ### The homing begun (R120, R121) -/

/-- The stepper at home, found after no step. -/
def Stepper.foundHome (x : Stepper) : Stepper :=
  { x with position := some x.cfg.homePos, mismatch := 0, state := .idle, last := some ⟨0, .done⟩ }

/-- The stepper at the start of a homing that the port asked for. -/
def Stepper.startsHoming (x : Stepper) (p : Port) : Stepper :=
  { x with position := none, state := .homing (PortSet.empty.add p) 0 }

theorem beginHoming_eq (p : Port) {s : State} {t : StepperId} {w : SwitchId} (h : (s.stepper t).cfg.home = some w) :
    beginHoming p s t =
      if drivingOrRecovering s (s.stepper t).cfg.up = false ∧ drivingOrRecovering s (s.stepper t).cfg.down = false ∧
          (s.input w).closed = true then
        (setFlagPorts (s.setStepper t (s.stepper t).foundHome) (PortSet.empty.add p) .trainDone (some t.val), true)
      else (stepTest (s.setStepper t ((s.stepper t).startsHoming p)) t, false) := by
  refine if_congr ?_ rfl rfl
  rw [Bool.and_eq_true, Bool.and_eq_true, Bool.not_eq_true', Bool.not_eq_true', atHome_eq h, and_assoc]

/-! ### The request -/

theorem homingChannel_none {r : StepperRecord} (h : r.up = none ∨ r.home = none ∨ (if r.kind = .wrap then r.up else r.down) = none) :
    r.homingChannel = none := by
  obtain ⟨kind, positions, up, down, home, homePos, spacing, carry⟩ := r
  cases kind <;> cases up <;> cases home <;> simp_all [StepperRecord.homingChannel, StepperRecord.channelFor, StepperRecord.homeDir]

theorem homingChannel_some {r : StepperRecord} {c : ChannelId} {w : SwitchId} (hup : r.up ≠ none) (hhome : r.home = some w)
    (hc : (if r.kind = .wrap then r.up else r.down) = some c) : r.homingChannel = some c := by
  obtain ⟨kind, positions, up, down, home, homePos, spacing, carry⟩ := r
  cases kind <;> simp_all [StepperRecord.homingChannel, StepperRecord.channelFor, StepperRecord.homeDir]

theorem homeRequest_of_range {p : Port} {x : Byte} {s : State} (h : 15 < x.toNat) : homeRequest p [x] s = .refuse s .range := by
  rw [homeRequest, u8_zero, index_none h]

theorem homeRequest_unhomed {p : Port} {t : StepperId} {s : State} (h : (s.stepper t).cfg.homingChannel = none) :
    homeRequest p [byte t.val] s = .refuse s .refused := by
  rw [homeRequest, u8_zero, index_byte (by decide)]
  simp only [h]

theorem homeRequest_eq {p : Port} {t : StepperId} {s : State} {c : ChannelId} (h : (s.stepper t).cfg.homingChannel = some c) :
    homeRequest p [byte t.val] s =
      if (s.chan c).state = .disabled then .refuse s .refused
      else if (s.stepper t).state.isHoming then .refuse s .busy
      else .okWith (settle (home p s t).1) [if (home p s t).2 then 0#8 else 1#8] := by
  rw [homeRequest, u8_zero, index_byte (by decide)]
  simp only [h]

/-- An accepted HOME of a stepper that rests: there is nothing to stop. -/
theorem home_resting (p : Port) {s : State} {t : StepperId} (h : (s.stepper t).state = .idle ∨ (s.stepper t).state = .faulted) :
    home p s t = beginHoming p (removeStepEntry (s.setStepper t { s.stepper t with due := false }) t) t := by
  have hstop : stopRunning s t = s := by obtain h | h := h <;> simp only [stopRunning, h]
  rw [home, hstop]

theorem home_running (p : Port) {s : State} {t : StepperId} (h : (s.stepper t).state.isRunning = true) :
    let v := stopStepper s t
    home p s t = beginHoming p (removeStepEntry (v.setStepper t { v.stepper t with due := false }) t) t := by
  have hstop : stopRunning s t = stopStepper s t := by
    unfold stopRunning
    split
    · rfl
    all_goals rename_i hs; rw [hs] at h; cases h
  rw [home, hstop]

theorem removeStepEntry_of_none {s : State} {t : StepperId} (h : ∀ e ∈ s.arb.waitList, e.work ≠ .step t) : removeStepEntry s t = s := by
  have hnone : s.arb.waitList.find? (fun e => e.work = .step t) = none := by simpa using h
  rw [removeStepEntry, hnone]

/-- HOME of a stepper that rests, with no STEP entry in the list: found at its closed switch, or a homing begun. -/
theorem home_resting_alone (p : Port) {s : State} {t : StepperId} {w : SwitchId} (hw : (s.stepper t).cfg.home = some w)
    (h : (s.stepper t).state = .idle ∨ (s.stepper t).state = .faulted) (hentry : hasStepEntry s t = false) :
    home p s t =
      if drivingOrRecovering s (s.stepper t).cfg.up = false ∧ drivingOrRecovering s (s.stepper t).cfg.down = false ∧
          (s.input w).closed = true then
        (setFlagPorts (s.setStepper t { (s.stepper t).foundHome with due := false }) (PortSet.empty.add p) .trainDone (some t.val), true)
      else (stepTest (s.setStepper t { (s.stepper t).startsHoming p with due := false }) t, false) := by
  have hnone : ∀ e ∈ s.arb.waitList, e.work ≠ .step t := by simpa [hasStepEntry] using hentry
  have hrecord : ((s.setStepper t { s.stepper t with due := false }).stepper t) = { s.stepper t with due := false } :=
    State.stepper_setStepper_self ..
  rw [home_resting p h, removeStepEntry_of_none (s := s.setStepper t _) hnone,
    beginHoming_eq p (w := w) (by rw [hrecord]; exact hw), hrecord, State.setStepper_setStepper, State.setStepper_setStepper]
  rfl

/-- Settles O47: HOME's refusals, and the homing by what the stepper was at and by its home switch. -/
theorem homeFindsOrBeginsHoming : Obligations.HomeFindsOrBeginsHoming := by
  unfold Obligations.HomeFindsOrBeginsHoming
  refine ⟨fun p x s h hx => ?range, fun p t s h => ⟨fun hnone => ?unhomed, fun c w hup hhome hc => ?homed, fun w v => beginHoming_eq p,
    fun _ => rfl, drivingOrRecovering_iff⟩⟩
  case range => rw [exec_ready h rfl rfl, ownRules, homeRequest_of_range hx]; rfl
  case unhomed =>
    rw [exec_ready h rfl rfl, ownRules, homeRequest_unhomed (s := take s p) (homingChannel_none hnone)]
    rfl
  case homed =>
    have hexec : exec (.home p [byte t.val]) s = .next (reply p 0x11#8 (homeRequest p [byte t.val] (take s p))) := exec_ready h rfl rfl
    rw [homeRequest_eq (s := take s p) (homingChannel_some hup hhome hc)] at hexec
    have resting (hs : (s.stepper t).state = .idle ∨ (s.stepper t).state = .faulted) : (s.stepper t).state.isHoming = false := by
      obtain hs | hs := hs <;> rw [hs] <;> rfl
    have accepted (hd : (s.chan c).state ≠ .disabled) (hh : (s.stepper t).state.isHoming = false) :
        exec (.home p [byte t.val]) s =
          .next (okTo p 0x11#8 (settle (home p (take s p) t).1) [if (home p (take s p) t).2 then 0#8 else 1#8]) := by
      rw [hexec, if_neg (show ((take s p).chan c).state ≠ .disabled from hd),
        if_neg (show ¬((take s p).stepper t).state.isHoming = true from ne_true_of_eq_false hh)]
      rfl
    refine ⟨fun hd => ?disabled, fun hd hh => ?busy, fun hd hrun v hv => ?running, fun hd hs he hup hdown hw => ?found,
      fun hd hs he hnot => ?begun, fun hd hs => ?resting⟩
    case disabled => rw [hexec, if_pos (show ((take s p).chan c).state = .disabled from hd)]; rfl
    case busy =>
      rw [hexec, if_neg (show ((take s p).chan c).state ≠ .disabled from hd),
        if_pos (show ((take s p).stepper t).state.isHoming = true from hh)]
      rfl
    case running =>
      have hh : (s.stepper t).state.isHoming = false := by
        cases hs : (s.stepper t).state <;> simp_all [StepState.isRunning, StepState.isHoming]
      rw [accepted hd hh, home_running p (s := take s p) hrun, hv]
    case found =>
      rw [accepted hd (resting hs), home_resting_alone p (s := take s p) hhome hs he, if_pos ⟨hup, hdown, hw⟩]
      rfl
    case begun =>
      rw [accepted hd (resting hs), home_resting_alone p (s := take s p) hhome hs he, if_neg]
      · rfl
      · rintro ⟨hup, hdown, hw⟩
        obtain h | h | h := hnot
        · exact absurd (h.symm.trans hup) (by decide)
        · exact absurd (h.symm.trans hdown) (by decide)
        · exact absurd (h.symm.trans hw) (by decide)
    case resting => rw [accepted hd (resting hs), home_resting p (s := take s p) hs]; rfl

end Sys2Proof.Machine
end

section
/-! CONFIGURE STEPPER (R124) and CONFIGURE BANK (R126): the records byte by byte, the names and roles that fit, and the carries that join a
bank's reels. -/

namespace Sys2Proof.Machine

/-! ### The stepper record of a body (Table 7-1) -/

theorem toNat_pair_eq_iff {x y : Byte} {n : Nat} :
    x.toNat * 256 + y.toNat = n ↔ x = byte (n / 256) ∧ y = byte n ∧ n ≤ 65535 := by
  constructor
  · rintro rfl
    refine ⟨?_, ?_, by omega⟩
    · rw [show (x.toNat * 256 + y.toNat) / 256 = x.toNat by omega, byte_toNat]
    · apply BitVec.eq_of_toNat_eq
      rw [byte, BitVec.toNat_ofNat]
      omega
  · rintro ⟨rfl, rfl, hn⟩
    rw [byte, byte, BitVec.toNat_ofNat, BitVec.toNat_ofNat]
    omega

theorem stepperRecordOf_iff (b : List Byte) (r : StepperRecord) : stepperRecordOf b = some r ↔
    stepperKindOf (u8 b 1) = some r.kind ∧ indexOrNone 48 (u8 b 3) = some r.up ∧ indexOrNone 48 (u8 b 4) = some r.down ∧
      indexOrNone 32 (u8 b 5) = some r.home ∧ indexOrNone 16 (u8 b 9) = some r.carry ∧
      u8 b 2 = r.positions ∧ u8 b 6 = r.homePos ∧ u16 b 7 = r.spacing ∧
      2 ≤ r.positions ∧ r.positions ≤ 32 ∧ r.homePos < r.positions ∧ 20 ≤ r.spacing ∧ r.spacing ≤ 1000 := by
  obtain ⟨kind, positions, up, down, home, homePos, spacing, carry⟩ := r
  unfold stepperRecordOf
  split
  · rename_i hkind hup hdown hhome hcarry
    simp only [hkind, hup, hdown, hhome, hcarry, Bool.and_eq_true, decide_eq_true_eq, Option.ite_none_right_eq_some,
      Option.some.injEq, StepperRecord.mk.injEq]
    constructor
    · rintro ⟨⟨⟨⟨⟨h2, h32⟩, hpos⟩, h20⟩, h1000⟩, rfl, rfl, rfl, rfl, rfl, rfl, rfl, rfl⟩
      exact ⟨rfl, rfl, rfl, rfl, rfl, rfl, rfl, rfl, h2, h32, hpos, h20, h1000⟩
    · rintro ⟨rfl, rfl, rfl, rfl, rfl, rfl, rfl, rfl, h2, h32, hpos, h20, h1000⟩
      exact ⟨⟨⟨⟨⟨h2, h32⟩, hpos⟩, h20⟩, h1000⟩, rfl, rfl, rfl, rfl, rfl, rfl, rfl, rfl⟩
  · rename_i hnone
    refine iff_of_false (by simp) ?_
    rintro ⟨hkind, hup, hdown, hhome, hcarry, -⟩
    exact hnone _ _ _ _ _ hkind hup hdown hhome hcarry

theorem stepperRecordOf_bytes {body : List Byte} (h : body.length = 10) (r : StepperRecord) : stepperRecordOf body = some r ↔
    body.drop 1 = [byte r.kind.code, byte r.positions, indexByte r.up, indexByte r.down, indexByte r.home, byte r.homePos] ++
      be16 r.spacing ++ [indexByte r.carry] ∧
    2 ≤ r.positions ∧ r.positions ≤ 32 ∧ r.homePos < r.positions ∧ 20 ≤ r.spacing ∧ r.spacing ≤ 1000 := by
  match body, h with
  | [_, b1, b2, b3, b4, b5, b6, b7, b8, b9], _ =>
    simp only [stepperRecordOf_iff, u16, u8_succ, u8_zero, stepperKindOf_toNat_iff, indexOrNone_toNat_iff (show 48 ≤ 255 by omega),
      indexOrNone_toNat_iff (show 32 ≤ 255 by omega), indexOrNone_toNat_iff (show 16 ≤ 255 by omega), toNat_eq_iff_byte,
      toNat_pair_eq_iff, be16, List.cons_append, List.nil_append, List.drop_succ_cons, List.drop_zero, List.cons.injEq]
    constructor
    · rintro ⟨h1, h3, h4, h5, h9, ⟨h2, -⟩, ⟨h6, -⟩, ⟨h7, h8, -⟩, hrange⟩
      exact ⟨⟨h1, h2, h3, h4, h5, h6, h7, h8, h9, trivial⟩, hrange⟩
    · rintro ⟨⟨h1, h2, h3, h4, h5, h6, h7, h8, h9, -⟩, hrange⟩
      exact ⟨h1, h3, h4, h5, h9, ⟨h2, by omega⟩, ⟨h6, by omega⟩, ⟨h7, h8, by omega⟩, hrange⟩

/-! ### The reels of a body (R126) -/

theorem mapM_index_iff (bytes : List Byte) (reels : List StepperId) :
    bytes.mapM (fun x => index 16 x.toNat) = some reels ↔ bytes = reels.map fun t => byte t.val := by
  induction bytes generalizing reels with
  | nil =>
    rw [List.mapM_nil]
    cases reels <;> simp
  | cons x bytes ih =>
    cases reels with
    | nil => simp [List.mapM_cons, Option.bind_eq_some_iff]
    | cons t reels =>
      simp only [List.mapM_cons, Option.bind_eq_bind, Option.bind_eq_some_iff, Option.pure_def, Option.some.injEq, List.cons.injEq,
        List.map_cons, index_toNat_iff (show 16 ≤ 256 by omega), ih]
      constructor
      · rintro ⟨_, hx, _, hbytes, rfl, rfl⟩
        exact ⟨hx, hbytes⟩
      · rintro ⟨hx, hbytes⟩
        exact ⟨t, hx, reels, hbytes, rfl, rfl⟩

theorem map_getD_range (b : List Byte) {k n : Nat} (h : k + n ≤ b.length) :
    (List.range n).map (fun i => b.getD (k + i) 0#8) = (b.drop k).take n := by
  apply List.ext_getElem
  · simp; omega
  · intro i hi _
    have hn : i < n := by simpa using hi
    simp [List.getElem?_eq_getElem (show k + i < b.length by omega)]

theorem reelsOf_bytes {body : List Byte} (h : body.length = 7) (reels : List StepperId) : reelsOf body = some reels ↔
    reels.length ≤ 5 ∧ body.getD 1 0#8 = byte reels.length ∧ (body.drop 2).take reels.length = reels.map fun t => byte t.val := by
  have hread (n : Nat) (hn : n ≤ 5) : ((List.range n).mapM fun i => index 16 (u8 body (2 + i))) = some reels ↔
      (body.drop 2).take n = reels.map fun t => byte t.val := by
    rw [← mapM_index_iff, ← map_getD_range body (by omega), List.mapM_map]
    rfl
  have hlength (n : Nat) (hn : n ≤ 5) (he : (body.drop 2).take n = reels.map fun t => byte t.val) : n = reels.length := by
    have := congrArg List.length he
    simp only [List.length_take, List.length_drop, List.length_map] at this
    omega
  unfold reelsOf
  constructor
  · intro he
    split at he
    · rename_i hn
      have hbytes := (hread _ hn).1 he
      have hcount := hlength _ hn hbytes
      refine ⟨hcount ▸ hn, (toNat_eq_iff_byte.1 hcount).1, hcount ▸ hbytes⟩
    · cases he
  · rintro ⟨hn, hcount, hbytes⟩
    have hu : u8 body 1 = reels.length := toNat_eq_iff_byte.2 ⟨hcount, by omega⟩
    rw [hu, if_pos hn]
    exact (hread _ hn).2 hbytes

/-! ### Names and roles that fit (R107, R124, R126) -/

theorem StepperRecord.isWrap_iff (r : StepperRecord) : r.isWrap = true ↔ r.up ≠ none ∧ r.kind = .wrap := by
  simp [StepperRecord.isWrap, Option.isSome_iff_ne_none]

theorem StepperRecord.isReel_iff (r : StepperRecord) : r.isReel = true ↔ r.up ≠ none ∧ r.kind = .wrap ∧ r.positions = 10 := by
  rw [StepperRecord.isReel, Bool.and_eq_true, isWrap_iff, decide_eq_true_iff, and_assoc]

theorem channelForStepper_iff (s : State) (t : StepperId) (o : Option ChannelId) : channelForStepper s t o = true ↔
    ∀ c, o = some c → (s.chan c).coil.cls = .stepper ∧
      ∀ u, u ≠ t → (s.stepper u).cfg.up ≠ some c ∧ (s.stepper u).cfg.down ≠ some c := by
  have unnamed (u : StepperId) (c : ChannelId) : (s.stepper u).cfg.names c = false ↔
      (s.stepper u).cfg.up ≠ some c ∧ (s.stepper u).cfg.down ≠ some c := by
    rw [← Bool.not_eq_true, stepperNames_iff, not_or]
  cases o with
  | none => simp [channelForStepper]
  | some c =>
    simp only [channelForStepper, allSteppers, Bool.and_eq_true, decide_eq_true_eq, List.all_eq_true, List.mem_finRange,
      true_implies, Bool.or_eq_true, Bool.not_eq_true', unnamed, Option.some.injEq, forall_eq', ← or_iff_not_imp_left, ne_eq]

theorem stepperNamesFit_iff (s : State) (t : StepperId) (r : StepperRecord) : stepperNamesFit s t r = true ↔
    (∀ c, r.up = some c ∨ r.down = some c → (s.chan c).coil.cls = .stepper ∧
      ∀ u, u ≠ t → (s.stepper u).cfg.up ≠ some c ∧ (s.stepper u).cfg.down ≠ some c) ∧
    (r.up ≠ none → r.up ≠ r.down) ∧
    (r.kind = .wrap → r.down = none ∧
      ∀ u, r.carry = some u → t < u ∧ (s.stepper u).cfg.up ≠ none ∧ (s.stepper u).cfg.kind = .wrap) ∧
    (r.kind = .stop → r.carry = none) := by
  have hchannels : (channelForStepper s t r.up && channelForStepper s t r.down) = true ↔
      ∀ c, r.up = some c ∨ r.down = some c → (s.chan c).coil.cls = .stepper ∧
        ∀ u, u ≠ t → (s.stepper u).cfg.up ≠ some c ∧ (s.stepper u).cfg.down ≠ some c := by
    rw [Bool.and_eq_true, channelForStepper_iff, channelForStepper_iff, ← forall_and]
    simp only [or_imp]
  have hdistinct : (r.up.isNone || r.up ≠ r.down) = true ↔ (r.up ≠ none → r.up ≠ r.down) := by
    rw [Bool.or_eq_true, Option.isNone_iff_eq_none, decide_eq_true_iff, or_iff_not_imp_left]
  unfold stepperNamesFit
  rw [Bool.and_eq_true, Bool.and_eq_true, hchannels, hdistinct, and_assoc]
  refine and_congr_right fun _ => and_congr_right fun _ => ?_
  cases hk : r.kind with
  | wrap =>
    simp only [true_implies, reduceCtorEq, false_implies, and_true]
    rw [Bool.and_eq_true, Option.isNone_iff_eq_none]
    refine and_congr_right fun _ => ?_
    cases r.carry <;> simp [StepperRecord.isWrap_iff]
  | stop => simp

theorem stepperRoleKept_iff (s : State) (t : StepperId) (r : StepperRecord) : stepperRoleKept s t r = true ↔
    ((∃ n, t ∈ s.bank n) → r.up ≠ none ∧ r.kind = .wrap ∧ r.positions = 10) ∧
    ((∃ u, u ≠ t ∧ (s.stepper u).cfg.carry = some t) → r.up ≠ none ∧ r.kind = .wrap) := by
  have hcarried : (allSteppers.all fun u => u = t || (s.stepper u).cfg.carry ≠ some t) = true ↔
      ¬∃ u, u ≠ t ∧ (s.stepper u).cfg.carry = some t := by
    simp [allSteppers, or_iff_not_imp_left]
  rw [← StepperRecord.isReel_iff, ← StepperRecord.isWrap_iff, ← RecordsJoined.isBankReel_iff, stepperRoleKept, Bool.and_eq_true]
  refine and_congr (by cases isBankReel s t <;> simp) ?_
  rw [Bool.or_eq_true, hcarried, or_iff_not_imp_left, not_not]

theorem reelForBank_spec (s : State) (n : BankId) (t : StepperId) : reelForBank s n t = true ↔
    ((s.stepper t).cfg.up ≠ none ∧ (s.stepper t).cfg.kind = .wrap ∧ (s.stepper t).cfg.positions = 10) ∧
      ∀ m, m ≠ n → t ∉ s.bank m := by
  rw [RecordsJoined.reelForBank_iff, StepperRecord.isReel_iff]

theorem ascending_iff : ∀ reels : List StepperId, ascending reels = true ↔ reels.Pairwise (· < ·)
  | [] => by simp [ascending]
  | [t] => by simp [ascending]
  | t :: u :: rest => by
    rw [ascending, Bool.and_eq_true, decide_eq_true_iff, ascending_iff (u :: rest), List.pairwise_cons (a := t)]
    refine ⟨fun ⟨hlt, hrest⟩ => ⟨fun v hv => ?_, hrest⟩, fun ⟨hall, hrest⟩ => ⟨hall u (List.mem_cons_self ..), hrest⟩⟩
    obtain rfl | hv := List.mem_cons.1 hv
    · exact hlt
    · exact hlt.trans ((List.pairwise_cons.1 hrest).1 v hv)

/-! ### The carries of a bank (R126) -/

/-- The stepper with its carry written. -/
def Stepper.carrying (x : Stepper) (target : Option StepperId) : Stepper := { x with cfg := { x.cfg with carry := target } }

theorem setCarry_stepper (s : State) (t : StepperId) (target : Option StepperId) (u : StepperId) :
    (setCarry s t target).stepper u = if u = t then (s.stepper t).carrying target else s.stepper u := by
  unfold setCarry
  split
  · rename_i e
    rw [e]
    exact State.stepper_setStepper_self ..
  · exact State.stepper_setStepper_ne _ _ _ _ ‹_›

theorem clearCarries_stepper (l : List StepperId) (s : State) (t : StepperId) :
    (l.foldl (fun u v => setCarry u v none) s).stepper t = if t ∈ l then (s.stepper t).carrying none else s.stepper t := by
  induction l generalizing s with
  | nil => simp
  | cons v l ih =>
    rw [List.foldl_cons, ih, setCarry_stepper]
    by_cases hv : t = v
    · subst hv
      simp [Stepper.carrying]
    · simp [hv]

/-- Each reel carries to the one after it. -/
theorem joinReels_stepper : ∀ (reels : List StepperId) (s : State), reels.Nodup → ∀ t, (joinReels reels s).stepper t =
    if t ∈ reels then (s.stepper t).carrying reels[reels.idxOf t + 1]? else s.stepper t
  | [], _, _, _ => rfl
  | [v], s, _, t => by
    rw [joinReels, setCarry_stepper]
    by_cases h : t = v
    · subst h
      simp
    · simp [h]
  | v :: w :: rest, s, hnodup, t => by
    obtain ⟨hv, hrest⟩ := List.nodup_cons.1 hnodup
    rw [joinReels, joinReels_stepper (w :: rest) _ hrest, setCarry_stepper]
    by_cases h : t = v
    · subst h
      rw [if_neg hv, if_pos rfl, if_pos (List.mem_cons_self ..), List.idxOf_cons_self]
      rfl
    · rw [if_neg h, List.idxOf_cons_ne _ (Ne.symm h)]
      exact if_congr (List.mem_cons.trans (or_iff_right h)).symm rfl rfl

theorem joinedBank_stepper {reels : List StepperId} (old : List StepperId) (s : State) (hasc : ascending reels = true) (t : StepperId) :
    (joinReels reels (old.foldl (fun u v => setCarry u v none) s)).stepper t = (s.stepper t).carrying
      (if t ∈ reels then reels[reels.idxOf t + 1]? else if t ∈ old then none else (s.stepper t).cfg.carry) := by
  have hnodup : reels.Nodup := ((ascending_iff reels).1 hasc).imp fun h => ne_of_lt h
  rw [joinReels_stepper reels _ hnodup, clearCarries_stepper]
  split_ifs <;> rfl

/-! ### The requests -/

theorem configureStepperRequest_eq {body : List Byte} {t : StepperId} {r : StepperRecord} (s : State)
    (ht : index 16 (u8 body 0) = some t) (hr : stepperRecordOf body = some r) :
    configureStepperRequest body s =
      if s.store.save.isSome then .refuse s .busy
      else if (s.stepper t).state.isRunning = true ∨ (s.stepper t).state.isHoming = true ∨ hasStepEntry s t = true ∨
        stepInDrive s t = true then .refuse s .busy
      else if stepperNamesFit s t r = false ∨ stepperRoleKept s t r = false then .refuse s .refused
      else .done (s.setStepper t { Stepper.reset with
        cfg := if isBankReel s t then { r with carry := (s.stepper t).cfg.carry } else r }) := by
  simp only [configureStepperRequest, ht, hr, Bool.or_eq_true, or_assoc, Bool.not_eq_true']
  refine if_congr Iff.rfl rfl (if_congr Iff.rfl rfl ?_)
  by_cases hnames : stepperNamesFit s t r = false
  · rw [if_pos hnames, if_pos (.inl hnames)]
  · rw [if_neg hnames]
    exact if_congr (or_iff_right hnames).symm rfl rfl

theorem configureBankRequest_eq {body : List Byte} {n : BankId} {reels : List StepperId} (s : State)
    (hn : index 4 (u8 body 0) = some n) (hr : reelsOf body = some reels) :
    configureBankRequest body s =
      if s.store.save.isSome then .refuse s .busy
      else if ascending reels = false ∨ (∃ t ∈ reels, reelForBank s n t = false) then .refuse s .refused
      else if (∃ t ∈ s.bank n ++ reels, (s.stepper t).state.isRunning = true ∨ (s.stepper t).state.isHoming = true) then
        .refuse s .busy
      else .done ((joinReels reels ((s.bank n).foldl (fun u t => setCarry u t none) s)).setBank n reels) := by
  simp only [configureBankRequest, hn, hr, Bool.or_eq_true, Bool.not_eq_true', List.all_eq_false, List.any_eq_true, stepperMoving,
    Bool.not_eq_true]
  rfl

/-- Settles O48: the two decoders byte by byte, the names and roles that fit, the checks in their order, and the carries of a bank. -/
theorem configureStepperAndBank : Obligations.ConfigureStepperAndBank := by
  unfold Obligations.ConfigureStepperAndBank
  refine ⟨fun body r h => stepperRecordOf_bytes h r, fun body reels h => reelsOf_bytes h reels,
    fun s t r => ⟨stepperNamesFit_iff s t r, stepperRoleKept_iff s t r, RecordsJoined.isBankReel_iff⟩, reelForBank_spec,
    ascending_iff, fun p body s h hn => ?stepper, fun p body s h hn => ?bank, fun n reels s hasc => ⟨?own, fun m hm => ?others,
      fun t => joinedBank_stepper (s.bank n) s hasc t⟩⟩
  case stepper =>
    rw [exec_ready h rfl hn, ownRules]
    cases ht : index 16 (u8 body 0) with
    | none => rw [configureStepperRequest, ht]; rfl
    | some t =>
      cases hr : stepperRecordOf body with
      | none => rw [configureStepperRequest, ht, hr]; rfl
      | some r =>
        simp only [configureStepperRequest_eq _ ht hr, apply_ite (reply p 0x14#8)]
        rfl
  case bank =>
    rw [exec_ready h rfl hn, ownRules]
    cases ht : index 4 (u8 body 0) with
    | none => rw [configureBankRequest, ht]; rfl
    | some n =>
      cases hr : reelsOf body with
      | none => rw [configureBankRequest, ht, hr]; rfl
      | some reels =>
        simp only [configureBankRequest_eq _ ht hr, apply_ite (reply p 0x17#8)]
        rfl
  case own => exact Table.get_set_self _ _ _
  case others =>
    refine (Table.get_set_ne _ _ _ _ hm).trans ?_
    exact (RecordsJoined.joinReels_bank reels _ m).trans (RecordsJoined.clearCarries_bank (s.bank n) s m)

end Sys2Proof.Machine
end

section
/-! ADD SCORE (R127) and SPACING_EXPIRY with the step timing test (R111, R112). -/

namespace Sys2Proof.Machine

/-! ### ADD SCORE -/

theorem addDigits_zero (p : Port) {m : Nat} (h : m % 10 = 0) (t : StepperId) (rest : List StepperId) (u : State) :
    addDigits p (t :: rest) m u = ((addDigits p rest (m / 10) u).1, 0#8 :: 0#8 :: (addDigits p rest (m / 10) u).2) := by
  rw [addDigits, if_pos h]

theorem addDigits_digit (p : Port) {m : Nat} (h : m % 10 ≠ 0) (t : StepperId) (rest : List StepperId) (u : State) :
    let o := offerTrain u t .up (m % 10) ⟨PortSet.empty.add p, false⟩ false
    addDigits p (t :: rest) m u = ((addDigits p rest (m / 10) (settle o.1)).1,
      byte o.2.steps :: byte (m % 10 - o.2.steps) :: (addDigits p rest (m / 10) (settle o.1)).2) := by
  rw [addDigits, if_neg h]
  rfl

theorem addScoreRequest_of_range {p : Port} {x a b c : Byte} {s : State} (h : 3 < x.toNat) :
    addScoreRequest p [x, a, b, c] s = .refuse s .range := by
  rw [addScoreRequest, u8_zero, index_none h]

theorem addScoreRequest_bank (p : Port) (n : BankId) (a b c : Byte) (s : State) :
    let v := (a.toNat * 256 + b.toNat) * 256 + c.toNat
    addScoreRequest p [byte n.val, a, b, c] s =
      if s.bank n = [] then .refuse s .refused
      else if v = 0 ∨ 10 ^ (s.bank n).length ≤ v then .refuse s .range
      else if (∃ t ∈ s.bank n, (s.stepper t).state = .faulted) then .refuse s .refused
      else if (∃ t ∈ s.bank n, (s.stepper t).state.isHoming = true) then .refuse s .busy
      else .okWith (addDigits p (s.bank n) v s).1
        ((addDigits p (s.bank n) v s).2 ++ List.replicate (10 - (addDigits p (s.bank n) v s).2.length) 0#8) := by
  rw [addScoreRequest, u8_zero, index_byte (by decide)]
  simp only [Bool.or_eq_true, decide_eq_true_eq, List.any_eq_true]
  rfl

/-- Settles O49: the refusals in their order, and the digits one reel after the other. -/
theorem addScoreGivesEachReelItsDigit : Obligations.AddScoreGivesEachReelItsDigit := by
  unfold Obligations.AddScoreGivesEachReelItsDigit
  refine ⟨fun p x a b c s h hx => ?range, fun p n a b c s h => ⟨?bank, fun t rest m u => ?digits, fun m u => rfl⟩⟩
  case range => rw [exec_ready h rfl rfl, ownRules, addScoreRequest_of_range hx]; rfl
  case bank =>
    rw [exec_ready h rfl rfl, ownRules, addScoreRequest_bank]
    simp only [apply_ite (reply p 0x15#8)]
    rfl
  case digits =>
    split
    · exact addDigits_zero p ‹_› t rest u
    · exact addDigits_digit p ‹_› t rest u

/-! ### The step timing test (R111) -/

theorem stepTest_unready {s : State} {t : StepperId} (h : stepReady s t = none) : stepTest s t = s := by
  simp only [stepTest, stepTestN, h]

section
variable {s : State} {t : StepperId} {c : ChannelId} (h : stepReady s t = some c)
include h

theorem stepTest_enters (hstop : (s.stepper t).atEndStop = false) (room : s.arb.waitList.length < 24) :
    stepTest s t = enterStep s t c := by
  simp only [stepTest, stepTestN, h, hstop, Bool.false_eq_true, if_false, (listFull_false_iff s).2 room]

theorem stepTest_owes (hstop : (s.stepper t).atEndStop = false) (full : 24 ≤ s.arb.waitList.length) :
    stepTest s t = s.setStepper t { s.stepper t with due := true } := by
  simp only [stepTest, stepTestN, h, hstop, Bool.false_eq_true, if_false, (listFull_iff s).2 full, if_true]

theorem stepTestN_clamps (n : Nat) (hstop : (s.stepper t).atEndStop = true) :
    stepTestN (n + 1) s t = stepTestN n (clampTrain s t) t := by
  simp only [stepTestN, h, hstop, if_true]

end

/-! ### The conditions of a step -/

theorem nextDir_iff (x : Stepper) (d : Direction) : x.nextDir = some d ↔
    (∃ train next, x.state = .running train next ∧ train.dir = d) ∨
      ∃ origin steps, x.state = .homing origin steps ∧ steps < x.cfg.positions + 2 ∧ x.cfg.homeDir = d := by
  unfold Stepper.nextDir
  cases x.state <;> simp

theorem channelFor_eq (r : StepperRecord) (d : Direction) : r.channelFor d = if d = .up then r.up else r.down := by
  cases d <;> rfl

theorem channelFor_homeDir (r : StepperRecord) : r.channelFor r.homeDir = if r.kind = .wrap then r.up else r.down := by
  unfold StepperRecord.homeDir
  cases r.kind <;> rfl

/-- The step that the stepper has to make is on this channel. -/
theorem nextChannel_iff (x : Stepper) (c : ChannelId) : (∃ d, x.nextDir = some d ∧ x.cfg.channelFor d = some c) ↔
    (∃ train next, x.state = .running train next ∧ (if train.dir = .up then x.cfg.up else x.cfg.down) = some c) ∨
      ∃ origin steps, x.state = .homing origin steps ∧ steps < x.cfg.positions + 2 ∧
        (if x.cfg.kind = .wrap then x.cfg.up else x.cfg.down) = some c := by
  simp only [nextDir_iff, ← channelFor_homeDir, ← channelFor_eq]
  constructor
  · rintro ⟨d, ⟨train, next, hs, rfl⟩ | ⟨origin, steps, hs, hlt, rfl⟩, hc⟩
    · exact .inl ⟨train, next, hs, hc⟩
    · exact .inr ⟨origin, steps, hs, hlt, hc⟩
  · rintro (⟨train, next, hs, hc⟩ | ⟨origin, steps, hs, hlt, hc⟩)
    · exact ⟨_, .inl ⟨train, next, hs, rfl⟩, hc⟩
    · exact ⟨_, .inr ⟨origin, steps, hs, hlt, rfl⟩, hc⟩

theorem stepInDrive_false_iff (s : State) (t : StepperId) : stepInDrive s t = false ↔ (s.stepper t).inDrive = none ∧
    ∀ d, ((s.stepper t).cfg.up = some d ∨ (s.stepper t).cfg.down = some d) → ∀ kind w left, (s.chan d).state ≠ .drive kind w left := by
  rw [← Bool.not_eq_true, stepInDrive_iff]
  simp only [not_or, not_exists, not_and, ne_eq, not_not]

theorem stepReady_iff (s : State) (t : StepperId) (c : ChannelId) : stepReady s t = some c ↔
    (∃ d, (s.stepper t).nextDir = some d ∧ (s.stepper t).cfg.channelFor d = some c) ∧
      s.supply.state = .up ∧ (s.chan c).state = .idle ∧ (s.chan c).heat.thermal ≠ .cutoff ∧ (s.stepper t).inDrive = none ∧
      (∀ d, ((s.stepper t).cfg.up = some d ∨ (s.stepper t).cfg.down = some d) →
        ∀ kind w left, (s.chan d).state ≠ .drive kind w left) ∧
      (s.stepper t).spacing = none ∧ (∀ e ∈ s.arb.waitList, e.work ≠ .step t) ∧ entryOf s c = none ∧ (s.stepper t).due = false := by
  have conditions (d : ChannelId) : (s.isUp && (s.chan d).state = .idle && !inCutoff s d && !stepInDrive s t &&
        (s.stepper t).spacing.isNone && !hasStepEntry s t && (entryOf s d).isNone && !(s.stepper t).due) = true ↔
      s.supply.state = .up ∧ (s.chan d).state = .idle ∧ (s.chan d).heat.thermal ≠ .cutoff ∧
        ((s.stepper t).inDrive = none ∧ ∀ o, ((s.stepper t).cfg.up = some o ∨ (s.stepper t).cfg.down = some o) →
          ∀ kind w left, (s.chan o).state ≠ .drive kind w left) ∧
        (s.stepper t).spacing = none ∧ (∀ e ∈ s.arb.waitList, e.work ≠ .step t) ∧ entryOf s d = none ∧ (s.stepper t).due = false := by
    rw [← stepInDrive_false_iff]
    simp [State.isUp, inCutoff, hasStepEntry, and_assoc]
  unfold stepReady
  dsimp only
  cases hd : (s.stepper t).nextDir with
  | none => simp
  | some d =>
    cases hc : (s.stepper t).cfg.channelFor d with
    | none => simp [hc]
    | some o =>
      simp only [Option.some.injEq, exists_eq_left', hc, Option.ite_none_right_eq_some, conditions, and_assoc]
      constructor
      · rintro ⟨h1, h2, h3, h4, h5, h6, h7, h8, h9, rfl⟩
        exact ⟨rfl, h1, h2, h3, h4, h5, h6, h7, h8, h9⟩
      · rintro ⟨rfl, h1, h2, h3, h4, h5, h6, h7, h8, h9⟩
        exact ⟨h1, h2, h3, h4, h5, h6, h7, h8, h9, rfl⟩

theorem atEndStop_iff (x : Stepper) : x.atEndStop = true ↔ x.cfg.kind = .stop ∧ ∃ train next pos, x.state = .running train next ∧
    x.position = some pos ∧ (train.dir = .up ∧ pos + 1 = x.cfg.positions ∨ train.dir = .down ∧ pos = 0) := by
  unfold Stepper.atEndStop
  split
  · rename_i train next pos hkind hs hpos
    cases hdir : train.dir <;> simp [hkind, hs, hpos, hdir]
  · rename_i hnot
    refine iff_of_false (by decide) ?_
    rintro ⟨hkind, train, next, pos, hs, hpos, -⟩
    exact hnot train next pos hkind hs hpos

/-! ### SPACING_EXPIRY -/

theorem spacingExpiry_due {s : State} {t : StepperId} (h : (s.stepper t).spacing = some 0) :
    spacingExpiry t s = settle (stepTest (s.setStepper t { s.stepper t with spacing := none }) t) := if_pos (decide_eq_true h)

theorem spacingExpiry_early {s : State} {t : StepperId} (h : (s.stepper t).spacing ≠ some 0) : spacingExpiry t s = s :=
  if_neg fun e => h (of_decide_eq_true e)

/-! ### The clamp (R112, R115) -/

theorem stepTestN_clampTrain_last (n : Nat) {s : State} {t : StepperId} {train : Train} (h : (s.stepper t).state = .running train none) :
    stepTestN n (clampTrain s t) t = clampTrain s t := by
  refine stepTestN_idle n ?_
  rw [clampTrain_last h, setFlagPorts_stepper, State.stepper_setStepper_self]

/-- Once no train waits, one clamp ends the test: the depth beyond it changes nothing. -/
theorem stepTestN_depth {s : State} {t : StepperId} {train : Train} (h : (s.stepper t).state = .running train none) (n m : Nat) :
    stepTestN (n + 1) s t = stepTestN (m + 1) s t := by
  rw [stepTestN, stepTestN, stepTestN_clampTrain_last n h, stepTestN_clampTrain_last m h]

/-- Settles O50: the timer, the conditions of R111, the entry or the due mark, and the clamp at an end stop. -/
theorem spacingExpiryTestsTheNextStep : Obligations.SpacingExpiryTestsTheNextStep := by
  unfold Obligations.SpacingExpiryTestsTheNextStep
  intro t s x
  refine ⟨fun h => congrArg Host.Outcome.next (spacingExpiry_due h), fun h => congrArg Host.Outcome.next (spacingExpiry_early h),
    stepTest_unready, fun c h hstop room => stepTest_enters h hstop room, fun c h hstop full => stepTest_owes h hstop full,
    fun c => ?ready, atEndStop_iff x, fun c train h hstop hs => ?done, fun c train next h hstop hs => ?reload⟩
  case ready => rw [stepReady_iff, nextChannel_iff]
  case done =>
    rw [stepTest, stepTestN_clamps h 2 hstop, stepTestN_clampTrain_last 2 hs]
    exact clampTrain_last hs
  case reload =>
    have hnext : ((clampTrain s t).stepper t).state = .running { next with delivered := 0 } none := by
      rw [clampTrain_reload hs, setFlagPorts_stepper, State.stepper_setStepper_self]
    rw [stepTest, stepTestN_clamps h 2 hstop, stepTestN_depth hnext 1 2, clampTrain_reload hs]
    rfl

end Sys2Proof.Machine
end

section
/-! The drive end of a step at its stepper (R113, R115, R116). -/

namespace Sys2Proof.Machine

/-! ### The end of a train, a wrap and a bank's top reel -/

theorem endTrain_last {s : State} {t : StepperId} {train : Train} (h : (s.stepper t).state = .running train none) :
    endTrain s t = setFlagPorts (s.setStepper t { s.stepper t with last := some ⟨train.delivered, .done⟩, state := .idle })
      train.origin.ports .trainDone (some t.val) := by
  simp only [endTrain, h]

theorem endTrain_reload {s : State} {t : StepperId} {train next : Train} (h : (s.stepper t).state = .running train (some next)) :
    endTrain s t = setFlagPorts (s.setStepper t { s.stepper t with
      last := some ⟨train.delivered, .done⟩
      state := .running { next with delivered := 0 } none }) train.origin.ports .trainReload (some t.val) := by
  simp only [endTrain, h]

theorem trainDone_iff (x : Stepper) :
    x.trainDone = true ↔ ∃ train next, x.state = .running train next ∧ train.remaining = 0 := by
  unfold Stepper.trainDone
  cases x.state <;> simp

theorem wraps_iff (x : Stepper) : x.wraps = true ↔ x.cfg.kind = .wrap ∧ x.position = some (x.cfg.positions - 1) := by
  simp [Stepper.wraps]

theorem advance_eq (r : StepperRecord) (d : Direction) (pos : Nat) : r.advance d pos =
    if r.kind = .wrap then (if pos + 1 = r.positions then 0 else pos + 1)
    else if d = .up then min (pos + 1) (r.positions - 1) else pos - 1 := by
  obtain ⟨kind, positions, up, down, home, homePos, spacing, carry⟩ := r
  cases kind <;> cases d <;> rfl

theorem topReelOf_some {s : State} {t : StepperId} {n : BankId} (h : topReelOf s t = some n) : (s.bank n).getLast? = some t := by
  simpa using List.find?_some h

theorem topReelOf_none {s : State} {t : StepperId} (h : topReelOf s t = none) (n : BankId) : (s.bank n).getLast? ≠ some t := by
  simpa using List.find?_eq_none.1 h n (List.mem_finRange n)

/-! ### One step further (R113) -/

/-- The stepper once a step of this mark on the channel has reached its drive end. -/
def Stepper.stepped (x : Stepper) (c : ChannelId) (mark : StepMark) : Stepper := { x with
  inDrive := none
  state := x.state.count mark
  position := x.position.map (x.cfg.advance (if x.cfg.up = some c then .up else .down)) }

/-- The running train is looked at after a step: one that is done gives way, and the next tests its first step unless the channel's return to
IDLE follows (log 20). -/
def afterStep (v : State) (t : StepperId) (straight : Bool) : State :=
  if (v.stepper t).trainDone then if straight then endTrain v t else stepTest (endTrain v t) t else v

theorem afterStep_eq (v : State) (t : StepperId) (straight : Bool) : afterStep v t straight =
    if (v.stepper t).trainDone = false then v else if straight = true then endTrain v t else stepTest (endTrain v t) t := by
  unfold afterStep
  cases (v.stepper t).trainDone <;> rfl

theorem stepDriveEnd_eq {s : State} {t : StepperId} {c : ChannelId} {mark : StepMark} (straight : Bool)
    (h : (s.stepper t).inDrive = some ⟨c, mark⟩) :
    let v := s.setStepper t ((s.stepper t).stepped c mark)
    stepDriveEnd s t c straight =
      afterStep (if (s.stepper t).wraps then carry v t ((s.stepper t).state.carryOrigin mark) else v) t straight := by
  unfold stepDriveEnd
  dsimp only
  rw [h]
  exact if_pos rfl

section
variable {s : State} {t : StepperId} {c : ChannelId} {mark : StepMark} (straight : Bool)
  (h : (s.stepper t).inDrive = some ⟨c, mark⟩)
include h

theorem stepDriveEnd_wraps (hwraps : (s.stepper t).wraps = true) : stepDriveEnd s t c straight =
    afterStep (carry (s.setStepper t ((s.stepper t).stepped c mark)) t ((s.stepper t).state.carryOrigin mark)) t straight := by
  rw [stepDriveEnd_eq straight h, if_pos hwraps]

variable (hwraps : (s.stepper t).wraps = false)
include hwraps

theorem stepDriveEnd_straight : stepDriveEnd s t c straight =
    afterStep (s.setStepper t ((s.stepper t).stepped c mark)) t straight := by
  rw [stepDriveEnd_eq straight h, if_neg (ne_true_of_eq_false hwraps)]

/-- The step leaves its train with steps, or its stepper with no train: the record is written and that is all. -/
theorem stepDriveEnd_goesOn (hmore : ((s.stepper t).stepped c mark).trainDone = false) :
    stepDriveEnd s t c straight = s.setStepper t ((s.stepper t).stepped c mark) := by
  rw [stepDriveEnd_straight straight h hwraps, afterStep, State.stepper_setStepper_self, if_neg (ne_true_of_eq_false hmore)]

/-- The step was the last of its train. -/
theorem stepDriveEnd_ends (hdone : ((s.stepper t).stepped c mark).trainDone = true) :
    let v := endTrain (s.setStepper t ((s.stepper t).stepped c mark)) t
    stepDriveEnd s t c straight = if straight = true then v else stepTest v t := by
  rw [stepDriveEnd_straight straight h hwraps, afterStep, State.stepper_setStepper_self, if_pos hdone]

end

/-! ### What a step counts -/

theorem stepped_of_count {x : Stepper} {c : ChannelId} {mark : StepMark} {y : StepState} (h : x.state.count mark = y) :
    x.stepped c mark = { x with
      inDrive := none
      position := x.position.map (x.cfg.advance (if x.cfg.up = some c then .up else .down))
      state := y } := by
  rw [Stepper.stepped, h]

/-- A step of a cleared train, or a homing step beside a running train, counts nowhere (log 45). -/
theorem count_nowhere {x : StepState} {mark : StepMark} (h : x = .idle ∨ x = .faulted ∨ mark = .cleared ∨
    mark = .homing ∧ x.isHoming = false) : x.count mark = x := by
  cases x <;> cases mark <;> simp_all [StepState.count, StepState.isHoming]

theorem trainDone_of_not_running {x : Stepper} (h : ∀ train next, x.state ≠ .running train next) : x.trainDone = false := by
  rw [← Bool.not_eq_true, trainDone_iff]
  rintro ⟨train, next, hs, -⟩
  exact h train next hs

theorem trainDone_of_running {x : Stepper} {train : Train} {next : Option Train} (h : x.state = .running train next) :
    x.trainDone = decide (train.remaining = 0) := by
  simp only [Stepper.trainDone, h]

theorem carry_eq (s : State) (t : StepperId) (origin : Origin) : carry s t origin = match topReelOf s t with
    | some n => setFlagBoth s .rollover (some n.val)
    | none => match (s.stepper t).cfg.carry with
      | none => s
      | some target => (offerTrain s target .up 1 origin true).1 := by
  unfold carry
  cases topReelOf s t with
  | some n => rfl
  | none => cases (s.stepper t).cfg.carry <;> rfl

/-- Settles O51: the step's counts by its mark and the stepper's state, the end of its train, and the carry of a wrap. -/
theorem stepDriveEndMovesAndCounts : Obligations.StepDriveEndMovesAndCounts := by
  unfold Obligations.StepDriveEndMovesAndCounts
  refine ⟨fun t c mark straight s h => ?step, fun t s => ⟨fun train => endTrain_last, fun train next => endTrain_reload,
    trainDone_iff (s.stepper t), wraps_iff (s.stepper t), advance_eq (s.stepper t).cfg, fun n => topReelOf_some, topReelOf_none⟩⟩
  case step =>
    intro x moved ends
    have hends (v : State) : afterStep v t straight = ends v := afterStep_eq v t straight
    refine ⟨fun train next hw hs hm hleft => ?goesOn, fun train next hw hs hm => ?wraps, fun train hw hs hm hlast => ?done,
      fun train next hw hs hm hlast => ?reload, fun origin steps hw hs hm => ?homing, fun hw hrest => ?rests,
      fun train next hw hm hs hleft => ?uncounted, fun hw hm => ?cleared, carry_eq s t⟩
    case goesOn =>
      have hcount : x.state.count mark = .running { train with remaining := train.remaining - 1, delivered := train.delivered + 1 } next := by
        rw [hs, hm]; rfl
      rw [stepDriveEnd_goesOn straight h hw, stepped_of_count hcount]
      rw [trainDone_of_running hcount]
      exact decide_eq_false (Nat.sub_ne_zero_of_lt hleft)
    case wraps =>
      have hcount : x.state.count mark = .running { train with remaining := train.remaining - 1, delivered := train.delivered + 1 } next := by
        rw [hs, hm]; rfl
      have horigin : x.state.carryOrigin mark = train.origin := by rw [hs, hm]; rfl
      rw [stepDriveEnd_wraps straight h hw, hends, stepped_of_count hcount, horigin]
    case done =>
      have hcount : x.state.count mark = .running { train with remaining := train.remaining - 1, delivered := train.delivered + 1 } none := by
        rw [hs, hm]; rfl
      have hrecord := State.stepper_setStepper_self s t (x.stepped c mark)
      rw [stepDriveEnd_ends straight h hw (by rw [trainDone_of_running hcount]; exact decide_eq_true (by simp [hlast])),
        endTrain_last (by rw [hrecord]; exact hcount), hrecord, State.setStepper_setStepper]
      have hidle (v : State) (hv : (v.stepper t).state = .idle) : (if straight = true then v else stepTest v t) = v := by
        rw [show stepTest v t = v from stepTestN_idle 3 hv, ite_self]
      rw [hidle _ (by rw [setFlagPorts_stepper, State.stepper_setStepper_self])]
      rfl
    case reload =>
      have hcount : x.state.count mark =
          .running { train with remaining := train.remaining - 1, delivered := train.delivered + 1 } (some next) := by
        rw [hs, hm]; rfl
      have hrecord := State.stepper_setStepper_self s t (x.stepped c mark)
      rw [stepDriveEnd_ends straight h hw (by rw [trainDone_of_running hcount]; exact decide_eq_true (by simp [hlast])),
        endTrain_reload (by rw [hrecord]; exact hcount), hrecord, State.setStepper_setStepper]
      rfl
    case homing =>
      have hcount : x.state.count mark = .homing origin (steps + 1) := by rw [hs, hm]; rfl
      rw [stepDriveEnd_goesOn straight h hw, stepped_of_count hcount]
      refine trainDone_of_not_running fun train next e => ?_
      rw [show (x.stepped c mark).state = _ from hcount] at e
      cases e
    case rests =>
      have hcount : x.state.count mark = x.state := count_nowhere <| by
        obtain hs | hs | ⟨hm, -⟩ := hrest
        · exact .inl hs
        · exact .inr (.inl hs)
        · exact .inr (.inr (.inl hm))
      rw [stepDriveEnd_goesOn straight h hw, stepped_of_count hcount]
      refine trainDone_of_not_running fun train next e => ?_
      rw [show (x.stepped c mark).state = _ from hcount] at e
      obtain hs | hs | ⟨-, hs⟩ := hrest <;> rw [e] at hs <;> cases hs
    case uncounted =>
      have hcount : x.state.count mark = x.state := count_nowhere <| by
        obtain hm | hm := hm
        · exact .inr (.inr (.inl hm))
        · exact .inr (.inr (.inr ⟨hm, by rw [hs]; rfl⟩))
      rw [stepDriveEnd_goesOn straight h hw, stepped_of_count hcount]
      rw [trainDone_of_running (hcount.trans hs)]
      exact decide_eq_false (Nat.ne_of_gt hleft)
    case cleared =>
      have hcount : x.state.count mark = x.state := count_nowhere (.inr (.inr (.inl hm)))
      have horigin : x.state.carryOrigin mark = ⟨.empty, true⟩ := by
        rw [hm]
        cases x.state <;> rfl
      rw [stepDriveEnd_wraps straight h hw, hends, stepped_of_count hcount, horigin]

end Sys2Proof.Machine
end

section
/-! The switches and SYNC (chapter 8): CONFIGURE SWITCH, READ EVENTS, the debounces and the delivery of a change. -/

namespace Sys2Proof.Machine

/-! ### CONFIGURE SWITCH (R138) -/

theorem yesNo_of_le {x : Byte} (h : x.toNat ≤ 1) : yesNo x.toNat = some (decide (x = 1#8)) := by
  obtain rfl | rfl := byte_le_one h <;> rfl

theorem yesNo_none {k : Nat} (h : 1 < k) : yesNo k = none := by
  rw [yesNo, if_neg (by omega), if_neg (by omega)]

theorem portSetOf_le {k : Nat} (h : k ≤ 3) : portSetOf k = some ⟨decide (k % 2 = 1), decide (k / 2 = 1)⟩ := if_pos (by omega)

theorem portSetOf_none {k : Nat} (h : 3 < k) : portSetOf k = none := if_neg (by omega)

/-- The switch record of CONFIGURE SWITCH's four fields. -/
def switchRecord (b d i r : Byte) : SwitchRecord :=
  ⟨max 1 (min b.toNat 31), max 1 (min d.toNat 31), i = 1#8, ⟨r.toNat % 2 = 1, r.toNat / 2 = 1⟩⟩

theorem switchRecordOf_le (x b d : Byte) {i r : Byte} (hi : i.toNat ≤ 1) (hr : r.toNat ≤ 3) :
    switchRecordOf [x, b, d, i, r] = some (switchRecord b d i r) := by
  simp only [switchRecordOf, u8_succ, u8_zero, yesNo_of_le hi, portSetOf_le hr]
  rfl

theorem switchRecordOf_none (x b d : Byte) {i r : Byte} (h : 1 < i.toNat ∨ 3 < r.toNat) : switchRecordOf [x, b, d, i, r] = none := by
  simp only [switchRecordOf, u8_succ, u8_zero]
  obtain hi | hr := h
  · rw [yesNo_none hi]
  · rw [portSetOf_none hr]
    cases yesNo i.toNat <;> rfl

theorem configureSwitchRequest_of_range {x b d i r : Byte} {s : State} (h : 31 < x.toNat ∨ 1 < i.toNat ∨ 3 < r.toNat) :
    configureSwitchRequest [x, b, d, i, r] s = .refuse s .range := by
  rw [configureSwitchRequest, u8_zero]
  obtain hx | hfields := h
  · rw [index_none hx]
  · rw [switchRecordOf_none x b d hfields]
    cases index 32 x.toNat <;> rfl

theorem configureSwitchRequest_of_le (w : SwitchId) {b d i r : Byte} (s : State) (hi : i.toNat ≤ 1) (hr : r.toNat ≤ 3) :
    configureSwitchRequest [byte w.val, b, d, i, r] s =
      if s.store.save.isSome then .refuse s .busy else .done (configureSwitch s w (switchRecord b d i r)) := by
  rw [configureSwitchRequest, u8_zero, index_byte (by decide), switchRecordOf_le _ b d hi hr]
  rfl

/-! ### The requests -/

theorem QueueEntry.bytes_eq (e : QueueEntry) : e.bytes =
    [byte e.switch.val, byte ((if e.closed = true then 0 else 1) + (if e.gap = true then 2 else 0)),
      byte (e.time.toNat / 256), byte e.time.toNat] := by
  obtain ⟨switch, closed, time, gap⟩ := e
  cases closed <;> rfl

theorem readEventsRequest_eq (p : Port) (s : State) : readEventsRequest p s =
    .okWith (setQueue s p { s.sw.queues.get p with entries := (s.sw.queues.get p).entries.drop 12, lost := 0 })
      (byte ((s.sw.queues.get p).entries.length - 12) :: byte (s.sw.queues.get p).lost ::
        ((s.sw.queues.get p).entries.take 12).flatMap QueueEntry.bytes) := by
  rw [← List.length_drop]
  rfl

/-- Settles O52: CONFIGURE SWITCH by its fields, READ EVENTS, and the layout of an entry. -/
theorem switchRequestsConfigureAndDrain : Obligations.SwitchRequestsConfigureAndDrain := by
  unfold Obligations.SwitchRequestsConfigureAndDrain
  refine ⟨fun p w b d i r s h => ?configure, fun p x b d i r s h hx => ?range, fun p s h => ?events, QueueEntry.bytes_eq⟩
  case configure =>
    intro c record x
    have hexec : exec c s = .next (reply p 0x18#8 (configureSwitchRequest [byte w.val, b, d, i, r] (take s p))) := exec_ready h rfl rfl
    refine ⟨fun hrange => ?_, fun hi hr => ?_⟩
    · rw [hexec, configureSwitchRequest_of_range (.inr hrange)]
      rfl
    · rw [hexec, configureSwitchRequest_of_le w _ hi hr, apply_ite (reply p 0x18#8)]
      rfl
  case range =>
    rw [exec_ready h rfl rfl, ownRules, configureSwitchRequest_of_range (.inl hx)]
    rfl
  case events =>
    rw [exec_ready h rfl rfl, ownRules, readEventsRequest_eq]
    rfl

/-! ### Debounce and delivery (R131, R133 to R135) -/

theorem switchRawChange_eq (w : SwitchId) (low : Bool) (s : State) : switchRawChange w low s =
    if (s.input w).low = low then s else
      let x := { s.input w with low := low }
      s.setInput w { x with timer :=
        if s.part.state = .run ∧ x.logical ≠ x.closed then some (if x.logical = true then x.cfg.closeMs else x.cfg.openMs)
        else none } := by
  refine if_congr Iff.rfl rfl (congrArg (fun timer => s.setInput w { s.input w with low := low, timer := timer }) ?_)
  simp only [State.inRun, decide_eq_true_eq, SwitchInput.freshTimer, SwitchRecord.debounce]
  by_cases hrun : s.part.state = .run <;> simp [hrun]

theorem switchDebounceExpiry_early {w : SwitchId} {s : State} (h : (s.input w).timer ≠ some 0) : switchDebounceExpiry w s = s :=
  if_neg fun e => h (of_decide_eq_true e)

theorem switchDebounceExpiry_due {w : SwitchId} {s : State} (h : (s.input w).timer = some 0) : switchDebounceExpiry w s =
    deliver w (s.input w).logical (s.setInput w { s.input w with closed := (s.input w).logical, timer := none }) :=
  if_pos (decide_eq_true h)

theorem reportEvent_unheard {w : SwitchId} {closed : Bool} {s : State} {p : Port}
    (h : (s.input w).cfg.reportTo.has p = false ∨ (s.port p).live = false) : reportEvent w closed s p = s := by
  refine if_neg ?_
  rw [Bool.and_eq_true]
  rintro ⟨hreport, hlive⟩
  obtain h | h := h
  · exact absurd (hreport.symm.trans h) (by decide)
  · exact absurd (hlive.symm.trans h) (by decide)

theorem reportEvent_heard {w : SwitchId} {closed : Bool} {s : State} {p : Port} (hreport : (s.input w).cfg.reportTo.has p = true)
    (hlive : (s.port p).live = true) : reportEvent w closed s p = appendEvent s p w closed := by
  refine if_pos ?_
  rw [hreport, hlive]
  rfl

theorem setQueue_get_self (s : State) (p : Port) (q : EventQueue) : (setQueue s p q).sw.queues.get p = q := by cases p <;> rfl

theorem setQueue_get_other (s : State) (p : Port) (q : EventQueue) :
    (setQueue s p q).sw.queues.get (otherPort p) = s.sw.queues.get (otherPort p) := by cases p <;> rfl

theorem setFlag_latch_other (s : State) (p : Port) (n : FlagName) (k : Option Nat) :
    (setFlag s p n k).latch (otherPort p) = s.latch (otherPort p) := by cases p <;> rfl

theorem appendEvent_room {s : State} {p : Port} (w : SwitchId) (closed : Bool) (h : (s.sw.queues.get p).entries.length < 32) :
    let q := s.sw.queues.get p
    let v := setQueue s p ⟨q.entries ++ [⟨w, closed, s.sw.partTime, q.gapMark⟩], q.lost, false⟩
    appendEvent s p w closed = if q.entries = [] then setFlag v p .switch (some w.val) else v := if_pos h

theorem appendEvent_full {s : State} {p : Port} (w : SwitchId) (closed : Bool) (h : 32 ≤ (s.sw.queues.get p).entries.length) :
    let q := s.sw.queues.get p
    appendEvent s p w closed = setFlag (setQueue s p ⟨q.entries, min 255 (q.lost + 1), true⟩) p .eventLost (some w.val) :=
  if_neg (Nat.not_lt.2 h)

theorem appendEvent_other (s : State) (p : Port) (w : SwitchId) (closed : Bool) :
    (appendEvent s p w closed).sw.queues.get (otherPort p) = s.sw.queues.get (otherPort p) ∧
      (appendEvent s p w closed).latch (otherPort p) = s.latch (otherPort p) := by
  by_cases h : (s.sw.queues.get p).entries.length < 32
  · rw [appendEvent_room w closed h]
    split
    · exact ⟨setQueue_get_other s p _, setFlag_latch_other _ p _ _⟩
    · exact ⟨setQueue_get_other s p _, rfl⟩
  · rw [appendEvent_full w closed (Nat.not_lt.1 h)]
    exact ⟨setQueue_get_other s p _, setFlag_latch_other _ p _ _⟩

/-- Settles O53: the raw change, the expiry's delivery in its order, and the queue that hears it. -/
theorem switchDebounceDeliversTheChange : Obligations.SwitchDebounceDeliversTheChange := by
  unfold Obligations.SwitchDebounceDeliversTheChange
  refine fun w low s => ⟨congrArg Host.Outcome.next (switchRawChange_eq w low s),
    fun h => congrArg Host.Outcome.next (switchDebounceExpiry_early h), fun h => ?expiry, fun closed p => reportEvent_unheard,
    fun closed p hreport hlive => ?heard⟩
  case expiry =>
    refine ⟨freely s.orders allFlippers, freely_perm _ _, congrArg Host.Outcome.next ((switchDebounceExpiry_due h).trans ?_)⟩
    unfold deliver deliverIn
    rfl
  case heard =>
    intro q t
    have ht : t = appendEvent s p w closed := reportEvent_heard hreport hlive
    refine ⟨fun room => ?room, fun full => ?full, ht ▸ appendEvent_other s p w closed⟩
    case room =>
      rw [ht, appendEvent_room w closed room]
      split
      · exact ⟨setQueue_get_self s p _, setFlagReason_get_self ..⟩
      · exact ⟨setQueue_get_self s p _, rfl⟩
    case full =>
      rw [ht, appendEvent_full w closed full]
      exact ⟨setQueue_get_self s p _, setFlagReason_get_self ..⟩

end Sys2Proof.Machine
end

section
/-! SYNC (R139, R147) and PART_TIME_TICK (R132). -/

namespace Sys2Proof.Machine

/-! ### SYNC -/

theorem syncRawChange_eq (high : Bool) (s : State) : syncRawChange high s =
    if s.sw.syncRaw = high then s else s.setSw { s.sw with
      syncRaw := high
      syncTimer := if s.part.state = .run ∧ high ≠ s.sw.syncHigh then some 1 else none } := by
  simp only [syncRawChange, State.inRun, Config.syncDebounce, Bool.and_eq_true, decide_eq_true_eq]

theorem syncRisingEdge_due {s : State} (ht : s.sw.syncTimer = some 0) (hh : s.sw.syncHigh = false) : syncRisingEdge s =
    (s.setSw { s.sw with syncHigh := true, syncTimer := none }).setLamp { s.lamp with
      layers := s.lamp.layers.map fun x => x.commitIf .armedSync } := by
  simp [syncRisingEdge, due, ht, hh]

theorem syncRisingEdge_not {s : State} (h : s.sw.syncTimer ≠ some 0 ∨ s.sw.syncHigh = true) : syncRisingEdge s = s := by
  refine if_neg ?_
  rw [Bool.and_eq_true, Bool.not_eq_true']
  rintro ⟨ht, hh⟩
  obtain h | h := h
  · exact h (of_decide_eq_true ht)
  · exact absurd (h.symm.trans hh) (by decide)

theorem syncDebouncedFall_due {s : State} (ht : s.sw.syncTimer = some 0) (hh : s.sw.syncHigh = true) :
    syncDebouncedFall s = s.setSw { s.sw with syncHigh := false, syncTimer := none } := by
  simp [syncDebouncedFall, due, ht, hh]

theorem syncDebouncedFall_not {s : State} (h : s.sw.syncTimer ≠ some 0 ∨ s.sw.syncHigh = false) : syncDebouncedFall s = s := by
  refine if_neg ?_
  rw [Bool.and_eq_true]
  rintro ⟨ht, hh⟩
  obtain h | h := h
  · exact h (of_decide_eq_true ht)
  · exact absurd (hh.symm.trans h) (by decide)

/-- Settles O54: the raw change, the rising edge at its debounce, and the fall. -/
theorem syncDebounceCommitsArmedLayers : Obligations.SyncDebounceCommitsArmedLayers := by
  unfold Obligations.SyncDebounceCommitsArmedLayers
  refine fun high s => ⟨congrArg Host.Outcome.next (syncRawChange_eq high s), fun ht hh => ?rises,
    fun ht hh => congrArg Host.Outcome.next (syncDebouncedFall_due ht hh),
    fun h => congrArg Host.Outcome.next (syncRisingEdge_not h), fun h => congrArg Host.Outcome.next (syncDebouncedFall_not h)⟩
  case rises =>
    refine ⟨_, congrArg Host.Outcome.next (syncRisingEdge_due ht hh), rfl, rfl, fun p => ?_⟩
    exact PerPort.get_map ..

/-! ### A tick, record by record -/

theorem partTimeTick_flip (s : State) (f : FlipperId) : (partTimeTick s).flip f = { s.flip f with state := (s.flip f).state.tick } := by
  simp only [partTimeTick, State.flip, Table.get_map]

theorem partTimeTick_link (s : State) (k : LinkId) : (partTimeTick s).link k = { s.link k with lockout := (s.link k).lockout.tick } := by
  simp only [partTimeTick, State.link, Table.get_map]

theorem partTimeTick_stepper (s : State) (t : StepperId) :
    (partTimeTick s).stepper t = { s.stepper t with spacing := (s.stepper t).spacing.tick } := by
  simp only [partTimeTick, State.stepper, Table.get_map]

theorem partTimeTick_input (s : State) (w : SwitchId) : (partTimeTick s).input w = { s.input w with timer := (s.input w).timer.tick } := by
  simp only [partTimeTick, SwitchUnit.tick, State.input, Table.get_map]

theorem tick_load (x : Channel) : ({ x with state := x.state.tick } : Channel).load = x.load := by
  obtain ⟨coil, state, before, claims, owed, absorbed, heat⟩ := x
  cases state <;> rfl

/-- Settles O55: each record's tick. -/
theorem tickAdvancesPartTimeAndTimers : Obligations.TickAdvancesPartTimeAndTimers := by
  unfold Obligations.TickAdvancesPartTimeAndTimers
  refine fun s => ⟨partTimeTick s, rfl, ?time, fun c kind w left h => ?drive, fun c left after h => ?recover, fun c => ?load, rfl, rfl, rfl,
    rfl, rfl, rfl, fun w => ?input, fun k => ?link, fun u => ?stepper, fun p => ?port, fun f phase h => ?flipper, rfl, rfl, rfl, rfl, rfl, rfl,
    rfl, rfl, rfl, rfl, partTimeTick_profile s⟩
  case time => exact BitVec.toNat_add ..
  case drive =>
    rw [partTimeTick_chan, h]
    rfl
  case recover =>
    rw [partTimeTick_chan, h]
    rfl
  case load => rw [partTimeTick_chan, tick_load]
  case input =>
    rw [partTimeTick_input]
    rfl
  case link =>
    rw [partTimeTick_link]
    rfl
  case stepper =>
    rw [partTimeTick_stepper]
    rfl
  case port =>
    rw [partTimeTick_port]
    exact ⟨rfl, rfl⟩
  case flipper =>
    rw [partTimeTick_flip, h]
    rfl

end Sys2Proof.Machine
end

section
/-! The lamps (chapter 9): LAMPS and LAMP COMMIT, CONFIGURE LAMP, and the frame. -/

namespace Sys2Proof.Machine

/-! ### LAMPS (R144) -/

theorem writeValues_outside {start : Nat} {values : List Byte} (b : Table (Option Nat) 32) {l : LampId}
    (h : l.val < start ∨ start + values.length ≤ l.val) : (writeValues start values b).get l = b.get l := by
  rw [writeValues, Table.get_ofFn]
  split
  · rfl
  · rw [List.getElem?_eq_none (by omega)]

theorem writeValues_inside {start : Nat} {values : List Byte} (b : Table (Option Nat) 32) {l : LampId} {i : Nat} {v : Byte}
    (hl : l.val = start + i) (hv : values[i]? = some v) : (writeValues start values b).get l = entryOfValue v.toNat := by
  rw [writeValues, Table.get_ofFn, if_neg (by omega), show l.val - start = i by omega, hv]

theorem entryOfValue_byte (v : Byte) : entryOfValue v.toNat = if v = 255#8 then none else some (min v.toNat 15) :=
  if_congr (by rw [toNat_eq_iff_byte]; exact and_iff_left (by omega)) rfl rfl

/-- The layer with the values written into its open buffer. -/
def Layer.filled (x : Layer) (start : Nat) (values : List Byte) : Layer :=
  x.setBuffer x.shown.other (writeValues start values (x.buffer x.shown.other))

theorem Layer.setBuffer_shown (x : Layer) (n : BufferName) (b : Table (Option Nat) 32) : (x.setBuffer n b).shown = x.shown := by
  cases n <;> rfl

theorem Layer.setBuffer_commit (x : Layer) (n : BufferName) (b : Table (Option Nat) 32) : (x.setBuffer n b).commit = x.commit := by
  cases n <;> rfl

theorem Layer.buffer_setBuffer (x : Layer) (n : BufferName) (b : Table (Option Nat) 32) : (x.setBuffer n b).buffer n = b := by
  cases n <;> rfl

theorem Layer.setBuffer_other_buffer (x : Layer) (n : BufferName) (b : Table (Option Nat) 32) :
    (x.setBuffer n.other b).buffer n = x.buffer n := by
  cases n <;> rfl

section
variable {p : Port} {start count flag : Byte} {values : List Byte} {s : State}

theorem lampsRequest_of_range (h : 31 < start.toNat ∨ 32 < start.toNat + count.toNat ∨ 1 < flag.toNat) :
    lampsRequest p (start :: count :: flag :: values) s = .refuse s .range := by
  simp only [lampsRequest, u8_zero, u8_succ]
  by_cases hflag : 1 < flag.toNat
  · rw [yesNo_none hflag]
  · rw [yesNo_of_le (Nat.not_lt.1 hflag)]
    refine if_pos ?_
    change (decide (31 < start.toNat) || decide (32 < start.toNat + count.toNat)) = true
    rw [Bool.or_eq_true, decide_eq_true_iff, decide_eq_true_iff]
    omega

variable (hs : start.toNat ≤ 31) (hc : start.toNat + count.toNat ≤ 32) (hf : flag.toNat ≤ 1)
include hs hc hf

theorem lampsRequest_of_le : lampsRequest p (start :: count :: flag :: values) s =
    if (s.lamp.layers.get p).commit ≠ .idle then .refuse s .busy
    else .okWith (setLayer s p ((s.lamp.layers.get p).written start.toNat values (flag = 1#8)))
      [count, byte (values.countP fun v => 16 ≤ v.toNat && v.toNat ≤ 254), flag] := by
  have hflag : boolByte (decide (flag = 1#8)) = flag := by obtain rfl | rfl := byte_le_one hf <;> rfl
  simp only [lampsRequest, u8_zero, u8_succ, yesNo_of_le hf, byte_toNat, hflag]
  rw [if_neg]
  · rfl
  · change ¬(decide (31 < start.toNat) || decide (32 < start.toNat + count.toNat)) = true
    rw [Bool.or_eq_true, decide_eq_true_iff, decide_eq_true_iff]
    omega

end

theorem written_eq (x : Layer) (start : Nat) (values : List Byte) (flag : Byte) : x.written start values (flag = 1#8) =
    if flag = 1#8 then (x.filled start values).commitNow else x.filled start values := by
  simp only [Layer.written, decide_eq_true_eq]
  rfl

/-! ### LAMP COMMIT (R145) -/

theorem lampCommitRequest_eq (p : Port) (m : Byte) (s : State) : lampCommitRequest p [m] s =
    if 1 < m.toNat then .refuse s .range
    else if (s.lamp.layers.get p).commit ≠ .idle then .refuse s .busy
    else .okWith (setLayer s p { s.lamp.layers.get p with commit := if m = 0#8 then .armedSync else .armedFrame }) [m] := by
  simp only [lampCommitRequest, u8_zero, byte_toNat]
  by_cases hm : 1 < m.toNat
  · have hnone : commitMode m.toNat = none := by rw [commitMode, if_neg (by omega), if_neg (by omega)]
    rw [hnone, if_pos hm]
  · obtain rfl | rfl := byte_le_one (Nat.not_lt.1 hm) <;> rfl

/-- Settles O56: LAMPS by its ranges and its layer, LAMP COMMIT by its mode. -/
theorem lampsWriteTheOpenBuffer : Obligations.LampsWriteTheOpenBuffer := by
  unfold Obligations.LampsWriteTheOpenBuffer
  refine ⟨fun p start count flag values s h hcount => ?lamps, fun p m s h => ?commit⟩
  case lamps =>
    intro c x openName
    have hlength : (start :: count :: flag :: values).length = 3 + u8 (start :: count :: flag :: values) 1 := by
      rw [u8_succ, u8_zero, List.length_cons, List.length_cons, List.length_cons]
      omega
    have hexec : exec c s = .next (reply p 0x1B#8 (lampsRequest p (start :: count :: flag :: values) (take s p))) :=
      exec_ready h rfl hlength
    refine ⟨fun hrange => ?range, fun hs hc hf hbusy => ?busy, fun hs hc hf hidle => ⟨x.filled start.toNat values, ?ok,
      Layer.setBuffer_shown .., (Layer.setBuffer_commit ..).trans hidle, Layer.setBuffer_other_buffer .., fun l hl => ?outside,
      fun l i v hl hv => ?inside⟩⟩
    case range =>
      rw [hexec, lampsRequest_of_range hrange]
      rfl
    case busy =>
      rw [hexec, lampsRequest_of_le hs hc hf, if_pos (by exact hbusy)]
      rfl
    case ok =>
      rw [hexec, lampsRequest_of_le hs hc hf, if_neg (by exact not_not.2 hidle), written_eq]
      rfl
    case outside =>
      rw [Layer.filled, Layer.buffer_setBuffer]
      exact writeValues_outside _ (by rwa [hcount])
    case inside =>
      rw [Layer.filled, Layer.buffer_setBuffer, writeValues_inside _ hl hv, entryOfValue_byte]
  case commit =>
    rw [exec_ready h rfl rfl, ownRules, lampCommitRequest_eq]
    simp only [apply_ite (reply p 0x1C#8)]
    rfl

/-! ### CONFIGURE LAMP (R152) -/

theorem priorityOf_le {x : Byte} (h : x.toNat ≤ 1) : priorityOf x.toNat = some (if x = 0#8 then .aOverB else .bOverA) := by
  obtain rfl | rfl := byte_le_one h <;> rfl

theorem priorityOf_none {k : Nat} (h : 1 < k) : priorityOf k = none := by
  rw [priorityOf, if_neg (by omega), if_neg (by omega)]

theorem lampSelectorOf_none {k : Nat} (h : 33 < k) : lampSelectorOf k = none := by
  rw [lampSelectorOf, index_none (by omega)]
  dsimp only
  rw [if_neg (by omega), if_neg (by omega)]

/-- A selector up to 20h names the lamps that it stands for. -/
theorem lampSelectorOf_le {k : Nat} (h : k ≤ 32) : (∃ l : LampId, l.val = k ∧ lampSelectorOf k = some (.one l)) ∨
    k = 32 ∧ lampSelectorOf k = some .all := by
  by_cases hk : k < 32
  · refine .inl ⟨⟨k, hk⟩, rfl, ?_⟩
    rw [lampSelectorOf, index_of_lt hk]
  · obtain rfl : k = 32 := by omega
    exact .inr ⟨rfl, rfl⟩

section
variable {sel pr step hi lo : Byte} {u : LampUnit}

theorem lampRecordOf_le (hp : pr.toNat ≤ 1) (h1 : 1 ≤ step.toNat) (h15 : step.toNat ≤ 15) :
    lampRecordOf [sel, pr, step, hi, lo] = some ⟨if pr = 0#8 then .aOverB else .bOverA, step.toNat⟩ := by
  simp only [lampRecordOf, u8_succ, u8_zero, priorityOf_le hp]
  refine if_pos ?_
  change (decide (1 ≤ step.toNat) && decide (step.toNat ≤ 15)) = true
  rw [Bool.and_eq_true, decide_eq_true_iff, decide_eq_true_iff]
  exact ⟨h1, h15⟩

theorem lampRecordOf_none (h : 1 < pr.toNat ∨ step.toNat = 0 ∨ 15 < step.toNat) : lampRecordOf [sel, pr, step, hi, lo] = none := by
  simp only [lampRecordOf, u8_succ, u8_zero]
  cases hp : priorityOf pr.toNat with
  | none => rfl
  | some priority =>
    have hle : ¬1 < pr.toNat := fun hlt => by rw [priorityOf_none hlt] at hp; cases hp
    refine if_neg ?_
    change ¬(decide (1 ≤ step.toNat) && decide (step.toNat ≤ 15)) = true
    rw [Bool.and_eq_true, decide_eq_true_iff, decide_eq_true_iff]
    omega

theorem lampBudgetOf_eq : lampBudgetOf [sel, pr, step, hi, lo] =
    if 16 ≤ hi.toNat * 256 + lo.toNat ∧ hi.toNat * 256 + lo.toNat ≤ 480 then some (hi.toNat * 256 + lo.toNat) else none :=
  if_congr (by rw [Bool.and_eq_true, decide_eq_true_iff, decide_eq_true_iff]; rfl) rfl rfl

/-- The lamps that the selector names have the record; every other field stays. -/
def recordsReplaced (u : LampUnit) (k : Nat) (r : LampRecord) (v : LampUnit) : Prop :=
  v.budget = u.budget ∧ ∀ l, v.lamps.get l = if k = 32 ∨ k = l.val then { u.lamps.get l with cfg := r } else u.lamps.get l

theorem configuredLamps_none (h : 33 < sel.toNat ∨ sel.toNat ≤ 32 ∧ (1 < pr.toNat ∨ step.toNat = 0 ∨ 15 < step.toNat) ∨
    sel.toNat = 33 ∧ (hi.toNat * 256 + lo.toNat < 16 ∨ 480 < hi.toNat * 256 + lo.toNat)) :
    configuredLamps u [sel, pr, step, hi, lo] = none := by
  rw [configuredLamps, u8_zero]
  obtain hsel | ⟨hsel, hfields⟩ | ⟨hsel, hbudget⟩ := h
  · rw [lampSelectorOf_none hsel]
  · obtain ⟨l, -, hl⟩ | ⟨-, hl⟩ := lampSelectorOf_le hsel <;> rw [hl] <;> dsimp only <;> rw [lampRecordOf_none hfields] <;> rfl
  · rw [hsel, show lampSelectorOf 33 = some .budget from rfl]
    dsimp only
    rw [lampBudgetOf_eq, if_neg (by omega)]
    rfl

theorem configuredLamps_records (hsel : sel.toNat ≤ 32) (hp : pr.toNat ≤ 1) (h1 : 1 ≤ step.toNat) (h15 : step.toNat ≤ 15) :
    ∃ v, configuredLamps u [sel, pr, step, hi, lo] = some v ∧
      recordsReplaced u sel.toNat ⟨if pr = 0#8 then .aOverB else .bOverA, step.toNat⟩ v := by
  rw [configuredLamps, u8_zero]
  obtain ⟨l, hk, hl⟩ | ⟨hk, hl⟩ := lampSelectorOf_le hsel
  · rw [hl]
    dsimp only
    rw [lampRecordOf_le hp h1 h15]
    refine ⟨_, rfl, rfl, fun m => ?_⟩
    refine (Table.get_modify _ _ _ _).trans ?_
    by_cases hm : m = l
    · subst hm
      exact (if_pos rfl).trans (if_pos (.inr hk.symm)).symm
    · exact (if_neg hm).trans (if_neg fun h => hm (Fin.ext (by omega))).symm
  · rw [hl]
    dsimp only
    rw [lampRecordOf_le hp h1 h15]
    exact ⟨_, rfl, rfl, fun m => (Table.get_map _ _ _).trans (if_pos (.inl hk)).symm⟩

theorem configuredLamps_budget (hsel : sel.toNat = 33) (h16 : 16 ≤ hi.toNat * 256 + lo.toNat) (h480 : hi.toNat * 256 + lo.toNat ≤ 480) :
    configuredLamps u [sel, pr, step, hi, lo] = some { u with budget := hi.toNat * 256 + lo.toNat } := by
  rw [configuredLamps, u8_zero, hsel, show lampSelectorOf 33 = some .budget from rfl]
  dsimp only
  rw [lampBudgetOf_eq, if_pos ⟨h16, h480⟩]
  rfl

end

theorem configureLampRequest_none {body : List Byte} {s : State} (h : configuredLamps s.lamp body = none) :
    configureLampRequest body s = .refuse s .range := by
  rw [configureLampRequest, h]

theorem configureLampRequest_some {body : List Byte} {s : State} {v : LampUnit} (h : configuredLamps s.lamp body = some v) :
    configureLampRequest body s = if s.store.save.isSome then .refuse s .busy else .done (s.setLamp v) := by
  rw [configureLampRequest, h]
  rfl

/-- Settles O58: the selector and the fields by their ranges, and the records or the budget replaced. -/
theorem configureLampReplacesRecords : Obligations.ConfigureLampReplacesRecords := by
  unfold Obligations.ConfigureLampReplacesRecords
  intro p sel pr step hi lo s h c lb record
  have hexec : exec c s = .next (reply p 0x1D#8 (configureLampRequest [sel, pr, step, hi, lo] (take s p))) := exec_ready h rfl rfl
  have refused (hnone : configuredLamps s.lamp [sel, pr, step, hi, lo] = none) : exec c s = .next (refusedTo p 0x1D#8 (take s p) .range) := by
    rw [hexec, configureLampRequest_none (s := take s p) hnone]
    rfl
  refine ⟨fun hsel => refused (configuredLamps_none (.inl hsel)), fun hsel hf => refused (configuredLamps_none (.inr (.inl ⟨hsel, hf⟩))),
    fun hsel hb => refused (configuredLamps_none (.inr (.inr ⟨hsel, hb⟩))), fun hsel hp h1 h15 hsave => ?busy,
    fun hsel hp h1 h15 hsave => ?records, fun hsel h16 h480 => ?budget⟩
  case busy =>
    obtain ⟨v, hv, -⟩ := configuredLamps_records (hi := hi) (lo := lo) (u := s.lamp) hsel hp h1 h15
    rw [hexec, configureLampRequest_some (s := take s p) hv, if_pos (by exact hsave)]
    rfl
  case records =>
    obtain ⟨v, hv, hbudget, hlamps⟩ := configuredLamps_records (hi := hi) (lo := lo) (u := s.lamp) hsel hp h1 h15
    refine ⟨okTo p 0x1D#8 ((take s p).setLamp v) [], ?_, okTo_sending .., hbudget, hlamps⟩
    rw [hexec, configureLampRequest_some (s := take s p) hv, if_neg (by rw [show (take s p).store.save = none from hsave]; decide)]
    rfl
  case budget =>
    rw [hexec, configureLampRequest_some (s := take s p) (configuredLamps_budget hsel h16 h480), apply_ite (reply p 0x1D#8)]
    rfl

/-! ### The frame (R148 to R150) -/

theorem Table.toList_eq_map {α : Type} {n : Nat} (t : Table α n) : t.toList = (List.finRange n).map t.get := by
  apply List.ext_getElem
  · rw [List.length_map, List.length_finRange, t.length_eq]
  · intro i _ _
    rw [List.getElem_map, List.getElem_finRange]
    rfl

theorem targetOf_eq (priority : Priority) (a b : Option Nat) : targetOf priority a b = match priority with
    | .aOverB => (a.or b).getD 0
    | .bOverA => (b.or a).getD 0 := by
  cases priority <;> cases a <;> cases b <;> rfl

theorem rampOf_le (target ramp step : Nat) : rampOf target ramp step ≤ target := by
  unfold rampOf
  split
  · exact Nat.min_le_left _ _
  · exact Nat.le_refl _

theorem appliedOf_le {ramp sum budget : Nat} : appliedOf ramp sum budget ≤ ramp := by
  unfold appliedOf
  split
  · exact Nat.le_refl _
  · exact Nat.div_le_of_le_mul (by rw [Nat.mul_comm sum]; exact Nat.mul_le_mul_left _ (by omega))

/-- The applied levels stay within the budget: each is scaled down by the same ratio, and rounding loses. -/
theorem appliedOf_sum_le (ramps : List Nat) (budget : Nat) :
    (ramps.map fun r => appliedOf r ramps.sum budget).sum ≤ budget := by
  by_cases h : ramps.sum ≤ budget
  · have same : (ramps.map fun r => appliedOf r ramps.sum budget) = ramps := by
      simp only [appliedOf, if_pos h, List.map_id']
    rwa [same]
  · have scaled (l : List Nat) (sum : Nat) : (l.map fun r => r * budget / sum).sum * sum ≤ l.sum * budget := by
      induction l with
      | nil => simp
      | cons r l ih =>
        simp only [List.map_cons, List.sum_cons, Nat.add_mul]
        exact Nat.add_le_add (Nat.div_mul_le_self _ _) ih
    simp only [appliedOf, if_neg h]
    have hscaled := scaled ramps ramps.sum
    rw [Nat.mul_comm ramps.sum] at hscaled
    exact Nat.le_of_mul_le_mul_right hscaled (by omega)

theorem applied_sum_le {sum budget : Nat} {applied : LampId → Nat} (ramp : LampId → Nat) (hsum : sum = ((List.finRange 32).map ramp).sum)
    (happlied : ∀ l, applied l = appliedOf (ramp l) sum budget) : ((List.finRange 32).map applied).sum ≤ budget := by
  have hle := appliedOf_sum_le ((List.finRange 32).map ramp) budget
  rw [← hsum, List.map_map] at hle
  rwa [funext happlied]

theorem lampFrame_due {s : State} (h : s.lamp.frame = some 0) : lampFrame s = s.setLamp { s.lamp.image with frame := some 20 } :=
  if_pos (decide_eq_true h)

theorem lampFrame_early {s : State} (h : s.lamp.frame ≠ some 0) : lampFrame s = s := if_neg fun e => h (of_decide_eq_true e)

/-- The lamp unit once the layers armed for a frame are committed. -/
def LampUnit.committed (u : LampUnit) : LampUnit := { u with layers := u.layers.map fun x => x.commitIf .armedFrame }

/-- The lamp at its applied level. -/
def Lamp.lit (x : Lamp) (sum budget : Nat) : Lamp := { x with applied := appliedOf x.ramp sum budget }

theorem Lamp.lit_ramp (x : Lamp) (sum budget : Nat) : (x.lit sum budget).ramp = x.ramp := rfl

theorem Lamp.lit_applied (x : Lamp) (sum budget : Nat) : (x.lit sum budget).applied = appliedOf x.ramp sum budget := rfl

theorem image_lamp (u : LampUnit) (l : LampId) :
    u.image.lamps.get l = ((rampedLamps u.committed).get l).lit u.image.sum u.budget := Table.get_map ..

theorem image_sum (u : LampUnit) : u.image.sum = ((List.finRange 32).map fun l => ((rampedLamps u.committed).get l).ramp).sum := by
  rw [show u.image.sum = ((rampedLamps u.committed).toList.map Lamp.ramp).sum from rfl, Table.toList_eq_map, List.map_map]
  rfl

theorem rampedLamps_get (u : LampUnit) (l : LampId) : (rampedLamps u).get l =
    let x := u.lamps.get l
    let target := targetOf x.cfg.priority (u.layers.a.entry l) (u.layers.b.entry l)
    { x with target := target, ramp := rampOf target x.ramp x.cfg.rampStep } := Table.get_ofFn ..

/-- One lamp of a frame's image, from its entries in the committed layers. -/
theorem image_lamp_fields (u : LampUnit) (l : LampId) :
    let old := u.lamps.get l
    let new := u.image.lamps.get l
    let layers := u.committed.layers
    new.cfg = old.cfg ∧
    new.target = (match old.cfg.priority with
      | .aOverB => ((layers.a.entry l).or (layers.b.entry l)).getD 0
      | .bOverA => ((layers.b.entry l).or (layers.a.entry l)).getD 0) ∧
    new.ramp = (if old.ramp < new.target then min new.target (old.ramp + old.cfg.rampStep) else new.target) ∧
    new.applied = (if u.image.sum ≤ u.budget then new.ramp else new.ramp * u.budget / u.image.sum) ∧
    new.applied ≤ new.target := by
  have h := image_lamp u l
  rw [rampedLamps_get] at h
  generalize u.image.lamps.get l = new at h
  generalize u.image.sum = sum at h
  rw [h]
  exact ⟨rfl, targetOf_eq .., rfl, rfl, Nat.le_trans appliedOf_le (rampOf_le _ _ _)⟩

theorem image_ramp (u : LampUnit) (l : LampId) : (u.image.lamps.get l).ramp = ((rampedLamps u.committed).get l).ramp := by
  rw [image_lamp, Lamp.lit_ramp]

theorem image_sum_eq (u : LampUnit) : u.image.sum = ((List.finRange 32).map fun l => (u.image.lamps.get l).ramp).sum := by
  simp only [image_ramp]
  exact image_sum u

theorem image_applied (u : LampUnit) (l : LampId) :
    (u.image.lamps.get l).applied = appliedOf (u.image.lamps.get l).ramp u.image.sum u.budget := by
  rw [image_lamp, Lamp.lit_applied, Lamp.lit_ramp]

theorem image_applied_le (u : LampUnit) : ((List.finRange 32).map fun l => (u.image.lamps.get l).applied).sum ≤ u.budget :=
  applied_sum_le (fun l => (u.image.lamps.get l).ramp) (image_sum_eq u) (image_applied u)

/-- Settles O59: the frame's image, lamp by lamp and in sum. -/
theorem lampFrameStaysWithinTheBudget : Obligations.LampFrameStaysWithinTheBudget := by
  unfold Obligations.LampFrameStaysWithinTheBudget
  exact ⟨fun s h => congrArg Host.Outcome.next (lampFrame_early h), fun s h => ⟨s.setLamp { s.lamp.image with frame := some 20 },
    congrArg Host.Outcome.next (lampFrame_due h), rfl, fun p => PerPort.get_map .., image_lamp_fields s.lamp, rfl, rfl,
    image_sum_eq s.lamp, image_applied_le s.lamp⟩⟩

end Sys2Proof.Machine
end

section
/-! What removals and tests add to the wait list (R15, R46, R59): pull-ins and steps at its end, and nothing else. -/

namespace Sys2Proof.Machine

/-! ### Entries added behind the others -/

/-- An entry that the arbiter makes by itself: a step, or a pull-in of the channel's claims. -/
def OwnEntry (s : State) (e : Entry) : Prop :=
  (∃ t, e.work = .step t) ∨ ∃ origin, e.work = .pullIn origin ∧ origin ≠ .empty ∧ origin = (s.chan e.channel).claims

/-- The claims stay, and the list grows at its end by entries that the arbiter makes by itself. -/
structure Extends (s u : State) : Prop where
  claims : ∀ c, (u.chan c).claims = (s.chan c).claims
  added : ∃ added, u.arb.waitList = s.arb.waitList ++ added ∧ ∀ e ∈ added, OwnEntry u e

theorem OwnEntry.of_claims {s u : State} {e : Entry} (h : OwnEntry s e) (hc : ∀ c, (u.chan c).claims = (s.chan c).claims) :
    OwnEntry u e :=
  h.imp id fun ⟨origin, hw, hne, heq⟩ => ⟨origin, hw, hne, heq.trans (hc e.channel).symm⟩

namespace Extends

theorem of_same {s u : State} (hc : u.channels = s.channels) (hl : u.arb.waitList = s.arb.waitList) : Extends s u :=
  ⟨fun c => by rw [State.chan, hc]; rfl, [], by rw [hl, List.append_nil], fun _ he => by cases he⟩

theorem refl (s : State) : Extends s s := of_same rfl rfl

theorem trans {s u v : State} (a : Extends s u) (b : Extends u v) : Extends s v := by
  obtain ⟨first, hfirst, hown⟩ := a.added
  obtain ⟨second, hsecond, hown'⟩ := b.added
  refine ⟨fun c => (b.claims c).trans (a.claims c), first ++ second, by rw [hsecond, hfirst, List.append_assoc], fun e he => ?_⟩
  obtain he | he := List.mem_append.1 he
  · exact (hown e he).of_claims b.claims
  · exact hown' e he

theorem foldl {α : Type} {f : State → α → State} (h : ∀ s x, Extends s (f s x)) (l : List α) (s : State) :
    Extends s (l.foldl f s) := by
  induction l generalizing s with
  | nil => exact refl s
  | cons x l ih => exact (h s x).trans (ih _)

theorem setStepper (s : State) (t : StepperId) (x : Stepper) : Extends s (s.setStepper t x) := of_same rfl rfl

theorem bring (s : State) : Extends s (bring s) := of_same rfl rfl

theorem setFlagPorts (s : State) (ps : PortSet) (n : FlagName) (k : Option Nat) : Extends s (setFlagPorts s ps n k) :=
  of_same (setFlagPorts_channels s ps n k) (by rw [setFlagPorts_arb])

/-- A channel is written, its claims kept. -/
theorem setChan (s : State) {c : ChannelId} {x : Channel} (h : x.claims = (s.chan c).claims) : Extends s (s.setChan c x) := by
  refine ⟨fun d => ?_, [], by rw [List.append_nil]; rfl, fun _ he => by cases he⟩
  by_cases e : d = c
  · rw [e, State.chan_setChan_self, h]
  · rw [State.chan_setChan_ne _ _ _ _ e]

theorem setOwed (s : State) (c : ChannelId) (owed : Bool) : Extends s (s.setChan c { s.chan c with owed := owed }) := setChan s rfl

theorem enter (s : State) {e : Entry} (h : OwnEntry s e) : Extends s (enter s e) :=
  ⟨fun _ => rfl, [e], rfl, fun _ ho => by rw [List.mem_singleton.1 ho]; exact h⟩

theorem endTrain (s : State) (t : StepperId) : Extends s (endTrain s t) := by
  unfold Machine.endTrain
  dsimp only
  split
  · exact (setStepper s t _).trans (setFlagPorts _ _ _ _)
  · exact (setStepper s t _).trans (setFlagPorts _ _ _ _)
  all_goals exact refl s

theorem clampTrain (s : State) (t : StepperId) : Extends s (clampTrain s t) := by
  unfold Machine.clampTrain
  dsimp only
  split
  · exact (setStepper s t _).trans (endTrain _ t)
  all_goals exact refl s

theorem stepTestN (n : Nat) (s : State) (t : StepperId) : Extends s (stepTestN n s t) := by
  induction n generalizing s with
  | zero => exact refl s
  | succ n ih =>
    unfold Machine.stepTestN
    split
    · exact refl s
    · split
      · exact (clampTrain s t).trans (ih _)
      · split
        · exact setStepper s t _
        · exact (setStepper s t _).trans (enter _ (.inl ⟨t, rfl⟩))

theorem stepTest (s : State) (t : StepperId) : Extends s (stepTest s t) := stepTestN 3 s t

theorem makePullIn {s : State} {c : ChannelId} (h : (s.chan c).claims ≠ .empty) : Extends s (makePullIn s c) := by
  unfold Machine.makePullIn
  dsimp only
  refine (setOwed s c false).trans (enter _ (.inr ⟨(s.chan c).claims, rfl, h, ?_⟩))
  rw [State.chan_setChan_self]

theorem pullInTest (s : State) (c : ChannelId) : Extends s (pullInTest s c) := by
  unfold Machine.pullInTest
  split
  · obtain ⟨-, hclaims, -⟩ := (pullInCondition_iff s c).1 ‹_›
    split
    · exact setOwed s c true
    · exact makePullIn hclaims
  · exact refl s

theorem handoutChannel (s : State) (c : ChannelId) : Extends s (handoutChannel s c) := by
  unfold Machine.handoutChannel
  dsimp only
  split
  · split
    · obtain ⟨-, hclaims, -⟩ := (pullInCondition_iff _ c).1 ‹_›
      exact (setOwed s c false).trans (makePullIn hclaims)
    · exact setOwed s c false
  · exact refl s

theorem handoutStepper (s : State) (t : StepperId) : Extends s (handoutStepper s t) := by
  unfold Machine.handoutStepper
  split
  · exact (setStepper s t _).trans (stepTest _ t)
  · exact refl s

theorem handout (s : State) : Extends s (handout s) := (foldl handoutChannel _ s).trans (foldl handoutStepper _ _)

/-- An entry leaves, and what is made in its place stands behind those that stay. -/
theorem removeEntry (s : State) (e : Entry) : Extends (dropEntry s e.channel) (removeEntry s e) := by
  have placed := afterDrop (s := s) e (P := Extends (dropEntry s e.channel)) (refl _) (bring _) fun u hu => hu.trans (handout u)
  unfold Machine.removeEntry
  dsimp only
  split
  · exact placed
  all_goals exact placed.trans (pullInTest _ _)

/-- An entry that stands in the list still stands for its channel. -/
theorem entryOf {s u : State} (h : Extends s u) {c : ChannelId} {e : Entry} (he : entryOf s c = some e) : entryOf u c = some e := by
  obtain ⟨added, hadded, -⟩ := h.added
  rw [Machine.entryOf, hadded, List.find?_append, show s.arb.waitList.find? _ = _ from he]
  rfl

end Extends

theorem removeEntry_entryOf_ne {s : State} {e x : Entry} {d : ChannelId} (h : d ≠ e.channel) (hx : entryOf s d = some x) :
    entryOf (removeEntry s e) d = some x := by
  refine (Extends.removeEntry s e).entryOf ?_
  rw [entryOf, dropEntry]
  refine (List.find?_filter ..).trans ?_
  rw [← hx]
  refine congrArg (List.find? · s.arb.waitList) (funext fun o => ?_)
  by_cases ho : o.channel = d <;> simp [ho, h]

end Sys2Proof.Machine
end

section
/-! Home verification, homing and faults (R117, R118, R121), and a channel taken out of service (R17). -/

namespace Sys2Proof.Machine

/-! ### The look at the home switch -/

theorem mismatch_first {s : State} {t : StepperId} (h : (s.stepper t).mismatch < 2) :
    mismatch s t = s.setStepper t { s.stepper t with
      position := some (s.stepper t).cfg.homePos, mismatch := (s.stepper t).mismatch + 1 } := by
  have hmin : min 3 ((s.stepper t).mismatch + 1) = (s.stepper t).mismatch + 1 := by omega
  simp only [mismatch, hmin]
  exact if_neg (by omega)

theorem mismatch_third {s : State} {t : StepperId} (h : 2 ≤ (s.stepper t).mismatch) :
    mismatch s t = faultStepper (s.setStepper t { s.stepper t with
      position := some (s.stepper t).cfg.homePos, mismatch := 3 }) t false := by
  have hmin : min 3 ((s.stepper t).mismatch + 1) = 3 := by omega
  simp only [mismatch, hmin]
  exact if_pos (by omega)

theorem lookHome_unlooked {s : State} {t : StepperId} (h : (s.stepper t).cfg.home = none ∨ (s.stepper t).state = .faulted) :
    lookHome s t = s := by
  unfold lookHome
  dsimp only
  obtain h | h := h
  · rw [h]
  · cases (s.stepper t).cfg.home with
    | none => rfl
    | some w => simp only [h]

section
variable {s : State} {t : StepperId} {w : SwitchId} (hw : (s.stepper t).cfg.home = some w)
include hw

theorem lookHome_verifies (h : (s.stepper t).state = .idle ∨ ∃ train next, (s.stepper t).state = .running train next) :
    lookHome s t = verifyAgainst s t (s.input w).closed := by
  unfold lookHome
  dsimp only
  rw [hw]
  obtain h | ⟨train, next, h⟩ := h <;> simp only [h] <;> rfl

theorem lookHome_homes {origin : PortSet} {steps : Nat} (h : (s.stepper t).state = .homing origin steps) :
    lookHome s t = homingTest s t (s.input w).closed origin steps := by
  unfold lookHome
  dsimp only
  rw [hw]
  simp only [h]
  rfl

end

section
variable {s : State} {t : StepperId}

theorem verifyAgainst_found (h : (s.stepper t).position = none) :
    verifyAgainst s t true = s.setStepper t { s.stepper t with position := some (s.stepper t).cfg.homePos } := by
  simp only [verifyAgainst, h]

theorem verifyAgainst_unknown (h : (s.stepper t).position = none) : verifyAgainst s t false = s := by
  simp only [verifyAgainst, h]

/-- The switch agrees with a known position: closed at home, open elsewhere. -/
theorem verifyAgainst_agrees {pos : Nat} {closed : Bool} (h : (s.stepper t).position = some pos)
    (hagree : closed = true ↔ pos = (s.stepper t).cfg.homePos) :
    verifyAgainst s t closed = s.setStepper t { s.stepper t with mismatch := 0 } := by
  cases closed with
  | true => simp only [verifyAgainst, h, if_pos (hagree.1 rfl)]
  | false =>
    have haway : pos ≠ (s.stepper t).cfg.homePos := fun e => absurd (hagree.2 e) (by decide)
    simp only [verifyAgainst, h, if_neg haway]

/-- The switch disagrees with a known position: a slip or a miss. -/
theorem verifyAgainst_disagrees {pos : Nat} {closed : Bool} (h : (s.stepper t).position = some pos)
    (hagree : closed = true ↔ pos ≠ (s.stepper t).cfg.homePos) : verifyAgainst s t closed = mismatch s t := by
  cases closed with
  | true => simp only [verifyAgainst, h, if_neg (hagree.1 rfl)]
  | false =>
    have hhome : pos = (s.stepper t).cfg.homePos := not_not.1 fun e => absurd (hagree.2 e) (by decide)
    simp only [verifyAgainst, h, if_pos hhome]

end

/-! ### Faults (R118) -/

/-- The stepper once it is faulted. -/
def Stepper.faultedAs (x : Stepper) (unknown : Bool) : Stepper := { x with
  state := StepState.faulted
  position := if unknown = true then none else x.position
  last := match x.state with
    | .running train _ => some ⟨train.delivered, .fault⟩
    | .homing _ steps => some ⟨steps, .fault⟩
    | _ => x.last
  due := false
  inDrive := none }

theorem completed_fault (x : Stepper) : x.completed .fault = match x.state with
    | .running train _ => some ⟨train.delivered, .fault⟩
    | .homing _ steps => some ⟨steps, .fault⟩
    | _ => x.last := by
  unfold Stepper.completed
  cases x.state <;> rfl

theorem faultStepper_eq (s : State) (t : StepperId) (unknown : Bool) : faultStepper s t unknown =
    setFlagBoth (removeStepEntry (s.setStepper t ((s.stepper t).faultedAs unknown)) t) .stepperFault (some t.val) := by
  rw [Stepper.faultedAs, ← completed_fault]
  rfl

theorem faultStepper_stepper (s : State) (t : StepperId) (unknown : Bool) :
    (faultStepper s t unknown).stepper t = (s.stepper t).faultedAs unknown := by
  rw [faultStepper_eq, setFlagBoth, setFlagPorts_stepper, removeStepEntry_stepper] <;> rw [State.stepper_setStepper_self]
  rfl

theorem removeStepEntry_of_only {s : State} {t : StepperId} {e : Entry} (he : e ∈ s.arb.waitList) (hw : e.work = .step t)
    (honly : ∀ o ∈ s.arb.waitList, o.work = .step t → o = e) : removeStepEntry s t = removeEntry s e := by
  unfold removeStepEntry
  split
  · rename_i hnone
    exact absurd hw (by simpa using List.find?_eq_none.1 hnone e he)
  · rename_i o ho
    rw [honly o (List.mem_of_find?_eq_some ho) (by simpa using List.find?_some ho)]

/-! ### A channel taken out of service (R17) -/

theorem takeOut_eq (s : State) (c : ChannelId) : takeOut s c =
    if energised s c = true then attemptNow (s.setChan c ((s.chan c).out (stepBehind s c)))
    else s.setChan c ((s.chan c).out (stepBehind s c)) := rfl

theorem removeQuietly_none {s : State} {c : ChannelId} (h : entryOf s c = none) : removeQuietly s c = s := by
  rw [removeQuietly, h]

theorem removeQuietly_fire {s : State} {c : ChannelId} {e : Entry} {k : LinkId} {notified : PortSet} (h : entryOf s c = some e)
    (hw : e.work = .fire k notified) : removeQuietly s c = settle (removeEntry (s.setLink k { s.link k with
      entry := false, lost := min 65535 ((s.link k).lost + 1) }) e) := by
  have hreport : reportQuietly s e = loseFire s k := by simp only [reportQuietly, hw]
  rw [removeQuietly, h]
  dsimp only
  rw [hreport]
  rfl

theorem removeQuietly_other {s : State} {c : ChannelId} {e : Entry} (h : entryOf s c = some e)
    (hw : ∀ k notified, e.work ≠ .fire k notified) : removeQuietly s c = settle (removeEntry s e) := by
  have hreport : reportQuietly s e = s := by
    unfold reportQuietly
    split <;> try rfl
    rename_i k notified hfire
    exact absurd hfire (hw k notified)
  rw [removeQuietly, h]
  dsimp only
  rw [hreport]

theorem disableChannel_stepperOf (s : State) (c : ChannelId) :
    stepperOf (removeQuietly (takeOut s c) c) c = stepperOf s c :=
  ((CoilWork.takeOut s c).trans (CoilWork.removeQuietly _ c)).stepperOf c

/-- DISABLE CHANNEL of a channel in service. -/
theorem exec_disableChannel_inService {p : Port} {c : ChannelId} {s : State} (h : Ready p 0x04#8 [byte c.val] s)
    (hs : (s.chan c).state ≠ .disabled) :
    exec (.disableChannel p [byte c.val]) s = .next (okTo p 0x04#8 (disableChannel (take s p) c) []) := by
  rw [exec_ready h rfl rfl, ownRules, disableChannelRequest_channel, if_neg (show ((take s p).chan c).state ≠ .disabled from hs)]
  rfl

/-- Settles O60: the verification and the homing test by the switch and the position, the fault and its STEP entry, and what taking a channel
out of service does. -/
theorem homeVerificationHomingAndFaults : Obligations.HomeVerificationHomingAndFaults := by
  unfold Obligations.HomeVerificationHomingAndFaults
  refine ⟨fun t s => ⟨lookHome_unlooked, fun w hw => ⟨fun h => ?verifies, fun origin steps h => ?homes⟩⟩,
    fun t unknown s => ⟨faultStepper_eq s t unknown, faultStepper_stepper s t unknown, removeStepEntry_of_none,
      fun e he hwork honly => removeStepEntry_of_only he hwork honly⟩,
    fun p c s h hs => ⟨fun hnone => ?unnamed, fun t ht => ?named⟩,
    fun c s => ⟨fun hon => ?on, fun hoff => ?off, removeQuietly_none, fun e he => ⟨fun k notified => removeQuietly_fire he,
      removeQuietly_other he⟩⟩,
    fun e s => ⟨fun hs => removeEntry_entryOf (.inl (by rw [hs]; decide)), removeEntry_dropped s e,
      fun d hd x hx => removeEntry_entryOf_ne hd hx⟩⟩
  case verifies =>
    rw [lookHome_verifies hw h]
    refine ⟨fun hc hpos => ?_, fun hc hpos => ?_, fun hc hpos => ?_, fun pos hc hpos hne => ?_, fun pos hpos hagree => ⟨fun hm => ?_, fun hm => ?_⟩⟩
    · rw [hc, verifyAgainst_found hpos]
    · rw [hc, verifyAgainst_agrees hpos (iff_of_true rfl rfl)]
    · rw [hc, verifyAgainst_unknown hpos]
    · rw [hc, verifyAgainst_agrees hpos (iff_of_false (by decide) hne)]
    · rw [verifyAgainst_disagrees hpos hagree, mismatch_first hm]
    · rw [verifyAgainst_disagrees hpos hagree, mismatch_third hm]
  case homes =>
    rw [lookHome_homes hw h]
    refine ⟨fun hc => ?_, fun hc hlt => ?_, fun hc hle => ?_⟩
    · rw [hc]
      rfl
    · rw [hc, homingTest, if_neg Bool.false_ne_true, if_pos hlt]
    · rw [hc, homingTest, if_neg Bool.false_ne_true, if_neg (Nat.not_lt.2 hle)]
  case unnamed =>
    rw [exec_disableChannel_inService h hs, disableChannel, faultStepperOf, disableChannel_stepperOf,
      show stepperOf (take s p) c = none from hnone]
  case named =>
    rw [exec_disableChannel_inService h hs, disableChannel, faultStepperOf, disableChannel_stepperOf,
      show stepperOf (take s p) c = some t from ht]
  case on =>
    rw [takeOut_eq, if_pos ((energised_iff s c).2 hon), stepBehind_eq]
    rfl
  case off =>
    rw [takeOut_eq, if_neg (mt (energised_iff s c).1 hoff), stepBehind_eq]
    rfl

end Sys2Proof.Machine
end

section
/-! Coil work raises flags and clears none (R160): a flag that is set stays set. -/

namespace Sys2Proof.Machine

/-- Every flag that is set in `s` is set in `t`. -/
def FlagsStand (s t : State) : Prop := ∀ q i, ((s.latch q).get i).isSome = true → ((t.latch q).get i).isSome = true

namespace FlagsStand

theorem of_latches {s t : State} (h : t.latches = s.latches) : FlagsStand s t := fun q i hi => by rwa [State.latch, h]

theorem refl (s : State) : FlagsStand s s := of_latches rfl

theorem trans {s t u : State} (a : FlagsStand s t) (b : FlagsStand t u) : FlagsStand s u := fun q i hi => b q i (a q i hi)

theorem foldl {α : Type} {f : State → α → State} (h : ∀ s x, FlagsStand s (f s x)) (l : List α) (s : State) :
    FlagsStand s (l.foldl f s) := by
  induction l generalizing s with
  | nil => exact refl s
  | cons x l ih => exact (h s x).trans (ih _)

/-! ### Flags -/

theorem setFlagReason (s : State) (p : Port) (n : FlagName) (k : Option Nat) (r : Option DropReason) :
    FlagsStand s (setFlagReason s p n k r) := by
  intro q i hi
  by_cases hq : q = p
  · subst hq
    rw [setFlagReason_latch_self, Table.get_modify]
    split
    · exact raiseFlag_isSome _ _ _
    · exact hi
  · rwa [setFlagReason_latch_ne _ _ _ _ hq]

theorem setFlagPorts (s : State) (ps : PortSet) (n : FlagName) (k : Option Nat) : FlagsStand s (setFlagPorts s ps n k) := by
  have first : FlagsStand s (if ps.a then setFlag s .a n k else s) := by
    split
    · exact setFlagReason s _ _ _ _
    · exact refl s
  unfold Machine.setFlagPorts
  dsimp only
  split
  · exact first.trans (setFlagReason _ _ _ _ _)
  · exact first

theorem setFlagBoth (s : State) (n : FlagName) (k : Option Nat) : FlagsStand s (setFlagBoth s n k) := setFlagPorts s _ n k

theorem dropPulse (s : State) (ps : PortSet) (c : ChannelId) (r : DropReason) : FlagsStand s (dropPulse s ps c r) := by
  have first : FlagsStand s (if ps.a then Machine.setFlagReason s .a .pulseDropped (some c.val) (some r) else s) := by
    split
    · exact setFlagReason s _ _ _ _
    · exact refl s
  unfold Machine.dropPulse
  dsimp only
  split
  · exact first.trans (setFlagReason _ _ _ _ _)
  · exact first

/-! ### Trains, places and removals -/

theorem setStepper (s : State) (t : StepperId) (x : Stepper) : FlagsStand s (s.setStepper t x) := of_latches rfl

theorem endTrain (s : State) (t : StepperId) : FlagsStand s (endTrain s t) := by
  unfold Machine.endTrain
  dsimp only
  split
  · exact (setStepper s t _).trans (setFlagPorts _ _ _ _)
  · exact (setStepper s t _).trans (setFlagPorts _ _ _ _)
  all_goals exact refl s

theorem clampTrain (s : State) (t : StepperId) : FlagsStand s (clampTrain s t) := by
  unfold Machine.clampTrain
  dsimp only
  split
  · exact (setStepper s t _).trans (endTrain _ t)
  all_goals exact refl s

theorem stepTestN (n : Nat) (s : State) (t : StepperId) : FlagsStand s (stepTestN n s t) := by
  induction n generalizing s with
  | zero => exact refl s
  | succ n ih =>
    unfold Machine.stepTestN
    split
    · exact refl s
    · split_ifs
      · exact (clampTrain s t).trans (ih _)
      · exact setStepper s t _
      · exact of_latches rfl

theorem stepTest (s : State) (t : StepperId) : FlagsStand s (stepTest s t) := stepTestN 3 s t

theorem pullInTest (s : State) (c : ChannelId) : FlagsStand s (pullInTest s c) := by
  unfold Machine.pullInTest
  split_ifs <;> exact of_latches rfl

theorem handoutChannel (s : State) (c : ChannelId) : FlagsStand s (handoutChannel s c) := by
  unfold Machine.handoutChannel
  dsimp only
  split_ifs <;> exact of_latches rfl

theorem handoutStepper (s : State) (t : StepperId) : FlagsStand s (handoutStepper s t) := by
  unfold Machine.handoutStepper
  split
  · exact (setStepper s t _).trans (stepTest _ t)
  · exact refl s

theorem handout (s : State) : FlagsStand s (handout s) := (foldl handoutChannel _ s).trans (foldl handoutStepper _ _)

theorem freed (s t : State) : FlagsStand t (freed s t) := by
  unfold Machine.freed
  split
  · exact handout t
  · exact refl t

theorem removeEntry (s : State) (e : Entry) : FlagsStand s (removeEntry s e) := by
  have placed := afterDrop (s := s) e (P := FlagsStand s) (of_latches rfl) (of_latches rfl) fun u hu => hu.trans (handout u)
  unfold Machine.removeEntry
  dsimp only
  split
  · exact placed
  all_goals exact placed.trans (pullInTest _ _)

theorem reportDropped (s : State) (e : Entry) (r : DropReason) : FlagsStand s (reportDropped s e r) := by
  unfold Machine.reportDropped
  split
  · exact dropPulse s _ _ _
  · split
    · exact dropPulse s _ _ _
    · exact refl s
  · exact (of_latches rfl : FlagsStand s (loseFire s _)).trans (dropPulse _ _ _ _)
  · exact refl s

/-! ### Heat and grants -/

theorem setThermal (s : State) (c : ChannelId) (x : Thermal) : FlagsStand s (setThermal s c x) := by
  unfold Machine.setThermal
  dsimp only
  split
  · exact (of_latches rfl : FlagsStand s (s.setHeat c _)).trans (setFlagBoth _ _ _)
  · exact of_latches rfl

theorem noteCutoff (s : State) (c : ChannelId) : FlagsStand s (noteCutoff s c) :=
  (of_latches rfl : FlagsStand s (s.setHeat c _)).trans (setFlagBoth _ _ _)

theorem heatCheck (s : State) (c : ChannelId) (w : Nat) : FlagsStand s (heatCheck s c w).1 := by
  unfold Machine.heatCheck
  dsimp only
  split
  · exact (setThermal s c .cutoff).trans (noteCutoff _ c)
  · exact (of_latches rfl : FlagsStand s (s.setHeat c _)).trans (setThermal _ c _)

theorem offerTrain (s : State) (t : StepperId) (dir : Direction) (k : Nat) (origin : Origin) (counted : Bool) :
    FlagsStand s (offerTrain s t dir k origin counted).1 := by
  have away : FlagsStand s (if counted then s.setStepper t ((s.stepper t).lose k) else s) := by
    split
    · exact setStepper s t _
    · exact refl s
  unfold Machine.offerTrain
  dsimp only
  split
  · exact away
  · split
    · exact away
    · exact away
    · split
      · exact away
      · exact (setStepper s t _).trans (stepTest _ t)
    · split
      · exact away
      · exact setStepper s t _
    · split
      · exact away
      · split
        · exact setStepper s t _
        · exact away

theorem grantFire (s : State) (k : LinkId) : FlagsStand s (grantFire s k) := by
  have offered (x : Link) (t : StepperId) (n : Nat) :
      FlagsStand s (Machine.offerTrain (s.setLink k x) t .up n ⟨.empty, true⟩ true).1 :=
    (of_latches rfl : FlagsStand s (s.setLink k x)).trans (offerTrain _ t .up n ⟨.empty, true⟩ true)
  unfold Machine.grantFire
  dsimp only
  split
  · exact of_latches rfl
  · split
    · exact (offered _ _ _).trans (of_latches rfl)
    · exact offered _ _ _

theorem grant (s : State) (e : Entry) (w : Nat) : FlagsStand s (grant s e w) := by
  have drive : FlagsStand s (grantedDrive s e w) := of_latches rfl
  cases hw : e.work with
  | pulse origin => rw [grant_of_port w (.inl hw)]; exact drive.trans (freed s _)
  | pullIn origin => rw [grant_of_port w (.inr hw)]; exact drive.trans (freed s _)
  | fire k notified => rw [grant_of_fire w hw]; exact (drive.trans (freed s _)).trans (grantFire _ k)
  | step t =>
    have stepped : FlagsStand (grantedDrive s e w) (grantStep (grantedDrive s e w) t e.channel) := of_latches rfl
    rw [grant_of_step w hw]
    exact (drive.trans stepped).trans (freed s _)

/-! ### Attempts -/

theorem walk (l failed passed : List ChannelId) (s : State) : FlagsStand s (walk l failed passed s).1 := by
  induction l generalizing failed passed s with
  | nil => exact refl s
  | cons d rest ih =>
    cases he : entryOf s d with
    | none => rw [walk_without rest failed passed he]; exact ih _ _ s
    | some e =>
      by_cases hfit : fits s d = true
      · have checked := heatCheck s d e.width
        cases hq : (Machine.heatCheck s d e.width).2 with
        | none =>
          rw [walk_refused rest failed passed he hfit hq]
          exact (checked.trans ((reportDropped _ e .hot).trans (removeEntry _ e))).trans (ih _ _ _)
        | some w =>
          rw [walk_granted rest failed passed he hfit hq]
          exact (checked.trans (grant _ e w)).trans (ih _ _ _)
      · by_cases hp : e.passed = 4
        · rw [walk_blocked rest failed passed he hfit hp]; exact refl s
        · rw [walk_misfit rest failed passed he hfit hp]; exact ih _ _ s

theorem attempt (s : State) : FlagsStand s (attempt s) :=
  (walk (selection s) [] [] s).trans (of_latches rfl : FlagsStand _ (raisePassed _ _))

theorem settleN (n : Nat) (s : State) : FlagsStand s (settleN n s) := by
  induction n generalizing s with
  | zero => exact of_latches rfl
  | succ n ih =>
    unfold Machine.settleN
    split
    · exact refl s
    · have fewer : FlagsStand s (s.setArb { s.arb with attempts := s.arb.attempts - 1 }) := of_latches rfl
      exact (fewer.trans (attempt _)).trans (ih _)

theorem settle (s : State) : FlagsStand s (settle s) := settleN 49 s

theorem attemptNow (s : State) : FlagsStand s (attemptNow s) := (of_latches rfl : FlagsStand s (bring s)).trans (settle _)

/-! ### Steppers -/

theorem removeStepEntry (s : State) (t : StepperId) : FlagsStand s (removeStepEntry s t) := by
  unfold Machine.removeStepEntry
  split
  · exact refl s
  · exact removeEntry s _

theorem faultStepper (s : State) (t : StepperId) (unknown : Bool) : FlagsStand s (faultStepper s t unknown) :=
  ((setStepper s t _).trans (removeStepEntry _ t)).trans (setFlagBoth _ .stepperFault (some t.val))

theorem mismatch (s : State) (t : StepperId) : FlagsStand s (mismatch s t) := by
  unfold Machine.mismatch
  dsimp only
  split
  · exact (setStepper s t _).trans (faultStepper _ t false)
  · exact setStepper s t _

theorem verifyAgainst (s : State) (t : StepperId) (closed : Bool) : FlagsStand s (verifyAgainst s t closed) := by
  unfold Machine.verifyAgainst
  dsimp only
  split
  · exact setStepper s t _
  · split
    · exact setStepper s t _
    · exact mismatch s t
  · exact refl s
  · split
    · exact mismatch s t
    · exact setStepper s t _

theorem homingTest (s : State) (t : StepperId) (closed : Bool) (origin : PortSet) (steps : Nat) :
    FlagsStand s (homingTest s t closed origin steps) := by
  unfold Machine.homingTest Machine.homeFound
  split_ifs
  · exact (setStepper s t _).trans (setFlagPorts _ _ _ _)
  · exact refl s
  · exact faultStepper s t true

theorem lookHome (s : State) (t : StepperId) : FlagsStand s (lookHome s t) := by
  unfold Machine.lookHome
  dsimp only
  split
  · exact refl s
  · split
    · exact verifyAgainst s t _
    · exact verifyAgainst s t _
    · exact homingTest s t _ _ _
    · exact refl s

theorem stepperIdle (s : State) (t : StepperId) (afterStep : Bool) : FlagsStand s (stepperIdle s t afterStep) := by
  unfold Machine.stepperIdle
  split
  · exact (lookHome s t).trans (stepTest _ t)
  · exact stepTest s t

/-! ### Releases and flippers -/

theorem reportIdle (s : State) (c : ChannelId) (after : Option StepperId) : FlagsStand s (reportIdle s c after) := by
  unfold Machine.reportIdle
  dsimp only
  split
  · exact (attemptNow s).trans ((pullInTest _ c).trans (settle _))
  · exact (attemptNow s).trans (((stepperIdle _ _ _).trans (settle _)).trans ((pullInTest _ c).trans (settle _)))

theorem release (s : State) (c : ChannelId) : FlagsStand s (release s c) := by
  have told : FlagsStand s (Machine.attemptNow (rest s c none)) := (of_latches rfl : FlagsStand s (rest s c none)).trans (attemptNow _)
  unfold Machine.release
  dsimp only
  split
  · exact told.trans (reportIdle _ c none)
  · exact told

theorem releaseIfOn (s : State) (c : ChannelId) : FlagsStand s (releaseIfOn s c) := by
  unfold Machine.releaseIfOn
  split
  · exact release s c
  · exact refl s

theorem endFlipperDrives (s : State) (f : FlipperId) : FlagsStand s (endFlipperDrives s f) := by
  have power : FlagsStand s (match (s.flip f).cfg.power with | none => s | some c => Machine.releaseIfOn s c) := by
    split
    · exact refl s
    · exact releaseIfOn s _
  unfold Machine.endFlipperDrives
  dsimp only
  split
  · exact power
  · exact power.trans (releaseIfOn _ _)

theorem block (s : State) (f : FlipperId) : FlagsStand s (block s f) :=
  (of_latches rfl : FlagsStand s (s.setFlip f _)).trans (setFlagBoth _ .flipperFault (some f.val))

theorem flipperHoldCut (s : State) (f : FlipperId) : FlagsStand s (flipperHoldCut s f) := by
  unfold Machine.flipperHoldCut
  split
  · exact block s f
  · exact (endFlipperDrives s f).trans (block _ f)
  all_goals exact refl s

end FlagsStand

end Sys2Proof.Machine
end

section
/-! The cooling interval (R62 to R64, R72) and CLEAR STATS (R77): what each step of the interval makes of its channel. -/

namespace Sys2Proof.Machine

/-! ### Decay, duty and load (R1, R37, R62) -/

theorem decayed_lt {h d : Nat} (hh : 0 < h) (hd : d ≤ 255) : decayed h d < h := by
  rw [decayed, if_neg (Nat.ne_of_gt hh)]
  have share : h * d / 1024 < h := Nat.div_lt_of_lt_mul (by nlinarith)
  omega

theorem holdLoad_eq (w d : Nat) : holdLoad w d = (w * d + 15) / 16 := rfl

theorem holdLoad_mono (w : Nat) {d e : Nat} (h : d ≤ e) : holdLoad w d ≤ holdLoad w e := ceilDiv_mono (Nat.mul_le_mul_left w h) 16

theorem load_of_hold {x : Channel} (h : x.state = .hold) : x.load = holdLoad x.coil.weight x.heat.dEff := by
  rw [Channel.load, h]
  rfl

/-- No duty above the one found has room. -/
theorem le_largestDuty {weight room old asked d : Nat} (hd : d ≤ asked) (hold : old ≤ d) (hroom : holdLoad weight d ≤ room) :
    d ≤ largestDuty weight room old asked := by
  have grows (l : List Nat) (best : Nat) :
      let found := l.foldl (fun best d => if old ≤ d && holdLoad weight d ≤ room then max best d else best) best
      best ≤ found ∧ (d ∈ l → d ≤ found) := by
    induction l generalizing best with
    | nil => exact ⟨le_rfl, fun h => by cases h⟩
    | cons e l ih =>
      obtain ⟨above, found⟩ := ih (if old ≤ e && holdLoad weight e ≤ room then max best e else best)
      refine ⟨le_trans ?_ above, fun h => ?_⟩
      · split <;> omega
      · obtain rfl | h := List.mem_cons.1 h
        · refine le_trans ?_ above
          rw [if_pos (by simp [hold, hroom])]
          exact le_max_right best d
        · exact found h
  exact (grows _ old).2 (List.mem_range.2 (Nat.lt_succ_of_le hd))

theorem appliedDuty_eq {s : State} {c : ChannelId} (asked : Nat) (h : (s.chan c).state = .hold) :
    let load := holdLoad (s.chan c).coil.weight
    let room := load (s.chan c).heat.dEff + (s.supply.cfg.budget - s.supply.cfg.reserve - s.arb.general)
    appliedDuty s c asked =
      if (s.chan c).coil.cls = .flipper ∨ load asked ≤ load (s.chan c).heat.dEff ∨ load asked ≤ room then asked
      else largestDuty (s.chan c).coil.weight room (s.chan c).heat.dEff asked := by
  unfold appliedDuty
  simp only [load_of_hold h, Bool.or_eq_true, decide_eq_true_eq, or_assoc, generalPool]

/-- A rise that finds no room goes as far as the room (R37). -/
theorem appliedDuty_limited {s : State} {c : ChannelId} {asked : Nat} (h : (s.chan c).state = .hold)
    (hcls : (s.chan c).coil.cls ≠ .flipper) :
    let load := holdLoad (s.chan c).coil.weight
    let room := load (s.chan c).heat.dEff + (s.supply.cfg.budget - s.supply.cfg.reserve - s.arb.general)
    room < load asked → (s.chan c).heat.dEff ≤ appliedDuty s c asked ∧ appliedDuty s c asked < asked ∧
      load (appliedDuty s c asked) ≤ room ∧ ∀ d, appliedDuty s c asked < d → d ≤ asked → room < load d := by
  intro load room hroom
  have fits : load (s.chan c).heat.dEff ≤ room := Nat.le_add_right _ _
  have applied : appliedDuty s c asked = largestDuty (s.chan c).coil.weight room (s.chan c).heat.dEff asked := by
    refine (appliedDuty_eq asked h).trans (if_neg ?_)
    simp only [hcls, false_or, not_or, Nat.not_le]
    exact ⟨fits.trans_lt hroom, hroom⟩
  have spec := largestDuty_spec (s.chan c).coil.weight room (s.chan c).heat.dEff asked
  rw [← applied] at spec
  have atLeast : (s.chan c).heat.dEff ≤ appliedDuty s c asked := by
    obtain heq | ⟨hle, -, -⟩ := spec
    · exact heq.ge
    · exact hle
  have withinRoom : load (appliedDuty s c asked) ≤ room := by
    obtain heq | ⟨-, -, hle⟩ := spec
    · rw [heq]; exact fits
    · exact hle
  refine ⟨atLeast, ?_, withinRoom, fun d hlt hd => ?_⟩
  · by_contra hge
    exact absurd (holdLoad_mono _ (Nat.not_lt.1 hge)) (Nat.not_le.2 (withinRoom.trans_lt hroom))
  · by_contra hle
    have found := le_largestDuty hd (atLeast.trans hlt.le) (Nat.not_lt.1 hle)
    rw [← applied] at found
    omega

/-- The duty applied depends on the held channel's record and duty, the supply record and the general load alone. -/
theorem appliedDuty_congr {s t : State} {c : ChannelId} (asked : Nat) (hcoil : (t.chan c).coil = (s.chan c).coil)
    (hs : (s.chan c).state = .hold) (ht : (t.chan c).state = .hold) (hd : (t.chan c).heat.dEff = (s.chan c).heat.dEff)
    (hsupply : t.supply = s.supply) (hload : t.arb.general = s.arb.general) : appliedDuty t c asked = appliedDuty s c asked := by
  rw [appliedDuty_eq asked ht, appliedDuty_eq asked hs, hcoil, hd, hsupply, hload]

/-! ### Thermal state, band time and peak (R64, R70, R75) -/

/-- The statistics after an interval that ends in the thermal state `t` at the heat `h`. -/
def HeatStats.spent (x : HeatStats) (t : Thermal) (h : Nat) : HeatStats := { x with
  peak := max x.peak h
  bandNormal := if t = .normal then min 16777215 (x.bandNormal + 1) else x.bandNormal
  bandWarm := if t = .warm then min 16777215 (x.bandWarm + 1) else x.bandWarm
  bandLimited := if t = .limited then min 16777215 (x.bandLimited + 1) else x.bandLimited
  bandCutoff := if t = .cutoff then min 16777215 (x.bandCutoff + 1) else x.bandCutoff }

theorem HeatStats.spend_eq (x : HeatStats) (t : Thermal) (h : Nat) : { x.spend t with peak := max x.peak h } = x.spent t h := by
  cases t <;> rfl

/-- The heat that the record of an interval leaves. -/
def Heat.recorded (x : Heat) (r : CoilRecord) : Heat := { x with
  thermal := cooledThermal r x
  stats := x.stats.spent (cooledThermal r x) x.h }

theorem setFlagPorts_setChan (s : State) (c : ChannelId) (x : Channel) (ps : PortSet) (n : FlagName) (k : Option Nat) :
    setFlagPorts (s.setChan c x) ps n k = (setFlagPorts s ps n k).setChan c x := by
  obtain ⟨a, b⟩ := ps
  cases a <;> cases b <;> rfl

theorem setThermal_eq (s : State) (c : ChannelId) (t : Thermal) :
    let u := s.setChan c { s.chan c with heat := { (s.chan c).heat with thermal := t } }
    setThermal s c t = if (s.chan c).heat.thermal = .normal ∧ t ≠ .normal then setFlagBoth u .heatWarn (some c.val) else u := by
  unfold setThermal
  simp only [State.setHeat_eq, Bool.and_eq_true, decide_eq_true_eq]

theorem recordInterval_eq (s : State) (c : ChannelId) :
    let x := s.chan c
    let u := s.setChan c { x with heat := x.heat.recorded x.coil }
    recordInterval s c =
      if x.heat.thermal = .normal ∧ cooledThermal x.coil x.heat ≠ .normal then setFlagBoth u .heatWarn (some c.val) else u := by
  intro x u
  have written : recordInterval s c = (setThermal s c (cooledThermal x.coil x.heat)).setChan c { x with heat := x.heat.recorded x.coil } := by
    unfold recordInterval
    dsimp only
    rw [State.setHeat_eq, setThermal_chan_self]
    simp only [HeatStats.spend_eq]
    rfl
  rw [written, setThermal_eq]
  split_ifs
  · rw [setFlagBoth, ← setFlagPorts_setChan, State.setChan_setChan]
    rfl
  · rw [State.setChan_setChan]

theorem recordInterval_chan (s : State) (c d : ChannelId) :
    (recordInterval s c).chan d = if d = c then { s.chan c with heat := (s.chan c).heat.recorded (s.chan c).coil } else s.chan d := by
  rw [recordInterval_eq]
  split
  · rw [setFlagBoth_chan, chan_setChan]
  · rw [chan_setChan]

/-! ### A channel that is not held -/

/-- The heat after a cooling interval without a hold. -/
def Channel.cooled (x : Channel) : Heat := { x.heat with h := decayed x.heat.h x.coil.decay }.recorded x.coil

/-- The decay and the record of the interval at a channel that is not held. -/
theorem cooledInterval_eq (s : State) (c : ChannelId) :
    let x := s.chan c
    let u := s.setChan c { x with heat := x.cooled }
    recordInterval (s.setHeat c { x.heat with h := decayed x.heat.h x.coil.decay }) c =
      if x.heat.thermal = .normal ∧ x.cooled.thermal ≠ .normal then setFlagBoth u .heatWarn (some c.val) else u := by
  intro x u
  rw [recordInterval_eq]
  simp only [State.setHeat_eq, State.setChan_setChan, State.chan_setChan_self]
  rfl

theorem cooledInterval_chan (s : State) (c d : ChannelId) :
    (recordInterval (s.setHeat c { (s.chan c).heat with h := decayed (s.chan c).heat.h (s.chan c).coil.decay }) c).chan d =
      if d = c then { s.chan c with heat := (s.chan c).cooled } else s.chan d := by
  rw [recordInterval_chan, setHeat_chan_self, setHeat_chan]
  split <;> rfl

theorem Channel.cooled_thermal_of_cutoff {x : Channel} (h : x.heat.thermal = .cutoff) :
    x.cooled.thermal ≠ .cutoff ↔ decayed x.heat.h x.coil.decay ≤ x.coil.resume := by
  have cases : x.cooled.thermal = if decayed x.heat.h x.coil.decay ≤ x.coil.resume then .normal else .cutoff := if_pos h
  rw [cases]
  split_ifs <;> simp_all

theorem coolChannel_of_not_held {s : State} {c : ChannelId} (h : (s.chan c).state ≠ .hold) :
    let x := s.chan c
    let v := recordInterval (s.setHeat c { x.heat with h := decayed x.heat.h x.coil.decay }) c
    coolChannel s c = if x.heat.thermal = .cutoff ∧ decayed x.heat.h x.coil.decay ≤ x.coil.resume then leaveCutoff v c else v := by
  intro x v
  have reached : inCutoff v c = true ↔ x.cooled.thermal = .cutoff := by
    rw [inCutoff_iff, cooledInterval_chan, if_pos rfl]
  have leaves : (x.heat.thermal = .cutoff && !inCutoff v c) = true ↔
      x.heat.thermal = .cutoff ∧ decayed x.heat.h x.coil.decay ≤ x.coil.resume := by
    rw [Bool.and_eq_true, decide_eq_true_eq, Bool.not_eq_true', ← Bool.not_eq_true, reached]
    exact and_congr_right fun hc => Channel.cooled_thermal_of_cutoff hc
  unfold coolChannel
  simp only [if_neg h]
  rw [if_neg (by simp [h])]
  exact if_congr leaves rfl rfl

/-- Outside HOLD and CUTOFF the interval writes the channel's heat alone, in the latches HEAT_WARN at most. -/
theorem coolChannel_chan {s : State} {c : ChannelId} (hs : (s.chan c).state ≠ .hold) (hc : (s.chan c).heat.thermal ≠ .cutoff)
    (d : ChannelId) : (coolChannel s c).chan d = if d = c then { s.chan c with heat := (s.chan c).cooled } else s.chan d := by
  rw [coolChannel_of_not_held hs, if_neg fun h => hc h.1, cooledInterval_chan]

theorem foldl_coolChannel_chan {l : List ChannelId} (hl : l.Nodup) {s : State}
    (h : ∀ c ∈ l, (s.chan c).state ≠ .hold ∧ (s.chan c).heat.thermal ≠ .cutoff) (d : ChannelId) :
    (l.foldl coolChannel s).chan d = if d ∈ l then { s.chan d with heat := (s.chan d).cooled } else s.chan d := by
  induction l generalizing s with
  | nil => rfl
  | cons c l ih =>
    obtain ⟨hnot, hl⟩ := List.nodup_cons.1 hl
    obtain ⟨hs, hc⟩ := h c List.mem_cons_self
    have others (e : ChannelId) (he : e ≠ c) : (coolChannel s c).chan e = s.chan e := by rw [coolChannel_chan hs hc, if_neg he]
    have still : ∀ e ∈ l, ((coolChannel s c).chan e).state ≠ .hold ∧ ((coolChannel s c).chan e).heat.thermal ≠ .cutoff :=
      fun e he => by
        rw [others e fun heq => hnot (heq ▸ he)]
        exact h e (List.mem_cons_of_mem _ he)
    rw [List.foldl_cons, ih hl still]
    by_cases hd : d = c
    · subst hd
      rw [if_neg hnot, if_pos List.mem_cons_self, coolChannel_chan hs hc, if_pos rfl]
    · rw [others d hd]
      simp only [List.mem_cons, hd, false_or]

/-! ### A held channel (R37, R63, R64) -/

/-- What the hold figures leave of the channel: the duty applied and the accrual. -/
theorem holdFigures_chan {s : State} {c : ChannelId} (h : (s.chan c).state = .hold) :
    let x := s.chan c
    let a := appliedDuty s c (derate x.coil x.heat.h)
    ∃ owed, (holdFigures s c).chan c = { x with
      owed := owed, heat := { x.heat with h := min 65535 (x.heat.h + 10 * x.coil.gain * a / 16), dEff := a } } := by
  intro x a
  have told : Kept c (s.setHeat c { x.heat with dEff := a })
      (if ((s.setHeat c { x.heat with dEff := a }).chan c).load < x.load then attemptNow (s.setHeat c { x.heat with dEff := a })
        else s.setHeat c { x.heat with dEff := a }) := by
    split
    · refine .attemptNow (.inl ?_)
      rw [setHeat_chan_self, h]
      exact ChanState.noConfusion
    · exact .refl _
  obtain ⟨owed, howed⟩ := told
  refine ⟨owed, ?_⟩
  unfold holdFigures
  dsimp only
  rw [setHeat_chan_self, howed, setHeat_chan_self]
  rfl

/-- A held channel's record at the end of the interval, before a cutoff ends the hold. -/
theorem heldInterval_chan {s : State} {c : ChannelId} (safe : Safe s) (h : (s.chan c).state = .hold) :
    let x := s.chan c
    let h := decayed x.heat.h x.coil.decay
    let a := appliedDuty s c (derate x.coil h)
    ∃ owed, (recordInterval (holdFigures (s.setHeat c { x.heat with h := h }) c) c).chan c = { x with
      owed := owed
      heat := { x.heat with h := min 65535 (h + 10 * x.coil.gain * a / 16), dEff := a }.recorded x.coil } := by
  intro x y a
  have decays : (s.setHeat c { x.heat with h := y }).chan c = { x with heat := { x.heat with h := y } } := setHeat_chan_self _ _ _
  have duty : appliedDuty (s.setHeat c { x.heat with h := y }) c (derate x.coil y) = a :=
    appliedDuty_congr _ (by rw [decays]) h (by rw [decays]; exact h) (by rw [decays]) rfl (congrArg Arbiter.general (setHeat_arb safe rfl))
  obtain ⟨owed, figures⟩ := holdFigures_chan (s := s.setHeat c { x.heat with h := y }) (c := c) (by rw [decays]; exact h)
  rw [decays] at figures
  refine ⟨owed, ?_⟩
  rw [recordInterval_chan, if_pos rfl, figures, ← duty]

theorem coolChannel_of_held {s : State} {c : ChannelId} (h : (s.chan c).state = .hold) (hc : (s.chan c).heat.thermal ≠ .cutoff) :
    let x := s.chan c
    let v := recordInterval (holdFigures (s.setHeat c { x.heat with h := decayed x.heat.h x.coil.decay }) c) c
    coolChannel s c = if (v.chan c).heat.thermal = .cutoff then cutHold v c else v := by
  intro x v
  unfold coolChannel
  simp only [h, hc, decide_true, decide_false, Bool.true_and, Bool.false_and]
  exact if_congr (inCutoff_iff _ _) rfl rfl

/-! ### The end of a hold in CUTOFF (R64, R89, R91) -/

theorem release_chan_of_cutoff {s : State} {c : ChannelId} (h : (s.chan c).heat.thermal = .cutoff) :
    ∃ owed, (release s c).chan c = { (s.chan c).rested none with owed := owed } := by
  have rested : (rest s c none).chan c = (s.chan c).rested none := State.chan_setChan_self _ _ _
  have barred : Barred (rest s c none) c := .inr (by rw [rested]; exact h)
  have told : Shut c (rest s c none) (release s c) := by
    unfold release
    dsimp only
    split
    · exact (Shut.attemptNow _).trans (.reportIdle _ c none)
    · exact .attemptNow _
  rw [← rested]
  exact told.kept barred

/-- Ending a flipper's drives keeps a channel that is out of HOLD and DRIVE and that no attempt may drive. -/
theorem endFlipperDrives_kept {s : State} {c : ChannelId} (f : FlipperId) (b : Barred s c) (h : energised s c = false) :
    Kept c s (endFlipperDrives s f) := by
  have releases (d : Option ChannelId) {u : State} (hu : Barred u c) (hoff : energised u c = false) :
      Kept c u (match d with | none => u | some d => releaseIfOn u d) := by
    cases d with
    | none => exact .refl u
    | some d =>
      by_cases hon : energised u d = true
      · rw [show (match some d with | none => u | some d => releaseIfOn u d) = release u d from releaseIfOn_on hon]
        exact (Shut.release u fun e => by rw [e, hoff] at hon; cases hon).kept hu
      · exact .of_chan (by rw [show (match some d with | none => u | some d => releaseIfOn u d) = u from releaseIfOn_off hon])
  have power := releases (s.flip f).cfg.power b h
  refine power.trans (releases (s.flip f).cfg.hold (power.barred b) ?_)
  simpa only [energised, power.disabled.1] using h

theorem flipperHoldCut_kept {s : State} {c : ChannelId} (f : FlipperId) (b : Barred s c) (h : energised s c = false) :
    Kept c s (flipperHoldCut s f) := by
  have blocks (u : State) : Kept c u (block u f) := .of_same (block_channels u f)
  unfold flipperHoldCut
  split
  · exact blocks s
  · exact (endFlipperDrives_kept f b h).trans (blocks _)
  all_goals exact .refl s

theorem energised_rested {s : State} {c : ChannelId} {x : Channel} {owed : Bool}
    (h : s.chan c = { x.rested none with owed := owed }) : energised s c = false := by
  rw [energised, h]
  simp only [Channel.rested]
  split_ifs <;> rfl

/-- The channel of a hold that CUTOFF has ended. -/
theorem cutHold_chan {s : State} {c : ChannelId} (h : (s.chan c).heat.thermal = .cutoff) :
    ∃ owed, (cutHold s c).chan c = { (s.chan c).rested none with
      owed := owed
      heat := { (s.chan c).heat with stats := { (s.chan c).heat.stats with cutoffs := min 65535 ((s.chan c).heat.stats.cutoffs + 1) } } } := by
  have noted := noteCutoff_chan s c c
  rw [if_pos rfl] at noted
  obtain ⟨owed, released⟩ := release_chan_of_cutoff (s := noteCutoff s c) (c := c) (by rw [noted]; exact h)
  have barred : Barred (release (noteCutoff s c) c) c := .inr (by rw [released, noted]; exact h)
  have told : Kept c (release (noteCutoff s c) c) (cutHold s c) := by
    unfold cutHold
    dsimp only
    split
    · exact .refl _
    · exact flipperHoldCut_kept _ barred (energised_rested released)
  obtain ⟨owed', howed⟩ := told
  refine ⟨owed', ?_⟩
  rw [howed, released, noted]
  rfl

theorem cutHold_flags (s : State) (c : ChannelId) (q : Port) :
    (((cutHold s c).latch q).get FlagName.heatCutoff.bit).isSome = true := by
  have noted : (((noteCutoff s c).latch q).get FlagName.heatCutoff.bit).isSome = true := by
    rw [noteCutoff, setFlagBoth_get_self]
    exact raiseFlag_isSome _ _ _
  have told : FlagsStand (noteCutoff s c) (cutHold s c) := by
    unfold cutHold
    dsimp only
    split
    · exact .release _ c
    · exact (FlagsStand.release _ c).trans (.flipperHoldCut _ _)
  exact told q _ noted

/-- A held channel after the interval: held on below the cutoff level, at rest in CUTOFF from there. -/
theorem coolChannel_held {s : State} {c : ChannelId} (safe : Safe s) (h : (s.chan c).state = .hold)
    (hc : (s.chan c).heat.thermal ≠ .cutoff) :
    let x := s.chan c
    let a := appliedDuty s c (derate x.coil (decayed x.heat.h x.coil.decay))
    let held := min 65535 (decayed x.heat.h x.coil.decay + 10 * x.coil.gain * a / 16)
    ∃ owed, (coolChannel s c).chan c =
      if thermalOf x.coil held = .cutoff then { x.rested none with
        owed := owed
        heat := ⟨held, .cutoff, a, { x.heat.stats.spent .cutoff held with cutoffs := min 65535 (x.heat.stats.cutoffs + 1) }⟩ }
      else { x with owed := owed, heat := ⟨held, thermalOf x.coil held, a, x.heat.stats.spent (thermalOf x.coil held) held⟩ } := by
  intro x a held
  obtain ⟨owed, interval⟩ := heldInterval_chan safe h
  have thermal : cooledThermal x.coil { x.heat with h := held, dEff := a } = thermalOf x.coil held := if_neg hc
  have recorded : ({ x.heat with h := held, dEff := a } : Heat).recorded x.coil =
      ⟨held, thermalOf x.coil held, a, x.heat.stats.spent (thermalOf x.coil held) held⟩ := by
    simp only [Heat.recorded, thermal]
  change _ = { x with owed := owed, heat := ({ x.heat with h := held, dEff := a } : Heat).recorded x.coil } at interval
  rw [recorded] at interval
  rw [coolChannel_of_held h hc, interval]
  by_cases hcut : thermalOf x.coil held = .cutoff
  · rw [if_pos hcut]
    obtain ⟨owed', cut⟩ := cutHold_chan (s := recordInterval _ c) (c := c) (by rw [interval]; exact hcut)
    refine ⟨owed', ?_⟩
    rw [if_pos hcut, cut, interval, hcut]
    rfl
  · rw [if_neg hcut]
    exact ⟨owed, by rw [if_neg hcut, interval]⟩

theorem coolChannel_flags {s : State} {c : ChannelId} (h : (s.chan c).state = .hold) (hc : (s.chan c).heat.thermal ≠ .cutoff)
    (hcut : ((coolChannel s c).chan c).heat.thermal = .cutoff) (q : Port) :
    (((coolChannel s c).latch q).get FlagName.heatCutoff.bit).isSome = true := by
  have either := coolChannel_of_held h hc
  dsimp only at either
  split at either
  · rw [either]; exact cutHold_flags _ c q
  · rename_i hno
    rw [either] at hcut
    exact absurd hcut hno

/-! ### The interval as a whole (R62) -/

theorem coolingInterval_due {s : State} (h : s.coolTimer = some 0) :
    coolingInterval s = (freely s.orders allChannels).foldl coolChannel { s with coolTimer := some 10, orders := s.orders + 1 } := by
  refine if_pos ?_
  rw [h]
  rfl

theorem coolingInterval_early {s : State} (h : s.coolTimer ≠ some 0) : coolingInterval s = s := by
  refine if_neg ?_
  simpa [due] using h

theorem Channel.cooled_of_not_cutoff {x : Channel} (h : x.heat.thermal ≠ .cutoff) :
    x.cooled.thermal = thermalOf x.coil x.cooled.h := if_neg h

/-! ### The end of a flipper's hold (R89, R91) -/

theorem flipperHoldCut_of_hold {s : State} {f : FlipperId} (h : (s.flip f).state = .hold) : flipperHoldCut s f = block s f := by
  simp only [flipperHoldCut, h]

theorem flipperHoldCut_of_repower {s : State} {f : FlipperId} (h : (s.flip f).state = .repower) :
    flipperHoldCut s f = block (endFlipperDrives s f) f := by
  simp only [flipperHoldCut, h]

/-! ### CLEAR STATS (R77) -/

theorem clearChannel_chan (s : State) (c d : ChannelId) :
    (clearChannel s c).chan d = if d = c then (s.chan c).cleared else s.chan d := chan_setChan _ _ _ _

theorem foldl_clearChannel_chan {l : List ChannelId} (hl : l.Nodup) (s : State) (d : ChannelId) :
    (l.foldl clearChannel s).chan d = if d ∈ l then (s.chan d).cleared else s.chan d := by
  induction l generalizing s with
  | nil => rfl
  | cons c l ih =>
    obtain ⟨hnot, hl⟩ := List.nodup_cons.1 hl
    rw [List.foldl_cons, ih hl, clearChannel_chan]
    by_cases hd : d = c
    · subst hd
      rw [if_neg hnot, if_pos rfl, if_pos List.mem_cons_self]
    · simp only [List.mem_cons, hd, false_or, if_false]

theorem clearStatsRequest_all (s : State) : clearStatsRequest [0xFF#8] s = .done (allChannels.foldl clearChannel s) := rfl

theorem clearStatsRequest_one {x : Byte} {c : ChannelId} (s : State) (hc : x.toNat = c.val) :
    clearStatsRequest [x] s = .done (clearChannel s c) := by
  have named : index 48 (u8 [x] 0) = some c := by rw [u8_zero, hc, index_val]
  have notAll : ¬u8 [x] 0 = 0xFF := by rw [u8_zero]; omega
  rw [clearStatsRequest, if_neg notAll, named]

theorem clearStatsRequest_none {x : Byte} (s : State) (h : 47 < x.toNat) (hx : x ≠ 0xFF#8) :
    clearStatsRequest [x] s = .refuse s .range := by
  have notAll : ¬u8 [x] 0 = 0xFF := fun hn => hx (BitVec.eq_of_toNat_eq ((u8_zero x []).symm.trans hn))
  rw [clearStatsRequest, if_neg notAll, u8_zero, index_none (by omega)]

theorem clearStatsRequest_done {x : Byte} (s : State) (hx : x.toNat ≤ 47 ∨ x = 0xFF#8) : ∃ v, clearStatsRequest [x] s = .done v := by
  obtain hx | rfl := hx
  · exact ⟨_, clearStatsRequest_one s (c := ⟨x.toNat, Nat.lt_succ_of_le hx⟩) rfl⟩
  · exact ⟨_, clearStatsRequest_all s⟩

/-- CLEAR STATS clears the channels that its byte names. -/
theorem clearStatsRequest_chan {x : Byte} (s : State) (hx : x.toNat ≤ 47 ∨ x = 0xFF#8) (c : ChannelId) :
    let u := (clearStatsRequest [x] s).state
    (x = 0xFF#8 ∨ x.toNat = c.val → u.chan c = (s.chan c).cleared) ∧
      (x ≠ 0xFF#8 → x.toNat ≠ c.val → u.chan c = s.chan c) := by
  intro u
  by_cases hall : x = 0xFF#8
  · subst hall
    have all : u.chan c = (s.chan c).cleared := by
      rw [show u = _ from congrArg Answer.state (clearStatsRequest_all s)]
      exact (foldl_clearChannel_chan (List.nodup_finRange 48) s c).trans (if_pos (List.mem_finRange c))
    exact ⟨fun _ => all, fun h => absurd rfl h⟩
  · have hlt : x.toNat < 48 := by
      obtain hx | hx := hx
      · omega
      · exact absurd hx hall
    have one : u.chan c = if c = ⟨x.toNat, hlt⟩ then (s.chan ⟨x.toNat, hlt⟩).cleared else s.chan c := by
      rw [show u = _ from congrArg Answer.state (clearStatsRequest_one s (c := ⟨x.toNat, hlt⟩) rfl)]
      exact clearChannel_chan s _ c
    refine ⟨fun h => ?_, fun _ h => ?_⟩
    · have same : (⟨x.toNat, hlt⟩ : ChannelId) = c := Fin.ext (h.resolve_left hall)
      rw [one, same, if_pos rfl]
    · rw [one, if_neg fun e => h (Fin.val_eq_of_eq e).symm]

end Sys2Proof.Machine
end

section
/-! The cooling interval and CLEAR STATS, settled: each clause from the lemma that says what its step leaves. -/

namespace Sys2Proof.Machine

/-- The stepper of a channel that has left CUTOFF tests R111. -/
def toldOfResume (s : State) (c : ChannelId) : State :=
  match stepperOf s c with
  | none => s
  | some t => settle (stepTest s t)

theorem leaveCutoff_eq (s : State) (c : ChannelId) :
    leaveCutoff s c = toldOfResume (settle (pullInTest (attemptNow (setFlagBoth s .heatResume (some c.val))) c)) c := by
  unfold leaveCutoff
  dsimp only
  generalize settle (pullInTest _ c) = a
  rfl

/-- The interval at a channel that is not held, from the record of it and the exit from CUTOFF (R62, R70 to R72). -/
theorem coolChannel_unheld {s v : State} {c : ChannelId} (hs : (s.chan c).state ≠ .hold)
    (hv : v = let x := s.chan c
      let u := s.setChan c { x with heat := x.cooled }
      if x.heat.thermal = .normal ∧ x.cooled.thermal ≠ .normal then setFlagBoth u .heatWarn (some c.val) else u) :
    coolChannel s c = if (s.chan c).heat.thermal = .cutoff ∧ decayed (s.chan c).heat.h (s.chan c).coil.decay ≤ (s.chan c).coil.resume
      then leaveCutoff v c else v := by
  rw [coolChannel_of_not_held hs, cooledInterval_eq, ← hv]

/-- A hold that goes on through the interval. -/
theorem coolChannel_holds_on {s : State} {c : ChannelId} (safe : Safe s) (h : (s.chan c).state = .hold)
    (hc : (s.chan c).heat.thermal ≠ .cutoff) :
    let x := s.chan c
    let a := appliedDuty s c (derate x.coil (decayed x.heat.h x.coil.decay))
    let held := min 65535 (decayed x.heat.h x.coil.decay + 10 * x.coil.gain * a / 16)
    let thermal := cooledThermal x.coil { x.heat with h := held }
    let t := coolChannel s c
    held < x.coil.cutoff → (t.chan c).state = .hold ∧ coilOutput t c = .chopped a ∧ (t.chan c).load = (x.coil.weight * a + 15) / 16 ∧
      (t.chan c).heat.thermal = thermal ∧ (t.chan c).heat.stats = x.heat.stats.spent thermal held := by
  intro x a held thermal t hlt
  have reached : thermal = thermalOf x.coil held := if_neg hc
  obtain ⟨owed, after⟩ := coolChannel_held safe h hc
  have stays : thermalOf x.coil held ≠ .cutoff := by
    rw [thermalOf_of_lt hlt]
    split_ifs <;> exact Thermal.noConfusion
  replace after := after.trans (if_neg stays)
  have state : (t.chan c).state = .hold := by rw [after]; exact h
  refine ⟨state, ?_, ?_, ?_, ?_⟩
  · rw [coilOutput, state, after]
  · rw [load_of_hold state, after]; rfl
  · rw [after, reached]
  · rw [after, reached]

/-- A hold that the interval ends in CUTOFF. -/
theorem coolChannel_cuts {s : State} {c : ChannelId} (safe : Safe s) (h : (s.chan c).state = .hold)
    (hc : (s.chan c).heat.thermal ≠ .cutoff) :
    let x := s.chan c
    let a := appliedDuty s c (derate x.coil (decayed x.heat.h x.coil.decay))
    let held := min 65535 (decayed x.heat.h x.coil.decay + 10 * x.coil.gain * a / 16)
    let t := coolChannel s c
    x.coil.warn ≤ held → x.coil.limit ≤ held → x.coil.cutoff ≤ held →
      (t.chan c).state = (if x.coil.gap = 0 then .idle else .recover x.coil.gap none) ∧ coilOutput t c = .off ∧ (t.chan c).load = 0 ∧
      (t.chan c).heat.thermal = .cutoff ∧
      (t.chan c).heat.stats = { x.heat.stats.spent .cutoff held with cutoffs := min 65535 (x.heat.stats.cutoffs + 1) } ∧
      ∀ q, ((t.latch q).get FlagName.heatCutoff.bit).isSome = true := by
  intro x a held t hwarn hlimit hcutoff
  obtain ⟨owed, after⟩ := coolChannel_held safe h hc
  have cuts : thermalOf x.coil held = .cutoff := by
    rw [thermalOf, if_neg (Nat.not_lt.2 hwarn), if_neg (Nat.not_lt.2 hlimit), if_neg (Nat.not_lt.2 hcutoff)]
  replace after := after.trans (if_pos cuts)
  have thermal : (t.chan c).heat.thermal = .cutoff := by rw [after]
  have state : (t.chan c).state = if x.coil.gap = 0 then .idle else .recover x.coil.gap none := by rw [after]; rfl
  refine ⟨state, ?_, ?_, thermal, by rw [after], coolChannel_flags h hc thermal⟩
  · rw [coilOutput, state]
    split_ifs <;> rfl
  · rw [Channel.load, state]
    split_ifs <;> rfl

/-- What a held channel keeps in either case, and its heat and duty. -/
theorem coolChannel_held_figures {s : State} {c : ChannelId} (safe : Safe s) (h : (s.chan c).state = .hold)
    (hc : (s.chan c).heat.thermal ≠ .cutoff) :
    let x := s.chan c
    let a := appliedDuty s c (derate x.coil (decayed x.heat.h x.coil.decay))
    let t := coolChannel s c
    (t.chan c).claims = x.claims ∧ (t.chan c).coil = x.coil ∧
      (t.chan c).heat.h = min 65535 (decayed x.heat.h x.coil.decay + 10 * x.coil.gain * a / 16) ∧ (t.chan c).heat.dEff = a := by
  intro x a t
  obtain ⟨owed, after⟩ := coolChannel_held safe h hc
  change t.chan c = _ at after
  rw [after]
  split <;> exact ⟨rfl, rfl, rfl, rfl⟩

/-- The flipper of a channel learns that its hold has been cut. -/
def toldOfHoldCut (s : State) (c : ChannelId) : State :=
  match flipperOf s c with
  | none => s
  | some g => flipperHoldCut s g

theorem cutHold_eq (s : State) (c : ChannelId) : cutHold s c = toldOfHoldCut (release (noteCutoff s c) c) c := by
  unfold cutHold
  dsimp only
  generalize release _ c = u
  rfl

theorem exec_coolingInterval_due {s : State} (h : s.coolTimer = some 0) : exec .coolingInterval s =
    .next ((freely s.orders allChannels).foldl coolChannel { s with coolTimer := some 10, orders := s.orders + 1 }) :=
  congrArg Host.Outcome.next (coolingInterval_due h)

theorem foldl_coolChannel_coolTimer (l : List ChannelId) (s : State) : (l.foldl coolChannel s).coolTimer = s.coolTimer :=
  (CoilWork.coolAll l s).coolTimer

/-- A part without holds and cutoffs decays channel by channel. -/
theorem coolingInterval_decays {s : State} (quiet : ∀ c, (s.chan c).state ≠ .hold ∧ (s.chan c).heat.thermal ≠ .cutoff) (k : Nat)
    (c : ChannelId) : (((freely k allChannels).foldl coolChannel { s with coolTimer := some 10, orders := s.orders + 1 }).chan c) =
      { s.chan c with heat := (s.chan c).cooled } := by
  have order := freely_channels k
  have cooled := foldl_coolChannel_chan order.1 (s := { s with coolTimer := some 10, orders := s.orders + 1 }) (fun d _ => quiet d) c
  exact cooled.trans (if_pos (order.2 c))

/-- Settles O35: a fold of the channels in a free order, each cooled by the equations for a channel that is held or not. -/
theorem coolingIntervalDecaysAndClearStatsClears : Obligations.CoolingIntervalDecaysAndClearStatsClears := by
  refine ⟨fun s h => ⟨_, exec_coolingInterval_due h, ?timer⟩, fun s h => congrArg Host.Outcome.next (coolingInterval_early h),
    fun s h => ⟨_, freely_perm _ _, exec_coolingInterval_due h⟩, fun s h quiet => ⟨_, exec_coolingInterval_due h, fun c => ?decay⟩, fun h d hh hd => decayed_lt hh hd,
    fun c s => ⟨fun hs => ?unheld, fun safe hs hc => ?held⟩, fun c s asked => ?duty, fun f s => ⟨fun c => ?cut, ?flipper⟩,
    fun p x s h => ?clear⟩
  case timer => exact foldl_coolChannel_coolTimer _ _
  case decay =>
    rw [coolingInterval_decays fun d => ⟨(quiet d).1, (quiet d).2.1⟩]
    exact ⟨rfl, Channel.cooled_of_not_cutoff (quiet c).2.1, rfl⟩
  case unheld =>
    intro u v
    refine (coolChannel_unheld hs (v := v) rfl).trans ?_
    clear_value v
    rw [leaveCutoff_eq]
    exact if_congr Iff.rfl (by generalize settle (pullInTest _ c) = a; rfl) rfl
  case held =>
    obtain ⟨claims, coil, heat, duty⟩ := coolChannel_held_figures safe hs hc
    refine ⟨claims, coil, heat, duty, coolChannel_holds_on safe hs hc, coolChannel_cuts safe hs hc⟩
  case duty =>
    refine fun hs => ⟨fun h => ?_, appliedDuty_limited hs⟩
    exact (appliedDuty_eq asked hs).trans (if_pos h)
  case cut =>
    generalize hu : release (setFlagBoth _ _ _) c = u
    rw [cutHold_eq, show release (noteCutoff s c) c = u from hu]
    rfl
  case flipper => exact ⟨flipperHoldCut_of_hold, flipperHoldCut_of_repower⟩
  case clear =>
    rw [exec_ready h rfl rfl]
    refine ⟨fun hx => ⟨_, rfl, ?_, clearStatsRequest_chan (take s p) hx⟩, fun hx hall => ?_⟩
    · obtain ⟨v, hv⟩ := clearStatsRequest_done (take s p) hx
      rw [ownRules, hv]
      exact reply_port_self p 0x0A#8 (.done v)
    · exact congrArg (fun a => Host.Outcome.next (reply p 0x0A#8 a)) (clearStatsRequest_none _ hx hall)

end Sys2Proof.Machine
end

section
/-! Work without supply (R15, R26, R47, R111): nothing is granted and nobody enters work, so that all it does is to rest channels that were
driven or held, to clear marks, and to tell steppers of their cut steps. -/

namespace Sys2Proof.Machine

/-! ### Attempts and tests without supply -/

section
variable {s : State} (h : s.supply.state ≠ .up)
include h

theorem settle_unpowered : ∃ a, settle s = s.brought a := settleN_unpowered 49 h

theorem attemptNow_unpowered : ∃ a, attemptNow s = s.brought a := by
  obtain ⟨a, ha⟩ := settle_unpowered (s := bring s) h
  exact ⟨a, ha⟩

theorem pullInTest_unpowered (c : ChannelId) : pullInTest s c = s := by
  rw [pullInTest, if_neg]
  rw [pullInCondition_unpowered h c]
  exact Bool.false_ne_true

theorem stepTest_unpowered (t : StepperId) : stepTest s t = s := by
  rw [stepTest, stepTestN, stepReady_unpowered h t]

/-- A return to IDLE after no step brings nothing but attempts. -/
theorem reportIdle_unpowered (c : ChannelId) : ∃ a, reportIdle s c none = s.brought a := by
  obtain ⟨a, ha⟩ := attemptNow_unpowered h
  obtain ⟨b, hb⟩ := settle_unpowered (s := s.brought a) h
  obtain ⟨d, hd⟩ := settle_unpowered (s := s.brought b) h
  unfold reportIdle
  rw [ha]
  dsimp only
  split
  · rw [pullInTest_unpowered (s := s.brought a) h]
    exact ⟨b, hb⟩
  · rw [stepperIdle, if_neg (by simp), stepTest_unpowered (s := s.brought a) h, hb,
      pullInTest_unpowered (s := (s.brought a).brought b) h]
    exact ⟨d, hd⟩

/-- The end of a drive or hold is the channel's rest and no more. -/
theorem release_unpowered (c : ChannelId) : ∃ a, release s c = (rest s c none).brought a := by
  obtain ⟨a, ha⟩ := attemptNow_unpowered (s := rest s c none) h
  obtain ⟨b, hb⟩ := reportIdle_unpowered (s := (rest s c none).brought a) h c
  unfold release
  rw [ha]
  dsimp only
  split
  · exact ⟨b, hb⟩
  · exact ⟨a, rfl⟩

end

/-! ### What such work leaves -/

/-- Channels within `P` may come to rest and steppers within `Q` may change; claims stay, marks are only cleared, and beyond its due mark
no other stepper changes. -/
structure Darkens (P : ChannelId → Prop) (Q : StepperId → Prop) (s t : State) : Prop where
  work : CoilWork s t
  claims : ∀ d, (t.chan d).claims = (s.chan d).claims
  owed : ∀ d, (s.chan d).owed = false → (t.chan d).owed = false
  state : ∀ d, (t.chan d).state = (s.chan d).state ∨
    energised s d = true ∧ P d ∧ ∃ after, (t.chan d).state = ((s.chan d).rested after).state
  steppers : ∀ u, ¬Q u → ∃ due, t.stepper u = { s.stepper u with due := due }

theorem energised_congr {s t : State} {d : ChannelId} (h : (t.chan d).state = (s.chan d).state) : energised t d = energised s d := by
  simp only [energised, h]

theorem energised_of_rested {s t : State} {d : ChannelId} {after : Option StepperId} (h : (t.chan d).state = ((s.chan d).rested after).state) :
    energised t d = false := by
  rw [energised, h, Channel.rested]
  dsimp only
  split_ifs <;> rfl

theorem CoilWork.unpowered {s t : State} (w : CoilWork s t) (h : s.supply.state ≠ .up) : t.supply.state ≠ .up := by rwa [w.supply]

namespace Darkens

variable {P : ChannelId → Prop} {Q : StepperId → Prop} {s t u : State}

theorem of_same (w : CoilWork s t) (hc : t.channels = s.channels) (hs : ∀ v, t.stepper v = s.stepper v := by intro; rfl) :
    Darkens P Q s t := by
  have chan (d : ChannelId) : t.chan d = s.chan d := chan_of_channels hc d
  refine ⟨w, fun d => by rw [chan], fun d h => by rwa [chan], fun d => .inl (by rw [chan]), fun v _ => ⟨(s.stepper v).due, hs v⟩⟩

theorem refl (s : State) : Darkens P Q s s := of_same (.refl s) rfl

theorem trans (a : Darkens P Q s t) (b : Darkens P Q t u) : Darkens P Q s u where
  work := a.work.trans b.work
  claims d := (b.claims d).trans (a.claims d)
  owed d h := b.owed d (a.owed d h)
  state d := by
    obtain ha | ⟨hon, hp, after, ha⟩ := a.state d
    · rw [← ha, ← energised_congr ha]
      obtain hb | ⟨hon, hp, after, hb⟩ := b.state d
      · exact .inl hb
      · refine .inr ⟨hon, hp, after, hb.trans ?_⟩
        simp only [Channel.rested, a.work.coil]
    · obtain hb | ⟨hon', -, -⟩ := b.state d
      · exact .inr ⟨hon, hp, after, hb.trans ha⟩
      · rw [energised_of_rested ha] at hon'
        cases hon'
  steppers v hv := by
    obtain ⟨due, ha⟩ := a.steppers v hv
    obtain ⟨due', hb⟩ := b.steppers v hv
    exact ⟨due', by rw [hb, ha]⟩

theorem foldl {α : Type} {f : State → α → State} (hf : ∀ s x, s.supply.state ≠ .up → Darkens P Q s (f s x)) (l : List α) (s : State)
    (h : s.supply.state ≠ .up) : Darkens P Q s (l.foldl f s) := by
  induction l generalizing s with
  | nil => exact refl s
  | cons x l ih => exact (hf s x h).trans (ih _ ((hf s x h).work.unpowered h))

theorem off {d : ChannelId} (a : Darkens P Q s t) (h : energised s d = false) : energised t d = false := by
  obtain ha | ⟨hon, -, -⟩ := a.state d
  · rwa [energised_congr ha]
  · rw [h] at hon; cases hon

theorem unmark (s : State) (c : ChannelId) : Darkens P Q s (s.setChan c { s.chan c with owed := false }) := by
  have chan (d : ChannelId) : ∃ owed, (owed = true → (s.chan d).owed = true) ∧
      (s.setChan c { s.chan c with owed := false }).chan d = { s.chan d with owed := owed } := by
    by_cases hd : d = c
    · subst hd; exact ⟨false, Bool.noConfusion, State.chan_setChan_self _ _ _⟩
    · exact ⟨(s.chan d).owed, id, State.chan_setChan_ne _ _ _ _ hd⟩
  refine ⟨.owed s c false, fun d => ?_, fun d h => ?_, fun d => .inl ?_, fun v _ => ⟨(s.stepper v).due, rfl⟩⟩
  all_goals obtain ⟨owed, hle, hchan⟩ := chan d
  all_goals rw [hchan]
  simpa [h] using hle

theorem rest (s : State) {c : ChannelId} (after : Option StepperId) (hon : energised s c = true) (hp : P c) :
    Darkens P Q s (rest s c after) := by
  have self : (Machine.rest s c after).chan c = (s.chan c).rested after := State.chan_setChan_self _ _ _
  have other (d : ChannelId) (hd : d ≠ c) : (Machine.rest s c after).chan d = s.chan d := State.chan_setChan_ne _ _ _ _ hd
  refine ⟨.rest s c after, fun d => ?_, fun d h => ?_, fun d => ?_, fun v _ => ⟨(s.stepper v).due, rfl⟩⟩
  all_goals by_cases hd : d = c
  case pos => rw [hd, self]; rfl
  case neg => rw [other d hd]
  · rw [hd, self]; exact hd ▸ h
  · rwa [other d hd]
  · subst hd; exact .inr ⟨hon, hp, after, by rw [self]⟩
  · exact .inl (by rw [other d hd])

theorem brought (s : State) (a : Nat) : Darkens P Q s (s.brought a) := of_same (.arb rfl rfl rfl) rfl

theorem bring (s : State) : Darkens P Q s (bring s) := brought s _

theorem settle (h : s.supply.state ≠ .up) : Darkens P Q s (settle s) := by
  obtain ⟨a, ha⟩ := settle_unpowered h
  rw [ha]
  exact brought s a

theorem setFlagPorts (s : State) (ps : PortSet) (n : FlagName) (k : Option Nat) (hn : coilFlag n = true) :
    Darkens P Q s (setFlagPorts s ps n k) :=
  of_same (.setFlagPorts s ps n k hn) (setFlagPorts_channels s ps n k) (setFlagPorts_stepper s ps n k)

/-! ### Flippers -/

theorem release (h : s.supply.state ≠ .up) {c : ChannelId} (hon : energised s c = true) (hp : P c) : Darkens P Q s (release s c) := by
  obtain ⟨a, ha⟩ := release_unpowered h c
  rw [ha]
  exact (rest s none hon hp).trans (brought _ a)

theorem releaseIfOn (h : s.supply.state ≠ .up) {c : ChannelId} (hp : P c) : Darkens P Q s (releaseIfOn s c) := by
  by_cases hon : energised s c = true
  · rw [releaseIfOn_on hon]; exact release h hon hp
  · rw [releaseIfOn_off hon]; exact refl s

theorem endFlipperDrives (h : s.supply.state ≠ .up) {f : FlipperId}
    (hp : ∀ c, (s.flip f).cfg.power = some c ∨ (s.flip f).cfg.hold = some c → P c) : Darkens P Q s (endFlipperDrives s f) := by
  have power : Darkens P Q s (match (s.flip f).cfg.power with | none => s | some c => Machine.releaseIfOn s c) := by
    split
    · exact refl s
    · rename_i c hc
      exact releaseIfOn h (hp c (.inl hc))
  unfold Machine.endFlipperDrives
  dsimp only
  split
  · exact power
  · rename_i c hc
    exact power.trans (releaseIfOn (power.work.unpowered h) (hp c (.inr hc)))

/-- The flipper that names a channel rests the channels that it names. -/
theorem cutFlipper (h : s.supply.state ≠ .up) {c : ChannelId} (hp : ∀ f d, (s.flip f).cfg.names d = true → P d) :
    Darkens P Q s (cutFlipper s c) := by
  unfold Machine.cutFlipper
  split
  · exact refl s
  · rename_i f hf
    split
    · exact refl s
    · have goes : Darkens P Q s (flipperTo s f .disabled) := of_same (.flipperTo s f .disabled) rfl
      have cfg : ((flipperTo s f .disabled).flip f).cfg = (s.flip f).cfg := goes.work.flipCfg f
      refine goes.trans (endFlipperDrives (goes.work.unpowered h) fun d hd => hp f d ?_)
      rw [cfg] at hd
      obtain hd | hd := hd
      · exact CoilWork.names_of_power hd
      · exact CoilWork.names_of_hold (CoilWork.flipperOf_names hf) hd

/-! ### Removals -/

theorem handoutChannel (h : s.supply.state ≠ .up) (c : ChannelId) : Darkens P Q s (handoutChannel s c) := by
  unfold Machine.handoutChannel
  dsimp only
  split
  · rw [if_neg]
    · exact unmark s c
    · rw [pullInCondition_unpowered (s := s.setChan c _) h]
      exact Bool.false_ne_true
  · exact refl s

theorem undue (s : State) (t : StepperId) : Darkens P Q s (s.setStepper t { s.stepper t with due := false }) := by
  refine ⟨.stepper rfl rfl, fun _ => rfl, fun _ => id, fun _ => .inl rfl, fun u _ => ?_⟩
  by_cases e : u = t
  · subst e; exact ⟨false, State.stepper_setStepper_self _ _ _⟩
  · exact ⟨(s.stepper u).due, State.stepper_setStepper_ne _ _ _ _ e⟩

theorem handoutStepper (h : s.supply.state ≠ .up) (t : StepperId) : Darkens P Q s (handoutStepper s t) := by
  unfold Machine.handoutStepper
  split
  · rw [stepTest_unpowered (s := s.setStepper t _) h]
    exact undue s t
  · exact refl s

theorem handout (h : s.supply.state ≠ .up) : Darkens P Q s (handout s) := by
  have channels : Darkens P Q s (allChannels.foldl Machine.handoutChannel s) := foldl (fun _ c hs => handoutChannel hs c) _ _ h
  exact channels.trans (foldl (fun _ t hs => handoutStepper hs t) _ _ (channels.work.unpowered h))

theorem removeEntry (h : s.supply.state ≠ .up) (e : Entry) : Darkens P Q s (removeEntry s e) := by
  have dropped : Darkens P Q s (dropEntry s e.channel) := of_same (.dropEntry s e.channel) rfl
  have placed := afterDrop (s := s) e (P := Darkens P Q s) dropped (dropped.trans (bring _))
    fun u hu => hu.trans (handout (hu.work.unpowered h))
  unfold Machine.removeEntry
  dsimp only
  split
  · exact placed
  all_goals
    rw [pullInTest_unpowered (placed.work.unpowered h)]
    exact placed

theorem removeStepEntry (h : s.supply.state ≠ .up) (t : StepperId) : Darkens P Q s (removeStepEntry s t) := by
  unfold Machine.removeStepEntry
  split
  · exact refl s
  · exact removeEntry h _

/-! ### Steppers -/

theorem setStepper {t : StepperId} {x : Stepper} (w : CoilWork s (s.setStepper t x)) (hq : Q t) : Darkens P Q s (s.setStepper t x) :=
  ⟨w, fun _ => rfl, fun _ => id, fun _ => .inl rfl, fun u hu => ⟨(s.stepper u).due,
    State.stepper_setStepper_ne _ _ _ _ fun e => hu (e ▸ hq)⟩⟩

theorem faultStepper (h : s.supply.state ≠ .up) {t : StepperId} (hq : Q t) (unknown : Bool) :
    Darkens P Q s (faultStepper s t unknown) := by
  rw [faultStepper_eq]
  have faulted : Darkens P Q s (s.setStepper t ((s.stepper t).faultedAs unknown)) := setStepper (.stepperRests rfl) hq
  exact (faulted.trans (removeStepEntry (faulted.work.unpowered h) t)).trans (setFlagPorts _ _ .stepperFault _ rfl)

theorem mismatch (h : s.supply.state ≠ .up) {t : StepperId} (hq : Q t) : Darkens P Q s (mismatch s t) := by
  have moved : Darkens P Q s (s.setStepper t { s.stepper t with
      position := some (s.stepper t).cfg.homePos, mismatch := min 3 ((s.stepper t).mismatch + 1) }) := setStepper (.stepper rfl rfl) hq
  unfold Machine.mismatch
  dsimp only
  split
  · exact moved.trans (faultStepper (moved.work.unpowered h) hq false)
  · exact moved

theorem lookHome (h : s.supply.state ≠ .up) {t : StepperId} (hq : Q t) : Darkens P Q s (lookHome s t) := by
  have verifies (closed : Bool) : Darkens P Q s (verifyAgainst s t closed) := by
    unfold verifyAgainst
    dsimp only
    split
    · exact setStepper (.stepper rfl rfl) hq
    · split
      · exact setStepper (.stepper rfl rfl) hq
      · exact mismatch h hq
    · exact refl s
    · split
      · exact mismatch h hq
      · exact setStepper (.stepper rfl rfl) hq
  have homes (closed : Bool) (origin : PortSet) (steps : Nat) : Darkens P Q s (homingTest s t closed origin steps) := by
    unfold homingTest homeFound
    split_ifs
    · have found : Darkens P Q s (s.setStepper t { s.stepper t with
          position := some (s.stepper t).cfg.homePos, mismatch := 0, state := .idle, last := some ⟨steps, .done⟩ }) :=
        setStepper (.stepperRests rfl) hq
      exact found.trans (setFlagPorts _ _ .trainDone _ rfl)
    · exact refl s
    · exact faultStepper h hq true
  unfold Machine.lookHome
  dsimp only
  split
  · exact refl s
  · split
    · exact verifies _
    · exact verifies _
    · exact homes _ _ _
    · exact refl s

/-! ### The loss at one channel (R26) -/

theorem cutStepChannel (h : s.supply.state ≠ .up) {c : ChannelId} (hon : energised s c = true) (hp : P c)
    (hq : ∀ t, stepperOf s c = some t → Q t) : Darkens P Q s (cutStepChannel s c) := by
  unfold Machine.cutStepChannel
  split
  · exact rest s none hon hp
  · rename_i t ht
    have cut : Darkens P Q s (cutStep (Machine.rest s c (some t)) t) :=
      (rest s (some t) hon hp).trans (setStepper (.cutStep _ t) (hq t ht))
    dsimp only
    split
    · rw [stepperIdle, if_pos rfl]
      have looked := cut.trans (lookHome (cut.work.unpowered h) (hq t ht))
      rw [stepTest_unpowered (looked.work.unpowered h)]
      exact looked
    · exact cut

theorem loseSupplyAt (h : s.supply.state ≠ .up) (c : ChannelId) (hc : P c) (hp : ∀ f d, (s.flip f).cfg.names d = true → P d)
    (hq : ∀ t w left, (s.chan c).state = .drive .step w left → stepperOf s c = some t → Q t) :
    Darkens P Q s (loseSupplyAt s c) := by
  have cleared : Darkens P Q s (s.setChan c { s.chan c with owed := false }) := unmark s c
  have state : ((s.setChan c { s.chan c with owed := false }).chan c).state = (s.chan c).state := by rw [State.chan_setChan_self]
  generalize hu : s.setChan c { s.chan c with owed := false } = u at cleared state
  have up := cleared.work.unpowered h
  have flips {v : State} (w : CoilWork s v) : ∀ f d, (v.flip f).cfg.names d = true → P d := fun f d hd => hp f d (by rwa [w.flipCfg] at hd)
  have rested (hon : energised u c = true) : Darkens P Q u (Machine.rest u c none) := rest u none hon hc
  have flipper (hon : energised u c = true) : Darkens P Q u (Machine.cutFlipper (Machine.rest u c none) c) :=
    (rested hon).trans (cutFlipper ((rested hon).work.unpowered up) (flips (cleared.trans (rested hon)).work))
  unfold Machine.loseSupplyAt
  rw [hu]
  dsimp only
  refine cleared.trans ?_
  split
  · rename_i kind w left hdrive
    have hon : energised u c = true := (energised_iff u c).2 (.inr ⟨kind, w, left, hdrive⟩)
    split
    · refine cutStepChannel up hon hc fun t ht => hq t w left (state ▸ hdrive) ?_
      rwa [cleared.work.stepperOf] at ht
    · exact flipper hon
    · exact rested hon
    · exact rested hon
    · exact rested hon
  · exact flipper ((energised_iff u c).2 (.inl ‹_›))
  all_goals exact refl u

end Darkens

end Sys2Proof.Machine
end

section
/-! The loss of the supply at one channel and at all of them (R26, R27, R114). -/

namespace Sys2Proof.Machine

/-! ### One channel, in any state -/

section
variable {s : State} {c : ChannelId}

theorem loseSupplyAt_of_off (h : energised s c = false) : loseSupplyAt s c = unmarked s c := by
  have state := unmarked_state s c c
  unfold loseSupplyAt
  rw [← unmarked]
  dsimp only
  rw [energised] at h
  cases hs : (s.chan c).state with
  | drive kind w left => rw [hs] at h; cases h
  | hold => rw [hs] at h; cases h
  | off => rw [state, hs]
  | disabled => rw [state, hs]
  | idle => rw [state, hs]
  | recover left after => rw [state, hs]

theorem loseSupplyAt_of_hold (h : (s.chan c).state = .hold) : loseSupplyAt s c = cutFlipper (rest (unmarked s c) c none) c := by
  have state := (unmarked_state s c c).trans h
  unfold loseSupplyAt
  rw [← unmarked]
  simp only [state]

theorem loseSupplyAt_of_drive {kind : DriveKind} {w left : Nat} (h : (s.chan c).state = .drive kind w left) :
    loseSupplyAt s c = if kind = .step then cutStepChannel (unmarked s c) c
      else if kind = .flipper then cutFlipper (rest (unmarked s c) c none) c else rest (unmarked s c) c none := by
  have state := (unmarked_state s c c).trans h
  unfold loseSupplyAt
  rw [← unmarked]
  simp only [state]
  cases kind <;> rfl

theorem rest_unmarked (s : State) (c : ChannelId) (after : Option StepperId) :
    rest (unmarked s c) c after = (s.setChan c { s.chan c with owed := false }).setChan c { s.chan c with
      owed := false, state := if (s.chan c).coil.gap = 0 then .idle else .recover (s.chan c).coil.gap after } := by
  unfold rest unmarked
  simp only [State.chan_setChan_self]

theorem cutFlipper_eq (s : State) (c : ChannelId) : cutFlipper s c = match flipperOf s c with
    | none => s
    | some f => if (s.flip f).state = .disabled then s
        else endFlipperDrives (s.setFlip f { s.flip f with state := .disabled, repowers := 0 }) f := by
  unfold cutFlipper
  cases flipperOf s c <;> rfl

theorem cutStepChannel_of_none (h : stepperOf s c = none) : cutStepChannel s c = rest s c none := by
  simp only [cutStepChannel, h]

theorem cutStepChannel_of_some {t : StepperId} (h : stepperOf s c = some t) : cutStepChannel s c =
    let v := (rest s c (some t)).setStepper t { s.stepper t with inDrive := none, position := none }
    if (s.chan c).coil.gap = 0 then stepTest (lookHome v t) t else v := by
  simp only [cutStepChannel, h, gapless, decide_eq_true_eq, stepperIdle, if_true]
  rfl

end

/-! ### One channel without supply -/

/-- A step of the stepper that the loss of the supply cuts. -/
def CutsStep (s : State) (u : StepperId) (c : ChannelId) : Prop :=
  stepperOf s c = some u ∧ ∃ w left, (s.chan c).state = .drive .step w left

theorem rest_chan_self (s : State) (c : ChannelId) (after : Option StepperId) : (rest s c after).chan c = (s.chan c).rested after :=
  State.chan_setChan_self _ _ _

theorem energised_rest (s : State) (c : ChannelId) (after : Option StepperId) : energised (rest s c after) c = false :=
  energised_of_rested (congrArg Channel.state (rest_chan_self s c after))

section
variable {s : State} {c : ChannelId} (h : s.supply.state ≠ .up)
include h

/-- The loss rests a channel that is on, whatever else it does then. -/
theorem loseSupplyAt_rests (hon : energised s c = true) :
    ∃ after, Darkens (fun _ => True) (fun _ => True) (rest (unmarked s c) c after) (loseSupplyAt s c) := by
  have flipper : Darkens (fun _ => True) (fun _ => True) (rest (unmarked s c) c none) (cutFlipper (rest (unmarked s c) c none) c) :=
    .cutFlipper (s := rest (unmarked s c) c none) h fun _ _ _ => trivial
  obtain hold | ⟨kind, w, left, hdrive⟩ := (energised_iff s c).1 hon
  · rw [loseSupplyAt_of_hold hold]
    exact ⟨none, flipper⟩
  · rw [loseSupplyAt_of_drive hdrive]
    split_ifs
    · cases ht : stepperOf (unmarked s c) c with
      | none =>
        rw [cutStepChannel_of_none ht]
        exact ⟨none, .refl _⟩
      | some t =>
        have cut : Darkens (fun _ => True) (fun _ => True) (rest (unmarked s c) c (some t)) (cutStep (rest (unmarked s c) c (some t)) t) :=
          .setStepper (.cutStep _ t) trivial
        have looked := cut.trans (Darkens.lookHome (cut.work.unpowered h) (t := t) trivial)
        refine ⟨some t, ?_⟩
        rw [cutStepChannel_of_some ht]
        dsimp only
        split
        · rw [stepTest_unpowered]
          · exact looked
          · exact looked.work.unpowered h
        · exact cut
    · exact ⟨none, flipper⟩
    · exact ⟨none, .refl _⟩

theorem loseSupplyAt_off : energised (loseSupplyAt s c) c = false ∧ ((loseSupplyAt s c).chan c).owed = false := by
  have cleared : ((unmarked s c).chan c).owed = false := by rw [unmarked_chan, if_pos rfl]
  by_cases hon : energised s c = true
  · obtain ⟨after, rests⟩ := loseSupplyAt_rests h hon
    exact ⟨rests.off (energised_rest _ c after), rests.owed c (by rw [rest_chan_self]; exact cleared)⟩
  · rw [Bool.not_eq_true] at hon
    rw [loseSupplyAt_of_off hon]
    exact ⟨(energised_congr (unmarked_state s c c)).trans hon, cleared⟩

/-- A cut step whose stepper sees no home: it loses the step in drive and its position and nothing else. -/
theorem loseSupplyAt_cut {u : StepperId} (hcut : CutsStep s u c)
    (hopen : (s.chan c).coil.gap ≠ 0 ∨ (∀ w, (s.stepper u).cfg.home = some w → (s.input w).closed = false) ∧
      ∀ origin steps, (s.stepper u).state = .homing origin steps → steps < (s.stepper u).cfg.positions + 2) :
    (loseSupplyAt s c).stepper u = { s.stepper u with inDrive := none, position := none } := by
  obtain ⟨hu, w, left, hdrive⟩ := hcut
  have coil : ((unmarked s c).chan c).coil = (s.chan c).coil := by rw [unmarked_chan, if_pos rfl]
  rw [loseSupplyAt_of_drive hdrive, if_pos rfl, cutStepChannel_of_some (show stepperOf (unmarked s c) c = some u from hu), coil]
  generalize hv : (rest (unmarked s c) c (some u)).setStepper u _ = v
  have stepper : v.stepper u = { s.stepper u with inDrive := none, position := none } := by
    rw [← hv, State.stepper_setStepper_self]
    rfl
  have up : v.supply.state ≠ .up := by rw [← hv]; exact h
  dsimp only
  split
  · rename_i hgap
    obtain ⟨hhome, hsteps⟩ := hopen.resolve_left (not_not.2 hgap)
    have unseen : lookHome v u = v := by
      cases hw : (s.stepper u).cfg.home with
      | none => exact lookHome_unlooked (.inl (by rw [stepper]; exact hw))
      | some w =>
        have home : (v.stepper u).cfg.home = some w := by rw [stepper]; exact hw
        have opened : (v.input w).closed = false := by rw [← hv]; exact hhome w hw
        cases hx : (s.stepper u).state with
        | faulted => exact lookHome_unlooked (.inr (by rw [stepper]; exact hx))
        | idle => rw [lookHome_verifies home (.inl (by rw [stepper]; exact hx)), opened, verifyAgainst_unknown (by rw [stepper])]
        | running train next =>
          rw [lookHome_verifies home (.inr ⟨train, next, by rw [stepper]; exact hx⟩), opened, verifyAgainst_unknown (by rw [stepper])]
        | homing origin steps =>
          rw [lookHome_homes home (by rw [stepper]; exact hx), opened, homingTest, if_neg Bool.false_ne_true, if_pos]
          rw [stepper]
          exact hsteps origin steps hx
    rw [unseen, stepTest_unpowered up, stepper]
  · exact stepper

end

/-! ### Every channel without supply -/

/-- A channel loses its supply: it rests, with those that a flipper names, and a stepper whose step is cut is told. -/
theorem loseSupplyAt_darkens {s : State} (h : s.supply.state ≠ .up) (c : ChannelId) :
    Darkens (fun d => d = c ∨ ∃ f, (s.flip f).cfg.names d = true) (fun u => CutsStep s u c) s (loseSupplyAt s c) :=
  .loseSupplyAt h c (.inl rfl) (fun f _ hd => .inr ⟨f, hd⟩) fun _ w left hdrive ht => ⟨ht, w, left, hdrive⟩

theorem Darkens.widen {P P' : ChannelId → Prop} {Q Q' : StepperId → Prop} {s t : State} (a : Darkens P Q s t)
    (hp : ∀ d, P d → P' d) (hq : ∀ u, Q u → Q' u) : Darkens P' Q' s t :=
  ⟨a.work, a.claims, a.owed, fun d => (a.state d).imp_right fun ⟨hon, hd, hafter⟩ => ⟨hon, hp d hd, hafter⟩,
    fun u hu => a.steppers u fun k => hu (hq u k)⟩

/-- Such work cuts no step that was not in drive before. -/
theorem Darkens.cutsStep {P : ChannelId → Prop} {Q : StepperId → Prop} {s t : State} (a : Darkens P Q s t) {u : StepperId} {c : ChannelId}
    (hc : CutsStep t u c) : CutsStep s u c := by
  obtain ⟨hu, w, left, hdrive⟩ := hc
  refine ⟨(a.work.stepperOf c).symm.trans hu, w, left, ?_⟩
  obtain ha | ⟨-, -, after, ha⟩ := a.state c
  · exact ha.symm.trans hdrive
  · have off := energised_of_rested ha
    rw [energised, hdrive] at off
    cases off

theorem foldl_loseSupplyAt_darkens {s : State} (h : s.supply.state ≠ .up) (l : List ChannelId) :
    Darkens (fun _ => True) (fun _ => True) s (l.foldl loseSupplyAt s) :=
  .foldl (fun _ c hs => (loseSupplyAt_darkens hs c).widen (fun _ _ => trivial) fun _ _ => trivial) l s h

theorem foldl_loseSupplyAt_off {s : State} (h : s.supply.state ≠ .up) {l : List ChannelId} {c : ChannelId} (hc : c ∈ l) :
    energised (l.foldl loseSupplyAt s) c = false ∧ ((l.foldl loseSupplyAt s).chan c).owed = false := by
  induction l generalizing s with
  | nil => cases hc
  | cons d l ih =>
    have up := (loseSupplyAt_darkens h d).work.unpowered h
    obtain rfl | hc := List.mem_cons.1 hc
    · obtain ⟨off, owed⟩ := loseSupplyAt_off (c := c) h
      have rest := foldl_loseSupplyAt_darkens up l
      exact ⟨rest.off off, rest.owed c owed⟩
    · exact ih up hc

/-- A stepper none of whose steps is cut keeps everything but its due mark. -/
theorem foldl_loseSupplyAt_uncut {s : State} (h : s.supply.state ≠ .up) (l : List ChannelId) {u : StepperId}
    (hu : ∀ c ∈ l, ¬CutsStep s u c) : ∃ due, (l.foldl loseSupplyAt s).stepper u = { s.stepper u with due := due } := by
  induction l generalizing s with
  | nil => exact ⟨(s.stepper u).due, rfl⟩
  | cons d l ih =>
    have first := loseSupplyAt_darkens h d
    obtain ⟨due, hdue⟩ := first.steppers u (hu d List.mem_cons_self)
    obtain ⟨due', hdue'⟩ := ih (first.work.unpowered h) fun c hc k => hu c (List.mem_cons_of_mem _ hc) (first.cutsStep k)
    exact ⟨due', by rw [List.foldl_cons, hdue', hdue]⟩

/-- A stepper of which one step is cut, with no home in sight, loses that step, its position and its due mark at most. -/
theorem foldl_loseSupplyAt_cut {s : State} (h : s.supply.state ≠ .up) {l : List ChannelId} (hl : l.Nodup) {u : StepperId} {c : ChannelId}
    (hc : c ∈ l) (hcut : CutsStep s u c) (hone : ∀ d, CutsStep s u d → d = c) (hflip : ∀ f, (s.flip f).cfg.names c = false)
    (hopen : (s.chan c).coil.gap ≠ 0 ∨ (∀ w, (s.stepper u).cfg.home = some w → (s.input w).closed = false) ∧
      ∀ origin steps, (s.stepper u).state = .homing origin steps → steps < (s.stepper u).cfg.positions + 2) :
    ∃ due, (l.foldl loseSupplyAt s).stepper u = { s.stepper u with inDrive := none, position := none, due := due } := by
  induction l generalizing s with
  | nil => cases hc
  | cons d l ih =>
    obtain ⟨hnot, hl⟩ := List.nodup_cons.1 hl
    have first := loseSupplyAt_darkens h d
    have up := first.work.unpowered h
    by_cases hd : d = c
    · subst hd
      have cut := loseSupplyAt_cut h hcut hopen
      obtain ⟨due, hdue⟩ := foldl_loseSupplyAt_uncut up l (u := u) fun e he k => hnot (hone e (first.cutsStep k) ▸ he)
      exact ⟨due, by rw [List.foldl_cons, hdue, cut]⟩
    · obtain ⟨due, hdue⟩ := first.steppers u fun k => hd (hone d k)
      have state : ((loseSupplyAt s d).chan c).state = (s.chan c).state := by
        refine (first.state c).resolve_right ?_
        rintro ⟨-, hcd | ⟨f, hf⟩, -⟩
        · exact hd hcd.symm
        · rw [hflip f] at hf; cases hf
      obtain ⟨hu, w, left, hdrive⟩ := hcut
      have later := ih up hl ((List.mem_cons.1 hc).resolve_left fun e => hd e.symm)
        ⟨(first.work.stepperOf c).trans hu, w, left, state.trans hdrive⟩ (fun e k => hone e (first.cutsStep k))
        (fun f => by rw [first.work.flipCfg]; exact hflip f) (by
          rw [first.work.coil, hdue, show (loseSupplyAt s d).input = s.input from funext fun w => by
            rw [State.input, first.work.sw]; rfl]
          exact hopen)
      obtain ⟨due', hdue'⟩ := later
      exact ⟨due', by rw [List.foldl_cons, hdue', hdue]⟩

end Sys2Proof.Machine
end

section
/-! The emptied wait list (R27) and the groups of a part whose coils are all off (R30, R82). -/

namespace Sys2Proof.Machine

/-! ### What the reports of an emptied list count (R27) -/

/-- The entry, dropped for want of supply, is reported to the port. -/
def Entry.tells (e : Entry) (q : Port) : Bool :=
  match e.work with
  | .pulse origin => origin.has q
  | .fire _ notified => notified.has q
  | .pullIn _ => false
  | .step _ => false

/-- The entry is the link's. -/
def Entry.firesFor (e : Entry) (k : LinkId) : Bool :=
  match e.work with
  | .fire j _ => j = k
  | .pulse _ => false
  | .pullIn _ => false
  | .step _ => false

theorem Entry.lasting_of_tells {e : Entry} {q : Port} (h : e.tells q = true) : e.lasting = true := by
  obtain ⟨c, work, width, enteredAt, deadline, passed⟩ := e
  cases work with
  | step t => cases h
  | pulse origin => rfl
  | pullIn origin => rfl
  | fire k notified => rfl

theorem Entry.lasting_of_firesFor {e : Entry} {k : LinkId} (h : e.firesFor k = true) : e.lasting = true := by
  obtain ⟨c, work, width, enteredAt, deadline, passed⟩ := e
  cases work with
  | step t => cases h
  | pulse origin => rfl
  | pullIn origin => rfl
  | fire k notified => rfl

theorem dropPulse_get (s : State) (ps : PortSet) (c : ChannelId) (r : DropReason) (q : Port) :
    ((dropPulse s ps c r).latch q).get FlagName.pulseDropped.bit =
      if ps.has q = true then raiseFlag ((s.latch q).get FlagName.pulseDropped.bit) (some c.val) (some r)
      else (s.latch q).get FlagName.pulseDropped.bit := by
  obtain ⟨a, b⟩ := ps
  have other (p q : Port) (h : q ≠ p) (u : State) :
      (setFlagReason u p .pulseDropped (some c.val) (some r)).latch q = u.latch q := setFlagReason_latch_ne u _ _ _ h
  have ab : Port.a ≠ .b := by decide
  cases q <;> cases a <;> cases b <;>
    simp [dropPulse, PortSet.has, setFlagReason_get_self, other _ _ ab, other _ _ ab.symm]

theorem reportDropped_supply_get (s : State) (e : Entry) (q : Port) :
    ((reportDropped s e .supply).latch q).get FlagName.pulseDropped.bit =
      if e.tells q = true then raiseFlag ((s.latch q).get FlagName.pulseDropped.bit) (some e.channel.val) (some .supply)
      else (s.latch q).get FlagName.pulseDropped.bit := by
  obtain ⟨c, work, width, enteredAt, deadline, passed⟩ := e
  cases work with
  | step t => rfl
  | pulse origin => exact dropPulse_get _ _ _ _ _
  | pullIn origin => rfl
  | fire k notified => exact dropPulse_get _ _ _ _ _

theorem dropPulse_links (s : State) (ps : PortSet) (c : ChannelId) (r : DropReason) : (dropPulse s ps c r).links = s.links := by
  unfold dropPulse
  dsimp only
  split_ifs <;> rfl

theorem reportDropped_supply_link (s : State) (e : Entry) (k : LinkId) :
    (reportDropped s e .supply).link k =
      if e.firesFor k = true then { s.link k with entry := false, lost := min 65535 ((s.link k).lost + 1) } else s.link k := by
  obtain ⟨c, work, width, enteredAt, deadline, passed⟩ := e
  cases work with
  | step t => rfl
  | pulse origin => exact congrArg (Table.get · k) (dropPulse_links s origin c .supply)
  | pullIn origin => rfl
  | fire j notified =>
    refine (congrArg (Table.get · k) (dropPulse_links (loseFire s j) notified c .supply)).trans ?_
    change (loseFire s j).link k = _
    by_cases hk : j = k
    · subst hk
      rw [if_pos (by simp [Entry.firesFor]), loseFire, State.link_setLink_self]
      rfl
    · rw [if_neg (by simpa [Entry.firesFor] using hk), loseFire, State.link_setLink_ne _ _ _ _ (Ne.symm hk)]

/-- The flag record after the reports of a list of entries. -/
theorem foldl_reportDropped_get (l : List Entry) (s : State) (q : Port) :
    ((l.foldl (fun u e => reportDropped u e .supply) s).latch q).get FlagName.pulseDropped.bit =
      (l.filter (·.tells q)).foldl (fun r e => raiseFlag r (some e.channel.val) (some .supply))
        ((s.latch q).get FlagName.pulseDropped.bit) := by
  induction l generalizing s with
  | nil => rfl
  | cons e l ih =>
    rw [List.foldl_cons, ih, reportDropped_supply_get, List.filter_cons]
    split <;> rfl

theorem foldl_raiseFlag_some {l : List Entry} (hl : l ≠ []) (r : FlagRec) :
    l.foldl (fun r e => raiseFlag r (some e.channel.val) (some .supply)) (some r) =
      some { r with count := min 255 (r.count + l.length) } := by
  induction l generalizing r with
  | nil => exact absurd rfl hl
  | cons e l ih =>
    rw [List.foldl_cons, raiseFlag_set]
    by_cases h : l = []
    · subst h; rfl
    · rw [ih h, List.length_cons]
      have counts : min 255 (min 255 (r.count + 1) + l.length) = min 255 (r.count + (l.length + 1)) := by omega
      simp only [counts]

theorem foldl_raiseFlag_none (e : Entry) (l : List Entry) :
    (e :: l).foldl (fun r e => raiseFlag r (some e.channel.val) (some .supply)) none =
      some ⟨some e.channel.val, some .supply, min 255 (l.length + 1)⟩ := by
  rw [List.foldl_cons, raiseFlag_clear]
  by_cases h : l = []
  · subst h; rfl
  · rw [foldl_raiseFlag_some h, Nat.add_comm]

theorem foldl_reportDropped_link (l : List Entry) (s : State) (k : LinkId) :
    let lost := l.countP (·.firesFor k)
    (l.foldl (fun u e => reportDropped u e .supply) s).link k =
      if lost = 0 then s.link k else { s.link k with entry := false, lost := min 65535 ((s.link k).lost + lost) } := by
  induction l generalizing s with
  | nil => rfl
  | cons e l ih =>
    rw [List.foldl_cons, ih, reportDropped_supply_link]
    dsimp only
    rw [List.countP_cons]
    by_cases he : e.firesFor k = true
    · rw [if_pos he, if_pos he, if_neg (Nat.succ_ne_zero _)]
      split
      · rename_i hzero; rw [hzero]
      · have counts : min 65535 (min 65535 ((s.link k).lost + 1) + l.countP (·.firesFor k)) =
            min 65535 ((s.link k).lost + (l.countP (·.firesFor k) + 1)) := by omega
        simp only [counts]
    · rw [if_neg he, if_neg he, Nat.add_zero]

/-! ### The emptied list -/

theorem foldl_reportDropped_coilWork (l : List Entry) (s : State) : CoilWork s (l.foldl (fun u e => reportDropped u e .supply) s) :=
  .foldl (fun u e => .reportDropped u e .supply) l s

theorem foldl_reportDropped_channels (l : List Entry) (s : State) :
    (l.foldl (fun u e => reportDropped u e .supply) s).channels = s.channels := by
  induction l generalizing s with
  | nil => rfl
  | cons e l ih => exact (ih _).trans (reportDropped_channels s e .supply)

theorem dropPulse_steppers (s : State) (ps : PortSet) (c : ChannelId) (r : DropReason) : (dropPulse s ps c r).steppers = s.steppers := by
  unfold dropPulse
  dsimp only
  split_ifs <;> rfl

theorem reportDropped_supply_steppers (s : State) (e : Entry) : (reportDropped s e .supply).steppers = s.steppers := by
  obtain ⟨c, work, width, enteredAt, deadline, passed⟩ := e
  cases work with
  | step t => rfl
  | pulse origin => exact dropPulse_steppers _ _ _ _
  | pullIn origin => rfl
  | fire j notified => exact dropPulse_steppers (loseFire s j) _ _ _

theorem foldl_reportDropped_steppers (l : List Entry) (s : State) :
    (l.foldl (fun u e => reportDropped u e .supply) s).steppers = s.steppers := by
  induction l generalizing s with
  | nil => rfl
  | cons e l ih => exact (ih _).trans (reportDropped_supply_steppers s e)

theorem emptyWaitList_chan (s : State) (l : List Entry) (c : ChannelId) : (emptyWaitList s l).chan c = s.chan c :=
  chan_of_channels (t := emptyWaitList s l) (foldl_reportDropped_channels l s) c

theorem emptyWaitList_stepper (s : State) (l : List Entry) (u : StepperId) :
    (emptyWaitList s l).stepper u = { s.stepper u with due := false } := by
  refine (Table.get_map _ _ _).trans ?_
  rw [show ((l.foldl (fun u e => reportDropped u e .supply) s).setWaitList []).steppers = s.steppers from foldl_reportDropped_steppers l s]
  rfl

theorem emptyWaitList_link (s : State) (l : List Entry) (k : LinkId) :
    (emptyWaitList s l).link k = (l.foldl (fun u e => reportDropped u e .supply) s).link k := rfl

theorem emptyWaitList_latch (s : State) (l : List Entry) (q : Port) :
    (emptyWaitList s l).latch q = (l.foldl (fun u e => reportDropped u e .supply) s).latch q := rfl

/-! ### The groups of a part whose coils are off -/

theorem endFlipperDrives_of_off {s : State} (f : FlipperId) (off : ∀ c, energised s c = false) : endFlipperDrives s f = s := by
  have stays (c : ChannelId) : releaseIfOn s c = s := releaseIfOn_off (by rw [off c]; exact Bool.false_ne_true)
  unfold endFlipperDrives
  dsimp only
  split <;> split
  · rfl
  · exact stays _
  · exact stays _
  · rw [stays, stays]

/-- With the FLIPPERS enable off and no coil on, a flipper's test takes it to DISABLED and does nothing else. -/
theorem flipperTest_of_off {s : State} (f : FlipperId) (hon : s.supply.flipOn = false) (off : ∀ c, energised s c = false) :
    flipperTest s f = if (s.flip f).state = .disabled then s else flipperTo s f .disabled := by
  have unable : able s f = false := by
    rw [← Bool.not_eq_true, able_iff, hon]
    exact fun h => absurd h.1 Bool.false_ne_true
  unfold flipperTest disableFlipper
  rw [unable, if_neg Bool.false_ne_true, endFlipperDrives_of_off (s := flipperTo s f .disabled) f fun c => off c]

theorem foldl_flipperTest_of_off (l : List FlipperId) {s : State} (hon : s.supply.flipOn = false) (off : ∀ c, energised s c = false) :
    ∃ x, l.foldl flipperTest s = { s with flippers := x } ∧ ∀ f, f ∈ l ∨ (s.flip f).state = .disabled → (x.get f).state = .disabled := by
  induction l generalizing s with
  | nil => exact ⟨s.flippers, rfl, fun f h => h.resolve_left (List.not_mem_nil)⟩
  | cons f l ih =>
    rw [List.foldl_cons, flipperTest_of_off f hon off]
    split
    · rename_i hf
      obtain ⟨x, hx, hall⟩ := ih hon off
      refine ⟨x, hx, fun g h => hall g ?_⟩
      obtain h | h := h
      · obtain rfl | h := List.mem_cons.1 h
        · exact .inr hf
        · exact .inl h
      · exact .inr h
    · obtain ⟨x, hx, hall⟩ := ih (s := flipperTo s f .disabled) hon fun c => off c
      refine ⟨x, hx, fun g h => hall g ?_⟩
      by_cases hg : g = f
      · subst hg
        exact .inr (by rw [flipperTo, State.flip_setFlip_self])
      · rw [flipperTo, State.flip_setFlip_ne _ _ _ _ hg]
        exact h.imp_left fun h => (List.mem_cons.1 h).resolve_left hg

theorem recomputeGroups_of_off {s : State} (h : s.supply.state ≠ .up) (off : ∀ c, energised s c = false) :
    ∃ x, recomputeGroups s = { s with flippers := x, supply := { s.supply with flipOn := false, directOn := false } } ∧
      (s.supply.flipOn = true → ∀ f, (x.get f).state = .disabled) := by
  have down : s.isUp = false := by simp [State.isUp, h]
  rw [recomputeGroups_eq, down]
  dsimp only [Bool.false_and]
  split
  · rename_i hon
    exact ⟨s.flippers, rfl, fun k => absurd (hon.trans k) Bool.false_ne_true⟩
  · obtain ⟨x, hx, hall⟩ := foldl_flipperTest_of_off (List.finRange 6)
      (s := s.setSupply { s.supply with flipOn := false, directOn := false }) rfl fun c => off c
    exact ⟨x, hx, fun _ f => hall f (.inl (List.mem_finRange f))⟩

end Sys2Proof.Machine
end

section
/-! The supply loss as a whole (R26, R27), settled. -/

namespace Sys2Proof.Machine

/-! ### The run of the loss -/

/-- The supply is DOWN and reported so; no coil has been touched yet. -/
def downReported (s : State) : State :=
  setFlagBoth { s with
    supply := { s.supply with ilkClosed := false, ilkTimer := none, state := .down, countdown := none }
    orders := s.orders + 2 } .supplyDown none

/-- Every channel has lost its supply. -/
def coilsCut (s : State) : State := (freely s.orders allChannels).foldl loseSupplyAt (downReported s)

/-- The wait list is emptied too. -/
def listCut (s : State) : State := emptyWaitList (coilsCut s) (freely (s.orders + 1) (coilsCut s).arb.waitList)

theorem exec_ilkDebouncedOpen_up {s : State} (ht : s.supply.ilkTimer = some 0) (hc : s.supply.ilkClosed = true)
    (hs : s.supply.state = .up) : exec .ilkDebouncedOpen s = .next (settle (recomputeGroups (listCut s))) := by
  refine congrArg Host.Outcome.next ?_
  simp only [ilkDebouncedOpen, due, ht, hc, hs]
  rfl

theorem emptyWaitList_eq (s : State) (l : List Entry) :
    emptyWaitList s l =
      let told := (l.foldl (fun u e => match e.work with
        | .pulse origin => dropPulse u origin e.channel .supply
        | .pullIn _ => u
        | .fire k notified => dropPulse (u.setLink k { u.link k with
          entry := false, lost := min 65535 ((u.link k).lost + 1) }) notified e.channel .supply
        | .step _ => u) s).setWaitList []
      { told with steppers := told.steppers.map fun x => { x with due := false } } := by
  have report : (fun u e => reportDropped u e .supply) = fun (u : State) (e : Entry) => match e.work with
      | .pulse origin => dropPulse u origin e.channel .supply
      | .pullIn _ => u
      | .fire k notified => dropPulse (u.setLink k { u.link k with
        entry := false, lost := min 65535 ((u.link k).lost + 1) }) notified e.channel .supply
      | .step _ => u := by
    funext u e
    obtain ⟨c, work, width, enteredAt, deadline, passed⟩ := e
    cases work <;> rfl
  unfold emptyWaitList
  rw [report]

/-! ### What the loss leaves, from a safe state -/

section
variable {s : State}

theorem downReported_not_up (s : State) : (downReported s).supply.state ≠ .up := by
  intro h
  cases h

theorem downReported_chan (s : State) (c : ChannelId) : (downReported s).chan c = s.chan c := setFlagBoth_chan _ _ _ c

theorem downReported_safe (h : Safe s) : Safe (downReported s) :=
  Safe.setFlagBoth ((h.setSupply (m := { s.supply with ilkClosed := false, ilkTimer := none, state := .down, countdown := none }) rfl).setOrders _) _ _

theorem coilsCut_darkens (s : State) : Darkens (fun _ => True) (fun _ => True) (downReported s) (coilsCut s) :=
  foldl_loseSupplyAt_darkens (downReported_not_up s) _

theorem coilsCut_off (s : State) (c : ChannelId) : energised (coilsCut s) c = false ∧ ((coilsCut s).chan c).owed = false :=
  foldl_loseSupplyAt_off (downReported_not_up s) ((freely_channels s.orders).2 c)

theorem coilsCut_undropped (h : Safe s) : Undropped (downReported s) (coilsCut s) :=
  (Unpowered.foldl Unpowered.loseSupplyAt _ _ (downReported_safe h) (downReported_not_up s)).1

theorem listCut_coilWork (s : State) : CoilWork (coilsCut s) (listCut s) := .emptyWaitList _ _

theorem listCut_chan (s : State) (c : ChannelId) : (listCut s).chan c = (coilsCut s).chan c := emptyWaitList_chan _ _ c

theorem listCut_supply (s : State) :
    (listCut s).supply = { s.supply with ilkClosed := false, ilkTimer := none, state := .down, countdown := none } :=
  (listCut_coilWork s).supply.trans (coilsCut_darkens s).work.supply

/-- The groups lose their enables, and nothing else is left to do. -/
theorem supplyLost_eq (s : State) : ∃ x a, settle (recomputeGroups (listCut s)) = State.brought { listCut s with
      flippers := x
      supply := { s.supply with
        ilkClosed := false, ilkTimer := none, state := .down, countdown := none, flipOn := false, directOn := false } } a ∧
    (s.supply.flipOn = true → ∀ f, (x.get f).state = .disabled) := by
  have down : (listCut s).supply.state ≠ .up := by rw [listCut_supply]; exact SupplyState.noConfusion
  have off (c : ChannelId) : energised (listCut s) c = false :=
    (energised_congr (congrArg Channel.state (listCut_chan s c))).trans (coilsCut_off s c).1
  obtain ⟨x, hx, hall⟩ := recomputeGroups_of_off down off
  rw [listCut_supply] at hx hall
  obtain ⟨a, ha⟩ := settle_unpowered (s := { listCut s with
      flippers := x
      supply := { s.supply with
        ilkClosed := false, ilkTimer := none, state := .down, countdown := none, flipOn := false, directOn := false } }) SupplyState.noConfusion
  exact ⟨x, a, by rw [hx, ← ha], hall⟩

theorem filter_tells_perm (h : Safe s) (q : Port) :
    ((freely (s.orders + 1) (coilsCut s).arb.waitList).filter (·.tells q)).Perm (s.arb.waitList.filter (·.tells q)) := by
  have lasting (l : List Entry) : l.filter (·.tells q) = (l.filter Entry.lasting).filter (·.tells q) := by
    rw [List.filter_filter]
    refine List.filter_congr fun e _ => ?_
    by_cases he : e.tells q = true
    · rw [he, Entry.lasting_of_tells he]; rfl
    · rw [Bool.not_eq_true] at he
      rw [he]; rfl
  have kept : (coilsCut s).arb.waitList.filter (·.tells q) = s.arb.waitList.filter (·.tells q) := by
    rw [lasting, (coilsCut_undropped h).list, ← lasting]
    rfl
  rw [← kept]
  exact (freely_perm _ _).filter _

theorem countP_firesFor (h : Safe s) (k : LinkId) :
    (freely (s.orders + 1) (coilsCut s).arb.waitList).countP (·.firesFor k) = s.arb.waitList.countP (·.firesFor k) := by
  have lasting (l : List Entry) : l.countP (·.firesFor k) = (l.filter Entry.lasting).countP (·.firesFor k) := by
    rw [List.countP_filter]
    refine List.countP_congr fun e _ => ?_
    rw [Bool.and_eq_true]
    exact ⟨fun he => ⟨he, Entry.lasting_of_firesFor he⟩, fun he => he.1⟩
  rw [(freely_perm _ _).countP_eq, lasting, (coilsCut_undropped h).list, ← lasting]
  rfl

theorem listCut_link (h : Safe s) (k : LinkId) :
    let lost := s.arb.waitList.countP (·.firesFor k)
    (listCut s).link k = if lost = 0 then s.link k
      else { s.link k with entry := false, lost := min 65535 ((s.link k).lost + lost) } := by
  have links : (coilsCut s).link k = s.link k := congrArg (Table.get · k) (coilsCut_undropped h).links
  rw [listCut, emptyWaitList_link, foldl_reportDropped_link, countP_firesFor h, links]

/-- PULSE_DROPPED counts each entry that tells the port, whatever their order. -/
theorem listCut_dropped (h : Safe s) (q : Port) :
    let told := s.arb.waitList.filter (·.tells q)
    let flag := FlagName.pulseDropped.bit
    (told = [] → ((listCut s).latch q).get flag = (s.latch q).get flag) ∧
      (told ≠ [] → (s.latch q).get flag = none → ∃ e ∈ told,
        ((listCut s).latch q).get flag = some ⟨some e.channel.val, some .supply, min 255 told.length⟩) ∧
      (∀ r, told ≠ [] → (s.latch q).get flag = some r →
        ((listCut s).latch q).get flag = some { r with count := min 255 (r.count + told.length) }) := by
  intro told flag
  have before : ((coilsCut s).latch q).get flag = (s.latch q).get flag := by
    rw [(coilsCut_undropped h).dropped q]
    exact setFlagBoth_get_ne _ _ _ (by decide)
  have perm := filter_tells_perm h q
  have after := foldl_reportDropped_get (freely (s.orders + 1) (coilsCut s).arb.waitList) (coilsCut s) q
  rw [before] at after
  change ((listCut s).latch q).get flag = _ at after
  rw [after]
  generalize (freely (s.orders + 1) (coilsCut s).arb.waitList).filter (·.tells q) = entries at perm
  have length : entries.length = told.length := perm.length_eq
  refine ⟨fun hnil => ?_, fun hne hnone => ?_, fun r hne hsome => ?_⟩
  · rw [List.length_eq_zero_iff.1 (length.trans (List.length_eq_zero_iff.2 hnil))]
    rfl
  · cases entries with
    | nil => exact absurd (List.Perm.nil_eq perm).symm hne
    | cons e l =>
      refine ⟨e, perm.mem_iff.1 List.mem_cons_self, ?_⟩
      rw [hnone, foldl_raiseFlag_none, ← length, List.length_cons]
  · have some_entry : entries ≠ [] := fun hnil => hne (List.length_eq_zero_iff.1 (length.symm.trans (List.length_eq_zero_iff.2 hnil)))
    rw [hsome, foldl_raiseFlag_some some_entry, length]

/-- A channel after the loss: claims kept, the mark cleared, at rest if it was on. -/
theorem listCut_state (s : State) (c : ChannelId) :
    let on := (s.chan c).state = .hold ∨ ∃ kind w left, (s.chan c).state = .drive kind w left
    (on → (s.chan c).coil.gap = 0 → ((listCut s).chan c).state = .idle) ∧
      (on → (s.chan c).coil.gap ≠ 0 → ∃ after, ((listCut s).chan c).state = .recover (s.chan c).coil.gap after) ∧
      (¬on → ((listCut s).chan c).state = (s.chan c).state) := by
  intro on
  have energised_on : energised (downReported s) c = true ↔ on := by
    rw [energised_iff, downReported_chan]
  have state := (coilsCut_darkens s).state c
  have rests (hon : on) : ∃ after, ((listCut s).chan c).state = ((s.chan c).rested after).state := by
    rw [listCut_chan]
    obtain same | ⟨-, -, after, hafter⟩ := state
    · have off := (coilsCut_off s c).1
      rw [energised_congr same, energised_on.2 hon] at off
      cases off
    · exact ⟨after, by rw [hafter, downReported_chan]⟩
  refine ⟨fun hon hgap => ?_, fun hon hgap => ?_, fun hoff => ?_⟩
  · obtain ⟨after, hafter⟩ := rests hon
    rw [hafter, Channel.rested, if_pos hgap]
  · obtain ⟨after, hafter⟩ := rests hon
    exact ⟨after, by rw [hafter, Channel.rested, if_neg hgap]⟩
  · rw [listCut_chan, state.resolve_right fun h => hoff (energised_on.1 h.1), downReported_chan]

theorem downReported_cutsStep (s : State) (u : StepperId) (c : ChannelId) : CutsStep (downReported s) u c ↔ CutsStep s u c := by
  have names : stepperOf (downReported s) c = stepperOf s c := by
    unfold stepperOf
    exact congrArg (allSteppers.find? ·) (funext fun t => by
      rw [show (downReported s).stepper t = s.stepper t from setFlagPorts_stepper _ _ _ _ t])
  rw [CutsStep, CutsStep, names, downReported_chan]

theorem downReported_stepper (s : State) (u : StepperId) : (downReported s).stepper u = s.stepper u := setFlagPorts_stepper _ _ _ _ u

theorem listCut_stepper_uncut (s : State) {u : StepperId} (h : ∀ c, ¬CutsStep s u c) :
    (listCut s).stepper u = { s.stepper u with due := false } := by
  obtain ⟨due, hdue⟩ := foldl_loseSupplyAt_uncut (downReported_not_up s) (freely s.orders allChannels) (u := u)
    fun c _ k => h c ((downReported_cutsStep s u c).1 k)
  rw [listCut, emptyWaitList_stepper, show (coilsCut s).stepper u = _ from hdue, downReported_stepper]

/-- A channel that a stepper names is of class STEPPER, which no flipper's channel is. -/
theorem not_flipper_of_cutsStep (safe : Safe s) (joined : RecordsJoined s) {u : StepperId} {c : ChannelId} (h : CutsStep s u c)
    (f : FlipperId) : (s.flip f).cfg.names c = false := by
  have named : (s.stepper u).cfg.names c = true := by
    have found := h.1
    unfold stepperOf at found
    exact List.find?_some (p := fun t => (s.stepper t).cfg.names c) found
  have stepper := joined.working.stepper u c (by rw [workingProfile_stepper]; exact named)
  rw [workingProfile_coil] at stepper
  rw [← Bool.not_eq_true]
  intro hf
  rw [safe.named hf] at stepper
  cases stepper

theorem listCut_stepper_cut (safe : Safe s) (joined : RecordsJoined s) {u : StepperId} {c : ChannelId} (hcut : CutsStep s u c)
    (hone : ∀ d, CutsStep s u d → d = c)
    (hopen : (s.chan c).coil.gap ≠ 0 ∨ (∀ w, (s.stepper u).cfg.home = some w → (s.input w).closed = false) ∧
      ∀ origin steps, (s.stepper u).state = .homing origin steps → steps < (s.stepper u).cfg.positions + 2) :
    (listCut s).stepper u = { s.stepper u with inDrive := none, position := none, due := false } := by
  obtain ⟨due, hdue⟩ := foldl_loseSupplyAt_cut (downReported_not_up s) (freely_channels s.orders).1 ((freely_channels s.orders).2 c)
    ((downReported_cutsStep s u c).2 hcut) (fun d k => hone d ((downReported_cutsStep s u d).1 k))
    (fun f => not_flipper_of_cutsStep safe joined hcut f) (by
      rw [downReported_chan, downReported_stepper]
      exact hopen)
  rw [listCut, emptyWaitList_stepper, show (coilsCut s).stepper u = _ from hdue, downReported_stepper]

/-- The pools of a safe part without a coil on are empty. -/
theorem pools_of_off {t : State} (h : Safe t) (hl : ∀ c, (t.chan c).load = 0) : t.arb.general = 0 ∧ t.arb.flipper = 0 := by
  constructor
  · rw [h.general]
    refine List.sum_eq_zero fun n hn => ?_
    obtain ⟨c, -, rfl⟩ := List.mem_map.1 hn
    rw [Channel.generalLoad, hl c, ite_self]
  · rw [h.flipper]
    refine List.sum_eq_zero fun n hn => ?_
    obtain ⟨c, -, rfl⟩ := List.mem_map.1 hn
    rw [Channel.flipperLoad, hl c, ite_self]

theorem load_of_off {c : ChannelId} (h : energised s c = false) : (s.chan c).load = 0 := by
  rw [energised] at h
  rw [Channel.load]
  cases hs : (s.chan c).state <;> simp_all

theorem coilOutput_of_not_energised {c : ChannelId} (h : energised s c = false) : coilOutput s c = .off := by
  rw [energised] at h
  rw [coilOutput]
  cases hs : (s.chan c).state <;> simp_all

end

end Sys2Proof.Machine
end

section
/-! The supply loss, settled: its run, its effect at one channel, and what a safe part is left with. -/

namespace Sys2Proof.Machine

/-- Settles O40: the run is a fold of channels and one of entries; a channel's loss is its equations; what the whole leaves follows from
the work without supply. -/
theorem supplyLossReleasesEveryCoil : Obligations.SupplyLossReleasesEveryCoil := by
  refine ⟨fun s ht hc hs => ⟨_, freely_perm s.orders allChannels, freely (s.orders + 1) (coilsCut s).arb.waitList,
    freely_perm _ _, ?run⟩, fun c s => ⟨fun hdrive hhold => ?off, fun h => ?hold, fun w left h => ?flipper, fun kind w left h hk => ?other,
      fun w left t h ht => ?cut⟩, fun s safe ht hc hs => ?whole⟩
  case run =>
    rw [exec_ilkDebouncedOpen_up ht hc hs, listCut, emptyWaitList_eq]
    rfl
  case off =>
    refine loseSupplyAt_of_off ?_
    rw [← Bool.not_eq_true, energised_iff]
    rintro (h | ⟨kind, w, left, h⟩)
    · exact hhold h
    · exact hdrive kind w left h
  case hold =>
    rw [loseSupplyAt_of_hold h, cutFlipper_eq, rest_unmarked]
    rfl
  case flipper =>
    rw [loseSupplyAt_of_drive h, if_neg (by decide), if_pos rfl, cutFlipper_eq, rest_unmarked]
    rfl
  case other =>
    rw [loseSupplyAt_of_drive h]
    obtain rfl | rfl | rfl | ⟨rfl, ht⟩ := hk
    · exact rest_unmarked s c none
    · exact rest_unmarked s c none
    · exact rest_unmarked s c none
    · rw [if_pos rfl, cutStepChannel_of_none (show stepperOf (unmarked s c) c = none from ht)]
      exact rest_unmarked s c none
  case cut =>
    have coil : ((unmarked s c).chan c).coil = (s.chan c).coil := by rw [unmarked_chan, if_pos rfl]
    rw [loseSupplyAt_of_drive h, if_pos rfl, cutStepChannel_of_some (show stepperOf (unmarked s c) c = some t from ht), coil,
      rest_unmarked]
    rfl
  case whole =>
    obtain ⟨x, a, heq, hall⟩ := supplyLost_eq s
    obtain ⟨t, ht'⟩ : ∃ t, settle (recomputeGroups (listCut s)) = t := ⟨_, rfl⟩
    have safe' : Safe t := by
      have next := safe.ilkDebouncedOpen
      rwa [Host.Outcome.next.inj (exec_ilkDebouncedOpen_up ht hc hs), ht'] at next
    rw [ht'] at heq
    have chan (c : ChannelId) : t.chan c = (coilsCut s).chan c := by rw [heq]; exact listCut_chan s c
    have stepper (u : StepperId) : t.stepper u = (listCut s).stepper u := by rw [heq]; rfl
    have link (k : LinkId) : t.link k = (listCut s).link k := by rw [heq]; rfl
    have latch (q : Port) : t.latch q = (listCut s).latch q := by rw [heq]; rfl
    have list : t.arb.waitList = [] := by rw [heq]; rfl
    have supply : t.supply = { s.supply with
        ilkClosed := false, ilkTimer := none, state := .down, countdown := none, flipOn := false, directOn := false } := by rw [heq]; rfl
    have flip (f : FlipperId) : t.flip f = x.get f := by rw [heq]; rfl
    have off (c : ChannelId) : energised t c = false := (energised_congr (congrArg Channel.state (chan c))).trans (coilsCut_off s c).1
    have pools := pools_of_off safe' fun c => load_of_off (off c)
    refine ⟨t, (exec_ilkDebouncedOpen_up ht hc hs).trans (congrArg _ ht'), by rw [supply],
      fun c => ⟨load_of_off (off c), coilOutput_of_not_energised (off c), ?claims, ?owed⟩, pools.1, pools.2, list, by rw [supply],
      by rw [supply], by rw [supply], by rw [supply], fun u => ?due, fun c => ?state, fun u => ⟨fun hno => ?uncut,
        fun c joined hcut hone hopen => ?cutOnce⟩, fun hon f => by rw [flip]; exact hall hon f, fun q => ?down, fun q => ?dropped, fun k => ?link⟩
    case claims => rw [chan, (coilsCut_darkens s).claims, downReported_chan]
    case owed => rw [chan]; exact (coilsCut_off s c).2
    case due => rw [stepper, listCut, emptyWaitList_stepper]
    case state => rw [chan, ← listCut_chan]; exact listCut_state s c
    case uncut => rw [stepper]; exact listCut_stepper_uncut s hno
    case cutOnce => rw [stepper]; exact listCut_stepper_cut safe joined hcut hone hopen
    case down =>
      rw [latch, (listCut_coilWork s).latched q _ rfl, (coilsCut_darkens s).work.latched q _ rfl, downReported, setFlagBoth_get_self]
      rfl
    case dropped => rw [latch]; exact listCut_dropped safe q
    case link => rw [link]; exact listCut_link safe k

end Sys2Proof.Machine
end

section
/-! A lapsed port's coil work (R10, R12, R57): what is left of the list and of each channel once it is withdrawn. -/

namespace Sys2Proof.Machine

open LapsedWithdrawn (forgetClaims forgetEntries forgetClaims_chan forgetEntries_chan lapseCoilWork_eq)

/-! ### Holds left without a claim (R10) -/

/-- The channel once a hold without a claim has ended. -/
def Channel.unheld (x : Channel) : Channel :=
  if x.coil.cls = .holdable ∧ x.state = .hold ∧ x.claims = .empty then x.rested none else x

theorem Channel.unheld_of {x : Channel} (h : x.coil.cls = .holdable ∧ x.state = .hold ∧ x.claims = .empty) :
    x.unheld = x.rested none := if_pos h

theorem Channel.unheld_of_not {x : Channel} (h : ¬(x.coil.cls = .holdable ∧ x.state = .hold ∧ x.claims = .empty)) : x.unheld = x :=
  if_neg h

theorem endUnclaimedHold_chan (s : State) (c d : ChannelId) :
    (endUnclaimedHold s c).chan d = if d = c then (s.chan c).unheld else s.chan d := by
  have ends : ((s.chan c).coil.cls = .holdable && (s.chan c).state = .hold && (s.chan c).claims.isEmpty) = true ↔
      (s.chan c).coil.cls = .holdable ∧ (s.chan c).state = .hold ∧ (s.chan c).claims = .empty := by
    simp only [Bool.and_eq_true, decide_eq_true_eq, PortSet.isEmpty_iff, and_assoc]
  unfold endUnclaimedHold Channel.unheld
  by_cases h : (s.chan c).coil.cls = .holdable ∧ (s.chan c).state = .hold ∧ (s.chan c).claims = .empty
  · rw [if_pos (ends.2 h), if_pos h, endClaimedHold_chan]
  · rw [if_neg (mt ends.1 h), if_neg h]
    split
    · rename_i hd; rw [hd]
    · rfl

theorem endClaimedHold_waitList (s : State) (c : ChannelId) : (endClaimedHold s c).arb.waitList = s.arb.waitList := by
  unfold endClaimedHold
  dsimp only
  split <;> rfl

theorem endUnclaimedHold_keeps (s : State) (c : ChannelId) :
    (endUnclaimedHold s c).arb.waitList = s.arb.waitList ∧ ∀ q, (endUnclaimedHold s c).latch q = s.latch q := by
  unfold endUnclaimedHold
  split
  · exact ⟨endClaimedHold_waitList s c, endClaimedHold_latch s c⟩
  · exact ⟨rfl, fun _ => rfl⟩

theorem foldl_endUnclaimedHold_chan {l : List ChannelId} (hl : l.Nodup) (s : State) (d : ChannelId) :
    (l.foldl endUnclaimedHold s).chan d = if d ∈ l then (s.chan d).unheld else s.chan d := by
  induction l generalizing s with
  | nil => rfl
  | cons c l ih =>
    obtain ⟨hnot, hl⟩ := List.nodup_cons.1 hl
    rw [List.foldl_cons, ih hl, endUnclaimedHold_chan]
    by_cases hd : d = c
    · subst hd
      rw [if_neg hnot, if_pos rfl, if_pos List.mem_cons_self]
    · simp only [List.mem_cons, hd, false_or, if_false]

theorem foldl_endUnclaimedHold_keeps (l : List ChannelId) (s : State) :
    (l.foldl endUnclaimedHold s).arb.waitList = s.arb.waitList ∧ ∀ q, (l.foldl endUnclaimedHold s).latch q = s.latch q := by
  induction l generalizing s with
  | nil => exact ⟨rfl, fun _ => rfl⟩
  | cons c l ih =>
    obtain ⟨hlist, hlatch⟩ := endUnclaimedHold_keeps s c
    obtain ⟨hlist', hlatch'⟩ := ih (endUnclaimedHold s c)
    exact ⟨hlist'.trans hlist, fun q => (hlatch' q).trans (hlatch q)⟩

/-! ### Several entries removed (R57, R59) -/

/-- The list without the entries of the channels that `l` has entries for. -/
def withoutEntries (s : State) (l : List Entry) : State :=
  s.setWaitList (s.arb.waitList.filter fun x => decide (∀ e ∈ l, x.channel ≠ e.channel))

theorem withoutEntries_waitList (s : State) (l : List Entry) : (withoutEntries s l).arb.waitList =
    s.arb.waitList.filter fun x => decide (∀ e ∈ l, x.channel ≠ e.channel) := rfl

/-- Whatever the removals add stands behind the entries that stay. -/
theorem foldl_removeEntry_extends (l : List Entry) (s : State) : Extends (withoutEntries s l) (l.foldl removeEntry s) := by
  induction l generalizing s with
  | nil =>
    have all : withoutEntries s [] = s := by
      unfold withoutEntries
      rw [List.filter_eq_self.2 (by simp)]
      rfl
    rw [all]
    exact .refl s
  | cons e l ih =>
    have first := Extends.removeEntry s e
    obtain ⟨added, hadded, hown⟩ := first.added
    have rest : Extends (withoutEntries s (e :: l)) (withoutEntries (removeEntry s e) l) := by
      refine ⟨fun c => first.claims c, added.filter fun x => decide (∀ o ∈ l, x.channel ≠ o.channel), ?_, fun x hx =>
        (hown x (List.mem_filter.1 hx).1).of_claims fun _ => rfl⟩
      change (removeEntry s e).arb.waitList.filter _ = s.arb.waitList.filter _ ++ _
      rw [hadded, List.filter_append]
      congr 1
      refine (List.filter_filter ..).trans (List.filter_congr fun x _ => ?_)
      simp only [List.forall_mem_cons, Bool.decide_and, ne_eq, decide_not, Bool.and_comm]
    exact rest.trans (ih _)

theorem foldl_removeEntry_dropped (l : List Entry) (s : State) (q : Port) :
    ((l.foldl removeEntry s).latch q).get FlagName.pulseDropped.bit = (s.latch q).get FlagName.pulseDropped.bit := by
  induction l generalizing s with
  | nil => rfl
  | cons e l ih => exact (ih _).trans (removeEntry_dropped s e q)

/-! ### Orphans (R57) -/

theorem Entry.orphan_iff (e : Entry) : e.orphan = true ↔ ¬(e.work ≠ .pulse .empty ∧ e.work ≠ .pullIn .empty) := by
  obtain ⟨c, work, width, enteredAt, deadline, passed⟩ := e
  cases work <;> simp [Entry.orphan, PortSet.isEmpty_iff]

/-- Where no channel has two entries, the entries of other channels than the orphans' are those that are no orphans. -/
theorem filter_of_orphans {l : List Entry} (hl : (l.map Entry.channel).Nodup) :
    l.filter (fun x => decide (∀ e ∈ l.filter Entry.orphan, x.channel ≠ e.channel)) =
      l.filter fun e => e.work ≠ .pulse .empty ∧ e.work ≠ .pullIn .empty := by
  refine List.filter_congr fun x hx => ?_
  rw [decide_eq_decide]
  refine ⟨fun h => ?_, fun h e he hc => ?_⟩
  · by_contra hno
    exact h x (List.mem_filter.2 ⟨hx, (Entry.orphan_iff x).2 hno⟩) rfl
  · obtain ⟨he, horphan⟩ := List.mem_filter.1 he
    obtain rfl : x = e := List.inj_on_of_nodup_map hl hx he hc
    exact (Entry.orphan_iff x).1 horphan h

/-! ### The coil work of a lapse -/

/-- The claims and entries have forgotten the port, and the holds left without a claim have ended. -/
def holdsEnded (s : State) (p : Port) : State := allChannels.foldl endUnclaimedHold (forgetEntries (forgetClaims s p) p)

theorem lapseCoilWork_eq_removals (s : State) (p : Port) :
    lapseCoilWork s p = ((holdsEnded s p).arb.waitList.filter Entry.orphan).foldl removeEntry (holdsEnded s p) := by
  simp only [lapseCoilWork_eq, holdsEnded]

theorem holdsEnded_chan (s : State) (p : Port) (c : ChannelId) : (holdsEnded s p).chan c = ((s.chan c).forget p).unheld := by
  rw [holdsEnded, foldl_endUnclaimedHold_chan (l := allChannels) (List.nodup_finRange 48), if_pos (mem_allChannels c), forgetEntries_chan,
    forgetClaims_chan]

theorem foldl_forget_latch (p : Port) (l : List ChannelId) (s : State) (q : Port) :
    (l.foldl (fun s c => s.setChan c ((s.chan c).forget p)) s).latch q = s.latch q := by
  induction l generalizing s with
  | nil => rfl
  | cons c l ih => exact ih (s.setChan c ((s.chan c).forget p))

theorem forgetEntries_waitList (s : State) (p : Port) : (forgetEntries s p).arb.waitList = s.arb.waitList.map fun e => e.forget p := rfl

theorem forgetEntries_latch (s : State) (p q : Port) : (forgetEntries s p).latch q = s.latch q := rfl

theorem holdsEnded_waitList (s : State) (p : Port) : (holdsEnded s p).arb.waitList = s.arb.waitList.map fun e => e.forget p := by
  rw [holdsEnded, (foldl_endUnclaimedHold_keeps allChannels _).1, forgetEntries_waitList, forgetClaims,
    (Asleep.foldl_forget_kept p allChannels s).2]

theorem holdsEnded_latch (s : State) (p q : Port) : (holdsEnded s p).latch q = s.latch q := by
  rw [holdsEnded, (foldl_endUnclaimedHold_keeps allChannels _).2 q, forgetEntries_latch, forgetClaims, foldl_forget_latch]

/-- Every entry but the orphans stays in its place, and what is added stands behind them. -/
theorem lapseCoilWork_waitList (p : Port) (u : State) (h : (u.arb.waitList.map Entry.channel).Nodup) :
    let kept := (u.arb.waitList.map fun e => e.forget p).filter fun e => e.work ≠ .pulse .empty ∧ e.work ≠ .pullIn .empty
    ∃ added, (lapseCoilWork u p).arb.waitList = kept ++ added ∧ ∀ e ∈ added, OwnEntry (lapseCoilWork u p) e := by
  intro kept
  obtain ⟨added, hadded, hown⟩ := (foldl_removeEntry_extends ((holdsEnded u p).arb.waitList.filter Entry.orphan) (holdsEnded u p)).added
  rw [← lapseCoilWork_eq_removals] at hadded hown
  rw [withoutEntries_waitList, holdsEnded_waitList] at hadded
  refine ⟨added, hadded.trans (congrArg (· ++ added) ?_), hown⟩
  have once : ((u.arb.waitList.map fun e => e.forget p).map Entry.channel).Nodup := by rwa [List.map_map]
  exact filter_of_orphans once

theorem lapseCoilWork_kept (p : Port) (u : State) (c : ChannelId) : Kept c (holdsEnded u p) (lapseCoilWork u p) := by
  rw [lapseCoilWork_eq_removals]
  exact .foldl (fun s e => .removeEntry s e) _ _

theorem lapseCoilWork_served (p : Port) (u : State) (c : ChannelId) : Served c (holdsEnded u p) (lapseCoilWork u p) := by
  rw [lapseCoilWork_eq_removals]
  exact .foldl (fun s e => .removeEntry s e) _ _

theorem lapseCoilWork_dropped (p : Port) (u : State) (q : Port) :
    ((lapseCoilWork u p).latch q).get FlagName.pulseDropped.bit = (u.latch q).get FlagName.pulseDropped.bit := by
  rw [lapseCoilWork_eq_removals, foldl_removeEntry_dropped, holdsEnded_latch]

theorem Channel.unheld_claims (x : Channel) : x.unheld.claims = x.claims := by
  unfold Channel.unheld
  split <;> rfl

theorem Channel.unheld_owed (x : Channel) : x.unheld.owed = x.owed := by
  unfold Channel.unheld
  split <;> rfl

/-- A channel after the coil work of a lapse. -/
theorem lapseCoilWork_chan (p : Port) (u : State) (c : ChannelId) :
    let v := lapseCoilWork u p
    let ends := (u.chan c).coil.cls = .holdable ∧ (u.chan c).state = .hold ∧ (u.chan c).claims.remove p = .empty
    (v.chan c).claims = (u.chan c).claims.remove p ∧
      ((v.chan c).claims = .empty → (v.chan c).owed = false) ∧
      (ends → (v.chan c).state = (if (u.chan c).coil.gap = 0 then .idle else .recover (u.chan c).coil.gap none) ∧
        (v.chan c).load = 0 ∧ coilOutput v c = .off) ∧
      (¬ends → (v.chan c).state = (u.chan c).state) := by
  intro v ends
  have held := holdsEnded_chan u p c
  have served := lapseCoilWork_served p u c
  have state := (lapseCoilWork_kept p u c).disabled.1
  have claims : (v.chan c).claims = (u.chan c).claims.remove p := by
    rw [served.claims, held, Channel.unheld_claims]
    rfl
  rw [held] at state
  refine ⟨claims, fun hempty => served.owed ?_ ?_, fun hends => ?_, fun hno => ?_⟩
  · rw [← served.claims, hempty]
  · rw [claims] at hempty
    rw [held, Channel.unheld_owed]
    simp [Channel.forget, hempty, PortSet.isEmpty_iff]
  · have rested : (v.chan c).state = if (u.chan c).coil.gap = 0 then .idle else .recover (u.chan c).coil.gap none := by
      rw [state, Channel.unheld_of (x := (u.chan c).forget p) hends]
      rfl
    have off : energised v c = false := by
      rw [energised, rested]
      split_ifs <;> rfl
    exact ⟨rested, load_of_off off, coilOutput_of_not_energised off⟩
  · rw [state, Channel.unheld_of_not (x := (u.chan c).forget p) hno]
    rfl

end Sys2Proof.Machine
end

section
/-! The lapse of a port (R12, R29, R57, R125, R135, R151, R159), settled. -/

namespace Sys2Proof.Machine

open LapsedWithdrawn (forgetClaims forgetEntries forgotten_coilWork forgotten_claims lapseCoilWork_of_forgotten port_of_coilWork)

/-! ### No work on the account of a port that is not LIVE -/

/-- The port is not LIVE, and no claim set and no entry names it. -/
structure Forgotten (p : Port) (s : State) : Prop where
  dead : (s.port p).live = false
  claims : ∀ c, (s.chan c).claims.has p = false
  entries : ¬EntryNames s p

namespace Forgotten

variable {p : Port} {s t : State}

theorem coilWork (h : Forgotten p s) (w : CoilWork s t) : Forgotten p t where
  dead := by rw [port_of_coilWork w, h.dead]
  claims c := by
    rw [← Bool.not_eq_true]
    intro hc
    obtain hc | hl := w.claimed c p hc
    · rw [h.claims c] at hc; cases hc
    · rw [h.dead] at hl; cases hl
  entries he := by
    obtain he | ⟨c, hc⟩ | hl := w.entered p he
    · exact h.entries he
    · rw [h.claims c] at hc; cases hc
    · rw [h.dead] at hl; cases hl

theorem origins (h : Forgotten p s) (w : CoilWork s t) (hs : ¬TrainNames s p) : ¬TrainNames t p := fun ht => by
  obtain hs' | hl := w.origins p ht
  · exact hs hs'
  · rw [h.dead] at hl; cases hl

theorem of_same (h : Forgotten p s) (hp : (t.port p).live = (s.port p).live) (hc : t.channels = s.channels)
    (hl : t.arb.waitList = s.arb.waitList) : Forgotten p t where
  dead := hp.trans h.dead
  claims c := by rw [chan_of_channels hc]; exact h.claims c
  entries := by
    unfold EntryNames
    rw [hl]
    exact h.entries

/-- The first part of a lapse's coil work forgets the port. -/
theorem forgotten (h : (s.port p).live = false) : Forgotten p (forgetEntries (forgetClaims s p) p) where
  dead := by rw [port_of_coilWork (forgotten_coilWork s p), h]
  claims c := by rw [forgotten_claims, PortSet.has_remove_self]
  entries := by
    rintro ⟨e, he, hp⟩
    rw [forgetEntries_waitList] at he
    obtain ⟨o, -, rfl⟩ := List.mem_map.1 he
    rw [CoilWork.ports_forget, PortSet.has_remove_self] at hp
    cases hp

end Forgotten

theorem forgetOrigins_stepper (s : State) (p : Port) (u : StepperId) : (forgetOrigins s p).stepper u = (s.stepper u).forget p :=
  Table.get_map _ _ _

theorem forgetOrigins_unnamed (s : State) (p : Port) : ¬TrainNames (forgetOrigins s p) p := by
  rintro ⟨u, hu⟩
  rw [forgetOrigins_stepper, CoilWork.told_forget, PortSet.has_remove_self] at hu
  cases hu

/-! ### The groups recomputed, and the lapse from there -/

theorem recomputeGroups_coilWork (s : State) : CoilWork (s.setSupply { s.supply with
    flipOn := s.isUp && !s.supply.flipClaims.isEmpty
    directOn := s.isUp && !s.supply.directClaims.isEmpty }) (recomputeGroups s) := by
  rw [recomputeGroups_eq]
  dsimp only
  split
  · exact .refl _
  · exact .foldl CoilWork.flipperTest _ _

section
variable (v : State) (p : Port)

/-- The port's layer, its queue and its claims on the groups are withdrawn, and the enables are written; no flipper is tested yet. -/
def accountClosed : State :=
  let w := withoutGroupClaims (lapseQueue (lapseLayer v p) p) p
  w.setSupply { w.supply with
    flipOn := w.isUp && !w.supply.flipClaims.isEmpty
    directOn := w.isUp && !w.supply.directClaims.isEmpty }

/-- The flippers have been tested. -/
def groupsLapsed : State := lapseGroups (lapseQueue (lapseLayer v p) p) p

/-- The port has been told and the attempts have been made. -/
def lapsed : State := settle (setFlag (groupsLapsed v p) p .lapsed none)

theorem groupsLapsed_coilWork : CoilWork (accountClosed v p) (groupsLapsed v p) := recomputeGroups_coilWork _

theorem lapsed_coilWork : CoilWork (setFlag (groupsLapsed v p) p .lapsed none) (lapsed v p) := .settle _

theorem lapsed_ports : (lapsed v p).ports = v.ports := (lapsed_coilWork v p).ports.trans (groupsLapsed_coilWork v p).ports

theorem lapsed_lamp : (lapsed v p).lamp = (lapseLayer v p).lamp := (lapsed_coilWork v p).lamp.trans (groupsLapsed_coilWork v p).lamp

theorem lapsed_sw : (lapsed v p).sw = (lapseQueue v p).sw := (lapsed_coilWork v p).sw.trans (groupsLapsed_coilWork v p).sw

theorem lapsed_supply : (lapsed v p).supply = (accountClosed v p).supply :=
  (lapsed_coilWork v p).supply.trans (groupsLapsed_coilWork v p).supply

theorem groupsLapsed_latch (q : Port) : ((groupsLapsed v p).latch q).get FlagName.lapsed.bit = (v.latch q).get FlagName.lapsed.bit :=
  (groupsLapsed_coilWork v p).latched q _ rfl

theorem lapsed_latch_self : ((lapsed v p).latch p).get FlagName.lapsed.bit = raiseFlag ((v.latch p).get FlagName.lapsed.bit) none none := by
  rw [(lapsed_coilWork v p).latched p _ rfl, setFlag, setFlagReason_get_self, groupsLapsed_latch]

theorem lapsed_latch_other :
    ((lapsed v p).latch (otherPort p)).get FlagName.lapsed.bit = (v.latch (otherPort p)).get FlagName.lapsed.bit := by
  rw [(lapsed_coilWork v p).latched _ _ rfl, setFlag_latch_other, groupsLapsed_latch]

variable {v p}

/-- Once claims, entries and origins name the port no more, none does after the lapse. -/
theorem lapsed_forgotten (h : Forgotten p v) (hv : ¬TrainNames v p) : Forgotten p (lapsed v p) ∧ ¬TrainNames (lapsed v p) p := by
  have account : Forgotten p (accountClosed v p) := h.of_same rfl rfl rfl
  have groups := account.coilWork (groupsLapsed_coilWork v p)
  have unnamed := account.origins (groupsLapsed_coilWork v p) hv
  have told : Forgotten p (setFlag (groupsLapsed v p) p .lapsed none) := groups.of_same rfl rfl rfl
  exact ⟨told.coilWork (lapsed_coilWork v p), told.origins (lapsed_coilWork v p) unnamed⟩

end

theorem portLapsed_dead (p : Port) (s : State) : ((portLapsed s p).port p).live = false := by rw [portLapsed, State.port_setPort_self]

/-- The lapse starts from coil work that withdraws the port from claims, entries and origins. -/
theorem lapse_eq_lapsed (p : Port) (s : State) :
    ∃ v, lapse p s = lapsed v p ∧ CoilWork (portLapsed s p) v ∧ Forgotten p v ∧ ¬TrainNames v p :=
  ⟨forgetOrigins (lapseCoilWork (portLapsed s p) p) p, lapse_eq p s, (CoilWork.lapseCoilWork _ p).trans (forgetOrigins_coilWork _ p),
    ((Forgotten.forgotten (portLapsed_dead p s)).coilWork (lapseCoilWork_of_forgotten (portLapsed s p) p)).coilWork
      (forgetOrigins_coilWork _ p), forgetOrigins_unnamed _ p⟩

/-! ### The origins of a stepper (R125) -/

theorem not_told_running {run : Train} {next : Option Train} {p : Port} (h : ((StepState.running run next).told).has p = false) :
    run.origin.ports.has p = false ∧ ∀ y, next = some y → y.origin.ports.has p = false := by
  cases next with
  | none => exact ⟨h, fun _ hy => by cases hy⟩
  | some y =>
    rw [told_running, Bool.or_eq_false_iff] at h
    exact ⟨h.1, fun z hz => by cases hz; exact h.2⟩

theorem Stepper.forget_of_running (p : Port) {x : Stepper} {run : Train} {next : Option Train} (h : x.state = .running run next) :
    x.forget p = { x with state := .running (run.forget p) (next.map fun y => y.forget p) } := by
  simp only [Stepper.forget, h]

theorem Stepper.forget_of_homing (p : Port) {x : Stepper} {origin : PortSet} {steps : Nat} (h : x.state = .homing origin steps) :
    x.forget p = { x with state := .homing (origin.remove p) steps } := by
  simp only [Stepper.forget, h]

theorem Stepper.forget_of_still (p : Port) {x : Stepper} (h : x.state = .idle ∨ x.state = .faulted) : x.forget p = x := by
  obtain h | h := h
  · simp only [Stepper.forget, h]
    rw [← h]
  · simp only [Stepper.forget, h]
    rw [← h]

/-! ### The event -/

theorem livenessExpiry_due {p : Port} {s : State} (hlive : (s.port p).live = true) (hdue : (s.port p).liveness = some 0) :
    livenessExpiry p s = lapse p s := by
  simp [livenessExpiry, due, hlive, hdue]

theorem livenessExpiry_early {p : Port} {s : State} (h : (s.port p).live = false ∨ (s.port p).liveness ≠ some 0) :
    livenessExpiry p s = s := by
  refine if_neg ?_
  simp only [due, Bool.and_eq_true, decide_eq_true_eq, not_and_or, Bool.not_eq_true]
  exact h

/-- Settles O23: the withdrawn coil work by its own lemmas, and the lapse as coil work from a state in which nothing names the port. -/
theorem lapseWithdrawsThePortsWork : Obligations.LapseWithdrawsThePortsWork := by
  refine ⟨fun p u hu => ⟨lapseCoilWork_waitList p u hu, lapseCoilWork_chan p u, lapseCoilWork_dropped p u⟩, fun p u => lapseGroups_eq u p,
    fun p x => ⟨fun run h => Stepper.forget_of_running p h, fun run next h => Stepper.forget_of_running p h,
      fun origin steps h => Stepper.forget_of_homing p h, Stepper.forget_of_still p⟩,
    fun p s => ⟨fun hlive hdue => ?lapses, fun h => congrArg Host.Outcome.next (livenessExpiry_early h)⟩⟩
  have run : exec (.livenessExpiry p) s = .next (lapse p s) := congrArg Host.Outcome.next (livenessExpiry_due hlive hdue)
  obtain ⟨v, hv, work, forgot, unnamed⟩ := lapse_eq_lapsed p s
  obtain ⟨forgotten, unnamed⟩ := lapsed_forgotten forgot unnamed
  have told (u : StepperId) : ((lapsed v p).stepper u).state.told.has p = false := by
    rw [← Bool.not_eq_true]
    exact fun h => unnamed ⟨u, h⟩
  have port (q : Port) : (lapsed v p).port q = (portLapsed s p).port q :=
    congrArg (PerPort.get · q) ((lapsed_ports v p).trans work.ports)
  have supply : v.supply = s.supply := work.supply
  have layer : (lapsed v p).lamp = (lapseLayer s p).lamp := by
    rw [lapsed_lamp, lapseLayer_eq, lapseLayer_eq, setLayer, setLayer, show v.lamp = s.lamp from work.lamp]
    rfl
  have queue : (lapsed v p).sw = (lapseQueue s p).sw := by
    rw [lapsed_sw, lapseQueue, lapseQueue, setQueue, setQueue, show v.sw = s.sw from work.sw]
    rfl
  refine ⟨run, lapsed v p, run.trans (congrArg _ hv), ?self, ?other, forgotten.claims, fun e he origin hw => ?entry,
    fun u train next h => ?running, fun u origin steps h => ?homing, ?flipClaims, ?directClaims, ?layer, ?otherLayer, ?queue, ?otherQueue,
    (lapsed_latch_self v p).trans ?flag, (lapsed_latch_other v p).trans ?otherFlag⟩
  case self => rw [port, portLapsed, State.port_setPort_self]
  case other => rw [port, portLapsed, State.port_setPort_ne _ _ _ _ (otherPort_ne p)]
  case entry =>
    rw [← Bool.not_eq_true]
    refine fun hp => forgotten.entries ⟨e, he, ?_⟩
    obtain hw | hw | ⟨k, hw⟩ := hw <;> rw [hw] <;> exact hp
  case running =>
    have free := told u
    rw [h] at free
    exact not_told_running free
  case homing =>
    have free := told u
    rwa [h] at free
  case flipClaims => rw [lapsed_supply, ← supply]; rfl
  case directClaims => rw [lapsed_supply, ← supply]; rfl
  case layer => rw [layer, lapseLayer_eq, setLayer_layer_self]; rfl
  case otherLayer => rw [layer]; cases p <;> rfl
  case queue => rw [queue, lapseQueue, setQueue_get_self]
  case otherQueue => rw [queue, lapseQueue, setQueue_get_other]
  case flag => rw [work.latched p _ rfl]; rfl
  case otherFlag => exact work.latched _ _ rfl

end Sys2Proof.Machine
end
